-- ==== Sys2Proof/Word.lean ====
section
/-! DEFINITION. The block's word and byte. -/

namespace Sys2Proof

/-- A register or data word: every register of the block is 32 bits wide (R7). -/
abbrev Word := BitVec 32

/-- One byte, a byte lane of a data word (R57). -/
abbrev Byte := BitVec 8

end Sys2Proof
end

