-- ==== Sys2Proof/Syntax.lean ====
section
/-! DEFINITION. The steps of the block as syntax: the logical registers, the infoframe records that
travel beside a descriptor, and one constructor of `Instr` per row of spec/opcode_table.json. -/

namespace Sys2Proof

/-- The logical registers of R73. -/
inductive LReg where
  | cecCntrl1 | cecCntrl2 | cecCntrl3 | cecCntrl4 | cecCntrl5
  | cecTxData | cecRxData
  | cecCpuStatus | cecCpuSet | cecCpuClear
  | cecCpuMaskStatus | cecCpuMaskSet | cecCpuMaskClear
  | ramPacketConfig | ramPacketStatus | packetRam
  deriving DecidableEq, Repr

/-- The AVI record, field by field as R148 lists it. -/
structure AviRecord where
  y : BitVec 2
  s : BitVec 2
  c : BitVec 2
  m : BitVec 2
  r : BitVec 4
  itc : BitVec 1
  ec : BitVec 3
  q : BitVec 2
  sc : BitVec 2
  vic : BitVec 8
  yq : BitVec 2
  cn : BitVec 2
  pr : BitVec 4
  top : BitVec 16
  bottom : BitVec 16
  left : BitVec 16
  right : BitVec 16
  deriving DecidableEq, Repr

/-- The SPD record (R150): two byte strings of any length and the source-device code. -/
structure SpdRecord where
  vendor : List Byte
  product : List Byte
  sdi : Byte
  deriving DecidableEq, Repr

/-- The Audio record (R152). `ch` is the channel count, 0 to 8 in a well-formed record. -/
structure AudioRecord where
  ch : Nat
  ct : BitVec 4
  ss : BitVec 2
  sf : BitVec 3
  cxt : BitVec 5
  ca : BitVec 8
  lsv : BitVec 4
  dmInh : BitVec 1
  lfepbl : BitVec 2
  deriving DecidableEq, Repr

/-- An infoframe record of any kind, as it travels beside a `PKT_WRITE` (R168). -/
inductive Record where
  | avi (r : AviRecord)
  | spd (r : SpdRecord)
  | audio (r : AudioRecord)
  deriving DecidableEq, Repr

/-- One constructor per row of the opcode table, with its operands: those of the descriptor and
those that travel beside it (R77). A message's `len` and a frame's `n` are the lengths of their lists. -/
inductive Instr where
  | rdCecCntrl1
  | wrCecCntrl1 (v : Word)
  | rdCecCntrl2
  | wrCecCntrl2 (v : Word)
  | rdCecCntrl3
  | wrCecCntrl3 (v : Word)
  | rdCecCntrl4
  | wrCecCntrl4 (v : Word)
  | rdCecCntrl5
  | wrCecCntrl5 (v : Word)
  | rdCecTxData (w : BitVec 10)
  | wrCecTxData (w : BitVec 10) (v : Word)
  | rdCecRxData (w : BitVec 10)
  | rdCecCpuStatus
  | wrCecCpuSet (v : Word)
  | wrCecCpuClear (v : Word)
  | rdCecCpuMaskStatus
  | wrCecCpuMaskSet (v : Word)
  | wrCecCpuMaskClear (v : Word)
  | rdRamPacketConfig
  | wrRamPacketConfig (v : Word)
  | rdRamPacketStatus
  | wrPacketRam (w : BitVec 10) (v : Word)
  | cecInit
  | cecEnable
  | cecDisable
  | cecSetLogAddr (la : BitVec 4)
  | cecTransmit (msg : List Byte)
  | cecIrqHard
  | cecIrqThread
  | pktRamEnable
  | pktRamDisable
  | pktStop (ty : Byte)
  | pktWrite (ty : Byte) (rec : Record)
  | ifPackAvi (r : AviRecord)
  | ifPackSpd (r : SpdRecord)
  | ifPackAudio (r : AudioRecord)
  | evTxAttempt (acked : Bool)
  | evRxFrame (frame : List Byte)
  | evCecSpurious
  | evPktStatus (s : BitVec 5) (b : Bool)
  deriving DecidableEq, Repr

end Sys2Proof
end

