-- ==== Sys2Proof/Config.lean ====
section
/-! DEFINITION. What is fixed for an instance (R6): the numbers every instance shares, the variant
bound to one instance, and the free values the spec leaves open. -/

namespace Sys2Proof

/-- The two hardware generations of R2. -/
inductive Gen where
  | legacy
  | current
  deriving DecidableEq, Repr

/-- What `PKT_WRITE` does when its Stop times out (R6, R168, 90_conflicts.md C3). -/
inductive OnStopTimeout where
  | abort
  | proceed
  deriving DecidableEq, Repr

/-- What the hard handler does at its step 2 where it runs with the line low and the status bit it read is 1, a point
on which R142 and R185 part (log 23): it goes on, as R142's step 2 tests the bit alone; or it returns `IRQ_NONE`, as
R185 says of a handler that runs with the line low. -/
inductive OnLineLow where
  | goOn
  | irqNone
  deriving DecidableEq, Repr

/-- The variant bound to one instance (R2, R6): every parameter the spec leaves to the instance. It is
plain data held in the state, so that a statement about every state is one about every variant; no
step changes it (log 7). -/
structure Variant where
  /-- `GEN` (R2). -/
  gen : Gen
  /-- `CEC_IRQ_BIT`: 6 on LEGACY, open on CURRENT (R6). -/
  irqBit : Fin 32
  /-- `CEC_INPUT_CLOCK_HZ`, open per generation (R6, R81). -/
  inputClockHz : Nat
  /-- `PKT_WAIT_BOUND`: `some n` expires exactly at the n-th failed poll; `none` leaves it symbolic,
  and each wait draws its own number of polls (R164, log 13). -/
  waitBound : Option Nat
  /-- `WRITE_ON_STOP_TIMEOUT` (R168). -/
  onStopTimeout : OnStopTimeout
  /-- `ALLOW_SPURIOUS_CEC_IRQ` (R131, R135). -/
  allowSpurious : Bool
  /-- The reading of R142 and R185 where they part: the model's own parameter (DESIGN CHOICE, log 23). -/
  onLineLow : OnLineLow
  /-- `CA_UNKNOWN` (R158). -/
  caUnknown : Byte
  /-- The SPD record, constant per device (R150, R158 b). -/
  spd : SpdRecord
  /-- `REGION_BASE(combined)` of LEGACY (R53). -/
  combinedBase : Nat
  /-- `REGION_BASE(cec)` of CURRENT (R53). -/
  cecBase : Nat
  /-- `REGION_BASE(intr2)` of CURRENT (R53). -/
  intr2Base : Nat
  /-- `REGION_BASE(hdmi)` of CURRENT (R53). -/
  hdmiBase : Nat
  /-- `REGION_BASE(packet)` of CURRENT (R53). -/
  packetBase : Nat
  /-- `REG_OFFSET(CURRENT, ·)`, open (R55): the listed registers and their byte offsets. -/
  currentOffsets : List (LReg × Nat)
  deriving DecidableEq, Repr

/-- The variant of `State.reset`: LEGACY with the values the spec adopts for it, the SPD record
of R150, and the clock of spec/95_test_vectors.md. DESIGN CHOICE where the spec leaves the parameter open (log 7). -/
def Variant.legacy : Variant where
  gen := .legacy
  irqBit := 6
  inputClockHz := 27000000
  waitBound := some 100
  onStopTimeout := .abort
  allowSpurious := true
  onLineLow := .goOn
  caUnknown := 0
  spd :=
    { vendor := [0x42, 0x72, 0x6F, 0x61, 0x64, 0x63, 0x6F, 0x6D]
      product := [0x56, 0x69, 0x64, 0x65, 0x6F, 0x63, 0x6F, 0x72, 0x65]
      sdi := 9 }
  combinedBase := 0
  cecBase := 0
  intr2Base := 0
  hdmiBase := 0
  packetBase := 0
  currentOffsets := []

namespace Config

/-- `CEC_CLOCK_HZ` (R6). -/
def cecClockHz : Nat := 40000

/-- `CEC_MAX_LEN` (R6): the largest CEC message in bytes. -/
def cecMaxLen : Nat := 16

/-- `CEC_TX_ATTEMPTS` (R6, R121). -/
def cecTxAttempts : Nat := 2

/-- `NUM_SLOTS` (R6), the spec's adopted value (log 8). -/
def numSlots : Nat := 16

/-- `PKT_STRIDE` in bytes (R6), the spec's adopted value (log 8). -/
def pktStride : Nat := 36

/-- Words of packet RAM in one slot (R39). -/
def slotWords : Nat := 9

/-- Words of packet RAM, `NUM_SLOTS * PKT_STRIDE / 4` (R39). -/
def packetRamWords : Nat := 144

/-- The free values of the spec's `draw` (R9): the n-th value drawn. It has no body, so a proof holds
for every value. The state's `draws` counts how many have been taken (log 6). -/
opaque drawWord : Nat → Word

/-- The number of polls a bounded wait makes when `PKT_WAIT_BOUND` is symbolic (R164): drawn afresh for
each wait (log 13). -/
opaque drawPolls : Nat → Nat

/-- A word the scheduler emits for a torn slot (R163: 'unspecified (any 36 bytes)'), by the state's
draw counter, the slot and the word in it (log 19). -/
opaque tornWord : Nat → Nat → Nat → Word

end Config

end Sys2Proof
end

