-- ==== Sys2Proof/WellFormed.lean ====
section
/-! DEFINITION. What makes an instruction well-formed: the ranges of R73, R76, R77 and R152 that the
types of the operands do not already hold. -/

namespace Sys2Proof

/-- R152: the channel count is 0 to 8. -/
def AudioRecord.wf (r : AudioRecord) : Bool := r.ch ≤ 8

/-- A record is well-formed when its kind's check holds; every AVI record is, and every SPD record, whose
strings may have any length (R150). -/
def Record.wf : Record → Bool
  | .avi _ => true
  | .spd _ => true
  | .audio r => r.wf

/-- Whether an instruction has a descriptor and operands the spec admits. -/
def Instr.wf : Instr → Bool
  | .rdCecTxData w => w.toNat < 4
  | .wrCecTxData w _ => w.toNat < 4
  | .rdCecRxData w => w.toNat < 4
  | .wrPacketRam w _ => w.toNat < Config.packetRamWords
  | .cecTransmit msg => msg.length ≤ 255
  | .pktWrite _ rec => rec.wf
  | .ifPackAudio r => r.wf
  | .evRxFrame frame => 1 ≤ frame.length && frame.length ≤ Config.cecMaxLen
  | .evPktStatus s _ => s.toNat < Config.numSlots
  | .rdCecCntrl1 | .wrCecCntrl1 _ | .rdCecCntrl2 | .wrCecCntrl2 _ | .rdCecCntrl3 | .wrCecCntrl3 _
  | .rdCecCntrl4 | .wrCecCntrl4 _ | .rdCecCntrl5 | .wrCecCntrl5 _ | .rdCecCpuStatus
  | .wrCecCpuSet _ | .wrCecCpuClear _ | .rdCecCpuMaskStatus | .wrCecCpuMaskSet _
  | .wrCecCpuMaskClear _ | .rdRamPacketConfig | .wrRamPacketConfig _ | .rdRamPacketStatus
  | .cecInit | .cecEnable | .cecDisable | .cecSetLogAddr _ | .cecIrqHard | .cecIrqThread
  | .pktRamEnable | .pktRamDisable | .pktStop _ | .ifPackAvi _ | .ifPackSpd _
  | .evTxAttempt _ | .evCecSpurious => true

end Sys2Proof
end

