-- ==== Sys2Proof/Decode.lean ====
section
/-! DEFINITION. The step descriptor of R69 to R77: the decoder, total on every 32-bit word and every
operand bytes and rejecting by name (R84, R88), and after it the encoder from the same tables. The bytes
that travel beside a descriptor have no layout in the spec (R77): theirs is the model's (log 2). -/

namespace Sys2Proof

/-- Why a descriptor, or the bytes beside it, spell no step. The first eight are the cases of R84. -/
inductive Reject where
  /-- R84 (a): `LREG` is reserved. -/
  | reservedRegister
  /-- R84 (b): `d[23:10]` is not zero. -/
  | mustBeZero
  /-- R84 (c): `WIDX` is outside the register's range. -/
  | indexRange
  /-- R84 (d): a read of a write-only register or a write of a read-only one. -/
  | wrongDirection
  /-- R84 (e): `OPC` is reserved. -/
  | reservedOperation
  /-- R84 (e): an `OPND` bit the operation does not use is 1. -/
  | operandBits
  /-- R84 (f): `EVC` is reserved. -/
  | reservedEvent
  /-- R84 (f): an `EOPND` bit the event does not use is 1, or the slot does not exist. -/
  | eventBits
  /-- Fewer bytes beside the descriptor than its operands need (log 2). -/
  | shortOperand
  /-- Bytes beside the descriptor that no operand takes (log 2). -/
  | trailingOperand
  /-- A record beside the descriptor with a field outside its type (R152, log 2). -/
  | badRecord
  deriving DecidableEq, Repr

/-- R73: the number of a logical register. -/
def LReg.num : LReg → BitVec 6
  | .cecCntrl1 => 0x01
  | .cecCntrl2 => 0x02
  | .cecCntrl3 => 0x03
  | .cecCntrl4 => 0x04
  | .cecCntrl5 => 0x05
  | .cecTxData => 0x06
  | .cecRxData => 0x07
  | .cecCpuStatus => 0x08
  | .cecCpuSet => 0x09
  | .cecCpuClear => 0x0A
  | .cecCpuMaskStatus => 0x0B
  | .cecCpuMaskSet => 0x0C
  | .cecCpuMaskClear => 0x0D
  | .ramPacketConfig => 0x10
  | .ramPacketStatus => 0x11
  | .packetRam => 0x12

/-- Every logical register, in the order of R73. -/
def LReg.all : List LReg :=
  [.cecCntrl1, .cecCntrl2, .cecCntrl3, .cecCntrl4, .cecCntrl5, .cecTxData, .cecRxData,
   .cecCpuStatus, .cecCpuSet, .cecCpuClear, .cecCpuMaskStatus, .cecCpuMaskSet, .cecCpuMaskClear,
   .ramPacketConfig, .ramPacketStatus, .packetRam]

/-- The logical register of a number; none where R73 reserves it. -/
def LReg.ofNum (n : BitVec 6) : Option LReg := LReg.all.find? (fun r => r.num == n)

/-- R73: the largest word index of a register; 0 for a scalar. -/
def LReg.lastIndex : LReg → Nat
  | .cecTxData => 3
  | .cecRxData => 3
  | .packetRam => Config.packetRamWords - 1
  | .cecCntrl1 | .cecCntrl2 | .cecCntrl3 | .cecCntrl4 | .cecCntrl5 | .cecCpuStatus | .cecCpuSet
  | .cecCpuClear | .cecCpuMaskStatus | .cecCpuMaskSet | .cecCpuMaskClear | .ramPacketConfig
  | .ramPacketStatus => 0

/-- R73, 'host read': the read of a register, where the host may read it. -/
def LReg.read (w : BitVec 10) : LReg → Option Instr
  | .cecCntrl1 => some .rdCecCntrl1
  | .cecCntrl2 => some .rdCecCntrl2
  | .cecCntrl3 => some .rdCecCntrl3
  | .cecCntrl4 => some .rdCecCntrl4
  | .cecCntrl5 => some .rdCecCntrl5
  | .cecTxData => some (.rdCecTxData w)
  | .cecRxData => some (.rdCecRxData w)
  | .cecCpuStatus => some .rdCecCpuStatus
  | .cecCpuMaskStatus => some .rdCecCpuMaskStatus
  | .ramPacketConfig => some .rdRamPacketConfig
  | .ramPacketStatus => some .rdRamPacketStatus
  | .cecCpuSet | .cecCpuClear | .cecCpuMaskSet | .cecCpuMaskClear | .packetRam => none

/-- R73, 'host write': the write of a register, where the host may write it. -/
def LReg.write (w : BitVec 10) (v : Word) : LReg → Option Instr
  | .cecCntrl1 => some (.wrCecCntrl1 v)
  | .cecCntrl2 => some (.wrCecCntrl2 v)
  | .cecCntrl3 => some (.wrCecCntrl3 v)
  | .cecCntrl4 => some (.wrCecCntrl4 v)
  | .cecCntrl5 => some (.wrCecCntrl5 v)
  | .cecTxData => some (.wrCecTxData w v)
  | .cecCpuSet => some (.wrCecCpuSet v)
  | .cecCpuClear => some (.wrCecCpuClear v)
  | .cecCpuMaskSet => some (.wrCecCpuMaskSet v)
  | .cecCpuMaskClear => some (.wrCecCpuMaskClear v)
  | .ramPacketConfig => some (.wrRamPacketConfig v)
  | .packetRam => some (.wrPacketRam w v)
  | .cecRxData | .cecCpuStatus | .cecCpuMaskStatus | .ramPacketStatus => none

/-! The bytes beside a descriptor. -/

/-- A data word beside a write: four bytes, the least significant first. -/
def takeWord : List Byte → Except Reject (Word × List Byte)
  | b0 :: b1 :: b2 :: b3 :: rest => .ok (b3 ++ b2 ++ b1 ++ b0, rest)
  | _ => .error .shortOperand

/-- The next `n` bytes. -/
def takeBytes : Nat → List Byte → Except Reject (List Byte × List Byte)
  | 0, bs => .ok ([], bs)
  | _ + 1, [] => .error .shortOperand
  | n + 1, b :: bs =>
    match takeBytes n bs with
    | .ok (xs, rest) => .ok (b :: xs, rest)
    | .error e => .error e

/-- An AVI record: a byte per field in the order of R148, then the four margins, two bytes each with the
low byte first. A byte wider than its field is masked to it (R155). -/
def takeAvi : List Byte → Except Reject (AviRecord × List Byte)
  | y :: s :: c :: m :: r :: itc :: ec :: q :: sc :: vic :: yq :: cn :: pr ::
      t0 :: t1 :: b0 :: b1 :: l0 :: l1 :: r0 :: r1 :: rest =>
    .ok ({ y := y.setWidth 2, s := s.setWidth 2, c := c.setWidth 2, m := m.setWidth 2,
           r := r.setWidth 4, itc := itc.setWidth 1, ec := ec.setWidth 3, q := q.setWidth 2,
           sc := sc.setWidth 2, vic := vic, yq := yq.setWidth 2, cn := cn.setWidth 2,
           pr := pr.setWidth 4, top := t1 ++ t0, bottom := b1 ++ b0, left := l1 ++ l0,
           right := r1 ++ r0 }, rest)
  | _ => .error .shortOperand

/-- A byte string of any length (R150): a 1 before each byte of it, and a 0 at its end. -/
def takeString : List Byte → Except Reject (List Byte × List Byte)
  | [] => .error .shortOperand
  | 0#8 :: rest => .ok ([], rest)
  | 1#8 :: b :: bs =>
    match takeString bs with
    | .ok (xs, rest) => .ok (b :: xs, rest)
    | .error e => .error e
  | [1#8] => .error .shortOperand
  | _ :: _ => .error .badRecord

/-- An SPD record: its two strings, then the source-device code. -/
def takeSpd (bs : List Byte) : Except Reject (SpdRecord × List Byte) :=
  match takeString bs with
  | .error e => .error e
  | .ok (vendor, bs') =>
    match takeString bs' with
    | .error e => .error e
    | .ok (_, []) => .error .shortOperand
    | .ok (product, sdi :: rest) => .ok ({ vendor := vendor, product := product, sdi := sdi }, rest)

/-- An Audio record: a byte per field in the order of R152; a channel count above 8 is no record. -/
def takeAudio : List Byte → Except Reject (AudioRecord × List Byte)
  | ch :: ct :: ss :: sf :: cxt :: ca :: lsv :: dm :: lfe :: rest =>
    if 8 < ch.toNat then .error .badRecord
    else
      .ok ({ ch := ch.toNat, ct := ct.setWidth 4, ss := ss.setWidth 2, sf := sf.setWidth 3,
             cxt := cxt.setWidth 5, ca := ca, lsv := lsv.setWidth 4, dmInh := dm.setWidth 1,
             lfepbl := lfe.setWidth 2 }, rest)
  | _ => .error .shortOperand

/-- A record of any kind: a kind byte (0 AVI, 1 SPD, 2 Audio), then the record. -/
def takeRecord : List Byte → Except Reject (Record × List Byte)
  | 0#8 :: bs => (takeAvi bs).map fun p => (.avi p.1, p.2)
  | 1#8 :: bs => (takeSpd bs).map fun p => (.spd p.1, p.2)
  | 2#8 :: bs => (takeAudio bs).map fun p => (.audio p.1, p.2)
  | _ :: _ => .error .badRecord
  | [] => .error .shortOperand

/-! The three formats. -/

/-- The MMIO format (R70), checked as R84 (a) to (d). -/
def decodeMmio (write : Bool) (d : Word) (beside : List Byte) : Except Reject (Instr × List Byte) :=
  match LReg.ofNum (d.extractLsb' 24 6) with
  | none => .error .reservedRegister
  | some r =>
    let w : BitVec 10 := d.extractLsb' 0 10
    if d.extractLsb' 10 14 ≠ 0 then .error .mustBeZero
    else if r.lastIndex < w.toNat then .error .indexRange
    else if write then
      match r.write w 0 with
      | none => .error .wrongDirection
      | some _ =>
        match takeWord beside with
        | .error e => .error e
        | .ok (v, rest) =>
          match r.write w v with
          | none => .error .wrongDirection
          | some i => .ok (i, rest)
    else
      match r.read w with
      | none => .error .wrongDirection
      | some i => .ok (i, beside)

/-- An operation or event that uses no operand bit. -/
def plain (operand : BitVec 24) (why : Reject) (i : Instr) (beside : List Byte) :
    Except Reject (Instr × List Byte) :=
  if operand = 0 then .ok (i, beside) else .error why

/-- The OP format (R71) with the operation codes of R74. -/
def decodeOp (d : Word) (beside : List Byte) : Except Reject (Instr × List Byte) :=
  let operand : BitVec 24 := d.extractLsb' 0 24
  let high20 : BitVec 20 := d.extractLsb' 4 20
  let high16 : BitVec 16 := d.extractLsb' 8 16
  let byte : Byte := d.extractLsb' 0 8
  match (d.extractLsb' 24 6).toNat with
  | 0x01 => plain operand .operandBits .cecInit beside
  | 0x02 => plain operand .operandBits .cecEnable beside
  | 0x03 => plain operand .operandBits .cecDisable beside
  | 0x04 =>
    if high20 = 0 then .ok (.cecSetLogAddr (d.extractLsb' 0 4), beside) else .error .operandBits
  | 0x05 =>
    if high16 = 0 then (takeBytes byte.toNat beside).map fun p => (.cecTransmit p.1, p.2)
    else .error .operandBits
  | 0x06 => plain operand .operandBits .cecIrqHard beside
  | 0x07 => plain operand .operandBits .cecIrqThread beside
  | 0x10 => plain operand .operandBits .pktRamEnable beside
  | 0x11 => plain operand .operandBits .pktRamDisable beside
  | 0x12 => if high16 = 0 then .ok (.pktStop byte, beside) else .error .operandBits
  | 0x13 =>
    if high16 = 0 then (takeRecord beside).map fun p => (.pktWrite byte p.1, p.2)
    else .error .operandBits
  | 0x18 =>
    if operand = 0 then (takeAvi beside).map fun p => (.ifPackAvi p.1, p.2) else .error .operandBits
  | 0x19 =>
    if operand = 0 then (takeSpd beside).map fun p => (.ifPackSpd p.1, p.2) else .error .operandBits
  | 0x1A =>
    if operand = 0 then (takeAudio beside).map fun p => (.ifPackAudio p.1, p.2)
    else .error .operandBits
  | _ => .error .reservedOperation

/-- The EV format (R72) with the event codes of R76. -/
def decodeEv (d : Word) (beside : List Byte) : Except Reject (Instr × List Byte) :=
  match (d.extractLsb' 24 6).toNat with
  | 0x01 =>
    if d.extractLsb' 1 23 = 0 then .ok (.evTxAttempt (d.getLsbD 0), beside) else .error .eventBits
  | 0x02 =>
    if d.extractLsb' 4 20 = 0 then
      (takeBytes ((d.extractLsb' 0 4).toNat + 1) beside).map fun p => (.evRxFrame p.1, p.2)
    else .error .eventBits
  | 0x03 => plain (d.extractLsb' 0 24) .eventBits .evCecSpurious beside
  | 0x04 =>
    let s : BitVec 5 := d.extractLsb' 0 5
    if d.extractLsb' 5 3 = 0 ∧ d.extractLsb' 9 15 = 0 ∧ s.toNat < Config.numSlots then
      .ok (.evPktStatus s (d.getLsbD 8), beside)
    else .error .eventBits
  | _ => .error .reservedEvent

/-- The decoding procedure of R88: the class selects the format. Answers the instruction and the bytes
beside the descriptor that it did not take. -/
def decodePrefix (d : Word) (beside : List Byte) : Except Reject (Instr × List Byte) :=
  match (d.extractLsb' 30 2).toNat with
  | 0 => decodeMmio false d beside
  | 1 => decodeMmio true d beside
  | 2 => decodeOp d beside
  | _ => decodeEv d beside

/-- The instruction of a descriptor and the bytes beside it; every byte must be an operand's. -/
def decode (d : Word) (beside : List Byte) : Except Reject Instr :=
  match decodePrefix d beside with
  | .error e => .error e
  | .ok (i, []) => .ok i
  | .ok (_, _ :: _) => .error .trailingOperand

/-- More zero bytes than the operands of any descriptor take when they are zero. -/
def manyZeros : List Byte := List.replicate 300 0

/-- The bytes beside a descriptor when every operand beside it is zero: as many zeros as it takes. -/
def zeroBeside (d : Word) : List Byte :=
  match decodePrefix d manyZeros with
  | .error _ => []
  | .ok (_, rest) => List.replicate (300 - rest.length) 0

/-- What the decoder reads from an instruction whose bits are `w`, `nbits` of them given and every
further bit zero. -/
def decodeTableWord (nbits w : Nat) : Option Instr :=
  let d : Word := BitVec.ofNat 32 (w % 2 ^ nbits)
  match decode d (zeroBeside d) with
  | .ok i => some i
  | .error _ => none

/-! The encoder, from the same tables. -/

/-- A descriptor of the MMIO format (R70). -/
def mmioWord (write : Bool) (r : LReg) (w : BitVec 10) : Word :=
  (if write then 1#2 else 0#2) ++ r.num ++ 0#14 ++ w

/-- A descriptor of the OP format (R71). -/
def opWord (opc : BitVec 6) (operand : BitVec 24) : Word := 2#2 ++ opc ++ operand

/-- A descriptor of the EV format (R72). -/
def evWord (evc : BitVec 6) (operand : BitVec 24) : Word := 3#2 ++ evc ++ operand

/-- A 16-bit value as two bytes, the low one first. -/
def halfBytes (v : BitVec 16) : List Byte := [v.extractLsb' 0 8, v.extractLsb' 8 8]

/-- A word as four bytes, the least significant first. -/
def wordBytes (v : Word) : List Byte :=
  [v.extractLsb' 0 8, v.extractLsb' 8 8, v.extractLsb' 16 8, v.extractLsb' 24 8]

/-- The bytes of an AVI record beside a descriptor. -/
def aviBytes (r : AviRecord) : List Byte :=
  [r.y.setWidth 8, r.s.setWidth 8, r.c.setWidth 8, r.m.setWidth 8, r.r.setWidth 8, r.itc.setWidth 8,
   r.ec.setWidth 8, r.q.setWidth 8, r.sc.setWidth 8, r.vic, r.yq.setWidth 8, r.cn.setWidth 8,
   r.pr.setWidth 8] ++ halfBytes r.top ++ halfBytes r.bottom ++ halfBytes r.left ++ halfBytes r.right

/-- The bytes of a string of any length: a 1 before each byte, and a 0 at the end. -/
def stringBytes : List Byte → List Byte
  | [] => [0]
  | b :: bs => 1 :: b :: stringBytes bs

/-- The bytes of an SPD record beside a descriptor. -/
def spdBytes (r : SpdRecord) : List Byte := stringBytes r.vendor ++ stringBytes r.product ++ [r.sdi]

/-- The bytes of an Audio record beside a descriptor. R152 has no record of more than 8 channels; a count above 255
is written as 255, so that every count above 8 is one the decoder rejects (DESIGN CHOICE, log 24). -/
def audioBytes (r : AudioRecord) : List Byte :=
  [BitVec.ofNat 8 (min r.ch 255), r.ct.setWidth 8, r.ss.setWidth 8, r.sf.setWidth 8, r.cxt.setWidth 8, r.ca,
   r.lsv.setWidth 8, r.dmInh.setWidth 8, r.lfepbl.setWidth 8]

/-- The bytes of a record of any kind beside a descriptor. -/
def recordBytes : Record → List Byte
  | .avi r => 0#8 :: aviBytes r
  | .spd r => 1#8 :: spdBytes r
  | .audio r => 2#8 :: audioBytes r

/-- The descriptor of an instruction (R73, R74, R76). -/
def descriptor : Instr → Word
  | .rdCecCntrl1 => mmioWord false .cecCntrl1 0
  | .wrCecCntrl1 _ => mmioWord true .cecCntrl1 0
  | .rdCecCntrl2 => mmioWord false .cecCntrl2 0
  | .wrCecCntrl2 _ => mmioWord true .cecCntrl2 0
  | .rdCecCntrl3 => mmioWord false .cecCntrl3 0
  | .wrCecCntrl3 _ => mmioWord true .cecCntrl3 0
  | .rdCecCntrl4 => mmioWord false .cecCntrl4 0
  | .wrCecCntrl4 _ => mmioWord true .cecCntrl4 0
  | .rdCecCntrl5 => mmioWord false .cecCntrl5 0
  | .wrCecCntrl5 _ => mmioWord true .cecCntrl5 0
  | .rdCecTxData w => mmioWord false .cecTxData w
  | .wrCecTxData w _ => mmioWord true .cecTxData w
  | .rdCecRxData w => mmioWord false .cecRxData w
  | .rdCecCpuStatus => mmioWord false .cecCpuStatus 0
  | .wrCecCpuSet _ => mmioWord true .cecCpuSet 0
  | .wrCecCpuClear _ => mmioWord true .cecCpuClear 0
  | .rdCecCpuMaskStatus => mmioWord false .cecCpuMaskStatus 0
  | .wrCecCpuMaskSet _ => mmioWord true .cecCpuMaskSet 0
  | .wrCecCpuMaskClear _ => mmioWord true .cecCpuMaskClear 0
  | .rdRamPacketConfig => mmioWord false .ramPacketConfig 0
  | .wrRamPacketConfig _ => mmioWord true .ramPacketConfig 0
  | .rdRamPacketStatus => mmioWord false .ramPacketStatus 0
  | .wrPacketRam w _ => mmioWord true .packetRam w
  | .cecInit => opWord 0x01 0
  | .cecEnable => opWord 0x02 0
  | .cecDisable => opWord 0x03 0
  | .cecSetLogAddr la => opWord 0x04 (la.setWidth 24)
  | .cecTransmit msg => opWord 0x05 (BitVec.ofNat 24 msg.length)
  | .cecIrqHard => opWord 0x06 0
  | .cecIrqThread => opWord 0x07 0
  | .pktRamEnable => opWord 0x10 0
  | .pktRamDisable => opWord 0x11 0
  | .pktStop ty => opWord 0x12 (ty.setWidth 24)
  | .pktWrite ty _ => opWord 0x13 (ty.setWidth 24)
  | .ifPackAvi _ => opWord 0x18 0
  | .ifPackSpd _ => opWord 0x19 0
  | .ifPackAudio _ => opWord 0x1A 0
  | .evTxAttempt acked => evWord 0x01 (0#23 ++ BitVec.ofBool acked)
  | .evRxFrame frame => evWord 0x02 (BitVec.ofNat 24 (frame.length - 1))
  | .evCecSpurious => evWord 0x03 0
  | .evPktStatus s b => evWord 0x04 (0#15 ++ BitVec.ofBool b ++ 0#3 ++ s)

/-- The bytes beside an instruction's descriptor (R77). -/
def besideBytes : Instr → List Byte
  | .wrCecCntrl1 v | .wrCecCntrl2 v | .wrCecCntrl3 v | .wrCecCntrl4 v | .wrCecCntrl5 v
  | .wrCecTxData _ v | .wrCecCpuSet v | .wrCecCpuClear v | .wrCecCpuMaskSet v
  | .wrCecCpuMaskClear v | .wrRamPacketConfig v | .wrPacketRam _ v => wordBytes v
  | .cecTransmit msg => msg
  | .pktWrite _ rec => recordBytes rec
  | .ifPackAvi r => aviBytes r
  | .ifPackSpd r => spdBytes r
  | .ifPackAudio r => audioBytes r
  | .evRxFrame frame => frame
  | .rdCecCntrl1 | .rdCecCntrl2 | .rdCecCntrl3 | .rdCecCntrl4 | .rdCecCntrl5 | .rdCecTxData _
  | .rdCecRxData _ | .rdCecCpuStatus | .rdCecCpuMaskStatus | .rdRamPacketConfig
  | .rdRamPacketStatus | .cecInit | .cecEnable | .cecDisable | .cecSetLogAddr _ | .cecIrqHard
  | .cecIrqThread | .pktRamEnable | .pktRamDisable | .pktStop _ | .evTxAttempt _ | .evCecSpurious
  | .evPktStatus _ _ => []

/-- The words of a well-formed instruction: its descriptor and the bytes beside it. -/
def encode (i : Instr) : Word × List Byte := (descriptor i, besideBytes i)

end Sys2Proof
end

