-- ==== Sys2Proof/Machine/State.lean ====
section
/-! DEFINITION. The state of one device instance (10_state.md) as plain data, its reset, and the reasons a
step can stop. -/

namespace Sys2Proof.Machine

/-- Why a step stops with a fault. The hardware stops on nothing (R177): each of these says that the step
asked for DOES NOT EXIST in the state it was asked in, because the rule that gives the step does not
enable it there (log 10). Stopping is safe: it allows no behaviour the spec does not. -/
inductive Fault where
  /-- Raised by every engine event while `POWERED = 0` (R114, R196). Safe. -/
  | eventUnpowered
  /-- Raised by `EV_TX_ATTEMPT` outside `TX_BUSY` (R119). Safe. -/
  | txNotBusy
  /-- Raised by `EV_RX_FRAME` while the receiver is reset, held off or held by the host (R126, R130). Safe. -/
  | receiverNotListening
  /-- Raised by `EV_RX_FRAME` for a frame that is not 1 to 16 bytes long (R127). Safe. -/
  | noSuchFrame
  /-- Raised by `EV_CEC_SPURIOUS` when `ALLOW_SPURIOUS_CEC_IRQ` is false (R131). Safe. -/
  | spuriousNotAllowed
  /-- Raised by `EV_PKT_STATUS` when the scheduler may not move the status bit so (R161). Safe. -/
  | statusMayNotMove
  /-- Raised when an operation, or the audio startup check, starts on a host agent that is running one (R135,
  R214). Safe. -/
  | agentBusy
  /-- Raised when the schedule moves a host agent that runs no operation. Safe. -/
  | agentIdle
  /-- Raised when the schedule moves another host agent while the hard handler runs (R135 b). Safe. -/
  | hardHandlerRuns
  /-- Raised by the start of `CEC_IRQ_HARD` with the line low and no spurious start allowed (R135 b). Safe. -/
  | irqLineLow
  /-- Raised by the start of `CEC_IRQ_THREAD` with the mailbox empty (R135 c). Safe. -/
  | mailboxEmpty
  /-- Raised when an operation's step index names no numbered step of it; no run reaches it. Safe. -/
  | noSuchLine
  deriving DecidableEq, Repr

/-- Why a step has no meaning in the model. The refusals of R181 are not these: the spec gives them an
effect, the REFUSED mark, and they are next states. -/
inductive Refusal where
  /-- Raised only by an arm of `exec` that is rejected by name; safe. No arm of this model is. -/
  | notModelled (mnemonic : String)
  deriving DecidableEq, Repr

/-! Registers, each as the record of its fields (log 15). `Machine/Layout.lean` places the fields in the
32-bit word. -/

/-- `CEC_CNTRL_1` (R17). -/
structure Cntrl1 where
  addr : BitVec 4 := 0
  recLen : BitVec 4 := 0
  divClkCnt : BitVec 12 := 0
  txEom : Bool := false
  txStatusGood : Bool := false
  rxEom : Bool := false
  rxStatusGood : Bool := false
  messageLength : BitVec 4 := 0
  clearReceiveOff : Bool := false
  receiveOff : Bool := false
  reserved1 : Bool := false
  startXmitBegin : Bool := false
  deriving DecidableEq, Repr

/-- `CEC_CNTRL_2` (R28). -/
structure Cntrl2 where
  reserved31 : Bool := false
  cnt1500 : BitVec 7 := 0
  cnt1300 : BitVec 7 := 0
  cnt800 : BitVec 6 := 0
  cnt600 : BitVec 6 := 0
  cnt400 : BitVec 5 := 0
  deriving DecidableEq, Repr

/-- `CEC_CNTRL_3` (R29). -/
structure Cntrl3 where
  cnt2750 : BitVec 8 := 0
  cnt2400 : BitVec 8 := 0
  cnt2050 : BitVec 8 := 0
  cnt1700 : BitVec 8 := 0
  deriving DecidableEq, Repr

/-- `CEC_CNTRL_4` (R30). -/
structure Cntrl4 where
  cnt4300 : BitVec 8 := 0
  cnt3900 : BitVec 8 := 0
  cnt3600 : BitVec 8 := 0
  cnt3500 : BitVec 8 := 0
  deriving DecidableEq, Repr

/-- `CEC_CNTRL_5` (R31). -/
structure Cntrl5 where
  reserved : BitVec 4 := 0
  txSwReset : Bool := false
  rxSwReset : Bool := false
  padSwReset : Bool := false
  muxTpOutCec : Bool := false
  rxCecInt : Bool := false
  clkPreload : BitVec 7 := 0
  cnt4700 : BitVec 8 := 0
  cnt4500 : BitVec 8 := 0
  deriving DecidableEq, Repr

/-- `RAM_PACKET_CONFIG` (R37); `slotEn` bit `s` is `SLOT_EN[s]`. -/
structure PktConfig where
  cfgOther : BitVec 15 := 0
  ramPacketEnable : Bool := false
  slotEn : BitVec 16 := 0
  deriving DecidableEq, Repr

/-- A read of `CEC_CPU_STATUS` or `CEC_CPU_MASK_STATUS` (R104, R107): the bit of the CEC source, and the
word whose other bits belong to other sources. -/
structure IrqWord where
  cec : Bool := false
  others : Word := 0
  deriving DecidableEq, Repr

/-- A read of `RAM_PACKET_STATUS` (R112): the slot status bits, and the bits above them. -/
structure StatusWord where
  upper : BitVec 16 := 0
  slotSt : BitVec 16 := 0
  deriving DecidableEq, Repr

/-- The four byte lanes of a data word, lane 0 in bits 7:0 (R57). -/
structure Lanes where
  b0 : Byte := 0
  b1 : Byte := 0
  b2 : Byte := 0
  b3 : Byte := 0
  deriving DecidableEq, Repr

/-- Sixteen bytes: four data words (R34, R35), a latched frame (R40), a receive buffer (R44). -/
abbrev Bytes16 := Vector Byte 16

/-- Sixteen zero bytes. -/
def Bytes16.zero : Bytes16 := Vector.replicate 16 0

/-- The transmit engine's states (R40). -/
inductive TxState where
  | txReset
  | txIdle
  | txBusy
  | txDone
  deriving DecidableEq, Repr

/-- The receive engine's states (R41), a function of the registers. -/
inductive RxState where
  | rxReset
  | rxListen
  | rxHeld
  deriving DecidableEq, Repr

/-- The host's receive buffer (R44). -/
structure RxMsg where
  len : Nat := 0
  bytes : Bytes16 := Bytes16.zero
  deriving DecidableEq, Repr

/-- The outcome codes of R178. -/
inductive Code where
  | ok
  | eTooLarge
  | eStopTimeout
  | eStartTimeout
  | eNodev
  | irqNone
  | irqWakeThread
  | irqHandled
  deriving DecidableEq, Repr

/-- The refusal reasons of R181. -/
inductive Reason where
  | badDescriptor
  | badAccess
  | otherIrqSource
  | badLength
  | badType
  | badConfig
  deriving DecidableEq, Repr

/-- How an operation ended: with an outcome code, or refused (R178, R181). -/
inductive Ended where
  | code (c : Code)
  | refused (r : Reason)
  deriving DecidableEq, Repr

/-- The status of a transmit reported upward (R136). -/
inductive TxReport where
  | ok
  | nack
  deriving DecidableEq, Repr

/-- The upward events of R136. -/
inductive UpEvent where
  | rxDeliver (bytes : List Byte)
  | txDone (report : TxReport) (arbLost nack lowDrive error : Nat)
  deriving DecidableEq, Repr

/-- The three host agents of R13. -/
inductive Agent where
  | proc
  | hard
  | thread
  deriving DecidableEq, Repr

/-- The operations of a host agent that run as numbered steps: those of R74, and the audio startup check of a
caller (R174). -/
inductive HostOp where
  | cecInit
  | cecEnable
  | cecDisable
  | cecSetLogAddr (la : BitVec 4)
  | cecTransmit (msg : List Byte)
  | cecIrqHard
  | cecIrqThread
  | pktRamEnable
  | pktRamDisable
  | pktStop (ty : Byte)
  | pktWrite (ty : Byte) (rec : Record)
  | audioStartup
  deriving DecidableEq, Repr

/-- The sequencing state of a running operation (R49): which operation, the numbered step it takes next,
and its local variables. A lettered step such as 8a is numbered 81 (log 11). -/
structure Run where
  op : HostOp
  /-- The numbered step that runs next. -/
  line : Nat := 1
  /-- The index of a loop inside a step. -/
  idx : Nat := 0
  /-- The variable `s` of the hard handler: the status read. -/
  status : IrqWord := {}
  /-- Whether the interrupt line was low as the hard handler's step 1 read the status (R185, log 23). -/
  lineLow : Bool := false
  /-- The variable `c1` or `v` of an operation on `CEC_CNTRL_1`. -/
  c1 : Cntrl1 := {}
  /-- The variable `c5` or `v5` of an operation on `CEC_CNTRL_5`. -/
  c5 : Cntrl5 := {}
  /-- The variable `v` or `c` of an operation on `RAM_PACKET_CONFIG`. -/
  cfg : PktConfig := {}
  /-- The hard handler's `was_full`. -/
  wasFull : Bool := false
  /-- The hard handler's `was_rx`. -/
  wasRx : Bool := false
  /-- The `tx_ok` of the event the threaded handler reports, as its step 1 found it (R207). -/
  txOk : Bool := false
  /-- The word image a `PKT_WRITE` writes (R156). -/
  words : List Word := []
  /-- Whether the last bounded wait timed out: the variable `r` of R167 and R168. -/
  timedOut : Bool := false
  /-- The failed polls left to the first bounded wait of the operation (R164). -/
  polls : Nat := 0
  /-- The failed polls left to the second bounded wait of a `PKT_WRITE`. -/
  polls2 : Nat := 0
  deriving DecidableEq, Repr

/-- A host agent: the operation it runs, if any, and how its last one ended. -/
structure HostAgent where
  run : Option Run := none
  ret : Option Ended := none
  deriving DecidableEq, Repr

/-- A raw bus access by byte address (R9, R58): its direction, width in bits, address and data. -/
structure BusAccess where
  write : Bool
  width : Nat
  addr : Nat
  value : Word
  deriving DecidableEq, Repr

/-- One step of another agent, taken between the numbered steps of the operation being issued (R10,
R63; log 12). -/
inductive Move where
  /-- A host agent takes the next numbered step of the operation it runs. -/
  | advance (a : Agent)
  /-- A descriptor is issued with the bytes beside it: an access or event runs, an operation starts. -/
  | issue (d : Word) (beside : List Byte)
  /-- A raw bus access (R58). -/
  | bus (b : BusAccess)
  /-- The input POWERED changes (R196). -/
  | power (on : Bool)
  deriving DecidableEq, Repr

/-- An audio stream as its path describes it to the Audio infoframe (R158 c): the channel count, and the
channel-allocation id unless its lookup failed. -/
structure Stream where
  ch : Nat
  ca : Option Byte
  deriving DecidableEq, Repr

/-- The callers of the packet operations (R171 to R175). -/
inductive Caller where
  /-- Video enable with an HDMI monitor; `stream` is the stream if audio is streaming (R171). The SPD record is
  the device's (R158 b). -/
  | videoEnableHdmi (avi : AviRecord) (stream : Option Stream)
  /-- Video enable with a DVI monitor (R173). -/
  | videoEnableDvi
  /-- Video disable (R173). -/
  | videoDisable
  /-- Audio startup (R174). -/
  | audioStartup
  /-- Audio trigger, start (R175). -/
  | audioTriggerStart (stream : Stream)
  /-- Audio trigger, stop (R175). -/
  | audioTriggerStop
  /-- Audio shutdown of the active stream or of another one (R175). -/
  | audioShutdown (active : Bool)
  deriving DecidableEq, Repr

/-- What happens next at the block, as the environment and the schedule give it (log 1). -/
inductive Item where
  /-- A descriptor is issued, with the bytes beside it and the plan of what comes between the numbered
  steps of the operation it starts. -/
  | issue (d : Word) (beside : List Byte) (plan : List Move)
  /-- A raw bus access (R58). -/
  | bus (b : BusAccess)
  /-- The input POWERED changes (R196). -/
  | power (on : Bool)
  /-- A caller runs (R171 to R175); `plans` are the plans of its operations, in order. -/
  | call (c : Caller) (plans : List (List Move))
  /-- A host agent takes the next numbered step of the operation it runs, and nothing else happens (R13). -/
  | advance (a : Agent)
  deriving DecidableEq, Repr

/-- A packed infoframe (R145): the buffer and the packed length. -/
structure Packed where
  buf : List Byte
  plen : Nat
  deriving DecidableEq, Repr

/-- The state of one device instance, its host variables and its inputs (R14, R44 to R49), and the
model's own fields at the end. -/
structure State where
  /-- The variant bound to the instance (R2); no step changes it. -/
  variant : Variant
  /-- The input POWERED (R6). -/
  powered : Bool
  /-- `CEC_CNTRL_1` (R17). -/
  cntrl1 : Cntrl1
  /-- `CEC_CNTRL_2` (R28). -/
  cntrl2 : Cntrl2
  /-- `CEC_CNTRL_3` (R29). -/
  cntrl3 : Cntrl3
  /-- `CEC_CNTRL_4` (R30). -/
  cntrl4 : Cntrl4
  /-- `CEC_CNTRL_5` (R31). -/
  cntrl5 : Cntrl5
  /-- `CEC_TX_DATA[0..3]` by byte: byte `i` of the message to transmit (R34). -/
  txData : Bytes16
  /-- `CEC_RX_DATA[0..3]` by byte: byte `i` of the received frame (R35). -/
  rxData : Bytes16
  /-- `CPU_STATUS[c]`, the pending bit of the CEC source (R36). -/
  cpuStatus : Bool
  /-- `CPU_MASK[c]`, 1 = masked (R36). -/
  cpuMask : Bool
  /-- `RAM_PACKET_CONFIG` (R37). -/
  pktConfig : PktConfig
  /-- `SLOT_ST` of `RAM_PACKET_STATUS` (R38). -/
  slotSt : BitVec 16
  /-- The packet RAM by byte, in canonical form (R39, R51; `Machine/Memory.lean`). -/
  packetRam : List Host.Cell
  /-- `tx_state` (R40). -/
  txState : TxState
  /-- `tx_attempt` (R40). -/
  txAttempt : Nat
  /-- `tx_len` (R40). -/
  txLen : Nat
  /-- `tx_bytes` (R40). -/
  txBytes : Bytes16
  /-- `slot_torn`, bit `s` for slot `s` (R43). -/
  slotTorn : BitVec 16
  /-- `rx_msg` (R44). -/
  rxMsg : RxMsg
  /-- `irq_was_rx` (R45). -/
  irqWasRx : Bool
  /-- `tx_ok` (R45). -/
  txOk : Bool
  /-- `mailbox_full` (R46). -/
  mailboxFull : Bool
  /-- `F_UNPOWERED` (R48, R180). -/
  fUnpowered : Bool
  /-- `F_TX_REG_WHILE_BUSY` (R48, R180). -/
  fTxRegWhileBusy : Bool
  /-- `F_MAILBOX_OVERRUN` (R48, R180). -/
  fMailboxOverrun : Bool
  /-- `F_PKT_RAM_OFF` (R48, R180). -/
  fPktRamOff : Bool
  /-- The sticky REFUSED mark (R48, R181): set when it is not `none`; it carries the reason of the
  first refusal (log 9). -/
  refused : Option Reason
  /-- HOST_PROC (R13, R49). -/
  proc : HostAgent
  /-- HOST_HARDIRQ (R13, R49). -/
  hard : HostAgent
  /-- HOST_THREAD (R13, R49). -/
  thread : HostAgent
  /-- The model's own: the value the last issued MMIO read returned (log 21). -/
  readData : Word
  /-- The model's own: what the last issued IF_PACK returned (log 21). -/
  packed : Option Packed
  /-- The model's own: the upward events emitted so far (R136; log 21). -/
  emitted : List UpEvent
  /-- The model's own: what happens next (log 1). -/
  feed : List Item
  /-- The model's own: the plan of the operation now issued (log 12). -/
  plan : List Move
  /-- The model's own: how many free values have been drawn (log 6). -/
  draws : Nat
  deriving DecidableEq, Repr

/-- The machine right after reset (R197), its host variables as at bind (R44 to R46, R48). Where R197 says
`U` the value is the model's (log 3, log 4); `slot_torn` is 1 as R197 states. -/
def State.reset : State where
  variant := Variant.legacy
  powered := true
  cntrl1 := {}
  cntrl2 := {}
  cntrl3 := {}
  cntrl4 := {}
  cntrl5 := {}
  txData := Bytes16.zero
  rxData := Bytes16.zero
  cpuStatus := false
  cpuMask := false
  pktConfig := {}
  slotSt := 0
  packetRam := []
  txState := .txIdle
  txAttempt := 0
  txLen := 1
  txBytes := Bytes16.zero
  slotTorn := 0xFFFF
  rxMsg := {}
  irqWasRx := false
  txOk := false
  mailboxFull := false
  fUnpowered := false
  fTxRegWhileBusy := false
  fMailboxOverrun := false
  fPktRamOff := false
  refused := none
  proc := {}
  hard := {}
  thread := {}
  readData := 0
  packed := none
  emitted := []
  feed := []
  plan := []
  draws := 0

end Sys2Proof.Machine
end

