-- ==== Sys2Proof/Machine/Layout.lean ====
section
/-! DEFINITION. `FIELD_LAYOUT` (R6): where each field of a register stands in its 32-bit word (R17, R28 to
R31, R36 to R38), in both directions. No other file of the machine reads a bit position (10_state.md). -/

namespace Sys2Proof.Machine

/-- The word of `CEC_CNTRL_1` (R17). -/
def Cntrl1.toWord (c : Cntrl1) : Word :=
  c.addr ++ c.recLen ++ c.divClkCnt ++ BitVec.ofBool c.txEom ++ BitVec.ofBool c.txStatusGood ++
    BitVec.ofBool c.rxEom ++ BitVec.ofBool c.rxStatusGood ++ c.messageLength ++
    BitVec.ofBool c.clearReceiveOff ++ BitVec.ofBool c.receiveOff ++ BitVec.ofBool c.reserved1 ++
    BitVec.ofBool c.startXmitBegin

/-- The fields of a `CEC_CNTRL_1` word (R17). -/
def Cntrl1.ofWord (v : Word) : Cntrl1 where
  addr := v.extractLsb' 28 4
  recLen := v.extractLsb' 24 4
  divClkCnt := v.extractLsb' 12 12
  txEom := v.getLsbD 11
  txStatusGood := v.getLsbD 10
  rxEom := v.getLsbD 9
  rxStatusGood := v.getLsbD 8
  messageLength := v.extractLsb' 4 4
  clearReceiveOff := v.getLsbD 3
  receiveOff := v.getLsbD 2
  reserved1 := v.getLsbD 1
  startXmitBegin := v.getLsbD 0

/-- The word of `CEC_CNTRL_2` (R28). -/
def Cntrl2.toWord (c : Cntrl2) : Word :=
  BitVec.ofBool c.reserved31 ++ c.cnt1500 ++ c.cnt1300 ++ c.cnt800 ++ c.cnt600 ++ c.cnt400

/-- The fields of a `CEC_CNTRL_2` word (R28). -/
def Cntrl2.ofWord (v : Word) : Cntrl2 where
  reserved31 := v.getLsbD 31
  cnt1500 := v.extractLsb' 24 7
  cnt1300 := v.extractLsb' 17 7
  cnt800 := v.extractLsb' 11 6
  cnt600 := v.extractLsb' 5 6
  cnt400 := v.extractLsb' 0 5

/-- The word of `CEC_CNTRL_3` (R29). -/
def Cntrl3.toWord (c : Cntrl3) : Word := c.cnt2750 ++ c.cnt2400 ++ c.cnt2050 ++ c.cnt1700

/-- The fields of a `CEC_CNTRL_3` word (R29). -/
def Cntrl3.ofWord (v : Word) : Cntrl3 where
  cnt2750 := v.extractLsb' 24 8
  cnt2400 := v.extractLsb' 16 8
  cnt2050 := v.extractLsb' 8 8
  cnt1700 := v.extractLsb' 0 8

/-- The word of `CEC_CNTRL_4` (R30). -/
def Cntrl4.toWord (c : Cntrl4) : Word := c.cnt4300 ++ c.cnt3900 ++ c.cnt3600 ++ c.cnt3500

/-- The fields of a `CEC_CNTRL_4` word (R30). -/
def Cntrl4.ofWord (v : Word) : Cntrl4 where
  cnt4300 := v.extractLsb' 24 8
  cnt3900 := v.extractLsb' 16 8
  cnt3600 := v.extractLsb' 8 8
  cnt3500 := v.extractLsb' 0 8

/-- The word of `CEC_CNTRL_5` (R31). -/
def Cntrl5.toWord (c : Cntrl5) : Word :=
  c.reserved ++ BitVec.ofBool c.txSwReset ++ BitVec.ofBool c.rxSwReset ++ BitVec.ofBool c.padSwReset ++
    BitVec.ofBool c.muxTpOutCec ++ BitVec.ofBool c.rxCecInt ++ c.clkPreload ++ c.cnt4700 ++ c.cnt4500

/-- The fields of a `CEC_CNTRL_5` word (R31). -/
def Cntrl5.ofWord (v : Word) : Cntrl5 where
  reserved := v.extractLsb' 28 4
  txSwReset := v.getLsbD 27
  rxSwReset := v.getLsbD 26
  padSwReset := v.getLsbD 25
  muxTpOutCec := v.getLsbD 24
  rxCecInt := v.getLsbD 23
  clkPreload := v.extractLsb' 16 7
  cnt4700 := v.extractLsb' 8 8
  cnt4500 := v.extractLsb' 0 8

/-- The word of `RAM_PACKET_CONFIG` (R37). -/
def PktConfig.toWord (c : PktConfig) : Word := c.cfgOther ++ BitVec.ofBool c.ramPacketEnable ++ c.slotEn

/-- The fields of a `RAM_PACKET_CONFIG` word (R37). -/
def PktConfig.ofWord (v : Word) : PktConfig where
  cfgOther := v.extractLsb' 17 15
  ramPacketEnable := v.getLsbD 16
  slotEn := v.extractLsb' 0 16

/-- The word of an interrupt status or mask read: bit `c` is the CEC source's (R104, R107). -/
def IrqWord.toWord (c : Fin 32) (r : IrqWord) : Word :=
  if r.cec then r.others ||| BitVec.twoPow 32 c.val else r.others &&& ~~~(BitVec.twoPow 32 c.val)

/-- An interrupt status or mask word by the bit of the CEC source and the whole. -/
def IrqWord.ofWord (c : Fin 32) (v : Word) : IrqWord where
  cec := v.getLsbD c.val
  others := v

/-- The word of a `RAM_PACKET_STATUS` read (R112). -/
def StatusWord.toWord (r : StatusWord) : Word := r.upper ++ r.slotSt

/-- The fields of a `RAM_PACKET_STATUS` word (R38). -/
def StatusWord.ofWord (v : Word) : StatusWord where
  upper := v.extractLsb' 16 16
  slotSt := v.extractLsb' 0 16

/-- The word of four byte lanes (R57). -/
def Lanes.toWord (l : Lanes) : Word := l.b3 ++ l.b2 ++ l.b1 ++ l.b0

/-- The four byte lanes of a word (R57). -/
def Lanes.ofWord (v : Word) : Lanes where
  b0 := v.extractLsb' 0 8
  b1 := v.extractLsb' 8 8
  b2 := v.extractLsb' 16 8
  b3 := v.extractLsb' 24 8

end Sys2Proof.Machine
end

