-- ==== Sys2Proof/Machine/Operands.lean ====
section
/-! DEFINITION. Operand assembly (30_encoding.md section 3): lengths, timing counts, the divider, byte
packing, slot indices, and the byte lanes of the data registers. -/

namespace Sys2Proof.Machine

/-- The length-minus-one encoding of R78, for 1 to 16 bytes. -/
def lengthField (len : Nat) : BitVec 4 := BitVec.ofNat 4 (len - 1)

/-- The length a length field encodes (R78): 1 to 16. -/
def lengthOf (f : BitVec 4) : Nat := f.toNat + 1

/-- The bit-timing count of a threshold in microseconds (R80): `T * CEC_CLOCK_HZ div 1000000`. -/
def timingCount (us : Nat) : Nat := us * Config.cecClockHz / 1000000

/-- The divider quotient of R81, before its check against 4096. -/
def dividerQuotient (v : Variant) : Nat := v.inputClockHz / Config.cecClockHz

/-- `M`, the mask of the CEC source (42_cec_host_ops.md): `1 << CEC_IRQ_BIT`. -/
def irqMask (v : Variant) : Word := BitVec.twoPow 32 v.irqBit.val

/-- The slot index of an infoframe type (R83, R159): `type - 0x80`. -/
def slotOf (ty : Byte) : Nat := ty.toNat - 0x80

/-- The three infoframe types the packet operations accept (R159). -/
def acceptedType (ty : Byte) : Bool := ty == 0x82#8 || ty == 0x83#8 || ty == 0x84#8

/-- Whether a record is of the kind a type names (R168). -/
def kindMatches (ty : Byte) : Record → Bool
  | .avi _ => ty == 0x82#8
  | .spd _ => ty == 0x83#8
  | .audio _ => ty == 0x84#8

/-- Byte `i` of sixteen; 0 past the end. -/
def Bytes16.at (v : Bytes16) (i : Nat) : Byte := v[i]?.getD 0

/-- Data word `w` of sixteen bytes, by lane: byte `4*w + k` in lane `k` (R34, R35, R82). -/
def Bytes16.lanes (v : Bytes16) (w : Nat) : Lanes where
  b0 := Bytes16.at v (4 * w)
  b1 := Bytes16.at v (4 * w + 1)
  b2 := Bytes16.at v (4 * w + 2)
  b3 := Bytes16.at v (4 * w + 3)

/-- Store data word `w` of sixteen bytes by lane (R34, R82). -/
def Bytes16.setLanes (v : Bytes16) (w : Nat) (l : Lanes) : Bytes16 :=
  (((v.setIfInBounds (4 * w) l.b0).setIfInBounds (4 * w + 1) l.b1).setIfInBounds
    (4 * w + 2) l.b2).setIfInBounds (4 * w + 3) l.b3

/-- Byte `k` of the free values from the `n`-th on, four to a word. -/
def drawByte (n k : Nat) : Byte := (Config.drawWord (n + k / 4)).extractLsb' (8 * (k % 4)) 8

/-- Data word `w` of a message, by lane (R82, R141 step 3): a byte past the message's end is the pad byte
drawn for its lane (D24). -/
def messageLanes (msg : List Byte) (w : Nat) (n : Nat) : Lanes where
  b0 := msg.getD (4 * w) (drawByte n 0)
  b1 := msg.getD (4 * w + 1) (drawByte n 1)
  b2 := msg.getD (4 * w + 2) (drawByte n 2)
  b3 := msg.getD (4 * w + 3) (drawByte n 3)

/-- The receive data after a frame (R126): the frame's bytes, then drawn ones. -/
def frameBytes (frame : List Byte) (n : Nat) : Bytes16 :=
  Vector.ofFn fun i : Fin 16 => frame.getD i.val (drawByte n i.val)

/-- The number of data words that hold `len` bytes (R141, R142): `(len + 3) div 4`. -/
def wordsFor (len : Nat) : Nat := (len + 3) / 4

/-- Bit `i` of a 16-bit set of slots set to `b`. -/
def setSlot (v : BitVec 16) (i : Nat) (b : Bool) : BitVec 16 :=
  if b then v ||| BitVec.twoPow 16 i else v &&& ~~~(BitVec.twoPow 16 i)

end Sys2Proof.Machine
end

