-- ==== Sys2Proof/Machine/Flags.lean ====
section
/-! DEFINITION. The status flags (R50), what sets and clears each, the interrupt line, the receive engine's
state, the torn flags, the fault bits, and the source's CEC states. -/

namespace Sys2Proof.Machine

/-- The interrupt line (R42, R185). -/
def State.irqLine (s : State) : Bool := s.cpuStatus && !s.cpuMask

/-- The receive engine's state (R41, R130). -/
def State.rxState (s : State) : RxState :=
  if s.cntrl1.receiveOff then .rxHeld else if s.cntrl5.rxSwReset then .rxReset else .rxListen

/-- Whether `EV_RX_FRAME` is enabled by the receive engine's registers (R126, R130). -/
def State.rxEnabled (s : State) : Bool :=
  !s.cntrl5.rxSwReset && !s.cntrl1.receiveOff && !s.cntrl1.clearReceiveOff

/-- `raise Fault(F_UNPOWERED)` (R180). -/
def State.raiseUnpowered (s : State) : State := { s with fUnpowered := true }

/-- `raise Fault(F_TX_REG_WHILE_BUSY)` (R180). -/
def State.raiseTxReg (s : State) : State := { s with fTxRegWhileBusy := true }

/-- `raise Fault(F_MAILBOX_OVERRUN)` (R180). -/
def State.raiseMailbox (s : State) : State := { s with fMailboxOverrun := true }

/-- `raise Fault(F_PKT_RAM_OFF)` (R180). -/
def State.raisePktRamOff (s : State) : State := { s with fPktRamOff := true }

/-- Whether any fault bit is set (R180). -/
def State.faulted (s : State) : Bool :=
  s.fUnpowered || s.fTxRegWhileBusy || s.fMailboxOverrun || s.fPktRamOff

/-- `RECEIVE_OFF` and `RX_CEC_INT` cleared, by the clear-bit or by receive-engine reset (R24, R32, R129). -/
def State.clearReceive (s : State) : State :=
  { s with cntrl1 := { s.cntrl1 with receiveOff := false }
           cntrl5 := { s.cntrl5 with rxCecInt := false } }

/-- The torn flag of a slot set by a write to its words while it is enabled or emitting (R43, R113). -/
def State.tearIfLive (slot : Nat) (s : State) : State :=
  if s.pktConfig.slotEn.getLsbD slot || s.slotSt.getLsbD slot then
    { s with slotTorn := setSlot s.slotTorn slot true }
  else s

/-- The torn flags of every stopped slot cleared (R43, R111). -/
def State.mendStopped (s : State) : State :=
  { s with slotTorn := s.slotTorn &&& (s.pktConfig.slotEn ||| s.slotSt) }

/-- The source's `Disabled` (R47). -/
def State.isDisabled (s : State) : Bool :=
  s.cntrl5.txSwReset && s.cntrl5.rxSwReset && s.cpuMask

/-- The source's `Idle` (R47). -/
def State.isIdle (s : State) : Bool :=
  !s.isDisabled && !s.cntrl1.startXmitBegin && !s.mailboxFull

/-- The source's `Transmitting` (R47). -/
def State.isTransmitting (s : State) : Bool := !s.isDisabled && s.cntrl1.startXmitBegin

/-- The source's `ReceivingComplete` (R47). -/
def State.isReceivingComplete (s : State) : Bool := s.mailboxFull && s.irqWasRx

end Sys2Proof.Machine
end

