-- ==== Sys2Proof/Machine/Memory.lean ====
section
/-! DEFINITION. The packet RAM (R39, R51): a list of (address, byte) pairs in one canonical form, addresses
strictly rising and no entry equal to what an unlisted address reads as. -/

namespace Sys2Proof.Machine

/-- The packet RAM by byte. -/
abbrev Memory := List Host.Cell

/-- What an unlisted byte reads as. The reset content is `U` (R197); DESIGN CHOICE 0, unsafe (log 4). -/
def Memory.unlisted : Byte := 0

/-- The byte at an address of packet RAM. -/
def Memory.read : Memory → Nat → Byte
  | [], _ => Memory.unlisted
  | (a', b) :: m, a => if a' = a then b else Memory.read m a

/-- Store one byte, keeping the canonical form: the value an unlisted address reads as removes the entry. -/
def Memory.write : Memory → Nat → Byte → Memory
  | [], a, b => if b = Memory.unlisted then [] else [(a, b)]
  | (a', b') :: m, a, b =>
    if a < a' then if b = Memory.unlisted then (a', b') :: m else (a, b) :: (a', b') :: m
    else if a' = a then if b = Memory.unlisted then m else (a, b) :: m
    else (a', b') :: Memory.write m a b

/-- The canonical form from an address on: rising addresses at or above it, none listed without need. -/
def Memory.wfFrom (lo : Nat) : Memory → Bool
  | [] => true
  | (a, b) :: m => lo ≤ a && b != Memory.unlisted && Memory.wfFrom (a + 1) m

/-- The canonical form. -/
def Memory.wf (m : Memory) : Bool := Memory.wfFrom 0 m

/-- Every listed address lies in the packet RAM, 576 bytes (R51). -/
def Memory.inRange (m : Memory) : Bool := m.all fun c => c.1 < 4 * Config.packetRamWords

/-- Word `w` of packet RAM: byte `4*w + k` in lane `k` (R56, R57). -/
def Memory.readWord (m : Memory) (w : Nat) : Word :=
  Memory.read m (4 * w + 3) ++ Memory.read m (4 * w + 2) ++ Memory.read m (4 * w + 1) ++
    Memory.read m (4 * w)

/-- Store word `w` of packet RAM, lane `k` at byte `4*w + k` (R56, R57). -/
def Memory.writeWord (m : Memory) (w : Nat) (v : Word) : Memory :=
  Memory.write (Memory.write (Memory.write (Memory.write m (4 * w) (v.extractLsb' 0 8))
    (4 * w + 1) (v.extractLsb' 8 8)) (4 * w + 2) (v.extractLsb' 16 8)) (4 * w + 3) (v.extractLsb' 24 8)

end Sys2Proof.Machine
end

