-- ==== Sys2Proof/Machine/Ops.lean ====
section
/-! DEFINITION. The shared operations: draws, refusals, the guard of every MMIO access, the host agents'
operations, entry into the interrupt handler and return from it, and the power domain. -/

namespace Sys2Proof.Machine

/-- What a step answers. -/
abbrev Result := Host.Outcome State Fault Refusal

/-- One step after another; a stop stays. -/
def Result.andThen (r : Result) (f : State → Result) : Result :=
  match r with
  | .next s => f s
  | .fault e => .fault e
  | .refused e => .refused e

/-- `refuse(reason)` (R181): the sticky mark is set and nothing else changes; a mark that is set keeps
the reason of the first refusal (log 9). -/
def State.refuse (reason : Reason) (s : State) : State :=
  { s with refused := s.refused.or (some reason) }

/-- `n` free values are taken (log 6). -/
def State.draw (n : Nat) (s : State) : State := { s with draws := s.draws + n }

/-! MMIO accesses. -/

/-- One MMIO read (R89): while powered, the register's value; while not, `F_UNPOWERED` and a drawn
word. Each read takes one free value, for the bits of the register that are draws (R90). -/
def mmioRead {α : Type} (ofDraw : Word → α) (value : State → α) (s : State) : α × State :=
  if s.powered then (value s, s.draw 1)
  else (ofDraw (Config.drawWord s.draws), (s.draw 1).raiseUnpowered)

/-- One MMIO write (R89): while powered, the register's effect; while not, `F_UNPOWERED` and no effect. -/
def mmioWrite (effect : State → State) (s : State) : State :=
  if s.powered then effect s else s.raiseUnpowered

/-- What an issued read leaves: the value read, in the model's output field (log 21). -/
def answerRead {α : Type} (toWord : α → Word) (r : α × State) : Result :=
  .next { r.2 with readData := toWord r.1 }

/-! The host variables (R44 to R46). -/

/-- The host variables at their values at bind (R137 step 1). -/
def State.clearHostVars (s : State) : State :=
  { s with rxMsg := {}, irqWasRx := false, txOk := false, mailboxFull := false }

/-- `rx_msg.len` set. -/
def State.setRxLen (n : Nat) (s : State) : State := { s with rxMsg := { s.rxMsg with len := n } }

/-- Four bytes of `rx_msg.bytes` set from the lanes of a word. -/
def State.setRxWord (w : Nat) (l : Lanes) (s : State) : State :=
  { s with rxMsg := { s.rxMsg with bytes := Bytes16.setLanes s.rxMsg.bytes w l } }

/-- `irq_was_rx` set. -/
def State.setWasRx (b : Bool) (s : State) : State := { s with irqWasRx := b }

/-- `tx_ok` set. -/
def State.setTxOk (b : Bool) (s : State) : State := { s with txOk := b }

/-- `mailbox_full` set. -/
def State.setMailbox (b : Bool) (s : State) : State := { s with mailboxFull := b }

/-! The host agents. -/

/-- A host agent's record. -/
def State.agent (s : State) : Agent → HostAgent
  | .proc => s.proc
  | .hard => s.hard
  | .thread => s.thread

/-- A host agent's record replaced. -/
def State.setAgent (a : Agent) (h : HostAgent) (s : State) : State :=
  match a with
  | .proc => { s with proc := h }
  | .hard => { s with hard := h }
  | .thread => { s with thread := h }

/-- The agent goes on with its operation at the given step index and locals (R49). -/
def State.goOn (a : Agent) (r : Run) (s : State) : State :=
  s.setAgent a { run := some r, ret := (s.agent a).ret }

/-- `return code` (R178): the agent's operation ends. -/
def State.endWith (a : Agent) (c : Code) (s : State) : State :=
  s.setAgent a { run := none, ret := some (.code c) }

/-- The agent's operation ends with nothing returned: the audio startup check with packet RAM on (R174,
log 17). -/
def State.endSilent (a : Agent) (s : State) : State :=
  s.setAgent a { run := none, ret := (s.agent a).ret }

/-- The number of an outcome code (R178, D25). -/
def Code.value : Code → Nat
  | .ok => 0
  | .eTooLarge => 1
  | .eStopTimeout => 2
  | .eStartTimeout => 3
  | .eNodev => 4
  | .irqNone => 0x10
  | .irqWakeThread => 0x11
  | .irqHandled => 0x12

/-- `refuse(reason)` inside an operation (R181): the mark is set and the agent's operation ends there. -/
def State.endRefused (a : Agent) (reason : Reason) (s : State) : State :=
  (s.refuse reason).setAgent a { run := none, ret := some (.refused reason) }

/-- The agent that runs an operation (R135, R174 and 44_packet_engine.md). -/
def HostOp.agent : HostOp → Agent
  | .cecIrqHard => .hard
  | .cecIrqThread => .thread
  | .cecInit | .cecEnable | .cecDisable | .cecSetLogAddr _ | .cecTransmit _ | .pktRamEnable
  | .pktRamDisable | .pktStop _ | .pktWrite _ _ | .audioStartup => .proc

/-- The failed polls a bounded wait may make (R164): the variant's number, or one drawn for it. -/
def pollBound (v : Variant) (n : Nat) : Nat :=
  match v.waitBound with
  | some k => k
  | none => Config.drawPolls n

/-- An agent begins an operation at its step 1 (R49), the bounds of its waits drawn (log 13). -/
def State.begin (op : HostOp) (s : State) : State :=
  (s.goOn op.agent
    { op := op, polls := pollBound s.variant s.draws, polls2 := pollBound s.variant (s.draws + 1) }).draw 2

/-- Entry into the interrupt handler (R135 b, R187): when the line is asserted, or with the line low when
spurious starts are allowed. The block saves no state and changes no mode and no mask; the operation of
another agent stays suspended between two of its steps. -/
def enterHandler (s : State) : Result :=
  if s.hard.run.isSome then .fault .agentBusy
  else if s.irqLine || s.variant.allowSpurious then .next (s.begin .cecIrqHard)
  else .fault .irqLineLow

/-- Return from the interrupt handler with its code (R188): no register is written; the suspended
operation goes on at its next step. -/
def leaveHandler (c : Code) (s : State) : State := s.endWith .hard c

/-- Whether and how an operation starts (R135): its agent must run none; the hard handler enters; the
threaded handler needs a full mailbox. -/
def startOp (op : HostOp) (s : State) : Result :=
  match op.agent with
  | .hard => enterHandler s
  | .thread =>
    if s.thread.run.isSome then .fault .agentBusy
    else if s.mailboxFull then .next (s.begin op)
    else .fault .mailboxEmpty
  | .proc => if s.proc.run.isSome then .fault .agentBusy else .next (s.begin op)

/-! The power domain. -/

/-- Power restored (R196, R197): every row of R197's table takes its reset value, the one `State.reset` names
where the table has `U` (log 3, log 4): the registers, the engines, the torn flags, and the fault bits and the
REFUSED mark, which are clear (log 5). Host variables, the agents' operations, the variant and the model's
own fields stay. -/
def State.restorePower (s : State) : State :=
  { s with
    powered := true
    cntrl1 := State.reset.cntrl1
    cntrl2 := State.reset.cntrl2
    cntrl3 := State.reset.cntrl3
    cntrl4 := State.reset.cntrl4
    cntrl5 := State.reset.cntrl5
    txData := State.reset.txData
    rxData := State.reset.rxData
    cpuStatus := State.reset.cpuStatus
    cpuMask := State.reset.cpuMask
    pktConfig := State.reset.pktConfig
    slotSt := State.reset.slotSt
    packetRam := State.reset.packetRam
    txState := State.reset.txState
    txAttempt := State.reset.txAttempt
    txLen := State.reset.txLen
    txBytes := State.reset.txBytes
    slotTorn := State.reset.slotTorn
    fUnpowered := State.reset.fUnpowered
    fTxRegWhileBusy := State.reset.fTxRegWhileBusy
    fMailboxOverrun := State.reset.fMailboxOverrun
    fPktRamOff := State.reset.fPktRamOff
    refused := State.reset.refused }

/-- The input POWERED changes (R196): off keeps every value; on after off resets the block. -/
def State.setPower (on : Bool) (s : State) : State :=
  if on then if s.powered then s else s.restorePower else { s with powered := false }

end Sys2Proof.Machine
end

