-- ==== Sys2Proof/Machine/Bus.lean ====
section
/-! DEFINITION. Raw bus addresses (20_memory.md): regions, byte offsets, and the access a byte address
names (R52 to R58). -/

namespace Sys2Proof.Machine

/-- The LEGACY byte offset of a register from the start of the combined region (R54). -/
def legacyOffset : LReg → Nat
  | .ramPacketConfig => 0x0A0
  | .ramPacketStatus => 0x0A4
  | .cecCntrl1 => 0x0E8
  | .cecCntrl2 => 0x0EC
  | .cecCntrl3 => 0x0F0
  | .cecCntrl4 => 0x0F4
  | .cecCntrl5 => 0x0F8
  | .cecTxData => 0x0FC
  | .cecRxData => 0x10C
  | .cecCpuStatus => 0x340
  | .cecCpuSet => 0x344
  | .cecCpuClear => 0x348
  | .cecCpuMaskStatus => 0x34C
  | .cecCpuMaskSet => 0x350
  | .cecCpuMaskClear => 0x354
  | .packetRam => 0x400

/-- `REGION_BASE` of the CURRENT region of a register (R53). -/
def currentBase (v : Variant) : LReg → Nat
  | .cecCntrl1 | .cecCntrl2 | .cecCntrl3 | .cecCntrl4 | .cecCntrl5 | .cecTxData | .cecRxData => v.cecBase
  | .cecCpuStatus | .cecCpuSet | .cecCpuClear | .cecCpuMaskStatus | .cecCpuMaskSet
  | .cecCpuMaskClear => v.intr2Base
  | .ramPacketConfig | .ramPacketStatus => v.hdmiBase
  | .packetRam => v.packetBase

/-- The byte address of word 0 of a register (R56), where the instance's table lists the register. -/
def regAddress (v : Variant) (r : LReg) : Option Nat :=
  match v.gen with
  | .legacy => some (v.combinedBase + legacyOffset r)
  | .current => (v.currentOffsets.find? fun e => e.1 == r).map fun e => currentBase v r + e.2

/-- The word index at which an aligned byte address meets a register (R56), if it does. -/
def wordAt (v : Variant) (addr : Nat) (r : LReg) : Option (LReg × Nat) :=
  match regAddress v r with
  | none => none
  | some a =>
    if a ≤ addr ∧ addr ≤ a + 4 * r.lastIndex ∧ (addr - a) % 4 = 0 then some (r, (addr - a) / 4) else none

/-- The access a raw bus access is (R9, R58): another width, a misaligned address or an unlisted offset
is `BAD_ACCESS`; the wrong direction for the register is the descriptor's `BAD_DESCRIPTOR` (R84 d). -/
def busInstr (v : Variant) (b : BusAccess) : Except Reason Instr :=
  if b.width ≠ 32 ∨ b.addr % 4 ≠ 0 then .error .badAccess
  else
    match LReg.all.findSome? (wordAt v b.addr) with
    | none => .error .badAccess
    | some (r, w) =>
      match if b.write then r.write (BitVec.ofNat 10 w) b.value else r.read (BitVec.ofNat 10 w) with
      | some i => .ok i
      | none => .error .badDescriptor

end Sys2Proof.Machine
end

