-- ==== Sys2Proof/Machine/Engine.lean ====
section
/-! DEFINITION. The transmit engine, the receive engine and the packet scheduler (41_cec_engine.md,
44_packet_engine.md section 1), and the meanings of the four engine events. -/

namespace Sys2Proof.Machine

/-- `TxStart()` (R117): the engine latches length and frame. It changes no register. -/
def State.txStart (s : State) : State :=
  { s with
    txLen := lengthOf s.cntrl1.messageLength
    txBytes := s.txData
    txAttempt := 0
    txState := .txBusy }

/-- `TxComplete(good)` (R120). -/
def State.txComplete (good : Bool) (s : State) : State :=
  { s with
    cntrl1 := { s.cntrl1 with txStatusGood := good }
    txState := .txDone
    cpuStatus := true }

/-- One attempt of a transmit in progress ends (R119). -/
def State.txAttemptEnds (acked : Bool) (s : State) : State :=
  let s1 := { s with txAttempt := s.txAttempt + 1 }
  if acked then s1.txComplete true
  else if s1.txAttempt = Config.cecTxAttempts then s1.txComplete false
  else s1

/-- A frame completes (R126); the bytes past its end are drawn. -/
def State.rxComplete (frame : List Byte) (s : State) : State :=
  { s with
    rxData := frameBytes frame s.draws
    cntrl1 := { s.cntrl1 with recLen := lengthField frame.length, receiveOff := true }
    cntrl5 := { s.cntrl5 with rxCecInt := true }
    cpuStatus := true
    draws := s.draws + 4 }

/-- Whether the scheduler may move the status bit of a slot to `b` (R161). -/
def State.statusMayMove (slot : Nat) (b : Bool) (s : State) : Bool :=
  b != s.slotSt.getLsbD slot &&
    (!s.pktConfig.ramPacketEnable || b == s.pktConfig.slotEn.getLsbD slot)

/-- The status bit of a slot moves to `b` (R161). -/
def State.moveStatus (slot : Nat) (b : Bool) (s : State) : State :=
  let s1 := { s with slotSt := setSlot s.slotSt slot b }
  if !s.pktConfig.slotEn.getLsbD slot && !b then
    { s1 with slotTorn := setSlot s.slotTorn slot false }
  else s1

/-- `EV_TX_ATTEMPT acked` (R119). -/
def execEvTxAttempt (acked : Bool) (s : State) : Result :=
  if !s.powered then .fault .eventUnpowered
  else if s.txState = .txBusy then .next (s.txAttemptEnds acked)
  else .fault .txNotBusy

/-- `EV_RX_FRAME n frame` (R126, R127). -/
def execEvRxFrame (frame : List Byte) (s : State) : Result :=
  if frame.length = 0 ∨ Config.cecMaxLen < frame.length then .fault .noSuchFrame
  else if !s.powered then .fault .eventUnpowered
  else if s.rxEnabled then .next (s.rxComplete frame)
  else .fault .receiverNotListening

/-- `EV_CEC_SPURIOUS` (R131). -/
def execEvCecSpurious (s : State) : Result :=
  if !s.powered then .fault .eventUnpowered
  else if s.variant.allowSpurious then .next { s with cpuStatus := true }
  else .fault .spuriousNotAllowed

/-- `EV_PKT_STATUS s, b` (R161); a slot that does not exist is an illegal descriptor (R84 f). -/
def execEvPktStatus (slot : BitVec 5) (b : Bool) (s : State) : Result :=
  if Config.numSlots ≤ slot.toNat then .next (s.refuse .badDescriptor)
  else if !s.powered then .fault .eventUnpowered
  else if s.statusMayMove slot.toNat b then .next (s.moveStatus slot.toNat b)
  else .fault .statusMayNotMove

end Sys2Proof.Machine
end

