-- ==== Sys2Proof/Machine/Mmio.lean ====
section
/-! DEFINITION. The MMIO access instructions (40_mmio_access.md): what each register reads as and what
writing it does, and the meanings of the 23 MMIO rows. -/

namespace Sys2Proof.Machine

/-! What a read of each register returns (R90): stored fields, with a drawn bit for every bit its table
marks as a draw. -/

/-- R91. `TX_EOM`, `RX_EOM`, `RX_STATUS_GOOD` and bit 1 are draws (R21). -/
def cntrl1Value (s : State) : Cntrl1 :=
  { s.cntrl1 with
    txEom := (Config.drawWord s.draws).getLsbD 11
    rxEom := (Config.drawWord s.draws).getLsbD 9
    rxStatusGood := (Config.drawWord s.draws).getLsbD 8
    reserved1 := (Config.drawWord s.draws).getLsbD 1 }

/-- R93. Bit 31 is a draw. -/
def cntrl2Value (s : State) : Cntrl2 :=
  { s.cntrl2 with reserved31 := (Config.drawWord s.draws).getLsbD 31 }

/-- R95. -/
def cntrl3Value (s : State) : Cntrl3 := s.cntrl3

/-- R97. -/
def cntrl4Value (s : State) : Cntrl4 := s.cntrl4

/-- R99. Bits 31:28 are draws. -/
def cntrl5Value (s : State) : Cntrl5 :=
  { s.cntrl5 with reserved := (Config.drawWord s.draws).extractLsb' 28 4 }

/-- R104. The bits of other sources are draws. -/
def cpuStatusValue (s : State) : IrqWord := { cec := s.cpuStatus, others := Config.drawWord s.draws }

/-- R107. The bits of other sources are draws. -/
def cpuMaskValue (s : State) : IrqWord := { cec := s.cpuMask, others := Config.drawWord s.draws }

/-- R112. The bits from `NUM_SLOTS` up are draws. -/
def pktStatusValue (s : State) : StatusWord :=
  { upper := (Config.drawWord s.draws).extractLsb' 16 16, slotSt := s.slotSt }

/-- A guarded read of `CEC_CNTRL_1`. -/
def readCntrl1 (s : State) : Cntrl1 × State := mmioRead Cntrl1.ofWord cntrl1Value s

/-- A guarded read of `CEC_CNTRL_5`. -/
def readCntrl5 (s : State) : Cntrl5 × State := mmioRead Cntrl5.ofWord cntrl5Value s

/-- A guarded read of `CEC_CPU_STATUS`. -/
def readCpuStatus (s : State) : IrqWord × State :=
  mmioRead (IrqWord.ofWord s.variant.irqBit) cpuStatusValue s

/-- A guarded read of `CEC_RX_DATA[w]` (R103). -/
def readRxData (w : Nat) (s : State) : Lanes × State :=
  mmioRead Lanes.ofWord (fun t => Bytes16.lanes t.rxData w) s

/-- A guarded read of `RAM_PACKET_CONFIG` (R110). -/
def readPktConfig (s : State) : PktConfig × State := mmioRead PktConfig.ofWord State.pktConfig s

/-- A guarded read of `RAM_PACKET_STATUS`. -/
def readPktStatus (s : State) : StatusWord × State := mmioRead StatusWord.ofWord pktStatusValue s

/-! What a write of each register does while powered. -/

/-- Whether a write of `CEC_CNTRL_1` changes what a transmit in progress has latched (R92, R118). -/
def disturbsTransmit (v : Cntrl1) (s : State) : Bool :=
  s.txState == .txBusy &&
    (v.startXmitBegin != s.cntrl1.startXmitBegin || v.messageLength != s.cntrl1.messageLength)

/-- The fields of `CEC_CNTRL_1` a write stores; the others keep their values (R92). -/
def Cntrl1.store (v old : Cntrl1) : Cntrl1 :=
  { old with
    addr := v.addr
    divClkCnt := v.divClkCnt
    messageLength := v.messageLength
    clearReceiveOff := v.clearReceiveOff
    startXmitBegin := v.startXmitBegin }

/-- R92, in the order of its pseudocode. -/
def writeCntrl1 (v : Cntrl1) (s : State) : State :=
  let s1 := if disturbsTransmit v s then s.raiseTxReg else s
  let s2 := { s1 with cntrl1 := v.store s.cntrl1 }
  let s3 := if v.clearReceiveOff then s2.clearReceive else s2
  if !s.cntrl1.startXmitBegin && v.startXmitBegin && s.txState == .txIdle then s3.txStart
  else if s.cntrl1.startXmitBegin && !v.startXmitBegin && s.txState == .txDone then
    { s3 with txState := .txIdle }
  else s3

/-- R94; bit 31 keeps its value. -/
def writeCntrl2 (v : Cntrl2) (s : State) : State :=
  { s with cntrl2 := { v with reserved31 := s.cntrl2.reserved31 } }

/-- R96. -/
def writeCntrl3 (v : Cntrl3) (s : State) : State := { s with cntrl3 := v }

/-- R98. -/
def writeCntrl4 (v : Cntrl4) (s : State) : State := { s with cntrl4 := v }

/-- R100, in the order of its pseudocode. `RX_CEC_INT` and bits 31:28 are not written. -/
def writeCntrl5 (v : Cntrl5) (s : State) : State :=
  let s1 := { s with
    cntrl5 := { v with reserved := s.cntrl5.reserved, rxCecInt := s.cntrl5.rxCecInt } }
  let s2 :=
    if v.txSwReset then { s1 with txState := .txReset, txAttempt := 0 }
    else if s.txState = .txReset then { s1 with txState := .txIdle }
    else s1
  if v.rxSwReset then s2.clearReceive else s2

/-- R102: the store happens in every state; during a transmit it is also a fault. -/
def writeTxData (w : Nat) (l : Lanes) (s : State) : State :=
  let s1 := if s.txState = .txBusy then s.raiseTxReg else s
  { s1 with txData := Bytes16.setLanes s.txData w l }

/-- The template of R105, R106, R108 and R109: a 1 for another source is refused; a 1 in bit `c` has the
effect; a 0 there has none. -/
def onCecBit (v : Word) (effect : State → State) (s : State) : State :=
  if v &&& ~~~(irqMask s.variant) ≠ 0 then s.refuse .otherIrqSource
  else if v.getLsbD s.variant.irqBit.val then effect s
  else s

/-- R105. -/
def writeCpuSet (v : Word) (s : State) : State := onCecBit v (fun t => { t with cpuStatus := true }) s

/-- R106. -/
def writeCpuClear (v : Word) (s : State) : State := onCecBit v (fun t => { t with cpuStatus := false }) s

/-- R108. -/
def writeCpuMaskSet (v : Word) (s : State) : State := onCecBit v (fun t => { t with cpuMask := true }) s

/-- R109. -/
def writeCpuMaskClear (v : Word) (s : State) : State := onCecBit v (fun t => { t with cpuMask := false }) s

/-- R111. -/
def writePktConfig (v : PktConfig) (s : State) : State := State.mendStopped { s with pktConfig := v }

/-- R113: with packet RAM off the word stored is a free value and the fault is raised; a live slot is torn. -/
def storePacketRam (w : Nat) (v : Word) (s : State) : State :=
  let s1 :=
    if s.pktConfig.ramPacketEnable then { s with packetRam := Memory.writeWord s.packetRam w v }
    else
      (State.draw 1 { s with
        packetRam := Memory.writeWord s.packetRam w (Config.drawWord s.draws) }).raisePktRamOff
  s1.tearIfLive (w / Config.slotWords)

/-- A checked and guarded write of `PACKET_RAM[w]` (R84 c, R89, R113). -/
def writePacketRam (w : Nat) (v : Word) (s : State) : State :=
  if w < Config.packetRamWords then mmioWrite (storePacketRam w v) s else s.refuse .badDescriptor

/-! The meanings of the MMIO rows. -/

/-- The verdict of R89 (1) on a word index outside its register. -/
def badIndex (s : State) : Result := .next (s.refuse .badDescriptor)

/-- `RD_CEC_CNTRL_1` (R91). -/
def execRdCecCntrl1 (s : State) : Result := answerRead Cntrl1.toWord (readCntrl1 s)

/-- `WR_CEC_CNTRL_1` (R92). -/
def execWrCecCntrl1 (v : Word) (s : State) : Result :=
  .next (mmioWrite (writeCntrl1 (Cntrl1.ofWord v)) s)

/-- `RD_CEC_CNTRL_2` (R93). -/
def execRdCecCntrl2 (s : State) : Result :=
  answerRead Cntrl2.toWord (mmioRead Cntrl2.ofWord cntrl2Value s)

/-- `WR_CEC_CNTRL_2` (R94). -/
def execWrCecCntrl2 (v : Word) (s : State) : Result :=
  .next (mmioWrite (writeCntrl2 (Cntrl2.ofWord v)) s)

/-- `RD_CEC_CNTRL_3` (R95). -/
def execRdCecCntrl3 (s : State) : Result :=
  answerRead Cntrl3.toWord (mmioRead Cntrl3.ofWord cntrl3Value s)

/-- `WR_CEC_CNTRL_3` (R96). -/
def execWrCecCntrl3 (v : Word) (s : State) : Result :=
  .next (mmioWrite (writeCntrl3 (Cntrl3.ofWord v)) s)

/-- `RD_CEC_CNTRL_4` (R97). -/
def execRdCecCntrl4 (s : State) : Result :=
  answerRead Cntrl4.toWord (mmioRead Cntrl4.ofWord cntrl4Value s)

/-- `WR_CEC_CNTRL_4` (R98). -/
def execWrCecCntrl4 (v : Word) (s : State) : Result :=
  .next (mmioWrite (writeCntrl4 (Cntrl4.ofWord v)) s)

/-- `RD_CEC_CNTRL_5` (R99). -/
def execRdCecCntrl5 (s : State) : Result := answerRead Cntrl5.toWord (readCntrl5 s)

/-- `WR_CEC_CNTRL_5` (R100). -/
def execWrCecCntrl5 (v : Word) (s : State) : Result :=
  .next (mmioWrite (writeCntrl5 (Cntrl5.ofWord v)) s)

/-- `RD_CEC_TX_DATA[w]` (R101). -/
def execRdCecTxData (w : BitVec 10) (s : State) : Result :=
  if w.toNat < 4 then
    answerRead Lanes.toWord (mmioRead Lanes.ofWord (fun t => Bytes16.lanes t.txData w.toNat) s)
  else badIndex s

/-- `WR_CEC_TX_DATA[w]` (R102). -/
def execWrCecTxData (w : BitVec 10) (v : Word) (s : State) : Result :=
  if w.toNat < 4 then .next (mmioWrite (writeTxData w.toNat (Lanes.ofWord v)) s) else badIndex s

/-- `RD_CEC_RX_DATA[w]` (R103). -/
def execRdCecRxData (w : BitVec 10) (s : State) : Result :=
  if w.toNat < 4 then answerRead Lanes.toWord (readRxData w.toNat s) else badIndex s

/-- `RD_CEC_CPU_STATUS` (R104). -/
def execRdCecCpuStatus (s : State) : Result :=
  answerRead (IrqWord.toWord s.variant.irqBit) (readCpuStatus s)

/-- `WR_CEC_CPU_SET` (R105). -/
def execWrCecCpuSet (v : Word) (s : State) : Result := .next (mmioWrite (writeCpuSet v) s)

/-- `WR_CEC_CPU_CLEAR` (R106). -/
def execWrCecCpuClear (v : Word) (s : State) : Result := .next (mmioWrite (writeCpuClear v) s)

/-- `RD_CEC_CPU_MASK_STATUS` (R107). -/
def execRdCecCpuMaskStatus (s : State) : Result :=
  answerRead (IrqWord.toWord s.variant.irqBit)
    (mmioRead (IrqWord.ofWord s.variant.irqBit) cpuMaskValue s)

/-- `WR_CEC_CPU_MASK_SET` (R108). -/
def execWrCecCpuMaskSet (v : Word) (s : State) : Result := .next (mmioWrite (writeCpuMaskSet v) s)

/-- `WR_CEC_CPU_MASK_CLEAR` (R109). -/
def execWrCecCpuMaskClear (v : Word) (s : State) : Result := .next (mmioWrite (writeCpuMaskClear v) s)

/-- `RD_RAM_PACKET_CONFIG` (R110). -/
def execRdRamPacketConfig (s : State) : Result := answerRead PktConfig.toWord (readPktConfig s)

/-- `WR_RAM_PACKET_CONFIG` (R111). -/
def execWrRamPacketConfig (v : Word) (s : State) : Result :=
  .next (mmioWrite (writePktConfig (PktConfig.ofWord v)) s)

/-- `RD_RAM_PACKET_STATUS` (R112). -/
def execRdRamPacketStatus (s : State) : Result := answerRead StatusWord.toWord (readPktStatus s)

/-- `WR_PACKET_RAM[w]` (R113). -/
def execWrPacketRam (w : BitVec 10) (v : Word) (s : State) : Result := .next (writePacketRam w.toNat v s)

end Sys2Proof.Machine
end

