-- ==== Sys2Proof/Machine/CecSteps.lean ====
section
/-! DEFINITION. The CEC host operations (42_cec_host_ops.md), each as its numbered steps: one definition per
operation, one arm per numbered step, each arm one MMIO access, one local computation or one branch
(R10). A lettered step 8a is numbered 81 (log 11). -/

namespace Sys2Proof.Machine

/-- The step index of a lettered step: 81 for 8a, 92 for 9b. -/
def Run.goto (r : Run) (line : Nat) : Run := { r with line := line }

/-- `CEC_INIT` (R137). Its precondition on the divider is checked before step 1 (R81, log 18). -/
def stepCecInit (r : Run) (s : State) : Result :=
  match r.line with
  | 1 =>
    if 4096 ≤ dividerQuotient s.variant then .next (s.endRefused .proc .badConfig)
    else .next (State.goOn .proc (r.goto 2) s.clearHostVars)
  | 2 =>
    .next (State.goOn .proc (r.goto 3) (mmioWrite (writeCpuMaskSet (irqMask s.variant)) s))
  | 3 =>
    .next (State.goOn .proc { r.goto 4 with c1 := (readCntrl1 s).1 } (readCntrl1 s).2)
  | 4 =>
    .next (State.goOn .proc
      { r.goto 5 with
        c1 := { r.c1 with addr := 0xF, divClkCnt := BitVec.ofNat 12 (dividerQuotient s.variant) } } s)
  | 5 => .next (State.goOn .proc (r.goto 6) (mmioWrite (writeCntrl1 r.c1) s))
  | 6 => .next (s.endWith .proc .ok)
  | _ => .fault .noSuchLine

/-- `CEC_ENABLE` (R138). -/
def stepCecEnable (r : Run) (s : State) : Result :=
  match r.line with
  | 1 => .next (State.goOn .proc (r.goto 2) (mmioWrite (writeCntrl2 (Cntrl2.ofWord 0x3C690310)) s))
  | 2 => .next (State.goOn .proc (r.goto 3) (mmioWrite (writeCntrl3 (Cntrl3.ofWord 0x6E605244)) s))
  | 3 => .next (State.goOn .proc (r.goto 4) (mmioWrite (writeCntrl4 (Cntrl4.ofWord 0xAC9C908C)) s))
  | 4 => .next (State.goOn .proc { r.goto 5 with c5 := (readCntrl5 s).1 } (readCntrl5 s).2)
  | 5 =>
    .next (State.goOn .proc
      { r.goto 6 with
        c5 := { r.c5 with
          txSwReset := false
          rxSwReset := false
          cnt4700 := BitVec.ofNat 8 (timingCount 4700)
          cnt4500 := BitVec.ofNat 8 (timingCount 4500) } } s)
  | 6 =>
    .next (State.goOn .proc (r.goto 7)
      (mmioWrite (writeCntrl5 { r.c5 with txSwReset := true, rxSwReset := true }) s))
  | 7 => .next (State.goOn .proc (r.goto 8) (mmioWrite (writeCntrl5 r.c5) s))
  | 8 => .next (State.goOn .proc (r.goto 9) (mmioWrite (writeCpuMaskClear (irqMask s.variant)) s))
  | 9 => .next (s.endWith .proc .ok)
  | _ => .fault .noSuchLine

/-- `CEC_DISABLE` (R139). -/
def stepCecDisable (r : Run) (s : State) : Result :=
  match r.line with
  | 1 => .next (State.goOn .proc (r.goto 2) (mmioWrite (writeCpuMaskSet (irqMask s.variant)) s))
  | 2 => .next (State.goOn .proc { r.goto 3 with c5 := (readCntrl5 s).1 } (readCntrl5 s).2)
  | 3 =>
    .next (State.goOn .proc (r.goto 4)
      (mmioWrite (writeCntrl5 { r.c5 with txSwReset := true, rxSwReset := true }) s))
  | 4 => .next (s.endWith .proc .ok)
  | _ => .fault .noSuchLine

/-- `CEC_SET_LOG_ADDR la` (R140). -/
def stepCecSetLogAddr (la : BitVec 4) (r : Run) (s : State) : Result :=
  match r.line with
  | 1 => .next (State.goOn .proc { r.goto 2 with c1 := (readCntrl1 s).1 } (readCntrl1 s).2)
  | 2 => .next (State.goOn .proc (r.goto 3) (mmioWrite (writeCntrl1 { r.c1 with addr := la }) s))
  | 3 => .next (s.endWith .proc .ok)
  | _ => .fault .noSuchLine

/-- `CEC_TRANSMIT len msg` (R141). Step 3 writes one data word at a time; its pad bytes are drawn. -/
def stepCecTransmit (msg : List Byte) (r : Run) (s : State) : Result :=
  match r.line with
  | 1 =>
    if Config.cecMaxLen < msg.length then .next (s.endWith .proc .eTooLarge)
    else .next (State.goOn .proc (r.goto 2) s)
  | 2 =>
    if msg.length = 0 then .next (s.endRefused .proc .badLength)
    else .next (State.goOn .proc { r.goto 3 with idx := 0 } s)
  | 3 =>
    let next := if r.idx + 1 < wordsFor msg.length then { r with idx := r.idx + 1 } else r.goto 4
    .next (State.goOn .proc next
      (mmioWrite (writeTxData r.idx (messageLanes msg r.idx s.draws)) (s.draw 1)))
  | 4 => .next (State.goOn .proc { r.goto 5 with c1 := (readCntrl1 s).1 } (readCntrl1 s).2)
  | 5 => .next (State.goOn .proc { r.goto 6 with c1 := { r.c1 with startXmitBegin := false } } s)
  | 6 => .next (State.goOn .proc (r.goto 7) (mmioWrite (writeCntrl1 r.c1) s))
  | 7 =>
    .next (State.goOn .proc
      { r.goto 8 with
        c1 := { r.c1 with messageLength := lengthField msg.length, startXmitBegin := true } } s)
  | 8 => .next (State.goOn .proc (r.goto 9) (mmioWrite (writeCntrl1 r.c1) s))
  | 9 => .next (s.endWith .proc .ok)
  | _ => .fault .noSuchLine

/-- Whether the hard handler goes on past step 2: the status bit it read is 1 (R142), and, where the instance follows
R185 there, the line was not low at that read. R142 and R185 part on a line that is low while the bit read is 1;
both readings are kept, and when the line is taken is the model's (DESIGN CHOICE, log 23). -/
def takesEvent (r : Run) (s : State) : Bool :=
  r.status.cec && (!r.lineLow || s.variant.onLineLow == .goOn)

/-- `CEC_IRQ_HARD` (R142, R185). Step 8b reads one data word at a time. -/
def stepCecIrqHard (r : Run) (s : State) : Result :=
  match r.line with
  | 1 =>
    .next (State.goOn .hard { r.goto 2 with status := (readCpuStatus s).1, lineLow := !s.irqLine }
      (readCpuStatus s).2)
  | 2 =>
    if takesEvent r s then .next (State.goOn .hard (r.goto 3) s)
    else .next (leaveHandler .irqNone s)
  | 3 => .next (State.goOn .hard (r.goto 4) (s.setRxLen 0))
  | 4 => .next (State.goOn .hard { r.goto 5 with c1 := (readCntrl1 s).1 } (readCntrl1 s).2)
  | 5 => .next (State.goOn .hard { r.goto 6 with c5 := (readCntrl5 s).1 } (readCntrl5 s).2)
  | 6 =>
    .next (State.goOn .hard { r.goto 7 with wasFull := s.mailboxFull, wasRx := s.irqWasRx } s)
  | 7 => .next (State.goOn .hard (r.goto 8) (s.setWasRx r.c5.rxCecInt))
  | 8 => .next (State.goOn .hard (r.goto (if s.irqWasRx then 81 else 91)) s)
  | 81 => .next (State.goOn .hard { r.goto 82 with idx := 0 } s)
  | 82 =>
    let next :=
      if r.idx + 1 < wordsFor (lengthOf r.c1.recLen) then { r with idx := r.idx + 1 } else r.goto 83
    .next (State.goOn .hard next ((readRxData r.idx s).2.setRxWord r.idx (readRxData r.idx s).1))
  | 83 => .next (State.goOn .hard (r.goto 84) (s.setRxLen (lengthOf r.c1.recLen)))
  | 84 =>
    .next (State.goOn .hard (r.goto 85)
      (mmioWrite (writeCntrl1 { r.c1 with clearReceiveOff := true }) s))
  | 85 =>
    .next (State.goOn .hard (r.goto 10)
      (mmioWrite (writeCntrl1 { r.c1 with clearReceiveOff := false }) s))
  | 91 => .next (State.goOn .hard (r.goto 92) (s.setTxOk r.c1.txStatusGood))
  | 92 =>
    .next (State.goOn .hard (r.goto 10)
      (mmioWrite (writeCntrl1 { r.c1 with startXmitBegin := false }) s))
  | 10 => .next (State.goOn .hard (r.goto 11) (mmioWrite (writeCpuClear (irqMask s.variant)) s))
  | 11 =>
    .next (State.goOn .hard (r.goto 12)
      (if r.wasFull && r.wasRx == s.irqWasRx then s.raiseMailbox else s))
  | 12 => .next (State.goOn .hard (r.goto 13) (s.setMailbox true))
  | 13 => .next (leaveHandler .irqWakeThread s)
  | _ => .fault .noSuchLine

/-- `emit E`: the event goes to the upward interface (R9, R136). -/
def State.emit (e : UpEvent) (s : State) : State := { s with emitted := s.emitted ++ [e] }

/-- The received message `rx_msg.bytes[0 .. rx_msg.len - 1]` (R143). -/
def State.message (s : State) : List Byte := s.rxMsg.bytes.toList.take s.rxMsg.len

/-- `CEC_IRQ_THREAD` (R143). A test and the event it emits are one step. The event reported is the one the
mailbox held at step 1 (R46, R207): step 2 tests the `tx_ok` that step 1 found (log 11). -/
def stepCecIrqThread (r : Run) (s : State) : Result :=
  match r.line with
  | 1 =>
    if s.irqWasRx then
      .next (State.goOn .thread (r.goto 4)
        (if 0 < s.rxMsg.len then s.emit (.rxDeliver s.message) else s))
    else .next (State.goOn .thread { r.goto 2 with txOk := s.txOk } s)
  | 2 =>
    if r.txOk then .next (State.goOn .thread (r.goto 4) (s.emit (.txDone .ok 0 0 0 0)))
    else .next (State.goOn .thread (r.goto 3) s)
  | 3 => .next (State.goOn .thread (r.goto 4) (s.emit (.txDone .nack 0 2 0 0)))
  | 4 => .next (State.goOn .thread (r.goto 5) (s.setMailbox false))
  | 5 => .next (s.endWith .thread .irqHandled)
  | _ => .fault .noSuchLine

end Sys2Proof.Machine
end

