-- ==== Sys2Proof/Machine/Infoframe.lean ====
section
/-! DEFINITION. The infoframe serializer (43_infoframe_serializer.md): the buffers of the three infoframes,
the packet-RAM word image, and the meanings of the three pure rows. -/

namespace Sys2Proof.Machine

/-- The checksum byte of R147: with it the first `plen` bytes sum to 0 modulo 256. -/
def checksum (bytes : List Byte) : Byte := -(bytes.foldl (· + ·) 0)

/-- The buffer format of R146: type, version, payload length, checksum, payload, zeros to the stride. -/
def framed (ty version : Byte) (payload : List Byte) : Packed :=
  let l : Byte := BitVec.ofNat 8 payload.length
  let ck := checksum (ty :: version :: l :: payload)
  { buf := ty :: version :: l :: ck :: payload ++ List.replicate (Config.pktStride - (4 + payload.length)) 0
    plen := 4 + payload.length }

/-- A bit of a payload byte that is set by a condition. -/
def bitIf (c : Bool) (mask : Byte) : Byte := if c then mask else 0

/-- The low byte of a 16-bit margin. -/
def lowByte (v : BitVec 16) : Byte := v.extractLsb' 0 8

/-- The high byte of a 16-bit margin. -/
def highByte (v : BitVec 16) : Byte := v.extractLsb' 8 8

/-- The payload bytes of an AVI infoframe, `buf[4..16]` (R149). -/
def aviPayload (r : AviRecord) : List Byte :=
  [ r.y.setWidth 8 <<< 5 ||| bitIf (r.r != 0) 0x10 ||| bitIf (r.top != 0 || r.bottom != 0) 0x08 |||
      bitIf (r.left != 0 || r.right != 0) 0x04 ||| r.s.setWidth 8,
    r.c.setWidth 8 <<< 6 ||| r.m.setWidth 8 <<< 4 ||| r.r.setWidth 8,
    r.itc.setWidth 8 <<< 7 ||| r.ec.setWidth 8 <<< 4 ||| r.q.setWidth 8 <<< 2 ||| r.sc.setWidth 8,
    r.vic &&& 0x7F,
    r.yq.setWidth 8 <<< 6 ||| r.cn.setWidth 8 <<< 4 ||| r.pr.setWidth 8,
    lowByte r.top, highByte r.top, lowByte r.bottom, highByte r.bottom,
    lowByte r.left, highByte r.left, lowByte r.right, highByte r.right ]

/-- `IF_PACK_AVI` (R149). -/
def packAvi (r : AviRecord) : Packed := framed 0x82 0x02 (aviPayload r)

/-- A byte string cut and zero-padded to a fixed width (R150). -/
def fitBytes (n : Nat) (bytes : List Byte) : List Byte :=
  bytes.take n ++ List.replicate (n - bytes.length) 0

/-- The payload bytes of an SPD infoframe, `buf[4..28]` (R151). -/
def spdPayload (r : SpdRecord) : List Byte := fitBytes 8 r.vendor ++ fitBytes 16 r.product ++ [r.sdi]

/-- `IF_PACK_SPD` (R151). -/
def packSpd (r : SpdRecord) : Packed := framed 0x83 0x01 (spdPayload r)

/-- The channel-count code of R153. -/
def channelCode (ch : Nat) : BitVec 4 := if 2 ≤ ch then BitVec.ofNat 4 (ch - 1) else 0

/-- The payload bytes of an Audio infoframe, `buf[4..13]` (R153). -/
def audioPayload (r : AudioRecord) : List Byte :=
  [ r.ct.setWidth 8 <<< 4 ||| (channelCode r.ch).setWidth 8,
    r.sf.setWidth 8 <<< 2 ||| r.ss.setWidth 8,
    r.cxt.setWidth 8,
    r.ca,
    r.dmInh.setWidth 8 <<< 7 ||| r.lsv.setWidth 8 <<< 3 ||| r.lfepbl.setWidth 8,
    0, 0, 0, 0, 0 ]

/-- `IF_PACK_AUDIO` (R153). -/
def packAudio (r : AudioRecord) : Packed := framed 0x84 0x01 (audioPayload r)

/-- The packer of a record's kind (R168 step 3). -/
def packRecord : Record → Packed
  | .avi r => packAvi r
  | .spd r => packSpd r
  | .audio r => packAudio r

/-- Byte `i` of a buffer. -/
def Packed.at (p : Packed) (i : Nat) : Byte := p.buf.getD i 0

/-- The two words of one 7-byte chunk starting at byte `i` (R156): low 3 bytes, then high 4 bytes. -/
def chunkWords (p : Packed) (i : Nat) : List Word :=
  [ (0 : Byte) ++ p.at (i + 2) ++ p.at (i + 1) ++ p.at i,
    p.at (i + 6) ++ p.at (i + 5) ++ p.at (i + 4) ++ p.at (i + 3) ]

/-- The word image of a buffer, `ram_words(buf, plen)` (R156): chunks at 0, 7, 14, … below `plen`. -/
def ramWords (p : Packed) : List Word :=
  (List.range ((p.plen + 6) / 7)).flatMap fun c => chunkWords p (7 * c)

/-- `IF_PACK_AVI` answers its buffer and length and changes no state (R145, R149). -/
def execIfPackAvi (r : AviRecord) (s : State) : Result := .next { s with packed := some (packAvi r) }

/-- `IF_PACK_SPD` answers its buffer and length and changes no state (R145, R151). -/
def execIfPackSpd (r : SpdRecord) (s : State) : Result := .next { s with packed := some (packSpd r) }

/-- `IF_PACK_AUDIO` answers its buffer and length and changes no state (R145, R153). -/
def execIfPackAudio (r : AudioRecord) (s : State) : Result :=
  .next { s with packed := some (packAudio r) }

end Sys2Proof.Machine
end

