-- ==== Sys2Proof/Machine/PacketSteps.lean ====
section
/-! DEFINITION. The packet-RAM operations and the audio startup check (44_packet_engine.md), each as its numbered steps, and the bounded
poll they share (R164). The steps 3 to 6 of Stop that `PKT_WRITE` runs as its step 6 are numbered 63 to
66 there (log 11). -/

namespace Sys2Proof.Machine

/-- One poll of `wait_until(SLOT_ST[slot] = want, PKT_WAIT_BOUND)` (R164): one MMIO read; `found` goes on
without a timeout, and a failed poll either expires, at the last one the bound allows, or polls again. -/
def pollStatus (slot : Nat) (want : Bool) (doneLine : Nat) (r : Run) (s : State) : Result :=
  let d := readPktStatus s
  let next : Run :=
    if d.1.slotSt.getLsbD slot = want then { r.goto doneLine with timedOut := false }
    else if r.polls ≤ 1 then { r.goto doneLine with timedOut := true }
    else { r with polls := r.polls - 1 }
  .next (State.goOn .proc next d.2)

/-- `RAM_PACKET_CONFIG` read into the local variable (R165 to R168). -/
def readConfigStep (nextLine : Nat) (r : Run) (s : State) : Result :=
  .next (State.goOn .proc { r.goto nextLine with cfg := (readPktConfig s).1 } (readPktConfig s).2)

/-- `RAM_PACKET_CONFIG` written from the local variable (R165 to R168). -/
def writeConfigStep (nextLine : Nat) (v : PktConfig) (r : Run) (s : State) : Result :=
  .next (State.goOn .proc (r.goto nextLine) (mmioWrite (writePktConfig v) s))

/-- `PKT_RAM_ENABLE` (R165). -/
def stepPktRamEnable (r : Run) (s : State) : Result :=
  match r.line with
  | 1 => readConfigStep 2 r s
  | 2 => writeConfigStep 3 { r.cfg with ramPacketEnable := true } r s
  | 3 => .next (s.endWith .proc .ok)
  | _ => .fault .noSuchLine

/-- `PKT_RAM_DISABLE` (R166). -/
def stepPktRamDisable (r : Run) (s : State) : Result :=
  match r.line with
  | 1 => readConfigStep 2 r s
  | 2 => writeConfigStep 3 { r.cfg with ramPacketEnable := false } r s
  | 3 => .next (s.endWith .proc .ok)
  | _ => .fault .noSuchLine

/-- A configuration with the enable bit of a slot set to `b`. -/
def PktConfig.withSlot (slot : Nat) (b : Bool) (c : PktConfig) : PktConfig :=
  { c with slotEn := setSlot c.slotEn slot b }

/-- `PKT_STOP type` (R167). -/
def stepPktStop (ty : Byte) (r : Run) (s : State) : Result :=
  match r.line with
  | 1 =>
    if acceptedType ty then .next (State.goOn .proc (r.goto 2) s)
    else .next (s.endRefused .proc .badType)
  | 2 => .next (State.goOn .proc (r.goto 3) s)
  | 3 => readConfigStep 4 r s
  | 4 => writeConfigStep 5 (r.cfg.withSlot (slotOf ty) false) r s
  | 5 => pollStatus (slotOf ty) false 6 r s
  | 6 => .next (s.endWith .proc (if r.timedOut then .eStopTimeout else .ok))
  | _ => .fault .noSuchLine

/-- The audio startup check (R174): one read, and `E_NODEV` where packet RAM is off. Where it is on the block's
part of startup ends with nothing returned (log 17). -/
def stepAudioStartup (r : Run) (s : State) : Result :=
  match r.line with
  | 1 => readConfigStep 2 r s
  | 2 => .next (if r.cfg.ramPacketEnable then s.endSilent .proc else s.endWith .proc .eNodev)
  | _ => .fault .noSuchLine

/-- `PKT_WRITE type rec` (R168). Step 8 writes one word of the image at a time. -/
def stepPktWrite (ty : Byte) (rec : Record) (r : Run) (s : State) : Result :=
  match r.line with
  | 1 =>
    if acceptedType ty && kindMatches ty rec then .next (State.goOn .proc (r.goto 2) s)
    else .next (s.endRefused .proc .badType)
  | 2 => .next (State.goOn .proc (r.goto 3) s)
  | 3 => .next (State.goOn .proc { r.goto 4 with words := ramWords (packRecord rec) } s)
  | 4 => readConfigStep 5 r s
  | 5 =>
    .next (State.goOn .proc (r.goto 63) (if r.cfg.ramPacketEnable then s else s.raisePktRamOff))
  | 63 => readConfigStep 64 r s
  | 64 => writeConfigStep 65 (r.cfg.withSlot (slotOf ty) false) r s
  | 65 => pollStatus (slotOf ty) false 66 r s
  | 66 => .next (State.goOn .proc (r.goto 7) s)
  | 7 =>
    if r.timedOut && s.variant.onStopTimeout == .abort then .next (s.endWith .proc .eStopTimeout)
    else .next (State.goOn .proc { r.goto 8 with idx := 0 } s)
  | 8 =>
    let next := if r.idx + 1 < r.words.length then { r with idx := r.idx + 1 } else r.goto 9
    .next (State.goOn .proc next
      (writePacketRam (Config.slotWords * slotOf ty + r.idx) (r.words.getD r.idx 0) s))
  | 9 => readConfigStep 10 { r with polls := r.polls2 } s
  | 10 => writeConfigStep 11 (r.cfg.withSlot (slotOf ty) true) r s
  | 11 => pollStatus (slotOf ty) true 12 r s
  | 12 => .next (s.endWith .proc (if r.timedOut then .eStartTimeout else .ok))
  | _ => .fault .noSuchLine

end Sys2Proof.Machine
end

