-- ==== Sys2Proof/Machine/Schedule.lean ====
section
/-! DEFINITION. The interleaving of the agents (R10, R13, R63, R135): one numbered step of a running
operation, one move of the schedule, and an operation run to its end under a plan. -/

namespace Sys2Proof.Machine

/-- The next numbered step of a running operation (R49). -/
def stepRun (r : Run) (s : State) : Result :=
  match r.op with
  | .cecInit => stepCecInit r s
  | .cecEnable => stepCecEnable r s
  | .cecDisable => stepCecDisable r s
  | .cecSetLogAddr la => stepCecSetLogAddr la r s
  | .cecTransmit msg => stepCecTransmit msg r s
  | .cecIrqHard => stepCecIrqHard r s
  | .cecIrqThread => stepCecIrqThread r s
  | .pktRamEnable => stepPktRamEnable r s
  | .pktRamDisable => stepPktRamDisable r s
  | .pktStop ty => stepPktStop ty r s
  | .pktWrite ty rec => stepPktWrite ty rec r s
  | .audioStartup => stepAudioStartup r s

/-- A host agent takes its next numbered step; while the hard handler runs no other host agent does
(R135 b). -/
def advance (a : Agent) (s : State) : Result :=
  if a ≠ .hard ∧ s.hard.run.isSome then .fault .hardHandlerRuns
  else
    match (s.agent a).run with
    | none => .fault .agentIdle
    | some r => stepRun r s

/-- Whether an instruction is a step of a host agent; the four events are not (R72). -/
def isHostStep : Instr → Bool
  | .evTxAttempt _ | .evRxFrame _ | .evCecSpurious | .evPktStatus _ _ => false
  | .rdCecCntrl1 | .wrCecCntrl1 _ | .rdCecCntrl2 | .wrCecCntrl2 _ | .rdCecCntrl3 | .wrCecCntrl3 _
  | .rdCecCntrl4 | .wrCecCntrl4 _ | .rdCecCntrl5 | .wrCecCntrl5 _ | .rdCecTxData _ | .wrCecTxData _ _
  | .rdCecRxData _ | .rdCecCpuStatus | .wrCecCpuSet _ | .wrCecCpuClear _ | .rdCecCpuMaskStatus
  | .wrCecCpuMaskSet _ | .wrCecCpuMaskClear _ | .rdRamPacketConfig | .wrRamPacketConfig _
  | .rdRamPacketStatus | .wrPacketRam _ _ | .cecInit | .cecEnable | .cecDisable | .cecSetLogAddr _
  | .cecTransmit _ | .cecIrqHard | .cecIrqThread | .pktRamEnable | .pktRamDisable | .pktStop _
  | .pktWrite _ _ | .ifPackAvi _ | .ifPackSpd _ | .ifPackAudio _ => true

/-- An instruction issued between the steps of another one: an access, an event or a pure row runs whole;
an operation starts, and its steps are later moves. -/
def beginInstr (i : Instr) (s : State) : Result :=
  match i with
  | .rdCecCntrl1 => execRdCecCntrl1 s
  | .wrCecCntrl1 v => execWrCecCntrl1 v s
  | .rdCecCntrl2 => execRdCecCntrl2 s
  | .wrCecCntrl2 v => execWrCecCntrl2 v s
  | .rdCecCntrl3 => execRdCecCntrl3 s
  | .wrCecCntrl3 v => execWrCecCntrl3 v s
  | .rdCecCntrl4 => execRdCecCntrl4 s
  | .wrCecCntrl4 v => execWrCecCntrl4 v s
  | .rdCecCntrl5 => execRdCecCntrl5 s
  | .wrCecCntrl5 v => execWrCecCntrl5 v s
  | .rdCecTxData w => execRdCecTxData w s
  | .wrCecTxData w v => execWrCecTxData w v s
  | .rdCecRxData w => execRdCecRxData w s
  | .rdCecCpuStatus => execRdCecCpuStatus s
  | .wrCecCpuSet v => execWrCecCpuSet v s
  | .wrCecCpuClear v => execWrCecCpuClear v s
  | .rdCecCpuMaskStatus => execRdCecCpuMaskStatus s
  | .wrCecCpuMaskSet v => execWrCecCpuMaskSet v s
  | .wrCecCpuMaskClear v => execWrCecCpuMaskClear v s
  | .rdRamPacketConfig => execRdRamPacketConfig s
  | .wrRamPacketConfig v => execWrRamPacketConfig v s
  | .rdRamPacketStatus => execRdRamPacketStatus s
  | .wrPacketRam w v => execWrPacketRam w v s
  | .cecInit => startOp .cecInit s
  | .cecEnable => startOp .cecEnable s
  | .cecDisable => startOp .cecDisable s
  | .cecSetLogAddr la => startOp (.cecSetLogAddr la) s
  | .cecTransmit msg => startOp (.cecTransmit msg) s
  | .cecIrqHard => startOp .cecIrqHard s
  | .cecIrqThread => startOp .cecIrqThread s
  | .pktRamEnable => startOp .pktRamEnable s
  | .pktRamDisable => startOp .pktRamDisable s
  | .pktStop ty => startOp (.pktStop ty) s
  | .pktWrite ty rec => startOp (.pktWrite ty rec) s
  | .ifPackAvi r => execIfPackAvi r s
  | .ifPackSpd r => execIfPackSpd r s
  | .ifPackAudio r => execIfPackAudio r s
  | .evTxAttempt acked => execEvTxAttempt acked s
  | .evRxFrame frame => execEvRxFrame frame s
  | .evCecSpurious => execEvCecSpurious s
  | .evPktStatus slot b => execEvPktStatus slot b s

/-- An instruction issued by a move; a host agent's waits for the hard handler to end (R135 b). -/
def issueBetween (i : Instr) (s : State) : Result :=
  if isHostStep i && s.hard.run.isSome then .fault .hardHandlerRuns else beginInstr i s

/-- One move of the schedule. An illegal descriptor or access is refused (R84, R58, R181). It is no step of a host
agent, so it is not held back while the hard handler runs: the mark is set and the plan goes on (R63 leaves this open;
DESIGN CHOICE, log 12). -/
def doMove (m : Move) (s : State) : Result :=
  match m with
  | .advance a => advance a s
  | .issue d beside =>
    match decode d beside with
    | .error _ => .next (s.refuse .badDescriptor)
    | .ok i => issueBetween i s
  | .bus b =>
    match busInstr s.variant b with
    | .error reason => .next (s.refuse reason)
    | .ok i => issueBetween i s
  | .power on => .next (s.setPower on)

/-- With no move left, the hard handler ends if it runs, then the agent's operation does: each takes its
numbered steps with nothing between them. The number bounds the steps. -/
def finish : Nat → Agent → State → Result
  | 0, _, s => .next s
  | n + 1, a, s =>
    if s.hard.run.isSome then (advance .hard s).andThen (finish n a)
    else if (s.agent a).run.isSome then (advance a s).andThen (finish n a)
    else .next s

/-- More steps than the hard handler and the agent's operation have left: the longest operation has 26
steps beside its polls, the hard handler 19. -/
def stepsLeft (a : Agent) (s : State) : Nat :=
  match (s.agent a).run with
  | none => 128
  | some r => r.polls + r.polls2 + 128

/-- The moves of a plan in order, then the rest of the agent's operation. -/
def drive (a : Agent) : List Move → State → Result
  | [], s => finish (stepsLeft a s) a s
  | m :: ms, s => (doMove m s).andThen (drive a ms)

/-- A host operation: it starts, and runs to its end with the state's plan between its numbered steps
(R10, R63, R135; log 12). The plan is used up. -/
def runOp (op : HostOp) (s : State) : Result :=
  (startOp op { s with plan := [] }).andThen (drive op.agent s.plan)

end Sys2Proof.Machine
end

