-- ==== Sys2Proof/Machine/Callers.lean ====
section
/-! DEFINITION. The callers of the packet operations (44_packet_engine.md section 3): the operations each
issues, in order. -/

namespace Sys2Proof.Machine

/-- The Audio record of a stream (R158 c): `CA_UNKNOWN` where the allocation lookup failed. The write of a stream
of more than 8 channels, which R152 has no record of, is refused when it is issued (DESIGN CHOICE, log 24). -/
def streamRecord (v : Variant) (st : Stream) : AudioRecord where
  ch := st.ch
  ct := 0
  ss := 0
  sf := 0
  cxt := 0
  ca := st.ca.getD v.caUnknown
  lsv := 0
  dmInh := 0
  lfepbl := 0

/-- The operations of the opcode table a caller issues, in order (R171, R173, R175). -/
def callerInstrs (v : Variant) : Caller → List Instr
  | .videoEnableHdmi avi stream =>
    [.pktRamEnable, .pktWrite 0x82 (.avi avi), .pktWrite 0x83 (.spd v.spd)] ++
      (stream.map fun st => Instr.pktWrite 0x84 (.audio (streamRecord v st))).toList
  | .videoEnableDvi => [.pktRamDisable]
  | .videoDisable => [.pktRamDisable]
  | .audioStartup => []
  | .audioTriggerStart st => [.pktWrite 0x84 (.audio (streamRecord v st))]
  | .audioTriggerStop => []
  | .audioShutdown active => if active then [.pktStop 0x84] else []

/-- Operations as items of the feed, each with its plan; one with no plan left runs alone. -/
def issueItems : List Instr → List (List Move) → List Item
  | [], _ => []
  | i :: is, [] => .issue (encode i).1 (encode i).2 [] :: issueItems is []
  | i :: is, p :: ps => .issue (encode i).1 (encode i).2 p :: issueItems is ps

/-- A caller runs. The audio startup check is one operation of HOST_PROC, under the caller's first plan, and stops
where HOST_PROC is running another (R135 a, R214, log 10). Every other caller's operations are what happens
next (log 17); it goes on after any outcome of one of them (R172), and the first of them stops where
HOST_PROC is running another operation. -/
def runCaller (c : Caller) (plans : List (List Move)) (s : State) : Result :=
  if c = .audioStartup then runOp .audioStartup { s with plan := plans.headD [] }
  else .next { s with feed := issueItems (callerInstrs s.variant c) plans ++ s.feed }

end Sys2Proof.Machine
end

