-- ==== Sys2Proof/Machine/HostOps.lean ====
section
/-! DEFINITION. The meanings of the eleven host operations that run as numbered steps (42_cec_host_ops.md,
44_packet_engine.md). Each runs its own operation to its end under the state's plan. -/

namespace Sys2Proof.Machine

/-- `CEC_INIT` (R137). -/
def execCecInit (s : State) : Result := runOp .cecInit s

/-- `CEC_ENABLE` (R138). -/
def execCecEnable (s : State) : Result := runOp .cecEnable s

/-- `CEC_DISABLE` (R139). -/
def execCecDisable (s : State) : Result := runOp .cecDisable s

/-- `CEC_SET_LOG_ADDR la` (R140). -/
def execCecSetLogAddr (la : BitVec 4) (s : State) : Result := runOp (.cecSetLogAddr la) s

/-- `CEC_TRANSMIT len msg` (R141). -/
def execCecTransmit (msg : List Byte) (s : State) : Result := runOp (.cecTransmit msg) s

/-- `CEC_IRQ_HARD` (R142). -/
def execCecIrqHard (s : State) : Result := runOp .cecIrqHard s

/-- `CEC_IRQ_THREAD` (R143). -/
def execCecIrqThread (s : State) : Result := runOp .cecIrqThread s

/-- `PKT_RAM_ENABLE` (R165). -/
def execPktRamEnable (s : State) : Result := runOp .pktRamEnable s

/-- `PKT_RAM_DISABLE` (R166). -/
def execPktRamDisable (s : State) : Result := runOp .pktRamDisable s

/-- `PKT_STOP type` (R167). -/
def execPktStop (ty : Byte) (s : State) : Result := runOp (.pktStop ty) s

/-- `PKT_WRITE type rec` (R168). -/
def execPktWrite (ty : Byte) (rec : Record) (s : State) : Result := runOp (.pktWrite ty rec) s

end Sys2Proof.Machine
end

