-- ==== Sys2Proof/Machine/Dispatch.lean ====
section
/-! DEFINITION. The meaning of each instruction: one arm per constructor of `Instr`. -/

namespace Sys2Proof.Machine

def exec (i : Instr) (s : State) : Host.Outcome State Fault Refusal :=
  match i with
  | .rdCecCntrl1 => Sys2Proof.Machine.execRdCecCntrl1 s
  | .wrCecCntrl1 v => Sys2Proof.Machine.execWrCecCntrl1 v s
  | .rdCecCntrl2 => Sys2Proof.Machine.execRdCecCntrl2 s
  | .wrCecCntrl2 v => Sys2Proof.Machine.execWrCecCntrl2 v s
  | .rdCecCntrl3 => Sys2Proof.Machine.execRdCecCntrl3 s
  | .wrCecCntrl3 v => Sys2Proof.Machine.execWrCecCntrl3 v s
  | .rdCecCntrl4 => Sys2Proof.Machine.execRdCecCntrl4 s
  | .wrCecCntrl4 v => Sys2Proof.Machine.execWrCecCntrl4 v s
  | .rdCecCntrl5 => Sys2Proof.Machine.execRdCecCntrl5 s
  | .wrCecCntrl5 v => Sys2Proof.Machine.execWrCecCntrl5 v s
  | .rdCecTxData w => Sys2Proof.Machine.execRdCecTxData w s
  | .wrCecTxData w v => Sys2Proof.Machine.execWrCecTxData w v s
  | .rdCecRxData w => Sys2Proof.Machine.execRdCecRxData w s
  | .rdCecCpuStatus => Sys2Proof.Machine.execRdCecCpuStatus s
  | .wrCecCpuSet v => Sys2Proof.Machine.execWrCecCpuSet v s
  | .wrCecCpuClear v => Sys2Proof.Machine.execWrCecCpuClear v s
  | .rdCecCpuMaskStatus => Sys2Proof.Machine.execRdCecCpuMaskStatus s
  | .wrCecCpuMaskSet v => Sys2Proof.Machine.execWrCecCpuMaskSet v s
  | .wrCecCpuMaskClear v => Sys2Proof.Machine.execWrCecCpuMaskClear v s
  | .rdRamPacketConfig => Sys2Proof.Machine.execRdRamPacketConfig s
  | .wrRamPacketConfig v => Sys2Proof.Machine.execWrRamPacketConfig v s
  | .rdRamPacketStatus => Sys2Proof.Machine.execRdRamPacketStatus s
  | .wrPacketRam w v => Sys2Proof.Machine.execWrPacketRam w v s
  | .cecInit => Sys2Proof.Machine.execCecInit s
  | .cecEnable => Sys2Proof.Machine.execCecEnable s
  | .cecDisable => Sys2Proof.Machine.execCecDisable s
  | .cecSetLogAddr la => Sys2Proof.Machine.execCecSetLogAddr la s
  | .cecTransmit msg => Sys2Proof.Machine.execCecTransmit msg s
  | .cecIrqHard => Sys2Proof.Machine.execCecIrqHard s
  | .cecIrqThread => Sys2Proof.Machine.execCecIrqThread s
  | .pktRamEnable => Sys2Proof.Machine.execPktRamEnable s
  | .pktRamDisable => Sys2Proof.Machine.execPktRamDisable s
  | .pktStop ty => Sys2Proof.Machine.execPktStop ty s
  | .pktWrite ty rec => Sys2Proof.Machine.execPktWrite ty rec s
  | .ifPackAvi r => Sys2Proof.Machine.execIfPackAvi r s
  | .ifPackSpd r => Sys2Proof.Machine.execIfPackSpd r s
  | .ifPackAudio r => Sys2Proof.Machine.execIfPackAudio r s
  | .evTxAttempt acked => Sys2Proof.Machine.execEvTxAttempt acked s
  | .evRxFrame frame => Sys2Proof.Machine.execEvRxFrame frame s
  | .evCecSpurious => Sys2Proof.Machine.execEvCecSpurious s
  | .evPktStatus slot b => Sys2Proof.Machine.execEvPktStatus slot b s

end Sys2Proof.Machine
end

