-- ==== Sys2Proof/Machine/Step.lean ====
section
/-! DEFINITION. One step of the machine: the next item of the feed happens. -/

namespace Sys2Proof.Machine

/-- One step (R13): the head of the feed happens. An issued descriptor is decoded (R88) and runs under its
plan; an illegal one is refused and changes nothing else (R84, R181). A host agent with an operation suspended may
take its next numbered step by itself. With nothing to come the block
executes nothing (R198). -/
def step (s : State) : Host.Outcome State Fault Refusal :=
  match s.feed with
  | [] => .next s
  | .issue d beside plan :: rest =>
    match decode d beside with
    | .error _ => .next (State.refuse .badDescriptor { s with feed := rest })
    | .ok i => exec i { s with feed := rest, plan := plan }
  | .bus b :: rest =>
    match busInstr s.variant b with
    | .error reason => .next (State.refuse reason { s with feed := rest })
    | .ok i => exec i { s with feed := rest, plan := [] }
  | .power on :: rest => .next (State.setPower on { s with feed := rest })
  | .call c plans :: rest => runCaller c plans { s with feed := rest }
  | .advance a :: rest => advance a { s with feed := rest }

/-- The instruction whose bits are `w`, every operand beside its descriptor zero, placed as the next item
of the feed, with no plan (log 1). -/
def State.withFetchWord (s : State) (nbits w : Nat) : State :=
  let d : Word := BitVec.ofNat 32 (w % 2 ^ nbits)
  { s with feed := .issue d (zeroBeside d) [] :: s.feed }

end Sys2Proof.Machine
end

