-- ==== Sys2Proof/Machine/Emission.lean ====
section
/-! DEFINITION. What the block puts out: the frame its transmit engine sends on the CEC wire (R117), and the
slots its packet engine emits, and their content (R163). -/

namespace Sys2Proof.Machine

/-- The frame on the wire (R117): while a transmit is in progress, `tx_bytes[0 .. tx_len-1]`, the bytes past
`tx_len` never sent (D24); none otherwise. Each `EV_TX_ATTEMPT` ends one sending of it (R114). -/
def State.wireFrame (s : State) : Option (List Byte) :=
  if s.txState = .txBusy then some (s.txBytes.toList.take s.txLen) else none

/-- Whether a slot is being emitted (R163). -/
def State.emits (s : State) (slot : Nat) : Bool :=
  s.pktConfig.ramPacketEnable && s.slotSt.getLsbD slot

/-- The slots being emitted (R163). -/
def State.emittedSlots (s : State) : List Nat := (List.range Config.numSlots).filter s.emits

/-- The nine words of a slot in packet RAM (R39). -/
def State.slotContent (s : State) (slot : Nat) : List Word :=
  (List.range Config.slotWords).map fun k => Memory.readWord s.packetRam (Config.slotWords * slot + k)

/-- What is emitted for a slot (R163): its words, or free ones while it is torn (log 19); nothing while it
is not emitted. -/
def State.emission (s : State) (slot : Nat) : Option (List Word) :=
  if s.emits slot then
    if s.slotTorn.getLsbD slot then
      some ((List.range Config.slotWords).map fun k => Config.tornWord s.draws slot k)
    else some (s.slotContent slot)
  else none

end Sys2Proof.Machine
end

