-- ==== Sys2Proof/Machine/Moments.lean ====
section
/-! DEFINITION. The moments of one step: every state the machine is in from before the step's item until after it,
one for each numbered step and each move between them (R10). A premise about what holds continuously, or about
what an agent does, reads them. -/

namespace Sys2Proof.Machine

/-- The operation an instruction starts; none for an access, an event or a pure row. -/
def hostOpOf : Instr → Option HostOp
  | .cecInit => some .cecInit
  | .cecEnable => some .cecEnable
  | .cecDisable => some .cecDisable
  | .cecSetLogAddr la => some (.cecSetLogAddr la)
  | .cecTransmit msg => some (.cecTransmit msg)
  | .cecIrqHard => some .cecIrqHard
  | .cecIrqThread => some .cecIrqThread
  | .pktRamEnable => some .pktRamEnable
  | .pktRamDisable => some .pktRamDisable
  | .pktStop ty => some (.pktStop ty)
  | .pktWrite ty rec => some (.pktWrite ty rec)
  | .rdCecCntrl1 | .wrCecCntrl1 _ | .rdCecCntrl2 | .wrCecCntrl2 _ | .rdCecCntrl3 | .wrCecCntrl3 _
  | .rdCecCntrl4 | .wrCecCntrl4 _ | .rdCecCntrl5 | .wrCecCntrl5 _ | .rdCecTxData _ | .wrCecTxData _ _
  | .rdCecRxData _ | .rdCecCpuStatus | .wrCecCpuSet _ | .wrCecCpuClear _ | .rdCecCpuMaskStatus
  | .wrCecCpuMaskSet _ | .wrCecCpuMaskClear _ | .rdRamPacketConfig | .wrRamPacketConfig _
  | .rdRamPacketStatus | .wrPacketRam _ _ | .ifPackAvi _ | .ifPackSpd _ | .ifPackAudio _
  | .evTxAttempt _ | .evRxFrame _ | .evCecSpurious | .evPktStatus _ _ => none

/-- The moments after a step that answers a next state; none after a stop. -/
def momentsAfter (r : Result) (f : State → List State) : List State :=
  match r with
  | .next s => f s
  | .fault _ => []
  | .refused _ => []

/-- The moments of `finish`. -/
def finishMoments : Nat → Agent → State → List State
  | 0, _, s => [s]
  | n + 1, a, s =>
    s :: (if s.hard.run.isSome then momentsAfter (advance .hard s) (finishMoments n a)
          else if (s.agent a).run.isSome then momentsAfter (advance a s) (finishMoments n a)
          else [])

/-- The moments of `drive`. -/
def driveMoments (a : Agent) : List Move → State → List State
  | [], s => finishMoments (stepsLeft a s) a s
  | m :: ms, s => s :: momentsAfter (doMove m s) (driveMoments a ms)

/-- The moments of `runOp`. -/
def opMoments (op : HostOp) (s : State) : List State :=
  momentsAfter (startOp op { s with plan := [] }) (driveMoments op.agent s.plan)

/-- The operation the next item of the feed runs, and the state it starts in. -/
def nextOp (s : State) : Option (HostOp × State) :=
  match s.feed with
  | [] => none
  | .issue d beside plan :: rest =>
    match decode d beside with
    | .error _ => none
    | .ok i => (hostOpOf i).map fun op => (op, { s with feed := rest, plan := plan })
  | .bus _ :: _ => none
  | .power _ :: _ => none
  | .call c plans :: rest =>
    if c = .audioStartup then some (.audioStartup, { s with feed := rest, plan := plans.headD [] })
    else none
  | .advance _ :: _ => none

/-- The moments of a step: the state before it, those inside the operation it runs, and the state after it. -/
def moments (s : State) : List State :=
  s :: ((match nextOp s with
    | none => []
    | some (op, u) => opMoments op u) ++ momentsAfter (step s) fun t => [t])

end Sys2Proof.Machine
end

