-- ==== Sys2Proof/Safety.lean ====
section
/-! DEFINITION. What counts as a run inside the source's contract, and the premises about progress that the
spec names and does not assume (R6). -/

namespace Sys2Proof.Safety

open Sys2Proof.Machine

/-- A state whose run has kept the contract: no fault bit and no refusal (R180, R181: 'no final state may
have it'). -/
def inContract (s : State) : Bool := !s.faulted && s.refused.isNone

/-- A run: each state is the machine's next of the one before. -/
def IsRun (r : Nat → State) : Prop := ∀ n, step (r n) = .next (r (n + 1))

/-- Whether a condition fails at some moment of a step (Machine/Moments.lean): then it does not hold continuously. -/
def Lapses (p : State → Bool) (s : State) : Prop := ∃ t ∈ moments s, p t = false

/-- `TX_FAIR` (R123): while `TX_BUSY` holds continuously an attempt eventually ends. A premise. -/
def TxFair (r : Nat → State) : Prop :=
  ∀ n, ∃ m, n ≤ m ∧
    (Lapses (fun t => t.txState == .txBusy) (r m) ∨ ∃ t ∈ moments (r m), t.txAttempt ≠ (r m).txAttempt)

/-- `PKT_FAIR` (R162): while packet RAM is on and a status bit differs from its enable bit continuously, the
status bit eventually follows. A premise. -/
def PktFair (r : Nat → State) : Prop :=
  ∀ n slot, slot < Config.numSlots → ∃ m, n ≤ m ∧
    Lapses (fun t => t.pktConfig.ramPacketEnable &&
      t.slotSt.getLsbD slot != t.pktConfig.slotEn.getLsbD slot) (r m)

/-- Whether a host agent takes a step in a step of the machine, as the step's own operation or inside the plan of
another one: each step of the agent changes its record. -/
def Acts (a : Agent) (s : State) : Prop := ∃ t ∈ moments s, t.agent a ≠ s.agent a

/-- Weak fairness of a host agent under the condition that enables it: while the condition holds continuously the
agent eventually acts. -/
def WeaklyFair (a : Agent) (enabled : State → Bool) (r : Nat → State) : Prop :=
  ∀ n, ∃ m, n ≤ m ∧ (Lapses enabled (r m) ∨ Acts a (r m))

/-- Weak fairness of the host agents (R135 d): the hard handler eventually runs while the line is asserted, the
threaded one while the mailbox is full, and HOST_PROC goes on with an operation it has begun. A premise. -/
def HandlersFair (r : Nat → State) : Prop :=
  WeaklyFair .hard State.irqLine r ∧ WeaklyFair .thread State.mailboxFull r ∧
    WeaklyFair .proc (fun t => t.proc.run.isSome) r

/-- Whether an item of the feed, or a plan that comes with it, changes POWERED to `on` (R196). -/
def Brings (on : Bool) : Item → Prop
  | .issue _ _ plan => Move.power on ∈ plan
  | .bus _ => False
  | .power b => b = on
  | .call _ plans => ∃ plan ∈ plans, Move.power on ∈ plan
  | .advance _ => False

/-- `RX_RELEASED` (R201 b): the host does not hold the receiver. A premise. -/
def RxReleased (s : State) : Prop := s.cntrl1.clearReceiveOff = false

end Sys2Proof.Safety
end

