-- ==== Sys2Proof/Certificates/Slice0/Obligations.lean ====
section
/-! DEFINITION. The statements for the provers. Each docstring names the rule of spec/ it formalises; what rests on
the model's own choice says so and names the log row. -/

namespace Sys2Proof.Claims

open Sys2Proof.Machine

/-- The hypotheses of an operation of HOST_PROC that runs alone: no plan, and neither it nor the hard handler
runs an operation. The threaded handler may be suspended. -/
def ProcReady (s : State) : Prop := s.plan = [] ∧ s.proc.run = none ∧ s.hard.run = none

/-- The hypotheses of a run of the hard handler alone: no plan, no run in progress, and a start allowed (R135 b).
The other host agents may be suspended. -/
def HardReady (s : State) : Prop :=
  s.plan = [] ∧ s.hard.run = none ∧
    ((s.cpuStatus = true ∧ s.cpuMask = false) ∨ s.variant.allowSpurious = true)

/-- Whether the hard handler run alone while powered goes on past its step 2: the status bit is 1 (R142), and the line
is high or the instance follows R142's step 2 on a masked source rather than R185 (log 23). -/
def HardGoesOn (s : State) : Prop :=
  s.cpuStatus = true ∧ (s.cpuMask = false ∨ s.variant.onLineLow = .goOn)

/-- The hypotheses of a run of the threaded handler alone (R135 c). -/
def ThreadReady (s : State) : Prop :=
  s.plan = [] ∧ s.hard.run = none ∧ s.thread.run = none ∧ s.mailboxFull = true

/-- An agent whose operation has ended with an outcome code. -/
def done (c : Code) : HostAgent := { run := none, ret := some (.code c) }

/-- An agent whose operation has ended in a refusal. -/
def refusedWith (r : Reason) : HostAgent := { run := none, ret := some (.refused r) }

/-- Whether a word has a 1 in no bit but bit `c`. -/
def OnlyBit (c : Fin 32) (v : Word) : Prop := ∀ i, i < 32 → i ≠ c.val → v.getLsbD i = false

/-- R84, written from its text and from the tables of R73, R74 and R76, by number. -/
def IllegalDescriptor (d : Word) : Prop :=
  let cls := (d.extractLsb' 30 2).toNat
  let num := (d.extractLsb' 24 6).toNat
  let widx := (d.extractLsb' 0 10).toNat
  let zero (lo len : Nat) : Prop := d.extractLsb' lo len = 0
  (cls ≤ 1 ∧ ¬((1 ≤ num ∧ num ≤ 0x0D) ∨ (0x10 ≤ num ∧ num ≤ 0x12))) ∨
  (cls ≤ 1 ∧ ¬zero 10 14) ∨
  (cls ≤ 1 ∧ (if num = 6 ∨ num = 7 then 3 else if num = 0x12 then 143 else 0) < widx) ∨
  (cls = 0 ∧ num ∈ [0x09, 0x0A, 0x0C, 0x0D, 0x12]) ∨
  (cls = 1 ∧ num ∈ [0x07, 0x08, 0x0B, 0x11]) ∨
  (cls = 2 ∧ num ∉ [1, 2, 3, 4, 5, 6, 7, 0x10, 0x11, 0x12, 0x13, 0x18, 0x19, 0x1A]) ∨
  (cls = 2 ∧ num ∈ [1, 2, 3, 6, 7, 0x10, 0x11, 0x18, 0x19, 0x1A] ∧ ¬zero 0 24) ∨
  (cls = 2 ∧ num = 4 ∧ ¬zero 4 20) ∨
  (cls = 2 ∧ num ∈ [5, 0x12, 0x13] ∧ ¬zero 8 16) ∨
  (cls = 3 ∧ num ∉ [1, 2, 3, 4]) ∨
  (cls = 3 ∧ num = 1 ∧ ¬zero 1 23) ∨
  (cls = 3 ∧ num = 2 ∧ ¬zero 4 20) ∨
  (cls = 3 ∧ num = 3 ∧ ¬zero 0 24) ∨
  (cls = 3 ∧ num = 4 ∧ (¬zero 5 3 ∨ ¬zero 9 15 ∨ 16 ≤ (d.extractLsb' 0 5).toNat))

/-- The ten MMIO reads with an index in range. -/
def IsRead : Instr → Prop
  | .rdCecCntrl1 | .rdCecCntrl2 | .rdCecCntrl3 | .rdCecCntrl4 | .rdCecCntrl5 | .rdCecCpuStatus
  | .rdCecCpuMaskStatus | .rdRamPacketConfig | .rdRamPacketStatus => True
  | .rdCecTxData w | .rdCecRxData w => w.toNat < 4
  | _ => False

/-- The MMIO writes with an index in range. -/
def IsWrite : Instr → Prop
  | .wrCecCntrl1 _ | .wrCecCntrl2 _ | .wrCecCntrl3 _ | .wrCecCntrl4 _ | .wrCecCntrl5 _
  | .wrCecCpuSet _ | .wrCecCpuClear _ | .wrCecCpuMaskSet _ | .wrCecCpuMaskClear _
  | .wrRamPacketConfig _ => True
  | .wrCecTxData w _ => w.toNat < 4
  | .wrPacketRam w _ => w.toNat < 144
  | _ => False

/-- The instructions that start an operation on a host agent (R135 and 44_packet_engine.md). -/
def StartsOn : Agent → Instr → Prop
  | .proc, .cecInit | .proc, .cecEnable | .proc, .cecDisable | .proc, .cecSetLogAddr _
  | .proc, .cecTransmit _ | .proc, .pktRamEnable | .proc, .pktRamDisable | .proc, .pktStop _
  | .proc, .pktWrite _ _ | .hard, .cecIrqHard | .thread, .cecIrqThread => True
  | _, _ => False

/-- The operation an OP instruction starts, with the hypotheses under which it runs alone. -/
def OpReady (s : State) : Instr → Prop
  | .cecInit | .cecEnable | .cecDisable | .cecSetLogAddr _ | .cecTransmit _ | .pktRamEnable
  | .pktRamDisable | .pktStop _ | .pktWrite _ _ => ProcReady s
  | .cecIrqHard => HardReady s
  | .cecIrqThread => ThreadReady s
  | _ => False

/-- Byte `k` of the free values drawn from the `n`-th on, four to a word. -/
def drawn (n k : Nat) : Byte := (Config.drawWord (n + k / 4)).extractLsb' (8 * (k % 4)) 8

/-- The engine invariants (a) to (d) of R134. -/
def EngineInv (s : State) : Prop :=
  (s.txState = .txDone → s.fTxRegWhileBusy = false → s.cntrl1.startXmitBegin = true) ∧
  (s.txState = .txBusy → s.fTxRegWhileBusy = false →
    s.cntrl1.startXmitBegin = true ∧ 1 ≤ s.txLen ∧ s.txLen ≤ 16) ∧
  s.cntrl1.receiveOff = s.cntrl5.rxCecInt ∧
  (s.txState = .txBusy → s.txAttempt < 2)

/-- The torn flag of a slot after the flags of stopped slots are cleared (R43, R111). -/
def StillTorn (s : State) (en : BitVec 16) (slot : Nat) : Bool :=
  s.slotTorn.getLsbD slot && (en.getLsbD slot || s.slotSt.getLsbD slot)

/-- The slots of the three infoframe types (R83). -/
def TypeSlot (ty : Byte) (slot : Nat) : Prop :=
  (ty = 0x82#8 ∧ slot = 2) ∨ (ty = 0x83#8 ∧ slot = 3) ∨ (ty = 0x84#8 ∧ slot = 4)

/-- A record of the kind its type names (R168). -/
def KindMatches (ty : Byte) : Record → Prop
  | .avi _ => ty = 0x82#8
  | .spd _ => ty = 0x83#8
  | .audio _ => ty = 0x84#8

/-- The failed polls the first bounded wait of an operation allows (R164): the variant's number, or the one drawn
as the operation starts (log 13); at least one poll is made. -/
def polls (s : State) (nth : Nat) : Nat :=
  max 1 (match s.variant.waitBound with
    | some n => n
    | none => Config.drawPolls (s.draws + nth))

/-- The memory after a `PKT_WRITE` of a record to a slot: the image stands at the slot's words in order, and every
byte outside it reads as before. -/
def HoldsImage (m m' : Memory) (rec : Record) (slot : Nat) : Prop :=
  (∀ k, k < (ramWords (packRecord rec)).length →
    Memory.readWord m' (9 * slot + k) = (ramWords (packRecord rec)).getD k 0) ∧
  ∀ a, a < 36 * slot ∨ 36 * slot + 4 * (ramWords (packRecord rec)).length ≤ a →
    Memory.read m' a = Memory.read m a

/-- The memory after a `PKT_WRITE` of a record to a slot, with packet RAM on or off: the image stands at the slot's
words in order, or while packet RAM is off as many free values, the first the one numbered `first` (R113, log 6);
and every byte outside those words reads as before. -/
def HoldsImageOrDraws (s : State) (m' : Memory) (rec : Record) (slot first : Nat) : Prop :=
  (∀ k, k < (ramWords (packRecord rec)).length →
    Memory.readWord m' (9 * slot + k) =
      if s.pktConfig.ramPacketEnable then (ramWords (packRecord rec)).getD k 0
      else Config.drawWord (first + k)) ∧
  ∀ a, a < 36 * slot ∨ 36 * slot + 4 * (ramWords (packRecord rec)).length ≤ a →
    Memory.read m' a = Memory.read s.packetRam a

/-- The free values the words of a `PKT_WRITE` take: one a word while packet RAM is off (R113, log 6). -/
def wordDraws (s : State) (rec : Record) : Nat :=
  if s.pktConfig.ramPacketEnable then 0 else (ramWords (packRecord rec)).length

/-- What the threaded handler reports of the event in the mailbox (R143, R136). -/
def report (s : State) : List UpEvent :=
  if s.irqWasRx then
    (if 0 < s.rxMsg.len then [UpEvent.rxDeliver (s.rxMsg.bytes.toList.take s.rxMsg.len)] else [])
  else if s.txOk then [UpEvent.txDone .ok 0 0 0 0]
  else [UpEvent.txDone .nack 0 2 0 0]

/-- The torn flags after a `PKT_WRITE` that stopped its slot: its own is clear; the SPD image's tenth word tears a
live slot 4 (R170); every other stopped slot's is clear. -/
def TornAfterWrite (s : State) (ty : Byte) (slot : Nat) (torn : BitVec 16) : Prop :=
  ∀ k, k < 16 → torn.getLsbD k =
    (k != slot && (s.pktConfig.slotEn.getLsbD k || s.slotSt.getLsbD k) &&
      (s.slotTorn.getLsbD k || (ty == 0x83#8 && k == 4)))

end Sys2Proof.Claims

open Sys2Proof Sys2Proof.Machine Sys2Proof.Claims

/-! ## Encoding -/

/-- R69 to R77, R88: the decoder reads back every well-formed instruction from the words the encoder writes, every
operand at every value. How the bytes beside a descriptor lie is the model's choice (log 2). -/
def Obligations.DecodeEncodeAgree : Prop :=
  ∀ i : Instr, i.wf = true → decode (encode i).1 (encode i).2 = .ok i

/-- R69 to R77, R88: whatever the decoder accepts, the instruction it answers is well-formed (its index, lengths,
slot and channel count in the ranges of R73, R76, R77 and R152), and the accepted descriptor is the one the encoder
writes for it: no descriptor bit is dropped, and each instruction has one descriptor. -/
def Obligations.DecodedInstructionIsTheOneEncoded : Prop :=
  ∀ (d : Word) (beside : List Byte) (i : Instr), decode d beside = .ok i → i.wf = true ∧ descriptor i = d

/-- R84 (a) to (f), R88: exactly the illegal descriptors are refused, whatever travels beside them, and the step
that issues one sets the REFUSED mark (R181) and changes nothing else. That the mark keeps the reason of an earlier
refusal is the model's choice (log 9). -/
def Obligations.IllegalDescriptorsAreRefused : Prop :=
  (∀ d : Word, IllegalDescriptor d ↔ ∀ beside, ∃ e, decode d beside = .error e) ∧
  ∀ (s : State) (d : Word) (beside : List Byte) (plan : List Move) (rest : List Item),
    s.feed = .issue d beside plan :: rest → IllegalDescriptor d →
    step s = .next { s with feed := rest, refused := s.refused.or (some .badDescriptor) }

/-- R70 to R77: words written out from V30.3 and the rules' own encodings decode to the instruction they stand for. -/
def Obligations.WrittenDescriptorsDecode : Prop :=
  decode 0x01000000 [] = .ok .rdCecCntrl1 ∧
  decode 0x46000003 [0x40, 0x04, 0x00, 0x80] = .ok (.wrCecTxData 3 0x80000440) ∧
  decode 0x07000002 [] = .ok (.rdCecRxData 2) ∧
  decode 0x5200008F [1, 0, 0, 0] = .ok (.wrPacketRam 143 1) ∧
  decode 0x84000004 [] = .ok (.cecSetLogAddr 4) ∧
  decode 0x85000002 [0x40, 0x04] = .ok (.cecTransmit [0x40, 0x04]) ∧
  decode 0x92000085 [] = .ok (.pktStop 0x85) ∧
  decode 0xC1000001 [] = .ok (.evTxAttempt true) ∧
  decode 0xC2000001 [0x04, 0x36] = .ok (.evRxFrame [0x04, 0x36]) ∧
  decode 0xC4000104 [] = .ok (.evPktStatus 4 true)

/-- R88, R13: a step whose next event issues a descriptor that decodes to `i` runs `exec` of `i` under the plan that
came with it, the event taken off the feed; and a step whose next event lets a host agent go on is the next numbered
step of the operation that agent runs, whatever else is enabled, where the hard handler does not run or is that agent
(R135 b). The feed and the plan are the model's (log 1, log 12). -/
def Obligations.StepRunsTheDecodedInstruction : Prop :=
  (∀ (s : State) (d : Word) (beside : List Byte) (plan : List Move) (rest : List Item) (i : Instr),
    s.feed = .issue d beside plan :: rest → decode d beside = .ok i →
    step s = exec i { s with feed := rest, plan := plan }) ∧
  ∀ (s : State) (a : Agent) (rest : List Item) (r : Run), s.feed = .advance a :: rest →
    (a = .hard ∨ s.hard.run = none) → (s.agent a).run = some r → step s = stepRun r { s with feed := rest }

/-- R54, R56: on LEGACY, a 32-bit bus access at the byte address of word `w` of a register is that register's MMIO
access, where the host may make it (R73). -/
def Obligations.LegacyBusAddressNamesTheAccess : Prop :=
  ∀ (s : State) (r : LReg) (w : Nat) (v : Word) (write : Bool) (i : Instr) (rest : List Item),
    s.variant.gen = .legacy → s.variant.combinedBase % 4 = 0 → w ≤ r.lastIndex →
    (if write then r.write (BitVec.ofNat 10 w) v else r.read (BitVec.ofNat 10 w)) = some i →
    s.feed = .bus { write := write, width := 32,
                    addr := s.variant.combinedBase + legacyOffset r + 4 * w, value := v } :: rest →
    step s = exec i { s with feed := rest, plan := [] }

/-- R58, R181: a bus access of another width, at a misaligned address, or at an address no listed word has, is
refused with `BAD_ACCESS`: the REFUSED mark is set and nothing else changes. That the mark keeps the reason of an
earlier refusal is the model's choice (log 9). -/
def Obligations.BadBusAccessIsRefused : Prop :=
  ∀ (s : State) (b : BusAccess) (rest : List Item), s.feed = .bus b :: rest →
    (b.width ≠ 32 ∨ b.addr % 4 ≠ 0 ∨
      ∀ (r : LReg) (a w : Nat), regAddress s.variant r = some a → w ≤ r.lastIndex → b.addr ≠ a + 4 * w) →
    step s = .next { s with feed := rest, refused := s.refused.or (some .badAccess) }

/-! ## MMIO reads -/

/-- R91, R17: every bit of a read of `CEC_CNTRL_1`. `TX_EOM`, `RX_EOM`, `RX_STATUS_GOOD` and bit 1 are free values
(R21, log 6). -/
def Obligations.ReadOfControl1 : Prop :=
  ∀ s : State, s.powered = true → ∃ r : Word,
    exec .rdCecCntrl1 s = .next { s with readData := r, draws := s.draws + 1 } ∧
    r.extractLsb' 28 4 = s.cntrl1.addr ∧ r.extractLsb' 24 4 = s.cntrl1.recLen ∧
    r.extractLsb' 12 12 = s.cntrl1.divClkCnt ∧ r.getLsbD 10 = s.cntrl1.txStatusGood ∧
    r.extractLsb' 4 4 = s.cntrl1.messageLength ∧ r.getLsbD 3 = s.cntrl1.clearReceiveOff ∧
    r.getLsbD 2 = s.cntrl1.receiveOff ∧ r.getLsbD 0 = s.cntrl1.startXmitBegin ∧
    ∀ i ∈ [1, 8, 9, 11], r.getLsbD i = (Config.drawWord s.draws).getLsbD i

/-- R93, R95, R97, R99 with R28 to R31: every bit of a read of `CEC_CNTRL_2` to `CEC_CNTRL_5`. Bit 31 of the
second and bits 31:28 of the fifth are free values (log 6). -/
def Obligations.ReadOfTimingRegisters : Prop :=
  ∀ s : State, s.powered = true →
    (∃ r : Word, exec .rdCecCntrl2 s = .next { s with readData := r, draws := s.draws + 1 } ∧
      r.getLsbD 31 = (Config.drawWord s.draws).getLsbD 31 ∧
      r.extractLsb' 24 7 = s.cntrl2.cnt1500 ∧ r.extractLsb' 17 7 = s.cntrl2.cnt1300 ∧
      r.extractLsb' 11 6 = s.cntrl2.cnt800 ∧ r.extractLsb' 5 6 = s.cntrl2.cnt600 ∧
      r.extractLsb' 0 5 = s.cntrl2.cnt400) ∧
    (∃ r : Word, exec .rdCecCntrl3 s = .next { s with readData := r, draws := s.draws + 1 } ∧
      r.extractLsb' 24 8 = s.cntrl3.cnt2750 ∧ r.extractLsb' 16 8 = s.cntrl3.cnt2400 ∧
      r.extractLsb' 8 8 = s.cntrl3.cnt2050 ∧ r.extractLsb' 0 8 = s.cntrl3.cnt1700) ∧
    (∃ r : Word, exec .rdCecCntrl4 s = .next { s with readData := r, draws := s.draws + 1 } ∧
      r.extractLsb' 24 8 = s.cntrl4.cnt4300 ∧ r.extractLsb' 16 8 = s.cntrl4.cnt3900 ∧
      r.extractLsb' 8 8 = s.cntrl4.cnt3600 ∧ r.extractLsb' 0 8 = s.cntrl4.cnt3500) ∧
    (∃ r : Word, exec .rdCecCntrl5 s = .next { s with readData := r, draws := s.draws + 1 } ∧
      r.extractLsb' 28 4 = (Config.drawWord s.draws).extractLsb' 28 4 ∧
      r.getLsbD 27 = s.cntrl5.txSwReset ∧ r.getLsbD 26 = s.cntrl5.rxSwReset ∧
      r.getLsbD 25 = s.cntrl5.padSwReset ∧ r.getLsbD 24 = s.cntrl5.muxTpOutCec ∧
      r.getLsbD 23 = s.cntrl5.rxCecInt ∧ r.extractLsb' 16 7 = s.cntrl5.clkPreload ∧
      r.extractLsb' 8 8 = s.cntrl5.cnt4700 ∧ r.extractLsb' 0 8 = s.cntrl5.cnt4500)

/-- R101, R103, R57, R82: byte `k` of a data word read is byte `4w + k` of the transmit or receive data. -/
def Obligations.ReadOfDataWords : Prop :=
  ∀ (s : State) (w : BitVec 10), s.powered = true → w.toNat < 4 →
    (∃ r : Word, exec (.rdCecTxData w) s = .next { s with readData := r, draws := s.draws + 1 } ∧
      ∀ k, k < 4 → r.extractLsb' (8 * k) 8 = Bytes16.at s.txData (4 * w.toNat + k)) ∧
    ∃ r : Word, exec (.rdCecRxData w) s = .next { s with readData := r, draws := s.draws + 1 } ∧
      ∀ k, k < 4 → r.extractLsb' (8 * k) 8 = Bytes16.at s.rxData (4 * w.toNat + k)

/-- R104, R107: bit `c` of a status or mask read is the CEC source's; every other bit is a free value (log 6). -/
def Obligations.ReadOfInterruptWords : Prop :=
  ∀ s : State, s.powered = true →
    (∃ r : Word, exec .rdCecCpuStatus s = .next { s with readData := r, draws := s.draws + 1 } ∧
      ∀ i, i < 32 → r.getLsbD i =
        if i = s.variant.irqBit.val then s.cpuStatus else (Config.drawWord s.draws).getLsbD i) ∧
    ∃ r : Word, exec .rdCecCpuMaskStatus s = .next { s with readData := r, draws := s.draws + 1 } ∧
      ∀ i, i < 32 → r.getLsbD i =
        if i = s.variant.irqBit.val then s.cpuMask else (Config.drawWord s.draws).getLsbD i

/-- R110, R112: every bit of a read of the packet-RAM configuration and of the slot status; the bits of the status
from bit 16 up are free values (log 6). -/
def Obligations.ReadOfPacketRegisters : Prop :=
  ∀ s : State, s.powered = true →
    (∃ r : Word, exec .rdRamPacketConfig s = .next { s with readData := r, draws := s.draws + 1 } ∧
      r.extractLsb' 17 15 = s.pktConfig.cfgOther ∧ r.getLsbD 16 = s.pktConfig.ramPacketEnable ∧
      ∀ k, k < 16 → r.getLsbD k = s.pktConfig.slotEn.getLsbD k) ∧
    ∃ r : Word, exec .rdRamPacketStatus s = .next { s with readData := r, draws := s.draws + 1 } ∧
      (∀ k, k < 16 → r.getLsbD k = s.slotSt.getLsbD k) ∧
      ∀ k, 16 ≤ k → k < 32 → r.getLsbD k = (Config.drawWord s.draws).getLsbD k

/-- R60: no read has a side effect. Every MMIO read, powered or not, leaves the whole machine as it was but for the
model's output and draw counter, and for `F_UNPOWERED` while unpowered (R68). -/
def Obligations.ReadsHaveNoSideEffect : Prop :=
  ∀ (i : Instr) (s : State), IsRead i → ∃ r : Word,
    exec i s = .next { s with
      readData := r
      draws := s.draws + 1
      fUnpowered := s.fUnpowered || !s.powered }

/-- R68, R89 (2): an access while `POWERED = 0` raises `F_UNPOWERED`; a read returns a free value and a write has no
effect. -/
def Obligations.UnpoweredAccessFaults : Prop :=
  ∀ (i : Instr) (s : State), s.powered = false →
    (IsRead i → ∃ r : Word,
      exec i s = .next { s with readData := r, draws := s.draws + 1, fUnpowered := true } ∧
      ∀ k, k < 32 → r.getLsbD k = (Config.drawWord s.draws).getLsbD k) ∧
    (IsWrite i → exec i s = .next { s with fUnpowered := true })

/-! ## MMIO writes -/

/-- R92, R117, R118: what a write of `CEC_CNTRL_1` leaves, in every state of the transmit engine: the fields stored
and the read-only ones kept, the clear-bit, the fault, the start of a transmit and the end of `TX_DONE`. -/
def Obligations.WriteOfControl1 : Prop :=
  ∀ (v : Word) (s : State), s.powered = true →
    let start := v.getLsbD 0
    let len := v.extractLsb' 4 4
    let clear := v.getLsbD 3
    let starts := !s.cntrl1.startXmitBegin && start && s.txState == .txIdle
    exec (.wrCecCntrl1 v) s = .next { s with
      cntrl1 := { s.cntrl1 with
        addr := v.extractLsb' 28 4
        divClkCnt := v.extractLsb' 12 12
        messageLength := len
        clearReceiveOff := clear
        startXmitBegin := start
        receiveOff := s.cntrl1.receiveOff && !clear }
      cntrl5 := { s.cntrl5 with rxCecInt := s.cntrl5.rxCecInt && !clear }
      fTxRegWhileBusy := s.fTxRegWhileBusy ||
        (s.txState == .txBusy && (start != s.cntrl1.startXmitBegin || len != s.cntrl1.messageLength))
      txState :=
        if starts then .txBusy
        else if s.cntrl1.startXmitBegin && !start && s.txState == .txDone then .txIdle
        else s.txState
      txLen := if starts then len.toNat + 1 else s.txLen
      txBytes := if starts then s.txData else s.txBytes
      txAttempt := if starts then 0 else s.txAttempt }

/-- R94, R96, R98: a write of `CEC_CNTRL_2`, `3` or `4` stores its timing counts and changes nothing else; bit 31 of
`CEC_CNTRL_2` keeps its value (R90). -/
def Obligations.WriteOfTimingRegisters : Prop :=
  ∀ (v : Word) (s : State), s.powered = true →
    exec (.wrCecCntrl2 v) s = .next { s with
      cntrl2 := { s.cntrl2 with
        cnt1500 := v.extractLsb' 24 7
        cnt1300 := v.extractLsb' 17 7
        cnt800 := v.extractLsb' 11 6
        cnt600 := v.extractLsb' 5 6
        cnt400 := v.extractLsb' 0 5 } } ∧
    exec (.wrCecCntrl3 v) s = .next { s with
      cntrl3 := {
        cnt2750 := v.extractLsb' 24 8
        cnt2400 := v.extractLsb' 16 8
        cnt2050 := v.extractLsb' 8 8
        cnt1700 := v.extractLsb' 0 8 } } ∧
    exec (.wrCecCntrl4 v) s = .next { s with
      cntrl4 := {
        cnt4300 := v.extractLsb' 24 8
        cnt3900 := v.extractLsb' 16 8
        cnt3600 := v.extractLsb' 8 8
        cnt3500 := v.extractLsb' 0 8 } }

/-- R100, R124, R129: what a write of `CEC_CNTRL_5` leaves, in every state of the engines. -/
def Obligations.WriteOfControl5 : Prop :=
  ∀ (v : Word) (s : State), s.powered = true →
    exec (.wrCecCntrl5 v) s = .next { s with
      cntrl5 := { s.cntrl5 with
        txSwReset := v.getLsbD 27
        rxSwReset := v.getLsbD 26
        padSwReset := v.getLsbD 25
        muxTpOutCec := v.getLsbD 24
        rxCecInt := s.cntrl5.rxCecInt && !v.getLsbD 26
        clkPreload := v.extractLsb' 16 7
        cnt4700 := v.extractLsb' 8 8
        cnt4500 := v.extractLsb' 0 8 }
      cntrl1 := { s.cntrl1 with receiveOff := s.cntrl1.receiveOff && !v.getLsbD 26 }
      txState :=
        if v.getLsbD 27 then .txReset else if s.txState = .txReset then .txIdle else s.txState
      txAttempt := if v.getLsbD 27 then 0 else s.txAttempt }

/-- R102, R57: a write of transmit data word `w` stores its four bytes and no other, in every state of the transmit
engine, and is a fault during `TX_BUSY`. -/
def Obligations.WriteOfTransmitData : Prop :=
  ∀ (w : BitVec 10) (v : Word) (s : State), s.powered = true → w.toNat < 4 → ∃ data : Bytes16,
    exec (.wrCecTxData w v) s = .next { s with
      txData := data
      fTxRegWhileBusy := s.fTxRegWhileBusy || s.txState == .txBusy } ∧
    (∀ k, k < 4 → Bytes16.at data (4 * w.toNat + k) = v.extractLsb' (8 * k) 8) ∧
    ∀ i, i < 16 → (i < 4 * w.toNat ∨ 4 * w.toNat + 4 ≤ i) → Bytes16.at data i = Bytes16.at s.txData i

/-- R105, R106, R108, R109: each of the four set and clear writes refuses a 1 outside bit `c`, and otherwise acts on
the CEC source's bit exactly when bit `c` is 1; nothing else changes. That the mark keeps the reason of an earlier
refusal is the model's choice (log 9). -/
def Obligations.WriteOfInterruptWords : Prop :=
  ∀ (v : Word) (s : State), s.powered = true →
    let c := s.variant.irqBit
    (¬OnlyBit c v →
      let t := { s with refused := s.refused.or (some .otherIrqSource) }
      exec (.wrCecCpuSet v) s = .next t ∧ exec (.wrCecCpuClear v) s = .next t ∧
      exec (.wrCecCpuMaskSet v) s = .next t ∧ exec (.wrCecCpuMaskClear v) s = .next t) ∧
    (OnlyBit c v →
      exec (.wrCecCpuSet v) s = .next { s with cpuStatus := s.cpuStatus || v.getLsbD c.val } ∧
      exec (.wrCecCpuClear v) s = .next { s with cpuStatus := s.cpuStatus && !v.getLsbD c.val } ∧
      exec (.wrCecCpuMaskSet v) s = .next { s with cpuMask := s.cpuMask || v.getLsbD c.val } ∧
      exec (.wrCecCpuMaskClear v) s = .next { s with cpuMask := s.cpuMask && !v.getLsbD c.val })

/-- R111, R43: a write of the packet-RAM configuration stores every bit, moves no status bit, and clears the torn
flag of every slot that is then stopped. -/
def Obligations.WriteOfPacketConfig : Prop :=
  ∀ (v : Word) (s : State), s.powered = true → ∃ (en torn : BitVec 16),
    exec (.wrRamPacketConfig v) s = .next { s with
      pktConfig := { cfgOther := v.extractLsb' 17 15, ramPacketEnable := v.getLsbD 16, slotEn := en }
      slotTorn := torn } ∧
    ∀ k, k < 16 → en.getLsbD k = v.getLsbD k ∧ torn.getLsbD k = StillTorn s en k

/-- R113, R56, R57, R43: a write of packet-RAM word `w` stores its four bytes and no other. With packet RAM off the
word stored is a free value and `F_PKT_RAM_OFF` is raised; the slot is torn if it is enabled or emitting. -/
def Obligations.WriteOfPacketRam : Prop :=
  ∀ (w : BitVec 10) (v : Word) (s : State), s.powered = true → w.toNat < 144 →
    Memory.wf s.packetRam = true → ∃ (m : Memory) (torn : BitVec 16),
    exec (.wrPacketRam w v) s = .next { s with
      packetRam := m
      slotTorn := torn
      fPktRamOff := s.fPktRamOff || !s.pktConfig.ramPacketEnable
      draws := s.draws + if s.pktConfig.ramPacketEnable then 0 else 1 } ∧
    (∀ k, k < 4 → Memory.read m (4 * w.toNat + k) =
      (if s.pktConfig.ramPacketEnable then v else Config.drawWord s.draws).extractLsb' (8 * k) 8) ∧
    (∀ a, a < 4 * w.toNat ∨ 4 * w.toNat + 4 ≤ a → Memory.read m a = Memory.read s.packetRam a) ∧
    ∀ k, k < 16 → torn.getLsbD k = (s.slotTorn.getLsbD k ||
      (k == w.toNat / 9 && (s.pktConfig.slotEn.getLsbD k || s.slotSt.getLsbD k)))

/-! ## Engine events -/

/-- R119, R120, R121: an attempt that ends in `TX_BUSY`: it completes the transmit when it is acknowledged or is the
second one, and otherwise only counts. -/
def Obligations.TransmitAttemptEnds : Prop :=
  ∀ (acked : Bool) (s : State), s.powered = true → s.txState = .txBusy →
    exec (.evTxAttempt acked) s =
      if acked = true ∨ s.txAttempt + 1 = 2 then
        .next { s with
          txAttempt := s.txAttempt + 1
          cntrl1 := { s.cntrl1 with txStatusGood := acked }
          txState := .txDone
          cpuStatus := true }
      else .next { s with txAttempt := s.txAttempt + 1 }

/-- R126, R127, R78: a frame of 1 to 16 bytes completes in a listening receiver: its bytes, free values past its end,
its length less one, and the three status bits. -/
def Obligations.ReceivedFrameCompletes : Prop :=
  ∀ (frame : List Byte) (s : State), s.powered = true → 1 ≤ frame.length → frame.length ≤ 16 →
    s.cntrl5.rxSwReset = false → s.cntrl1.receiveOff = false → s.cntrl1.clearReceiveOff = false →
    ∃ data : Bytes16,
      exec (.evRxFrame frame) s = .next { s with
        rxData := data
        cntrl1 := { s.cntrl1 with recLen := BitVec.ofNat 4 (frame.length - 1), receiveOff := true }
        cntrl5 := { s.cntrl5 with rxCecInt := true }
        cpuStatus := true
        draws := s.draws + 4 } ∧
      ∀ i, i < 16 → Bytes16.at data i =
        if i < frame.length then frame.getD i 0 else drawn s.draws i

/-- R131: the spurious event sets the status bit of the CEC source and changes nothing else. -/
def Obligations.SpuriousEventSetsStatus : Prop :=
  ∀ s : State, s.powered = true → s.variant.allowSpurious = true →
    exec .evCecSpurious s = .next { s with cpuStatus := true }

/-- R161, R43: a status bit that may move takes its new value, the other status bits stay, and the torn flag is
cleared when the slot is then stopped. -/
def Obligations.SlotStatusMoves : Prop :=
  ∀ (slot : BitVec 5) (b : Bool) (s : State), s.powered = true → slot.toNat < 16 →
    s.slotSt.getLsbD slot.toNat = !b →
    (s.pktConfig.ramPacketEnable = true → s.pktConfig.slotEn.getLsbD slot.toNat = b) →
    ∃ (st torn : BitVec 16),
      exec (.evPktStatus slot b) s = .next { s with slotSt := st, slotTorn := torn } ∧
      ∀ k, k < 16 →
        st.getLsbD k = (if k = slot.toNat then b else s.slotSt.getLsbD k) ∧
        torn.getLsbD k = (s.slotTorn.getLsbD k &&
          !(k == slot.toNat && !b && !s.pktConfig.slotEn.getLsbD k))

/-- R114, R119, R126, R127, R130, R131, R135, R161, R196: the steps that are not enabled: an engine event outside its
state, a frame of no bytes or more than 16, any engine event while unpowered, a handler that may not start, and an
operation on an agent that runs one. That such a step stops the model is its own choice (log 10): the spec has no
such step. -/
def Obligations.StepsNotEnabledStop : Prop :=
  ∀ s : State,
    (∀ acked, s.powered = true → s.txState ≠ .txBusy →
      exec (.evTxAttempt acked) s = .fault .txNotBusy) ∧
    (∀ frame : List Byte, s.powered = true → 1 ≤ frame.length → frame.length ≤ 16 →
      (s.cntrl5.rxSwReset = true ∨ s.cntrl1.receiveOff = true ∨ s.cntrl1.clearReceiveOff = true) →
      exec (.evRxFrame frame) s = .fault .receiverNotListening) ∧
    (∀ frame : List Byte, frame.length = 0 ∨ 16 < frame.length →
      exec (.evRxFrame frame) s = .fault .noSuchFrame) ∧
    (s.powered = true → s.variant.allowSpurious = false →
      exec .evCecSpurious s = .fault .spuriousNotAllowed) ∧
    (∀ (slot : BitVec 5) (b : Bool), s.powered = true → slot.toNat < 16 →
      (s.slotSt.getLsbD slot.toNat = b ∨
        (s.pktConfig.ramPacketEnable = true ∧ s.pktConfig.slotEn.getLsbD slot.toNat ≠ b)) →
      exec (.evPktStatus slot b) s = .fault .statusMayNotMove) ∧
    (s.powered = false →
      (∀ acked, exec (.evTxAttempt acked) s = .fault .eventUnpowered) ∧
      (∀ frame : List Byte, 1 ≤ frame.length → frame.length ≤ 16 →
        exec (.evRxFrame frame) s = .fault .eventUnpowered) ∧
      exec .evCecSpurious s = .fault .eventUnpowered ∧
      ∀ (slot : BitVec 5) (b : Bool), slot.toNat < 16 →
        exec (.evPktStatus slot b) s = .fault .eventUnpowered) ∧
    (s.hard.run = none → (s.cpuStatus = false ∨ s.cpuMask = true) → s.variant.allowSpurious = false →
      exec .cecIrqHard s = .fault .irqLineLow) ∧
    (s.thread.run = none → s.mailboxFull = false → exec .cecIrqThread s = .fault .mailboxEmpty) ∧
    ∀ (i : Instr) (a : Agent), StartsOn a i → (s.agent a).run ≠ none →
      exec i s = .fault .agentBusy

/-! ## CEC host operations -/

/-- R137, R81: `CEC_INIT` run alone: the host variables cleared, the CEC source masked, address `0xF` and the
divider set, every other field kept (a held clear-bit is written back and clears again, R92); a divider of 4096 or
more is refused before anything happens (log 18). That the mark keeps the reason of an earlier refusal is the
model's choice (log 9). -/
def Obligations.InitSetsUpTheInstance : Prop :=
  ∀ s : State, ProcReady s → s.powered = true →
    (s.variant.inputClockHz / 40000 < 4096 →
      exec .cecInit s = .next { s with
        rxMsg := { len := 0, bytes := Vector.replicate 16 0 }
        irqWasRx := false
        txOk := false
        mailboxFull := false
        cpuMask := true
        cntrl1 := { s.cntrl1 with
          addr := 0xF
          divClkCnt := BitVec.ofNat 12 (s.variant.inputClockHz / 40000)
          receiveOff := s.cntrl1.receiveOff && !s.cntrl1.clearReceiveOff }
        cntrl5 := { s.cntrl5 with rxCecInt := s.cntrl5.rxCecInt && !s.cntrl1.clearReceiveOff }
        proc := done .ok
        draws := s.draws + 3 }) ∧
    (4096 ≤ s.variant.inputClockHz / 40000 →
      exec .cecInit s = .next { s with
        refused := s.refused.or (some .badConfig)
        proc := refusedWith .badConfig
        draws := s.draws + 2 })

/-- R138, R80: `CEC_ENABLE` run alone: the fifteen counts, both engines reset and released, the source unmasked; the
status bit and every other field kept. -/
def Obligations.EnableProgramsAndReleases : Prop :=
  ∀ s : State, ProcReady s → s.powered = true →
    exec .cecEnable s = .next { s with
      cntrl1 := { s.cntrl1 with receiveOff := false }
      cntrl2 := { s.cntrl2 with
        cnt1500 := 60, cnt1300 := 52, cnt800 := 32, cnt600 := 24, cnt400 := 16 }
      cntrl3 := { cnt2750 := 110, cnt2400 := 96, cnt2050 := 82, cnt1700 := 68 }
      cntrl4 := { cnt4300 := 172, cnt3900 := 156, cnt3600 := 144, cnt3500 := 140 }
      cntrl5 := { s.cntrl5 with
        txSwReset := false, rxSwReset := false, rxCecInt := false, cnt4700 := 188, cnt4500 := 180 }
      txState := .txIdle
      txAttempt := 0
      cpuMask := false
      proc := done .ok
      draws := s.draws + 3 }

/-- R139, R124, R129: `CEC_DISABLE` run alone: the source masked and both engines held in reset; a transmit in
progress and a frame not yet handled are dropped, the status bit and the mailbox stay. -/
def Obligations.DisableHoldsBothEngines : Prop :=
  ∀ s : State, ProcReady s → s.powered = true →
    exec .cecDisable s = .next { s with
      cpuMask := true
      cntrl1 := { s.cntrl1 with receiveOff := false }
      cntrl5 := { s.cntrl5 with txSwReset := true, rxSwReset := true, rxCecInt := false }
      txState := .txReset
      txAttempt := 0
      proc := done .ok
      draws := s.draws + 3 }

/-- R140, R79: `CEC_SET_LOG_ADDR` run alone sets the address and keeps every other field, in every state of the
transmit engine (a held clear-bit is written back and clears again, R92). -/
def Obligations.SetLogAddrPreservesTheRest : Prop :=
  ∀ (la : BitVec 4) (s : State), ProcReady s → s.powered = true →
    exec (.cecSetLogAddr la) s = .next { s with
      cntrl1 := { s.cntrl1 with
        addr := la
        receiveOff := s.cntrl1.receiveOff && !s.cntrl1.clearReceiveOff }
      cntrl5 := { s.cntrl5 with rxCecInt := s.cntrl5.rxCecInt && !s.cntrl1.clearReceiveOff }
      proc := done .ok
      draws := s.draws + 3 }

/-- R141, R78, R82, R117: `CEC_TRANSMIT` of 1 to 16 bytes run alone, in every state of the transmit engine: the
message with free pad bytes (D24) in the words it needs, the length less one, the transmit-begin bit cleared and
set; from `TX_IDLE`, or from `TX_DONE` with the bit still 1, the engine starts with the frame latched, and what it
sends on the wire is the message, byte for byte, and no pad byte; during `TX_BUSY` it is a fault. -/
def Obligations.TransmitStartsTheFrame : Prop :=
  ∀ (msg : List Byte) (s : State), ProcReady s → s.powered = true → 1 ≤ msg.length → msg.length ≤ 16 →
    ∃ (data : Bytes16) (t : State),
      let words := (msg.length + 3) / 4
      let starts : Bool := s.txState == .txIdle || (s.txState == .txDone && s.cntrl1.startXmitBegin)
      exec (.cecTransmit msg) s = .next t ∧
      t = { s with
        txData := data
        cntrl1 := { s.cntrl1 with
          messageLength := BitVec.ofNat 4 (msg.length - 1)
          startXmitBegin := true
          receiveOff := s.cntrl1.receiveOff && !s.cntrl1.clearReceiveOff }
        cntrl5 := { s.cntrl5 with rxCecInt := s.cntrl5.rxCecInt && !s.cntrl1.clearReceiveOff }
        txState := if starts then .txBusy else s.txState
        txLen := if starts then msg.length else s.txLen
        txBytes := if starts then data else s.txBytes
        txAttempt := if starts then 0 else s.txAttempt
        fTxRegWhileBusy := s.fTxRegWhileBusy || s.txState == .txBusy
        proc := done .ok
        draws := s.draws + 3 + words } ∧
      (starts = true → t.wireFrame = some msg) ∧
      ∀ i, i < 16 → Bytes16.at data i =
        if i < msg.length then msg.getD i 0
        else if i < 4 * words then
          (Config.drawWord (s.draws + 2 + i / 4)).extractLsb' (8 * (i % 4)) 8
        else Bytes16.at s.txData i

/-- R141 steps 1 and 2, R182: a message of more than 16 bytes is answered `E_TOO_LARGE`, and one of no bytes is
refused, with no register access; only the operation's record, the mark and the model's draw counter change. That
the mark keeps the reason of an earlier refusal is the model's choice (log 9). -/
def Obligations.TransmitOfBadLengthTouchesNothing : Prop :=
  ∀ (msg : List Byte) (s : State), ProcReady s →
    (16 < msg.length →
      exec (.cecTransmit msg) s = .next { s with proc := done .eTooLarge, draws := s.draws + 2 }) ∧
    (msg.length = 0 →
      exec (.cecTransmit msg) s = .next { s with
        refused := s.refused.or (some .badLength)
        proc := refusedWith .badLength
        draws := s.draws + 2 })

/-- R142, RX path: with a frame pending the hard handler run alone copies the frame's words into the receive
buffer, takes its length, pulses the clear-bit, clears the status bit, fills the mailbox and wakes the thread; a
second received event before the first was drained is the overrun fault (R207). A transmit completion pending with
it is cleared unreported (R206): `tx_state` and `START_XMIT_BEGIN` stay. On a masked
source it does so where the instance follows R142's step 2 rather than R185, the model's parameter (log 23). -/
def Obligations.HardHandlerTakesTheFrame : Prop :=
  ∀ s : State, HardReady s → s.powered = true → HardGoesOn s → s.cntrl5.rxCecInt = true →
    ∃ bytes : Bytes16,
      let n := s.cntrl1.recLen.toNat + 1
      let words := (n + 3) / 4
      exec .cecIrqHard s = .next { s with
        rxMsg := { len := n, bytes := bytes }
        irqWasRx := true
        cntrl1 := { s.cntrl1 with clearReceiveOff := false, receiveOff := false }
        cntrl5 := { s.cntrl5 with rxCecInt := false }
        cpuStatus := false
        fMailboxOverrun := s.fMailboxOverrun || (s.mailboxFull && s.irqWasRx)
        mailboxFull := true
        hard := done .irqWakeThread
        draws := s.draws + 5 + words } ∧
      ∀ i, i < 16 → Bytes16.at bytes i =
        if i < 4 * words then Bytes16.at s.rxData i else Bytes16.at s.rxMsg.bytes i

/-- R142, TX path and step 2: with no frame pending the hard handler run alone captures `TX_STATUS_GOOD`, clears the
transmit-begin bit (which ends `TX_DONE`, and is a fault during `TX_BUSY`, R208), clears the status bit, fills the
mailbox and wakes the thread, whatever set the status bit; with the status bit clear it answers `IRQ_NONE` and changes
no register and no host variable. With the status bit set and the source masked, it takes the path where the instance
follows R142's step 2, and answers `IRQ_NONE` where it follows R185; the parameter is the model's (log 23). -/
def Obligations.HardHandlerTransmitPath : Prop :=
  ∀ s : State, HardReady s → s.powered = true →
    (HardGoesOn s → s.cntrl5.rxCecInt = false →
      exec .cecIrqHard s = .next { s with
        rxMsg := { s.rxMsg with len := 0 }
        irqWasRx := false
        txOk := s.cntrl1.txStatusGood
        cntrl1 := { s.cntrl1 with
          startXmitBegin := false
          receiveOff := s.cntrl1.receiveOff && !s.cntrl1.clearReceiveOff }
        txState :=
          if s.cntrl1.startXmitBegin && s.txState == .txDone then .txIdle else s.txState
        fTxRegWhileBusy := s.fTxRegWhileBusy ||
          (s.txState == .txBusy && s.cntrl1.startXmitBegin)
        cpuStatus := false
        fMailboxOverrun := s.fMailboxOverrun || (s.mailboxFull && !s.irqWasRx)
        mailboxFull := true
        hard := done .irqWakeThread
        draws := s.draws + 5 }) ∧
    (s.cpuStatus = false ∨ (s.cpuMask = true ∧ s.variant.onLineLow = .irqNone) →
      exec .cecIrqHard s = .next { s with hard := done .irqNone, draws := s.draws + 3 })

/-- R143, R136: the threaded handler run alone reports the event in the mailbox and empties it, with no access to a
register, powered or not. -/
def Obligations.ThreadReportsAndDrains : Prop :=
  ∀ s : State, ThreadReady s →
    exec .cecIrqThread s = .next { s with
      emitted := s.emitted ++ report s
      mailboxFull := false
      thread := done .irqHandled
      draws := s.draws + 2 }

/-! ## Packet operations -/

/-- R165, R166: `PKT_RAM_ENABLE` and `PKT_RAM_DISABLE` run alone set and clear the enable and keep the slot enable
bits, the slot contents and the status bits; the write clears the torn flags of stopped slots (R111). -/
def Obligations.PacketRamOnAndOff : Prop :=
  ∀ s : State, ProcReady s → s.powered = true → ∃ torn : BitVec 16,
    exec .pktRamEnable s = .next { s with
      pktConfig := { s.pktConfig with ramPacketEnable := true }
      slotTorn := torn
      proc := done .ok
      draws := s.draws + 3 } ∧
    exec .pktRamDisable s = .next { s with
      pktConfig := { s.pktConfig with ramPacketEnable := false }
      slotTorn := torn
      proc := done .ok
      draws := s.draws + 3 } ∧
    ∀ k, k < 16 → torn.getLsbD k = StillTorn s s.pktConfig.slotEn k

/-- R167, R164: `PKT_STOP` run alone clears the slot's enable bit. With the status bit already clear it answers `OK`
at the first poll; with it set and no scheduler step it answers `E_STOP_TIMEOUT` after exactly the polls its bound
allows (how many is the model's reading of the bound, log 13). -/
def Obligations.StopPollsTheStatusBit : Prop :=
  ∀ (ty : Byte) (slot : Nat) (s : State), TypeSlot ty slot → ProcReady s → s.powered = true →
    ∃ (en torn : BitVec 16),
      exec (.pktStop ty) s = .next { s with
        pktConfig := { s.pktConfig with slotEn := en }
        slotTorn := torn
        proc := done (if s.slotSt.getLsbD slot then .eStopTimeout else .ok)
        draws := s.draws + 3 + if s.slotSt.getLsbD slot then polls s 0 else 1 } ∧
      ∀ k, k < 16 → en.getLsbD k = (k != slot && s.pktConfig.slotEn.getLsbD k) ∧
        torn.getLsbD k = StillTorn s en k

/-- R167, R161, R10: `PKT_STOP` with the scheduler between its fourth step and its poll: the status bit clears, the
slot is stopped and no longer torn, and the outcome is `OK`. The plan is the model's schedule (log 12). -/
def Obligations.StopWaitsForTheScheduler : Prop :=
  ∀ (ty : Byte) (slot : Nat) (s : State), TypeSlot ty slot →
    s.plan = List.replicate 4 (.advance .proc) ++ [.issue (0xC4000000 ||| BitVec.ofNat 32 slot) []] →
    s.proc.run = none → s.hard.run = none → s.powered = true → s.slotSt.getLsbD slot = true →
    ∃ (en st torn : BitVec 16),
      exec (.pktStop ty) s = .next { s with
        pktConfig := { s.pktConfig with slotEn := en }
        slotSt := st
        slotTorn := torn
        plan := []
        proc := done .ok
        draws := s.draws + 4 } ∧
      ∀ k, k < 16 → en.getLsbD k = (k != slot && s.pktConfig.slotEn.getLsbD k) ∧
        st.getLsbD k = (k != slot && s.slotSt.getLsbD k) ∧
        torn.getLsbD k = (k != slot && StillTorn s en k)

/-- R168, R156, R161, R170: `PKT_WRITE` with packet RAM on, of a slot that is stopped or of one that emits and that
the scheduler stops before the first poll, the scheduler taking the slot right after its enable: the image stands at
the slot's words and no other byte changes, the slot is enabled, emitting and not torn, and the outcome is `OK`. The
plan is the model's schedule (log 12). -/
def Obligations.WriteEnablesTheNewContent : Prop :=
  ∀ (ty : Byte) (rec : Record) (slot : Nat) (s : State), TypeSlot ty slot → KindMatches ty rec →
    s.plan = List.replicate 7 (.advance .proc) ++
      (if s.slotSt.getLsbD slot then [.issue (0xC4000000 ||| BitVec.ofNat 32 slot) []] else []) ++
      List.replicate (5 + (ramWords (packRecord rec)).length) (.advance .proc) ++
      [.issue (0xC4000100 ||| BitVec.ofNat 32 slot) []] →
    s.proc.run = none → s.hard.run = none → s.powered = true → Memory.wf s.packetRam = true →
    s.pktConfig.ramPacketEnable = true →
    ∃ (m : Memory) (en st torn : BitVec 16),
      exec (.pktWrite ty rec) s = .next { s with
        packetRam := m
        pktConfig := { s.pktConfig with slotEn := en }
        slotSt := st
        slotTorn := torn
        plan := []
        proc := done .ok
        draws := s.draws + 7 } ∧
      HoldsImage s.packetRam m rec slot ∧ TornAfterWrite s ty slot torn ∧
      ∀ k, k < 16 → en.getLsbD k = (k == slot || s.pktConfig.slotEn.getLsbD k) ∧
        st.getLsbD k = (k == slot || s.slotSt.getLsbD k)

/-- R168 step 12, R113: a write of a stopped slot run alone, with no scheduler step, is written and enabled and
answers `E_START_TIMEOUT`. With packet RAM off it is also the fault `F_PKT_RAM_OFF`, its steps go on, and each word
stored is a free value (log 6). -/
def Obligations.WriteMayTimeOutAtTheStart : Prop :=
  ∀ (ty : Byte) (rec : Record) (slot : Nat) (s : State), TypeSlot ty slot → KindMatches ty rec →
    ProcReady s → s.powered = true → Memory.wf s.packetRam = true → s.slotSt.getLsbD slot = false →
    ∃ (m : Memory) (en torn : BitVec 16),
      exec (.pktWrite ty rec) s = .next { s with
        packetRam := m
        pktConfig := { s.pktConfig with slotEn := en }
        slotTorn := torn
        fPktRamOff := s.fPktRamOff || !s.pktConfig.ramPacketEnable
        proc := done .eStartTimeout
        draws := s.draws + 6 + polls s 1 + wordDraws s rec } ∧
      HoldsImageOrDraws s m rec slot (s.draws + 5) ∧ TornAfterWrite s ty slot torn ∧
      ∀ k, k < 16 → en.getLsbD k = (k == slot || s.pktConfig.slotEn.getLsbD k)

/-- R168 step 7, R203: a write whose Stop times out, run alone, with packet RAM on or off (off is also the fault of
step 5). Under `ABORT` it writes no byte of packet RAM, leaves the slot disabled and answers `E_STOP_TIMEOUT`. Under
`PROCEED` it writes the live slot, which is torn then, enables it, and answers `OK` at the first poll, since the
status bit never cleared; with packet RAM off each word stored is a free value (log 6). -/
def Obligations.WriteWhoseStopTimesOut : Prop :=
  ∀ (ty : Byte) (rec : Record) (slot : Nat) (s : State), TypeSlot ty slot → KindMatches ty rec →
    ProcReady s → s.powered = true → s.slotSt.getLsbD slot = true →
    (s.variant.onStopTimeout = .abort → ∃ (en torn : BitVec 16),
      exec (.pktWrite ty rec) s = .next { s with
        pktConfig := { s.pktConfig with slotEn := en }
        slotTorn := torn
        fPktRamOff := s.fPktRamOff || !s.pktConfig.ramPacketEnable
        proc := done .eStopTimeout
        draws := s.draws + 4 + polls s 0 } ∧
      ∀ k, k < 16 → en.getLsbD k = (k != slot && s.pktConfig.slotEn.getLsbD k) ∧
        torn.getLsbD k = StillTorn s en k) ∧
    (s.variant.onStopTimeout = .proceed → Memory.wf s.packetRam = true →
      ∃ (m : Memory) (en torn : BitVec 16),
      exec (.pktWrite ty rec) s = .next { s with
        packetRam := m
        pktConfig := { s.pktConfig with slotEn := en }
        slotTorn := torn
        fPktRamOff := s.fPktRamOff || !s.pktConfig.ramPacketEnable
        proc := done .ok
        draws := s.draws + 6 + polls s 0 + wordDraws s rec } ∧
      HoldsImageOrDraws s m rec slot (s.draws + 4 + polls s 0) ∧
      ∀ k, k < 16 → en.getLsbD k = (k == slot || s.pktConfig.slotEn.getLsbD k) ∧
        torn.getLsbD k = (k == slot || (s.pktConfig.slotEn.getLsbD k || s.slotSt.getLsbD k) &&
          (s.slotTorn.getLsbD k || (ty == 0x83#8 && k == 4))))

/-- R159, R167 step 1, R168 step 1: a type other than the three, or a record of another kind, is refused with
`BAD_TYPE` before any register is touched. That the mark keeps the reason of an earlier refusal is the model's
choice (log 9). -/
def Obligations.BadTypeIsRefused : Prop :=
  ∀ (ty : Byte) (rec : Record) (s : State), ProcReady s →
    let t := { s with
      refused := s.refused.or (some .badType)
      proc := refusedWith .badType
      draws := s.draws + 2 }
    (ty ≠ 0x82#8 → ty ≠ 0x83#8 → ty ≠ 0x84#8 → exec (.pktStop ty) s = .next t) ∧
    (¬KindMatches ty rec → exec (.pktWrite ty rec) s = .next t)

/-! ## Infoframes -/

/-- R149, R146, R147: `IF_PACK_AVI` answers the 36-byte buffer of an AVI infoframe, field by field and bit by bit,
with length 17 and its bytes summing to 0 modulo 256, and changes nothing else. -/
def Obligations.AviBufferIsPacked : Prop :=
  ∀ (r : AviRecord) (s : State), ∃ buf : List Byte,
    exec (.ifPackAvi r) s = .next { s with packed := some { buf := buf, plen := 17 } } ∧
    buf.length = 36 ∧ ((buf.take 17).map BitVec.toNat).sum % 256 = 0 ∧
    (let b := fun i => buf.getD i 0
     b 0 = 0x82 ∧ b 1 = 2 ∧ b 2 = 13 ∧
     (b 4).getLsbD 7 = false ∧ (b 4).extractLsb' 5 2 = r.y ∧ ((b 4).getLsbD 4 = true ↔ r.r ≠ 0) ∧
     ((b 4).getLsbD 3 = true ↔ r.top ≠ 0 ∨ r.bottom ≠ 0) ∧
     ((b 4).getLsbD 2 = true ↔ r.left ≠ 0 ∨ r.right ≠ 0) ∧ (b 4).extractLsb' 0 2 = r.s ∧
     (b 5).extractLsb' 6 2 = r.c ∧ (b 5).extractLsb' 4 2 = r.m ∧ (b 5).extractLsb' 0 4 = r.r ∧
     (b 6).extractLsb' 7 1 = r.itc ∧ (b 6).extractLsb' 4 3 = r.ec ∧ (b 6).extractLsb' 2 2 = r.q ∧
     (b 6).extractLsb' 0 2 = r.sc ∧ (b 7).getLsbD 7 = false ∧
     (b 7).extractLsb' 0 7 = r.vic.extractLsb' 0 7 ∧
     (b 8).extractLsb' 6 2 = r.yq ∧ (b 8).extractLsb' 4 2 = r.cn ∧ (b 8).extractLsb' 0 4 = r.pr ∧
     b 10 ++ b 9 = r.top ∧ b 12 ++ b 11 = r.bottom ∧ b 14 ++ b 13 = r.left ∧ b 16 ++ b 15 = r.right ∧
     ∀ i, 17 ≤ i → i < 36 → b i = 0)

/-- R151, R150, R146, R147: `IF_PACK_SPD` answers the 36-byte buffer of an SPD infoframe, each string cut or
zero-padded to its width, with length 29 and its bytes summing to 0 modulo 256, and changes nothing else. -/
def Obligations.SpdBufferIsPacked : Prop :=
  ∀ (r : SpdRecord) (s : State), ∃ buf : List Byte,
    exec (.ifPackSpd r) s = .next { s with packed := some { buf := buf, plen := 29 } } ∧
    buf.length = 36 ∧ ((buf.take 29).map BitVec.toNat).sum % 256 = 0 ∧
    (let b := fun i => buf.getD i 0
     b 0 = 0x83 ∧ b 1 = 1 ∧ b 2 = 25 ∧
     (∀ i, i < 8 → b (4 + i) = r.vendor.getD i 0) ∧
     (∀ i, i < 16 → b (12 + i) = r.product.getD i 0) ∧
     b 28 = r.sdi ∧ ∀ i, 29 ≤ i → i < 36 → b i = 0)

/-- R153, R152, R146, R147: `IF_PACK_AUDIO` answers the 36-byte buffer of an Audio infoframe, field by field, with
length 14 and its bytes summing to 0 modulo 256, and changes nothing else; 0 and 1 channels pack alike. -/
def Obligations.AudioBufferIsPacked : Prop :=
  ∀ (r : AudioRecord) (s : State), r.ch ≤ 8 → ∃ buf : List Byte,
    exec (.ifPackAudio r) s = .next { s with packed := some { buf := buf, plen := 14 } } ∧
    buf.length = 36 ∧ ((buf.take 14).map BitVec.toNat).sum % 256 = 0 ∧
    (let b := fun i => buf.getD i 0
     b 0 = 0x84 ∧ b 1 = 1 ∧ b 2 = 10 ∧
     (b 4).extractLsb' 4 4 = r.ct ∧ ((b 4).extractLsb' 0 4).toNat = r.ch - 1 ∧
     (b 5).extractLsb' 5 3 = 0 ∧ (b 5).extractLsb' 2 3 = r.sf ∧ (b 5).extractLsb' 0 2 = r.ss ∧
     (b 6).extractLsb' 5 3 = 0 ∧ (b 6).extractLsb' 0 5 = r.cxt ∧ b 7 = r.ca ∧
     (b 8).extractLsb' 7 1 = r.dmInh ∧ (b 8).extractLsb' 3 4 = r.lsv ∧ (b 8).getLsbD 2 = false ∧
     (b 8).extractLsb' 0 2 = r.lfepbl ∧
     ∀ i, 9 ≤ i → i < 36 → b i = 0)

/-- R147: for every record, the checksum byte is 256 less the sum of the other bytes of the infoframe, modulo 256,
and the bytes sum to 0 modulo 256. -/
def Obligations.InfoframeChecksum : Prop :=
  ∀ rec : Record,
    let p := packRecord rec
    let others := ((List.range p.plen).filter (fun i => i != 3)).map fun i => (p.buf.getD i 0).toNat
    (p.buf.getD 3 0).toNat = (256 - others.sum % 256) % 256 ∧
    ((p.buf.take p.plen).map BitVec.toNat).sum % 256 = 0

/-- R156: the word image of any buffer, word by word and byte by byte: two words per 7-byte chunk, the low three
bytes with a zero byte above them, then the high four. -/
def Obligations.RamWordsPackSevenBytes : Prop :=
  ∀ p : Packed, (ramWords p).length = 2 * ((p.plen + 6) / 7) ∧
    ∀ c, 7 * c < p.plen →
      (∀ k, k < 3 → ((ramWords p).getD (2 * c) 0).extractLsb' (8 * k) 8 = p.buf.getD (7 * c + k) 0) ∧
      ((ramWords p).getD (2 * c) 0).extractLsb' 24 8 = 0 ∧
      ∀ k, k < 4 →
        ((ramWords p).getD (2 * c + 1) 0).extractLsb' (8 * k) 8 = p.buf.getD (7 * c + 3 + k) 0

/-- R157: the word counts of the three images, and the SPD image's tenth word, always 0, which falls on word 36, the
first of the Audio slot. -/
def Obligations.WordCountsOfTheImages : Prop :=
  (∀ r, (ramWords (packAvi r)).length = 6) ∧
  (∀ r, (ramWords (packSpd r)).length = 10 ∧ (ramWords (packSpd r)).getD 9 1 = 0) ∧
  (∀ r, (ramWords (packAudio r)).length = 4) ∧
  (∀ rec : Record,
    (ramWords (packRecord rec)).length = 2 * (((packRecord rec).plen + 6) / 7)) ∧
  Config.pktStride / 4 = 9 ∧ 9 * slotOf 0x83 + 9 = 36 ∧ 36 = 9 * slotOf 0x84

/-! ## The whole machine -/

/-- R10, R135: every one of the eleven operations that may start, run alone, powered or not, with any operand, ends:
its agent runs nothing, an outcome or a refusal is returned, and the hard handler runs nothing. -/
def Obligations.OperationsRunToTheirEnd : Prop :=
  ∀ (i : Instr) (s : State), OpReady s i → ∃ t : State, exec i s = .next t ∧
    t.hard.run = none ∧ t.plan = [] ∧ t.feed = s.feed ∧ t.variant = s.variant ∧ t.powered = s.powered ∧
    ((i = .cecIrqHard → t.hard.ret.isSome = true ∧ t.proc = s.proc ∧ t.thread = s.thread) ∧
     (i = .cecIrqThread → t.thread.run = none ∧ t.thread.ret.isSome = true ∧ t.proc = s.proc) ∧
     (i ≠ .cecIrqHard → i ≠ .cecIrqThread →
       t.proc.run = none ∧ t.proc.ret.isSome = true ∧ t.thread = s.thread))

/-- R134 (a) to (d): every step, whatever happens in it and between the steps of an operation, keeps the engine
invariants. The rule claims them after the first engine reset; they are kept from any state that has them. -/
def Obligations.EngineInvariantIsKept : Prop :=
  ∀ s t : State, EngineInv s → step s = .next t → EngineInv t

/-- R39, R51: every step keeps the packet RAM in its canonical form with every listed address inside the 576 bytes
of the RAM, so that equal contents are equal data. The form is the model's (log 4). -/
def Obligations.PacketRamFormIsKept : Prop :=
  ∀ s t : State, Memory.wf s.packetRam = true → Memory.inRange s.packetRam = true → step s = .next t →
    Memory.wf t.packetRam = true ∧ Memory.inRange t.packetRam = true

/-- R48, R197: no step clears a fault bit or the REFUSED mark, unless the block is reset in it by power restored,
which the step's item or its plan would bring (log 5); the mark keeps the reason of the first refusal, the model's
choice (log 9). -/
def Obligations.StickyMarksStay : Prop :=
  ∀ s t : State, (∀ item rest, s.feed = item :: rest → ¬Safety.Brings true item) → step s = .next t →
    (s.fUnpowered = true → t.fUnpowered = true) ∧
    (s.fTxRegWhileBusy = true → t.fTxRegWhileBusy = true) ∧
    (s.fMailboxOverrun = true → t.fMailboxOverrun = true) ∧
    (s.fPktRamOff = true → t.fPktRamOff = true) ∧
    (s.refused.isSome = true → t.refused = s.refused)

/-- R2, R44: every step keeps the variant bound to the instance and the received message's length at most 16. -/
def Obligations.VariantAndReceiveBufferStay : Prop :=
  ∀ s t : State, s.rxMsg.len ≤ 16 → step s = .next t → t.variant = s.variant ∧ t.rxMsg.len ≤ 16

/-- R43, R44 to R46, R48, R197: what the spec gives the state after reset: every slot torn, the host variables at
their values at bind, no fault and no refusal; and the invariants above hold there. The values the spec leaves
unspecified are the model's (log 3, log 4) and only the invariants mention them. -/
def Obligations.ResetStateIsAsStated : Prop :=
  (∀ k, k < 16 → State.reset.slotTorn.getLsbD k = true) ∧
  State.reset.rxMsg = { len := 0, bytes := Vector.replicate 16 0 } ∧
  State.reset.irqWasRx = false ∧ State.reset.txOk = false ∧ State.reset.mailboxFull = false ∧
  State.reset.faulted = false ∧ State.reset.refused = none ∧
  EngineInv State.reset ∧ Memory.wf State.reset.packetRam = true ∧
  Memory.inRange State.reset.packetRam = true ∧ State.reset.rxMsg.len ≤ 16

/-- R196, R197: power lost, or kept on, changes nothing but the input; power restored gives every row of R197's table
its reset value: every slot torn, the fault bits and the mark clear (log 5), the engine variables in their bounds.
The values of the rows R197 leaves unspecified are the model's choice (log 3, log 4, log 5). The host variables and
everything else stay. -/
def Obligations.PowerChanges : Prop :=
  ∀ (s : State) (on : Bool) (rest : List Item), s.feed = .power on :: rest →
    (on = false ∨ s.powered = true → step s = .next { s with feed := rest, powered := on }) ∧
    (on = true → s.powered = false → ∃ t : State, step s = .next t ∧
      t = { s with
        feed := rest
        powered := true
        cntrl1 := {}
        cntrl2 := {}
        cntrl3 := {}
        cntrl4 := {}
        cntrl5 := {}
        txData := Vector.replicate 16 0
        rxData := Vector.replicate 16 0
        cpuStatus := false
        cpuMask := false
        pktConfig := {}
        slotSt := 0
        packetRam := []
        txState := .txIdle
        txAttempt := 0
        txLen := 1
        txBytes := Vector.replicate 16 0
        slotTorn := 0xFFFF
        fUnpowered := false
        fTxRegWhileBusy := false
        fMailboxOverrun := false
        fPktRamOff := false
        refused := none } ∧
      (∀ k, k < 16 → t.slotTorn.getLsbD k = true) ∧
      (t.txState = .txReset ↔ t.cntrl5.txSwReset = true) ∧ t.txAttempt < 2 ∧ 1 ≤ t.txLen ∧ t.txLen ≤ 16 ∧
      (∀ a, Memory.read t.packetRam a = Memory.unlisted) ∧ t.faulted = false)

/-- R163: a slot is emitted exactly while packet RAM is on and its status bit is set, and then, unless it is torn,
what is emitted is its nine words of packet RAM. -/
def Obligations.EmissionFollowsTheStatusBits : Prop :=
  ∀ (s : State) (slot : Nat), slot < 16 →
    (slot ∈ s.emittedSlots ↔ s.pktConfig.ramPacketEnable = true ∧ s.slotSt.getLsbD slot = true) ∧
    (s.emission slot = none ↔ slot ∉ s.emittedSlots) ∧
    (slot ∈ s.emittedSlots → s.slotTorn.getLsbD slot = false →
      ∃ ws : List Word, s.emission slot = some ws ∧ ws.length = 9 ∧
        ∀ k, k < 9 → ws.getD k 0 = Memory.readWord s.packetRam (9 * slot + k))

/-- R171, R158, R172: the video enable of an HDMI monitor issues the operations of the rule in its order, with the
device's one SPD record, the Audio write exactly when a stream is given, with `CA_UNKNOWN` where its lookup failed,
each under its own plan; R173: a DVI enable and a video disable issue one `PKT_RAM_DISABLE`; R175: the audio callers;
R174: audio startup reads the configuration once and ends with `E_NODEV` where packet RAM is off. R172: no
instruction changes what comes after it, so a caller goes on after any outcome. That a caller puts its operations at
the head of the feed, that audio startup is one operation under its plan and returns nothing where packet RAM is on
(log 17, log 1), and that it stops where HOST_PROC runs an operation (log 10; R135, R214) are the model's choices. -/
def Obligations.CallersIssueTheirOperations : Prop :=
  (∀ (s : State) (c : Caller) (plans : List (List Move)) (rest : List Item), s.feed = .call c plans :: rest →
    let issue (n : Nat) (i : Instr) : Item := .issue (encode i).1 (encode i).2 (plans.getD n [])
    let audio (st : Stream) : Instr := .pktWrite 0x84 (.audio
      { ch := st.ch, ct := 0, ss := 0, sf := 0, cxt := 0, ca := st.ca.getD s.variant.caUnknown,
        lsv := 0, dmInh := 0, lfepbl := 0 })
    (∀ avi, c = .videoEnableHdmi avi none →
      step s = .next { s with feed :=
        (issue 0 .pktRamEnable :: issue 1 (.pktWrite 0x82 (.avi avi)) ::
          issue 2 (.pktWrite 0x83 (.spd s.variant.spd)) :: rest) }) ∧
    (∀ avi st, c = .videoEnableHdmi avi (some st) →
      step s = .next { s with feed :=
        (issue 0 .pktRamEnable :: issue 1 (.pktWrite 0x82 (.avi avi)) ::
          issue 2 (.pktWrite 0x83 (.spd s.variant.spd)) :: issue 3 (audio st) :: rest) }) ∧
    (c = .videoEnableDvi ∨ c = .videoDisable →
      step s = .next { s with feed := issue 0 .pktRamDisable :: rest }) ∧
    (∀ st, c = .audioTriggerStart st → step s = .next { s with feed := issue 0 (audio st) :: rest }) ∧
    (c = .audioTriggerStop ∨ c = .audioShutdown false → step s = .next { s with feed := rest }) ∧
    (c = .audioShutdown true → step s = .next { s with feed := issue 0 (.pktStop 0x84) :: rest }) ∧
    (c = .audioStartup → s.proc.run = none → s.hard.run = none → plans.getD 0 [] = [] →
      let on : Bool :=
        if s.powered then s.pktConfig.ramPacketEnable else (Config.drawWord (s.draws + 2)).getLsbD 16
      step s = .next { s with
        feed := rest
        plan := []
        fUnpowered := s.fUnpowered || !s.powered
        proc := { run := none, ret := if on then s.proc.ret else some (.code .eNodev) }
        draws := s.draws + 3 }) ∧
    (c = .audioStartup → s.proc.run ≠ none → step s = .fault .agentBusy)) ∧
  ∀ (i : Instr) (s t : State), exec i s = .next t → t.feed = s.feed

/-! ## Interleavings the spec names -/

/-- R209: the logical address set against a transmit completion. The hard handler runs between the read and the
write of `CEC_SET_LOG_ADDR`; the write puts the old 1 back and a second transmit of the data words starts. -/
def Obligations.LogicalAddressRace : Prop :=
  ∀ (la : BitVec 4) (s : State), s.plan = [.advance .proc, .issue 0x86000000 []] →
    s.proc.run = none → s.hard.run = none → s.powered = true → s.txState = .txDone →
    s.cntrl1.startXmitBegin = true → s.cpuStatus = true → s.cpuMask = false →
    s.cntrl5.rxCecInt = false → ∃ t : State,
      exec (.cecSetLogAddr la) s = .next t ∧ t.txState = .txBusy ∧ t.txBytes = s.txData ∧
      t.txLen = s.cntrl1.messageLength.toNat + 1 ∧ t.txAttempt = 0 ∧ t.cntrl1.addr = la ∧
      t.cntrl1.startXmitBegin = true ∧ t.mailboxFull = true ∧ t.irqWasRx = false ∧
      t.txOk = s.cntrl1.txStatusGood ∧ t.proc = done .ok ∧ t.hard = done .irqWakeThread

/-- R205, R206: a cause that sets the status bit while the hard handler runs gets no handler run. A frame of any
length that completes at any place of the TX path between the classifying read and step 10 stays pending with no
interrupt: the status bit is cleared and the receiver held, and a later frame has no step (that asking for one stops
the model is its choice, log 10). A transmit that completes at any place of the RX path before step 10 leaves
`TX_DONE` and `START_XMIT_BEGIN` set with no interrupt and nothing reported. The plans are the model's schedule
(log 12). -/
def Obligations.CauseDuringTheHandlerGetsNoRun : Prop :=
  (∀ (frame : List Byte) (k : Nat) (s : State), 1 ≤ frame.length → frame.length ≤ 16 → 5 ≤ k → k ≤ 10 →
    s.plan = List.replicate k (.advance .hard) ++
      [.issue (0xC2000000 ||| BitVec.ofNat 32 (frame.length - 1)) frame] →
    s.hard.run = none → s.powered = true → s.cpuStatus = true → s.cpuMask = false →
    s.cntrl5.rxCecInt = false → s.cntrl5.rxSwReset = false → s.cntrl1.receiveOff = false →
    s.cntrl1.clearReceiveOff = false → ∃ t : State,
      exec .cecIrqHard s = .next t ∧ t.cpuStatus = false ∧ t.irqWasRx = false ∧
      t.cntrl1.receiveOff = true ∧ t.cntrl5.rxCecInt = true ∧
      t.cntrl1.recLen = BitVec.ofNat 4 (frame.length - 1) ∧ t.hard = done .irqWakeThread ∧
      (∀ i, i < frame.length → Bytes16.at t.rxData i = frame.getD i 0) ∧
      ∀ later : List Byte, 1 ≤ later.length → later.length ≤ 16 →
        exec (.evRxFrame later) t = .fault .receiverNotListening) ∧
  ∀ (acked : Bool) (k : Nat) (s : State), k ≤ 12 + (s.cntrl1.recLen.toNat + 4) / 4 →
    s.plan = List.replicate k (.advance .hard) ++
      [.issue (0xC1000000 ||| (BitVec.ofBool acked).setWidth 32) []] →
    s.hard.run = none → s.powered = true → s.cpuStatus = true → s.cpuMask = false →
    s.cntrl5.rxCecInt = true → s.txState = .txBusy → s.cntrl1.startXmitBegin = true →
    (acked = true ∨ s.txAttempt + 1 = 2) → ∃ t : State,
      exec .cecIrqHard s = .next t ∧ t.txState = .txDone ∧ t.cntrl1.startXmitBegin = true ∧
      t.cntrl1.txStatusGood = acked ∧ t.cpuStatus = false ∧ t.irqWasRx = true ∧
      t.rxMsg.len = s.cntrl1.recLen.toNat + 1 ∧ t.txOk = s.txOk ∧ t.emitted = s.emitted ∧
      t.fTxRegWhileBusy = s.fTxRegWhileBusy ∧ t.hard = done .irqWakeThread

/-- R207: a second event taken by the hard handler at any place between step 1 and step 4 of the threaded handler is
dropped: the first event is the one reported, a message or a transmit result, whatever the second one is, and the
mailbox is left empty; a second event of the same direction is the overrun fault. The plan is the model's schedule
(log 12). -/
def Obligations.SecondEventIsDropped : Prop :=
  ∀ (k : Nat) (s : State), 1 ≤ k → k ≤ (if s.irqWasRx then 1 else if s.txOk then 2 else 3) →
    s.plan = List.replicate k (.advance .thread) ++ [.issue 0x86000000 []] →
    s.thread.run = none → s.hard.run = none → s.powered = true → s.mailboxFull = true →
    s.cpuStatus = true → s.cpuMask = false → ∃ t : State,
      exec .cecIrqThread s = .next t ∧ t.emitted = s.emitted ++ report s ∧ t.mailboxFull = false ∧
      t.irqWasRx = s.cntrl5.rxCecInt ∧
      (s.cntrl5.rxCecInt = true → t.rxMsg.len = s.cntrl1.recLen.toNat + 1 ∧ t.txOk = s.txOk) ∧
      (s.cntrl5.rxCecInt = false → t.rxMsg.len = 0 ∧ t.txOk = s.cntrl1.txStatusGood) ∧
      t.fMailboxOverrun = (s.fMailboxOverrun || s.irqWasRx == s.cntrl5.rxCecInt) ∧
      t.hard = done .irqWakeThread ∧ t.thread = done .irqHandled
end

