-- ==== Sys2Proof/Laws/State.lean ====
section
/-! SUPPORT. One lemma per field per named update of the state, so that no later proof unfolds a record update.
The lemmas of one update stand together, under its name. -/

namespace Sys2Proof.Machine

/-! `State.raiseUnpowered`. -/

@[simp] theorem State.raiseUnpowered_variant (s : State) : s.raiseUnpowered.variant = s.variant := rfl
@[simp] theorem State.raiseUnpowered_powered (s : State) : s.raiseUnpowered.powered = s.powered := rfl
@[simp] theorem State.raiseUnpowered_cntrl1 (s : State) : s.raiseUnpowered.cntrl1 = s.cntrl1 := rfl
@[simp] theorem State.raiseUnpowered_cntrl2 (s : State) : s.raiseUnpowered.cntrl2 = s.cntrl2 := rfl
@[simp] theorem State.raiseUnpowered_cntrl3 (s : State) : s.raiseUnpowered.cntrl3 = s.cntrl3 := rfl
@[simp] theorem State.raiseUnpowered_cntrl4 (s : State) : s.raiseUnpowered.cntrl4 = s.cntrl4 := rfl
@[simp] theorem State.raiseUnpowered_cntrl5 (s : State) : s.raiseUnpowered.cntrl5 = s.cntrl5 := rfl
@[simp] theorem State.raiseUnpowered_txData (s : State) : s.raiseUnpowered.txData = s.txData := rfl
@[simp] theorem State.raiseUnpowered_rxData (s : State) : s.raiseUnpowered.rxData = s.rxData := rfl
@[simp] theorem State.raiseUnpowered_cpuStatus (s : State) : s.raiseUnpowered.cpuStatus = s.cpuStatus := rfl
@[simp] theorem State.raiseUnpowered_cpuMask (s : State) : s.raiseUnpowered.cpuMask = s.cpuMask := rfl
@[simp] theorem State.raiseUnpowered_pktConfig (s : State) : s.raiseUnpowered.pktConfig = s.pktConfig := rfl
@[simp] theorem State.raiseUnpowered_slotSt (s : State) : s.raiseUnpowered.slotSt = s.slotSt := rfl
@[simp] theorem State.raiseUnpowered_packetRam (s : State) : s.raiseUnpowered.packetRam = s.packetRam := rfl
@[simp] theorem State.raiseUnpowered_txState (s : State) : s.raiseUnpowered.txState = s.txState := rfl
@[simp] theorem State.raiseUnpowered_txAttempt (s : State) : s.raiseUnpowered.txAttempt = s.txAttempt := rfl
@[simp] theorem State.raiseUnpowered_txLen (s : State) : s.raiseUnpowered.txLen = s.txLen := rfl
@[simp] theorem State.raiseUnpowered_txBytes (s : State) : s.raiseUnpowered.txBytes = s.txBytes := rfl
@[simp] theorem State.raiseUnpowered_slotTorn (s : State) : s.raiseUnpowered.slotTorn = s.slotTorn := rfl
@[simp] theorem State.raiseUnpowered_rxMsg (s : State) : s.raiseUnpowered.rxMsg = s.rxMsg := rfl
@[simp] theorem State.raiseUnpowered_irqWasRx (s : State) : s.raiseUnpowered.irqWasRx = s.irqWasRx := rfl
@[simp] theorem State.raiseUnpowered_txOk (s : State) : s.raiseUnpowered.txOk = s.txOk := rfl
@[simp] theorem State.raiseUnpowered_mailboxFull (s : State) :
    s.raiseUnpowered.mailboxFull = s.mailboxFull := rfl
@[simp] theorem State.raiseUnpowered_fUnpowered (s : State) : s.raiseUnpowered.fUnpowered = true := rfl
@[simp] theorem State.raiseUnpowered_fTxRegWhileBusy (s : State) :
    s.raiseUnpowered.fTxRegWhileBusy = s.fTxRegWhileBusy := rfl
@[simp] theorem State.raiseUnpowered_fMailboxOverrun (s : State) :
    s.raiseUnpowered.fMailboxOverrun = s.fMailboxOverrun := rfl
@[simp] theorem State.raiseUnpowered_fPktRamOff (s : State) :
    s.raiseUnpowered.fPktRamOff = s.fPktRamOff := rfl
@[simp] theorem State.raiseUnpowered_refused (s : State) : s.raiseUnpowered.refused = s.refused := rfl
@[simp] theorem State.raiseUnpowered_proc (s : State) : s.raiseUnpowered.proc = s.proc := rfl
@[simp] theorem State.raiseUnpowered_hard (s : State) : s.raiseUnpowered.hard = s.hard := rfl
@[simp] theorem State.raiseUnpowered_thread (s : State) : s.raiseUnpowered.thread = s.thread := rfl
@[simp] theorem State.raiseUnpowered_readData (s : State) : s.raiseUnpowered.readData = s.readData := rfl
@[simp] theorem State.raiseUnpowered_packed (s : State) : s.raiseUnpowered.packed = s.packed := rfl
@[simp] theorem State.raiseUnpowered_emitted (s : State) : s.raiseUnpowered.emitted = s.emitted := rfl
@[simp] theorem State.raiseUnpowered_feed (s : State) : s.raiseUnpowered.feed = s.feed := rfl
@[simp] theorem State.raiseUnpowered_plan (s : State) : s.raiseUnpowered.plan = s.plan := rfl
@[simp] theorem State.raiseUnpowered_draws (s : State) : s.raiseUnpowered.draws = s.draws := rfl

/-! `State.raiseTxReg`. -/

@[simp] theorem State.raiseTxReg_variant (s : State) : s.raiseTxReg.variant = s.variant := rfl
@[simp] theorem State.raiseTxReg_powered (s : State) : s.raiseTxReg.powered = s.powered := rfl
@[simp] theorem State.raiseTxReg_cntrl1 (s : State) : s.raiseTxReg.cntrl1 = s.cntrl1 := rfl
@[simp] theorem State.raiseTxReg_cntrl2 (s : State) : s.raiseTxReg.cntrl2 = s.cntrl2 := rfl
@[simp] theorem State.raiseTxReg_cntrl3 (s : State) : s.raiseTxReg.cntrl3 = s.cntrl3 := rfl
@[simp] theorem State.raiseTxReg_cntrl4 (s : State) : s.raiseTxReg.cntrl4 = s.cntrl4 := rfl
@[simp] theorem State.raiseTxReg_cntrl5 (s : State) : s.raiseTxReg.cntrl5 = s.cntrl5 := rfl
@[simp] theorem State.raiseTxReg_txData (s : State) : s.raiseTxReg.txData = s.txData := rfl
@[simp] theorem State.raiseTxReg_rxData (s : State) : s.raiseTxReg.rxData = s.rxData := rfl
@[simp] theorem State.raiseTxReg_cpuStatus (s : State) : s.raiseTxReg.cpuStatus = s.cpuStatus := rfl
@[simp] theorem State.raiseTxReg_cpuMask (s : State) : s.raiseTxReg.cpuMask = s.cpuMask := rfl
@[simp] theorem State.raiseTxReg_pktConfig (s : State) : s.raiseTxReg.pktConfig = s.pktConfig := rfl
@[simp] theorem State.raiseTxReg_slotSt (s : State) : s.raiseTxReg.slotSt = s.slotSt := rfl
@[simp] theorem State.raiseTxReg_packetRam (s : State) : s.raiseTxReg.packetRam = s.packetRam := rfl
@[simp] theorem State.raiseTxReg_txState (s : State) : s.raiseTxReg.txState = s.txState := rfl
@[simp] theorem State.raiseTxReg_txAttempt (s : State) : s.raiseTxReg.txAttempt = s.txAttempt := rfl
@[simp] theorem State.raiseTxReg_txLen (s : State) : s.raiseTxReg.txLen = s.txLen := rfl
@[simp] theorem State.raiseTxReg_txBytes (s : State) : s.raiseTxReg.txBytes = s.txBytes := rfl
@[simp] theorem State.raiseTxReg_slotTorn (s : State) : s.raiseTxReg.slotTorn = s.slotTorn := rfl
@[simp] theorem State.raiseTxReg_rxMsg (s : State) : s.raiseTxReg.rxMsg = s.rxMsg := rfl
@[simp] theorem State.raiseTxReg_irqWasRx (s : State) : s.raiseTxReg.irqWasRx = s.irqWasRx := rfl
@[simp] theorem State.raiseTxReg_txOk (s : State) : s.raiseTxReg.txOk = s.txOk := rfl
@[simp] theorem State.raiseTxReg_mailboxFull (s : State) : s.raiseTxReg.mailboxFull = s.mailboxFull := rfl
@[simp] theorem State.raiseTxReg_fUnpowered (s : State) : s.raiseTxReg.fUnpowered = s.fUnpowered := rfl
@[simp] theorem State.raiseTxReg_fTxRegWhileBusy (s : State) : s.raiseTxReg.fTxRegWhileBusy = true := rfl
@[simp] theorem State.raiseTxReg_fMailboxOverrun (s : State) :
    s.raiseTxReg.fMailboxOverrun = s.fMailboxOverrun := rfl
@[simp] theorem State.raiseTxReg_fPktRamOff (s : State) : s.raiseTxReg.fPktRamOff = s.fPktRamOff := rfl
@[simp] theorem State.raiseTxReg_refused (s : State) : s.raiseTxReg.refused = s.refused := rfl
@[simp] theorem State.raiseTxReg_proc (s : State) : s.raiseTxReg.proc = s.proc := rfl
@[simp] theorem State.raiseTxReg_hard (s : State) : s.raiseTxReg.hard = s.hard := rfl
@[simp] theorem State.raiseTxReg_thread (s : State) : s.raiseTxReg.thread = s.thread := rfl
@[simp] theorem State.raiseTxReg_readData (s : State) : s.raiseTxReg.readData = s.readData := rfl
@[simp] theorem State.raiseTxReg_packed (s : State) : s.raiseTxReg.packed = s.packed := rfl
@[simp] theorem State.raiseTxReg_emitted (s : State) : s.raiseTxReg.emitted = s.emitted := rfl
@[simp] theorem State.raiseTxReg_feed (s : State) : s.raiseTxReg.feed = s.feed := rfl
@[simp] theorem State.raiseTxReg_plan (s : State) : s.raiseTxReg.plan = s.plan := rfl
@[simp] theorem State.raiseTxReg_draws (s : State) : s.raiseTxReg.draws = s.draws := rfl

/-! `State.raiseMailbox`. -/

@[simp] theorem State.raiseMailbox_variant (s : State) : s.raiseMailbox.variant = s.variant := rfl
@[simp] theorem State.raiseMailbox_powered (s : State) : s.raiseMailbox.powered = s.powered := rfl
@[simp] theorem State.raiseMailbox_cntrl1 (s : State) : s.raiseMailbox.cntrl1 = s.cntrl1 := rfl
@[simp] theorem State.raiseMailbox_cntrl2 (s : State) : s.raiseMailbox.cntrl2 = s.cntrl2 := rfl
@[simp] theorem State.raiseMailbox_cntrl3 (s : State) : s.raiseMailbox.cntrl3 = s.cntrl3 := rfl
@[simp] theorem State.raiseMailbox_cntrl4 (s : State) : s.raiseMailbox.cntrl4 = s.cntrl4 := rfl
@[simp] theorem State.raiseMailbox_cntrl5 (s : State) : s.raiseMailbox.cntrl5 = s.cntrl5 := rfl
@[simp] theorem State.raiseMailbox_txData (s : State) : s.raiseMailbox.txData = s.txData := rfl
@[simp] theorem State.raiseMailbox_rxData (s : State) : s.raiseMailbox.rxData = s.rxData := rfl
@[simp] theorem State.raiseMailbox_cpuStatus (s : State) : s.raiseMailbox.cpuStatus = s.cpuStatus := rfl
@[simp] theorem State.raiseMailbox_cpuMask (s : State) : s.raiseMailbox.cpuMask = s.cpuMask := rfl
@[simp] theorem State.raiseMailbox_pktConfig (s : State) : s.raiseMailbox.pktConfig = s.pktConfig := rfl
@[simp] theorem State.raiseMailbox_slotSt (s : State) : s.raiseMailbox.slotSt = s.slotSt := rfl
@[simp] theorem State.raiseMailbox_packetRam (s : State) : s.raiseMailbox.packetRam = s.packetRam := rfl
@[simp] theorem State.raiseMailbox_txState (s : State) : s.raiseMailbox.txState = s.txState := rfl
@[simp] theorem State.raiseMailbox_txAttempt (s : State) : s.raiseMailbox.txAttempt = s.txAttempt := rfl
@[simp] theorem State.raiseMailbox_txLen (s : State) : s.raiseMailbox.txLen = s.txLen := rfl
@[simp] theorem State.raiseMailbox_txBytes (s : State) : s.raiseMailbox.txBytes = s.txBytes := rfl
@[simp] theorem State.raiseMailbox_slotTorn (s : State) : s.raiseMailbox.slotTorn = s.slotTorn := rfl
@[simp] theorem State.raiseMailbox_rxMsg (s : State) : s.raiseMailbox.rxMsg = s.rxMsg := rfl
@[simp] theorem State.raiseMailbox_irqWasRx (s : State) : s.raiseMailbox.irqWasRx = s.irqWasRx := rfl
@[simp] theorem State.raiseMailbox_txOk (s : State) : s.raiseMailbox.txOk = s.txOk := rfl
@[simp] theorem State.raiseMailbox_mailboxFull (s : State) : s.raiseMailbox.mailboxFull = s.mailboxFull := rfl
@[simp] theorem State.raiseMailbox_fUnpowered (s : State) : s.raiseMailbox.fUnpowered = s.fUnpowered := rfl
@[simp] theorem State.raiseMailbox_fTxRegWhileBusy (s : State) :
    s.raiseMailbox.fTxRegWhileBusy = s.fTxRegWhileBusy := rfl
@[simp] theorem State.raiseMailbox_fMailboxOverrun (s : State) : s.raiseMailbox.fMailboxOverrun = true := rfl
@[simp] theorem State.raiseMailbox_fPktRamOff (s : State) : s.raiseMailbox.fPktRamOff = s.fPktRamOff := rfl
@[simp] theorem State.raiseMailbox_refused (s : State) : s.raiseMailbox.refused = s.refused := rfl
@[simp] theorem State.raiseMailbox_proc (s : State) : s.raiseMailbox.proc = s.proc := rfl
@[simp] theorem State.raiseMailbox_hard (s : State) : s.raiseMailbox.hard = s.hard := rfl
@[simp] theorem State.raiseMailbox_thread (s : State) : s.raiseMailbox.thread = s.thread := rfl
@[simp] theorem State.raiseMailbox_readData (s : State) : s.raiseMailbox.readData = s.readData := rfl
@[simp] theorem State.raiseMailbox_packed (s : State) : s.raiseMailbox.packed = s.packed := rfl
@[simp] theorem State.raiseMailbox_emitted (s : State) : s.raiseMailbox.emitted = s.emitted := rfl
@[simp] theorem State.raiseMailbox_feed (s : State) : s.raiseMailbox.feed = s.feed := rfl
@[simp] theorem State.raiseMailbox_plan (s : State) : s.raiseMailbox.plan = s.plan := rfl
@[simp] theorem State.raiseMailbox_draws (s : State) : s.raiseMailbox.draws = s.draws := rfl

/-! `State.raisePktRamOff`. -/

@[simp] theorem State.raisePktRamOff_variant (s : State) : s.raisePktRamOff.variant = s.variant := rfl
@[simp] theorem State.raisePktRamOff_powered (s : State) : s.raisePktRamOff.powered = s.powered := rfl
@[simp] theorem State.raisePktRamOff_cntrl1 (s : State) : s.raisePktRamOff.cntrl1 = s.cntrl1 := rfl
@[simp] theorem State.raisePktRamOff_cntrl2 (s : State) : s.raisePktRamOff.cntrl2 = s.cntrl2 := rfl
@[simp] theorem State.raisePktRamOff_cntrl3 (s : State) : s.raisePktRamOff.cntrl3 = s.cntrl3 := rfl
@[simp] theorem State.raisePktRamOff_cntrl4 (s : State) : s.raisePktRamOff.cntrl4 = s.cntrl4 := rfl
@[simp] theorem State.raisePktRamOff_cntrl5 (s : State) : s.raisePktRamOff.cntrl5 = s.cntrl5 := rfl
@[simp] theorem State.raisePktRamOff_txData (s : State) : s.raisePktRamOff.txData = s.txData := rfl
@[simp] theorem State.raisePktRamOff_rxData (s : State) : s.raisePktRamOff.rxData = s.rxData := rfl
@[simp] theorem State.raisePktRamOff_cpuStatus (s : State) : s.raisePktRamOff.cpuStatus = s.cpuStatus := rfl
@[simp] theorem State.raisePktRamOff_cpuMask (s : State) : s.raisePktRamOff.cpuMask = s.cpuMask := rfl
@[simp] theorem State.raisePktRamOff_pktConfig (s : State) : s.raisePktRamOff.pktConfig = s.pktConfig := rfl
@[simp] theorem State.raisePktRamOff_slotSt (s : State) : s.raisePktRamOff.slotSt = s.slotSt := rfl
@[simp] theorem State.raisePktRamOff_packetRam (s : State) : s.raisePktRamOff.packetRam = s.packetRam := rfl
@[simp] theorem State.raisePktRamOff_txState (s : State) : s.raisePktRamOff.txState = s.txState := rfl
@[simp] theorem State.raisePktRamOff_txAttempt (s : State) : s.raisePktRamOff.txAttempt = s.txAttempt := rfl
@[simp] theorem State.raisePktRamOff_txLen (s : State) : s.raisePktRamOff.txLen = s.txLen := rfl
@[simp] theorem State.raisePktRamOff_txBytes (s : State) : s.raisePktRamOff.txBytes = s.txBytes := rfl
@[simp] theorem State.raisePktRamOff_slotTorn (s : State) : s.raisePktRamOff.slotTorn = s.slotTorn := rfl
@[simp] theorem State.raisePktRamOff_rxMsg (s : State) : s.raisePktRamOff.rxMsg = s.rxMsg := rfl
@[simp] theorem State.raisePktRamOff_irqWasRx (s : State) : s.raisePktRamOff.irqWasRx = s.irqWasRx := rfl
@[simp] theorem State.raisePktRamOff_txOk (s : State) : s.raisePktRamOff.txOk = s.txOk := rfl
@[simp] theorem State.raisePktRamOff_mailboxFull (s : State) :
    s.raisePktRamOff.mailboxFull = s.mailboxFull := rfl
@[simp] theorem State.raisePktRamOff_fUnpowered (s : State) :
    s.raisePktRamOff.fUnpowered = s.fUnpowered := rfl
@[simp] theorem State.raisePktRamOff_fTxRegWhileBusy (s : State) :
    s.raisePktRamOff.fTxRegWhileBusy = s.fTxRegWhileBusy := rfl
@[simp] theorem State.raisePktRamOff_fMailboxOverrun (s : State) :
    s.raisePktRamOff.fMailboxOverrun = s.fMailboxOverrun := rfl
@[simp] theorem State.raisePktRamOff_fPktRamOff (s : State) : s.raisePktRamOff.fPktRamOff = true := rfl
@[simp] theorem State.raisePktRamOff_refused (s : State) : s.raisePktRamOff.refused = s.refused := rfl
@[simp] theorem State.raisePktRamOff_proc (s : State) : s.raisePktRamOff.proc = s.proc := rfl
@[simp] theorem State.raisePktRamOff_hard (s : State) : s.raisePktRamOff.hard = s.hard := rfl
@[simp] theorem State.raisePktRamOff_thread (s : State) : s.raisePktRamOff.thread = s.thread := rfl
@[simp] theorem State.raisePktRamOff_readData (s : State) : s.raisePktRamOff.readData = s.readData := rfl
@[simp] theorem State.raisePktRamOff_packed (s : State) : s.raisePktRamOff.packed = s.packed := rfl
@[simp] theorem State.raisePktRamOff_emitted (s : State) : s.raisePktRamOff.emitted = s.emitted := rfl
@[simp] theorem State.raisePktRamOff_feed (s : State) : s.raisePktRamOff.feed = s.feed := rfl
@[simp] theorem State.raisePktRamOff_plan (s : State) : s.raisePktRamOff.plan = s.plan := rfl
@[simp] theorem State.raisePktRamOff_draws (s : State) : s.raisePktRamOff.draws = s.draws := rfl

/-! `State.refuse`. -/

@[simp] theorem State.refuse_variant (reason : Reason) (s : State) :
    (State.refuse reason s).variant = s.variant := rfl
@[simp] theorem State.refuse_powered (reason : Reason) (s : State) :
    (State.refuse reason s).powered = s.powered := rfl
@[simp] theorem State.refuse_cntrl1 (reason : Reason) (s : State) :
    (State.refuse reason s).cntrl1 = s.cntrl1 := rfl
@[simp] theorem State.refuse_cntrl2 (reason : Reason) (s : State) :
    (State.refuse reason s).cntrl2 = s.cntrl2 := rfl
@[simp] theorem State.refuse_cntrl3 (reason : Reason) (s : State) :
    (State.refuse reason s).cntrl3 = s.cntrl3 := rfl
@[simp] theorem State.refuse_cntrl4 (reason : Reason) (s : State) :
    (State.refuse reason s).cntrl4 = s.cntrl4 := rfl
@[simp] theorem State.refuse_cntrl5 (reason : Reason) (s : State) :
    (State.refuse reason s).cntrl5 = s.cntrl5 := rfl
@[simp] theorem State.refuse_txData (reason : Reason) (s : State) :
    (State.refuse reason s).txData = s.txData := rfl
@[simp] theorem State.refuse_rxData (reason : Reason) (s : State) :
    (State.refuse reason s).rxData = s.rxData := rfl
@[simp] theorem State.refuse_cpuStatus (reason : Reason) (s : State) :
    (State.refuse reason s).cpuStatus = s.cpuStatus := rfl
@[simp] theorem State.refuse_cpuMask (reason : Reason) (s : State) :
    (State.refuse reason s).cpuMask = s.cpuMask := rfl
@[simp] theorem State.refuse_pktConfig (reason : Reason) (s : State) :
    (State.refuse reason s).pktConfig = s.pktConfig := rfl
@[simp] theorem State.refuse_slotSt (reason : Reason) (s : State) :
    (State.refuse reason s).slotSt = s.slotSt := rfl
@[simp] theorem State.refuse_packetRam (reason : Reason) (s : State) :
    (State.refuse reason s).packetRam = s.packetRam := rfl
@[simp] theorem State.refuse_txState (reason : Reason) (s : State) :
    (State.refuse reason s).txState = s.txState := rfl
@[simp] theorem State.refuse_txAttempt (reason : Reason) (s : State) :
    (State.refuse reason s).txAttempt = s.txAttempt := rfl
@[simp] theorem State.refuse_txLen (reason : Reason) (s : State) :
    (State.refuse reason s).txLen = s.txLen := rfl
@[simp] theorem State.refuse_txBytes (reason : Reason) (s : State) :
    (State.refuse reason s).txBytes = s.txBytes := rfl
@[simp] theorem State.refuse_slotTorn (reason : Reason) (s : State) :
    (State.refuse reason s).slotTorn = s.slotTorn := rfl
@[simp] theorem State.refuse_rxMsg (reason : Reason) (s : State) :
    (State.refuse reason s).rxMsg = s.rxMsg := rfl
@[simp] theorem State.refuse_irqWasRx (reason : Reason) (s : State) :
    (State.refuse reason s).irqWasRx = s.irqWasRx := rfl
@[simp] theorem State.refuse_txOk (reason : Reason) (s : State) : (State.refuse reason s).txOk = s.txOk := rfl
@[simp] theorem State.refuse_mailboxFull (reason : Reason) (s : State) :
    (State.refuse reason s).mailboxFull = s.mailboxFull := rfl
@[simp] theorem State.refuse_fUnpowered (reason : Reason) (s : State) :
    (State.refuse reason s).fUnpowered = s.fUnpowered := rfl
@[simp] theorem State.refuse_fTxRegWhileBusy (reason : Reason) (s : State) :
    (State.refuse reason s).fTxRegWhileBusy = s.fTxRegWhileBusy := rfl
@[simp] theorem State.refuse_fMailboxOverrun (reason : Reason) (s : State) :
    (State.refuse reason s).fMailboxOverrun = s.fMailboxOverrun := rfl
@[simp] theorem State.refuse_fPktRamOff (reason : Reason) (s : State) :
    (State.refuse reason s).fPktRamOff = s.fPktRamOff := rfl
@[simp] theorem State.refuse_refused (reason : Reason) (s : State) :
    (State.refuse reason s).refused = s.refused.or (some reason) := rfl
@[simp] theorem State.refuse_proc (reason : Reason) (s : State) : (State.refuse reason s).proc = s.proc := rfl
@[simp] theorem State.refuse_hard (reason : Reason) (s : State) : (State.refuse reason s).hard = s.hard := rfl
@[simp] theorem State.refuse_thread (reason : Reason) (s : State) :
    (State.refuse reason s).thread = s.thread := rfl
@[simp] theorem State.refuse_readData (reason : Reason) (s : State) :
    (State.refuse reason s).readData = s.readData := rfl
@[simp] theorem State.refuse_packed (reason : Reason) (s : State) :
    (State.refuse reason s).packed = s.packed := rfl
@[simp] theorem State.refuse_emitted (reason : Reason) (s : State) :
    (State.refuse reason s).emitted = s.emitted := rfl
@[simp] theorem State.refuse_feed (reason : Reason) (s : State) : (State.refuse reason s).feed = s.feed := rfl
@[simp] theorem State.refuse_plan (reason : Reason) (s : State) : (State.refuse reason s).plan = s.plan := rfl
@[simp] theorem State.refuse_draws (reason : Reason) (s : State) :
    (State.refuse reason s).draws = s.draws := rfl

/-! `State.draw`. -/

@[simp] theorem State.draw_variant (n : Nat) (s : State) : (State.draw n s).variant = s.variant := rfl
@[simp] theorem State.draw_powered (n : Nat) (s : State) : (State.draw n s).powered = s.powered := rfl
@[simp] theorem State.draw_cntrl1 (n : Nat) (s : State) : (State.draw n s).cntrl1 = s.cntrl1 := rfl
@[simp] theorem State.draw_cntrl2 (n : Nat) (s : State) : (State.draw n s).cntrl2 = s.cntrl2 := rfl
@[simp] theorem State.draw_cntrl3 (n : Nat) (s : State) : (State.draw n s).cntrl3 = s.cntrl3 := rfl
@[simp] theorem State.draw_cntrl4 (n : Nat) (s : State) : (State.draw n s).cntrl4 = s.cntrl4 := rfl
@[simp] theorem State.draw_cntrl5 (n : Nat) (s : State) : (State.draw n s).cntrl5 = s.cntrl5 := rfl
@[simp] theorem State.draw_txData (n : Nat) (s : State) : (State.draw n s).txData = s.txData := rfl
@[simp] theorem State.draw_rxData (n : Nat) (s : State) : (State.draw n s).rxData = s.rxData := rfl
@[simp] theorem State.draw_cpuStatus (n : Nat) (s : State) : (State.draw n s).cpuStatus = s.cpuStatus := rfl
@[simp] theorem State.draw_cpuMask (n : Nat) (s : State) : (State.draw n s).cpuMask = s.cpuMask := rfl
@[simp] theorem State.draw_pktConfig (n : Nat) (s : State) : (State.draw n s).pktConfig = s.pktConfig := rfl
@[simp] theorem State.draw_slotSt (n : Nat) (s : State) : (State.draw n s).slotSt = s.slotSt := rfl
@[simp] theorem State.draw_packetRam (n : Nat) (s : State) : (State.draw n s).packetRam = s.packetRam := rfl
@[simp] theorem State.draw_txState (n : Nat) (s : State) : (State.draw n s).txState = s.txState := rfl
@[simp] theorem State.draw_txAttempt (n : Nat) (s : State) : (State.draw n s).txAttempt = s.txAttempt := rfl
@[simp] theorem State.draw_txLen (n : Nat) (s : State) : (State.draw n s).txLen = s.txLen := rfl
@[simp] theorem State.draw_txBytes (n : Nat) (s : State) : (State.draw n s).txBytes = s.txBytes := rfl
@[simp] theorem State.draw_slotTorn (n : Nat) (s : State) : (State.draw n s).slotTorn = s.slotTorn := rfl
@[simp] theorem State.draw_rxMsg (n : Nat) (s : State) : (State.draw n s).rxMsg = s.rxMsg := rfl
@[simp] theorem State.draw_irqWasRx (n : Nat) (s : State) : (State.draw n s).irqWasRx = s.irqWasRx := rfl
@[simp] theorem State.draw_txOk (n : Nat) (s : State) : (State.draw n s).txOk = s.txOk := rfl
@[simp] theorem State.draw_mailboxFull (n : Nat) (s : State) :
    (State.draw n s).mailboxFull = s.mailboxFull := rfl
@[simp] theorem State.draw_fUnpowered (n : Nat) (s : State) :
    (State.draw n s).fUnpowered = s.fUnpowered := rfl
@[simp] theorem State.draw_fTxRegWhileBusy (n : Nat) (s : State) :
    (State.draw n s).fTxRegWhileBusy = s.fTxRegWhileBusy := rfl
@[simp] theorem State.draw_fMailboxOverrun (n : Nat) (s : State) :
    (State.draw n s).fMailboxOverrun = s.fMailboxOverrun := rfl
@[simp] theorem State.draw_fPktRamOff (n : Nat) (s : State) :
    (State.draw n s).fPktRamOff = s.fPktRamOff := rfl
@[simp] theorem State.draw_refused (n : Nat) (s : State) : (State.draw n s).refused = s.refused := rfl
@[simp] theorem State.draw_proc (n : Nat) (s : State) : (State.draw n s).proc = s.proc := rfl
@[simp] theorem State.draw_hard (n : Nat) (s : State) : (State.draw n s).hard = s.hard := rfl
@[simp] theorem State.draw_thread (n : Nat) (s : State) : (State.draw n s).thread = s.thread := rfl
@[simp] theorem State.draw_readData (n : Nat) (s : State) : (State.draw n s).readData = s.readData := rfl
@[simp] theorem State.draw_packed (n : Nat) (s : State) : (State.draw n s).packed = s.packed := rfl
@[simp] theorem State.draw_emitted (n : Nat) (s : State) : (State.draw n s).emitted = s.emitted := rfl
@[simp] theorem State.draw_feed (n : Nat) (s : State) : (State.draw n s).feed = s.feed := rfl
@[simp] theorem State.draw_plan (n : Nat) (s : State) : (State.draw n s).plan = s.plan := rfl
@[simp] theorem State.draw_draws (n : Nat) (s : State) : (State.draw n s).draws = s.draws + n := rfl

/-! `State.restorePower`. -/

@[simp] theorem State.restorePower_variant (s : State) : s.restorePower.variant = s.variant := rfl
@[simp] theorem State.restorePower_powered (s : State) : s.restorePower.powered = true := rfl
@[simp] theorem State.restorePower_cntrl1 (s : State) : s.restorePower.cntrl1 = State.reset.cntrl1 := rfl
@[simp] theorem State.restorePower_cntrl2 (s : State) : s.restorePower.cntrl2 = State.reset.cntrl2 := rfl
@[simp] theorem State.restorePower_cntrl3 (s : State) : s.restorePower.cntrl3 = State.reset.cntrl3 := rfl
@[simp] theorem State.restorePower_cntrl4 (s : State) : s.restorePower.cntrl4 = State.reset.cntrl4 := rfl
@[simp] theorem State.restorePower_cntrl5 (s : State) : s.restorePower.cntrl5 = State.reset.cntrl5 := rfl
@[simp] theorem State.restorePower_txData (s : State) : s.restorePower.txData = State.reset.txData := rfl
@[simp] theorem State.restorePower_rxData (s : State) : s.restorePower.rxData = State.reset.rxData := rfl
@[simp] theorem State.restorePower_cpuStatus (s : State) :
    s.restorePower.cpuStatus = State.reset.cpuStatus := rfl
@[simp] theorem State.restorePower_cpuMask (s : State) : s.restorePower.cpuMask = State.reset.cpuMask := rfl
@[simp] theorem State.restorePower_pktConfig (s : State) :
    s.restorePower.pktConfig = State.reset.pktConfig := rfl
@[simp] theorem State.restorePower_slotSt (s : State) : s.restorePower.slotSt = State.reset.slotSt := rfl
@[simp] theorem State.restorePower_packetRam (s : State) :
    s.restorePower.packetRam = State.reset.packetRam := rfl
@[simp] theorem State.restorePower_txState (s : State) : s.restorePower.txState = State.reset.txState := rfl
@[simp] theorem State.restorePower_txAttempt (s : State) :
    s.restorePower.txAttempt = State.reset.txAttempt := rfl
@[simp] theorem State.restorePower_txLen (s : State) : s.restorePower.txLen = State.reset.txLen := rfl
@[simp] theorem State.restorePower_txBytes (s : State) : s.restorePower.txBytes = State.reset.txBytes := rfl
@[simp] theorem State.restorePower_slotTorn (s : State) :
    s.restorePower.slotTorn = State.reset.slotTorn := rfl
@[simp] theorem State.restorePower_rxMsg (s : State) : s.restorePower.rxMsg = s.rxMsg := rfl
@[simp] theorem State.restorePower_irqWasRx (s : State) : s.restorePower.irqWasRx = s.irqWasRx := rfl
@[simp] theorem State.restorePower_txOk (s : State) : s.restorePower.txOk = s.txOk := rfl
@[simp] theorem State.restorePower_mailboxFull (s : State) : s.restorePower.mailboxFull = s.mailboxFull := rfl
@[simp] theorem State.restorePower_fUnpowered (s : State) :
    s.restorePower.fUnpowered = State.reset.fUnpowered := rfl
@[simp] theorem State.restorePower_fTxRegWhileBusy (s : State) :
    s.restorePower.fTxRegWhileBusy = State.reset.fTxRegWhileBusy := rfl
@[simp] theorem State.restorePower_fMailboxOverrun (s : State) :
    s.restorePower.fMailboxOverrun = State.reset.fMailboxOverrun := rfl
@[simp] theorem State.restorePower_fPktRamOff (s : State) :
    s.restorePower.fPktRamOff = State.reset.fPktRamOff := rfl
@[simp] theorem State.restorePower_refused (s : State) : s.restorePower.refused = State.reset.refused := rfl
@[simp] theorem State.restorePower_proc (s : State) : s.restorePower.proc = s.proc := rfl
@[simp] theorem State.restorePower_hard (s : State) : s.restorePower.hard = s.hard := rfl
@[simp] theorem State.restorePower_thread (s : State) : s.restorePower.thread = s.thread := rfl
@[simp] theorem State.restorePower_readData (s : State) : s.restorePower.readData = s.readData := rfl
@[simp] theorem State.restorePower_packed (s : State) : s.restorePower.packed = s.packed := rfl
@[simp] theorem State.restorePower_emitted (s : State) : s.restorePower.emitted = s.emitted := rfl
@[simp] theorem State.restorePower_feed (s : State) : s.restorePower.feed = s.feed := rfl
@[simp] theorem State.restorePower_plan (s : State) : s.restorePower.plan = s.plan := rfl
@[simp] theorem State.restorePower_draws (s : State) : s.restorePower.draws = s.draws := rfl

/-! `State.clearReceive`. -/

@[simp] theorem State.clearReceive_variant (s : State) : s.clearReceive.variant = s.variant := rfl
@[simp] theorem State.clearReceive_powered (s : State) : s.clearReceive.powered = s.powered := rfl
@[simp] theorem State.clearReceive_cntrl1 (s : State) :
    s.clearReceive.cntrl1 = { s.cntrl1 with receiveOff := false } := rfl
@[simp] theorem State.clearReceive_cntrl2 (s : State) : s.clearReceive.cntrl2 = s.cntrl2 := rfl
@[simp] theorem State.clearReceive_cntrl3 (s : State) : s.clearReceive.cntrl3 = s.cntrl3 := rfl
@[simp] theorem State.clearReceive_cntrl4 (s : State) : s.clearReceive.cntrl4 = s.cntrl4 := rfl
@[simp] theorem State.clearReceive_cntrl5 (s : State) :
    s.clearReceive.cntrl5 = { s.cntrl5 with rxCecInt := false } := rfl
@[simp] theorem State.clearReceive_txData (s : State) : s.clearReceive.txData = s.txData := rfl
@[simp] theorem State.clearReceive_rxData (s : State) : s.clearReceive.rxData = s.rxData := rfl
@[simp] theorem State.clearReceive_cpuStatus (s : State) : s.clearReceive.cpuStatus = s.cpuStatus := rfl
@[simp] theorem State.clearReceive_cpuMask (s : State) : s.clearReceive.cpuMask = s.cpuMask := rfl
@[simp] theorem State.clearReceive_pktConfig (s : State) : s.clearReceive.pktConfig = s.pktConfig := rfl
@[simp] theorem State.clearReceive_slotSt (s : State) : s.clearReceive.slotSt = s.slotSt := rfl
@[simp] theorem State.clearReceive_packetRam (s : State) : s.clearReceive.packetRam = s.packetRam := rfl
@[simp] theorem State.clearReceive_txState (s : State) : s.clearReceive.txState = s.txState := rfl
@[simp] theorem State.clearReceive_txAttempt (s : State) : s.clearReceive.txAttempt = s.txAttempt := rfl
@[simp] theorem State.clearReceive_txLen (s : State) : s.clearReceive.txLen = s.txLen := rfl
@[simp] theorem State.clearReceive_txBytes (s : State) : s.clearReceive.txBytes = s.txBytes := rfl
@[simp] theorem State.clearReceive_slotTorn (s : State) : s.clearReceive.slotTorn = s.slotTorn := rfl
@[simp] theorem State.clearReceive_rxMsg (s : State) : s.clearReceive.rxMsg = s.rxMsg := rfl
@[simp] theorem State.clearReceive_irqWasRx (s : State) : s.clearReceive.irqWasRx = s.irqWasRx := rfl
@[simp] theorem State.clearReceive_txOk (s : State) : s.clearReceive.txOk = s.txOk := rfl
@[simp] theorem State.clearReceive_mailboxFull (s : State) : s.clearReceive.mailboxFull = s.mailboxFull := rfl
@[simp] theorem State.clearReceive_fUnpowered (s : State) : s.clearReceive.fUnpowered = s.fUnpowered := rfl
@[simp] theorem State.clearReceive_fTxRegWhileBusy (s : State) :
    s.clearReceive.fTxRegWhileBusy = s.fTxRegWhileBusy := rfl
@[simp] theorem State.clearReceive_fMailboxOverrun (s : State) :
    s.clearReceive.fMailboxOverrun = s.fMailboxOverrun := rfl
@[simp] theorem State.clearReceive_fPktRamOff (s : State) : s.clearReceive.fPktRamOff = s.fPktRamOff := rfl
@[simp] theorem State.clearReceive_refused (s : State) : s.clearReceive.refused = s.refused := rfl
@[simp] theorem State.clearReceive_proc (s : State) : s.clearReceive.proc = s.proc := rfl
@[simp] theorem State.clearReceive_hard (s : State) : s.clearReceive.hard = s.hard := rfl
@[simp] theorem State.clearReceive_thread (s : State) : s.clearReceive.thread = s.thread := rfl
@[simp] theorem State.clearReceive_readData (s : State) : s.clearReceive.readData = s.readData := rfl
@[simp] theorem State.clearReceive_packed (s : State) : s.clearReceive.packed = s.packed := rfl
@[simp] theorem State.clearReceive_emitted (s : State) : s.clearReceive.emitted = s.emitted := rfl
@[simp] theorem State.clearReceive_feed (s : State) : s.clearReceive.feed = s.feed := rfl
@[simp] theorem State.clearReceive_plan (s : State) : s.clearReceive.plan = s.plan := rfl
@[simp] theorem State.clearReceive_draws (s : State) : s.clearReceive.draws = s.draws := rfl

/-! `State.mendStopped`. -/

@[simp] theorem State.mendStopped_variant (s : State) : s.mendStopped.variant = s.variant := rfl
@[simp] theorem State.mendStopped_powered (s : State) : s.mendStopped.powered = s.powered := rfl
@[simp] theorem State.mendStopped_cntrl1 (s : State) : s.mendStopped.cntrl1 = s.cntrl1 := rfl
@[simp] theorem State.mendStopped_cntrl2 (s : State) : s.mendStopped.cntrl2 = s.cntrl2 := rfl
@[simp] theorem State.mendStopped_cntrl3 (s : State) : s.mendStopped.cntrl3 = s.cntrl3 := rfl
@[simp] theorem State.mendStopped_cntrl4 (s : State) : s.mendStopped.cntrl4 = s.cntrl4 := rfl
@[simp] theorem State.mendStopped_cntrl5 (s : State) : s.mendStopped.cntrl5 = s.cntrl5 := rfl
@[simp] theorem State.mendStopped_txData (s : State) : s.mendStopped.txData = s.txData := rfl
@[simp] theorem State.mendStopped_rxData (s : State) : s.mendStopped.rxData = s.rxData := rfl
@[simp] theorem State.mendStopped_cpuStatus (s : State) : s.mendStopped.cpuStatus = s.cpuStatus := rfl
@[simp] theorem State.mendStopped_cpuMask (s : State) : s.mendStopped.cpuMask = s.cpuMask := rfl
@[simp] theorem State.mendStopped_pktConfig (s : State) : s.mendStopped.pktConfig = s.pktConfig := rfl
@[simp] theorem State.mendStopped_slotSt (s : State) : s.mendStopped.slotSt = s.slotSt := rfl
@[simp] theorem State.mendStopped_packetRam (s : State) : s.mendStopped.packetRam = s.packetRam := rfl
@[simp] theorem State.mendStopped_txState (s : State) : s.mendStopped.txState = s.txState := rfl
@[simp] theorem State.mendStopped_txAttempt (s : State) : s.mendStopped.txAttempt = s.txAttempt := rfl
@[simp] theorem State.mendStopped_txLen (s : State) : s.mendStopped.txLen = s.txLen := rfl
@[simp] theorem State.mendStopped_txBytes (s : State) : s.mendStopped.txBytes = s.txBytes := rfl
@[simp] theorem State.mendStopped_slotTorn (s : State) :
    s.mendStopped.slotTorn = s.slotTorn &&& (s.pktConfig.slotEn ||| s.slotSt) := rfl
@[simp] theorem State.mendStopped_rxMsg (s : State) : s.mendStopped.rxMsg = s.rxMsg := rfl
@[simp] theorem State.mendStopped_irqWasRx (s : State) : s.mendStopped.irqWasRx = s.irqWasRx := rfl
@[simp] theorem State.mendStopped_txOk (s : State) : s.mendStopped.txOk = s.txOk := rfl
@[simp] theorem State.mendStopped_mailboxFull (s : State) : s.mendStopped.mailboxFull = s.mailboxFull := rfl
@[simp] theorem State.mendStopped_fUnpowered (s : State) : s.mendStopped.fUnpowered = s.fUnpowered := rfl
@[simp] theorem State.mendStopped_fTxRegWhileBusy (s : State) :
    s.mendStopped.fTxRegWhileBusy = s.fTxRegWhileBusy := rfl
@[simp] theorem State.mendStopped_fMailboxOverrun (s : State) :
    s.mendStopped.fMailboxOverrun = s.fMailboxOverrun := rfl
@[simp] theorem State.mendStopped_fPktRamOff (s : State) : s.mendStopped.fPktRamOff = s.fPktRamOff := rfl
@[simp] theorem State.mendStopped_refused (s : State) : s.mendStopped.refused = s.refused := rfl
@[simp] theorem State.mendStopped_proc (s : State) : s.mendStopped.proc = s.proc := rfl
@[simp] theorem State.mendStopped_hard (s : State) : s.mendStopped.hard = s.hard := rfl
@[simp] theorem State.mendStopped_thread (s : State) : s.mendStopped.thread = s.thread := rfl
@[simp] theorem State.mendStopped_readData (s : State) : s.mendStopped.readData = s.readData := rfl
@[simp] theorem State.mendStopped_packed (s : State) : s.mendStopped.packed = s.packed := rfl
@[simp] theorem State.mendStopped_emitted (s : State) : s.mendStopped.emitted = s.emitted := rfl
@[simp] theorem State.mendStopped_feed (s : State) : s.mendStopped.feed = s.feed := rfl
@[simp] theorem State.mendStopped_plan (s : State) : s.mendStopped.plan = s.plan := rfl
@[simp] theorem State.mendStopped_draws (s : State) : s.mendStopped.draws = s.draws := rfl

/-! `State.txStart`. -/

@[simp] theorem State.txStart_variant (s : State) : s.txStart.variant = s.variant := rfl
@[simp] theorem State.txStart_powered (s : State) : s.txStart.powered = s.powered := rfl
@[simp] theorem State.txStart_cntrl1 (s : State) : s.txStart.cntrl1 = s.cntrl1 := rfl
@[simp] theorem State.txStart_cntrl2 (s : State) : s.txStart.cntrl2 = s.cntrl2 := rfl
@[simp] theorem State.txStart_cntrl3 (s : State) : s.txStart.cntrl3 = s.cntrl3 := rfl
@[simp] theorem State.txStart_cntrl4 (s : State) : s.txStart.cntrl4 = s.cntrl4 := rfl
@[simp] theorem State.txStart_cntrl5 (s : State) : s.txStart.cntrl5 = s.cntrl5 := rfl
@[simp] theorem State.txStart_txData (s : State) : s.txStart.txData = s.txData := rfl
@[simp] theorem State.txStart_rxData (s : State) : s.txStart.rxData = s.rxData := rfl
@[simp] theorem State.txStart_cpuStatus (s : State) : s.txStart.cpuStatus = s.cpuStatus := rfl
@[simp] theorem State.txStart_cpuMask (s : State) : s.txStart.cpuMask = s.cpuMask := rfl
@[simp] theorem State.txStart_pktConfig (s : State) : s.txStart.pktConfig = s.pktConfig := rfl
@[simp] theorem State.txStart_slotSt (s : State) : s.txStart.slotSt = s.slotSt := rfl
@[simp] theorem State.txStart_packetRam (s : State) : s.txStart.packetRam = s.packetRam := rfl
@[simp] theorem State.txStart_txState (s : State) : s.txStart.txState = .txBusy := rfl
@[simp] theorem State.txStart_txAttempt (s : State) : s.txStart.txAttempt = 0 := rfl
@[simp] theorem State.txStart_txLen (s : State) : s.txStart.txLen = lengthOf s.cntrl1.messageLength := rfl
@[simp] theorem State.txStart_txBytes (s : State) : s.txStart.txBytes = s.txData := rfl
@[simp] theorem State.txStart_slotTorn (s : State) : s.txStart.slotTorn = s.slotTorn := rfl
@[simp] theorem State.txStart_rxMsg (s : State) : s.txStart.rxMsg = s.rxMsg := rfl
@[simp] theorem State.txStart_irqWasRx (s : State) : s.txStart.irqWasRx = s.irqWasRx := rfl
@[simp] theorem State.txStart_txOk (s : State) : s.txStart.txOk = s.txOk := rfl
@[simp] theorem State.txStart_mailboxFull (s : State) : s.txStart.mailboxFull = s.mailboxFull := rfl
@[simp] theorem State.txStart_fUnpowered (s : State) : s.txStart.fUnpowered = s.fUnpowered := rfl
@[simp] theorem State.txStart_fTxRegWhileBusy (s : State) :
    s.txStart.fTxRegWhileBusy = s.fTxRegWhileBusy := rfl
@[simp] theorem State.txStart_fMailboxOverrun (s : State) :
    s.txStart.fMailboxOverrun = s.fMailboxOverrun := rfl
@[simp] theorem State.txStart_fPktRamOff (s : State) : s.txStart.fPktRamOff = s.fPktRamOff := rfl
@[simp] theorem State.txStart_refused (s : State) : s.txStart.refused = s.refused := rfl
@[simp] theorem State.txStart_proc (s : State) : s.txStart.proc = s.proc := rfl
@[simp] theorem State.txStart_hard (s : State) : s.txStart.hard = s.hard := rfl
@[simp] theorem State.txStart_thread (s : State) : s.txStart.thread = s.thread := rfl
@[simp] theorem State.txStart_readData (s : State) : s.txStart.readData = s.readData := rfl
@[simp] theorem State.txStart_packed (s : State) : s.txStart.packed = s.packed := rfl
@[simp] theorem State.txStart_emitted (s : State) : s.txStart.emitted = s.emitted := rfl
@[simp] theorem State.txStart_feed (s : State) : s.txStart.feed = s.feed := rfl
@[simp] theorem State.txStart_plan (s : State) : s.txStart.plan = s.plan := rfl
@[simp] theorem State.txStart_draws (s : State) : s.txStart.draws = s.draws := rfl

/-! `State.txComplete`. -/

@[simp] theorem State.txComplete_variant (good : Bool) (s : State) :
    (State.txComplete good s).variant = s.variant := rfl
@[simp] theorem State.txComplete_powered (good : Bool) (s : State) :
    (State.txComplete good s).powered = s.powered := rfl
@[simp] theorem State.txComplete_cntrl1 (good : Bool) (s : State) :
    (State.txComplete good s).cntrl1 = { s.cntrl1 with txStatusGood := good } := rfl
@[simp] theorem State.txComplete_cntrl2 (good : Bool) (s : State) :
    (State.txComplete good s).cntrl2 = s.cntrl2 := rfl
@[simp] theorem State.txComplete_cntrl3 (good : Bool) (s : State) :
    (State.txComplete good s).cntrl3 = s.cntrl3 := rfl
@[simp] theorem State.txComplete_cntrl4 (good : Bool) (s : State) :
    (State.txComplete good s).cntrl4 = s.cntrl4 := rfl
@[simp] theorem State.txComplete_cntrl5 (good : Bool) (s : State) :
    (State.txComplete good s).cntrl5 = s.cntrl5 := rfl
@[simp] theorem State.txComplete_txData (good : Bool) (s : State) :
    (State.txComplete good s).txData = s.txData := rfl
@[simp] theorem State.txComplete_rxData (good : Bool) (s : State) :
    (State.txComplete good s).rxData = s.rxData := rfl
@[simp] theorem State.txComplete_cpuStatus (good : Bool) (s : State) :
    (State.txComplete good s).cpuStatus = true := rfl
@[simp] theorem State.txComplete_cpuMask (good : Bool) (s : State) :
    (State.txComplete good s).cpuMask = s.cpuMask := rfl
@[simp] theorem State.txComplete_pktConfig (good : Bool) (s : State) :
    (State.txComplete good s).pktConfig = s.pktConfig := rfl
@[simp] theorem State.txComplete_slotSt (good : Bool) (s : State) :
    (State.txComplete good s).slotSt = s.slotSt := rfl
@[simp] theorem State.txComplete_packetRam (good : Bool) (s : State) :
    (State.txComplete good s).packetRam = s.packetRam := rfl
@[simp] theorem State.txComplete_txState (good : Bool) (s : State) :
    (State.txComplete good s).txState = .txDone := rfl
@[simp] theorem State.txComplete_txAttempt (good : Bool) (s : State) :
    (State.txComplete good s).txAttempt = s.txAttempt := rfl
@[simp] theorem State.txComplete_txLen (good : Bool) (s : State) :
    (State.txComplete good s).txLen = s.txLen := rfl
@[simp] theorem State.txComplete_txBytes (good : Bool) (s : State) :
    (State.txComplete good s).txBytes = s.txBytes := rfl
@[simp] theorem State.txComplete_slotTorn (good : Bool) (s : State) :
    (State.txComplete good s).slotTorn = s.slotTorn := rfl
@[simp] theorem State.txComplete_rxMsg (good : Bool) (s : State) :
    (State.txComplete good s).rxMsg = s.rxMsg := rfl
@[simp] theorem State.txComplete_irqWasRx (good : Bool) (s : State) :
    (State.txComplete good s).irqWasRx = s.irqWasRx := rfl
@[simp] theorem State.txComplete_txOk (good : Bool) (s : State) :
    (State.txComplete good s).txOk = s.txOk := rfl
@[simp] theorem State.txComplete_mailboxFull (good : Bool) (s : State) :
    (State.txComplete good s).mailboxFull = s.mailboxFull := rfl
@[simp] theorem State.txComplete_fUnpowered (good : Bool) (s : State) :
    (State.txComplete good s).fUnpowered = s.fUnpowered := rfl
@[simp] theorem State.txComplete_fTxRegWhileBusy (good : Bool) (s : State) :
    (State.txComplete good s).fTxRegWhileBusy = s.fTxRegWhileBusy := rfl
@[simp] theorem State.txComplete_fMailboxOverrun (good : Bool) (s : State) :
    (State.txComplete good s).fMailboxOverrun = s.fMailboxOverrun := rfl
@[simp] theorem State.txComplete_fPktRamOff (good : Bool) (s : State) :
    (State.txComplete good s).fPktRamOff = s.fPktRamOff := rfl
@[simp] theorem State.txComplete_refused (good : Bool) (s : State) :
    (State.txComplete good s).refused = s.refused := rfl
@[simp] theorem State.txComplete_proc (good : Bool) (s : State) :
    (State.txComplete good s).proc = s.proc := rfl
@[simp] theorem State.txComplete_hard (good : Bool) (s : State) :
    (State.txComplete good s).hard = s.hard := rfl
@[simp] theorem State.txComplete_thread (good : Bool) (s : State) :
    (State.txComplete good s).thread = s.thread := rfl
@[simp] theorem State.txComplete_readData (good : Bool) (s : State) :
    (State.txComplete good s).readData = s.readData := rfl
@[simp] theorem State.txComplete_packed (good : Bool) (s : State) :
    (State.txComplete good s).packed = s.packed := rfl
@[simp] theorem State.txComplete_emitted (good : Bool) (s : State) :
    (State.txComplete good s).emitted = s.emitted := rfl
@[simp] theorem State.txComplete_feed (good : Bool) (s : State) :
    (State.txComplete good s).feed = s.feed := rfl
@[simp] theorem State.txComplete_plan (good : Bool) (s : State) :
    (State.txComplete good s).plan = s.plan := rfl
@[simp] theorem State.txComplete_draws (good : Bool) (s : State) :
    (State.txComplete good s).draws = s.draws := rfl

/-! `State.rxComplete`. -/

@[simp] theorem State.rxComplete_variant (frame : List Byte) (s : State) :
    (State.rxComplete frame s).variant = s.variant := rfl
@[simp] theorem State.rxComplete_powered (frame : List Byte) (s : State) :
    (State.rxComplete frame s).powered = s.powered := rfl
@[simp] theorem State.rxComplete_cntrl1 (frame : List Byte) (s : State) :
    (State.rxComplete frame s).cntrl1 = { s.cntrl1 with recLen := lengthField frame.length, receiveOff := true } := rfl
@[simp] theorem State.rxComplete_cntrl2 (frame : List Byte) (s : State) :
    (State.rxComplete frame s).cntrl2 = s.cntrl2 := rfl
@[simp] theorem State.rxComplete_cntrl3 (frame : List Byte) (s : State) :
    (State.rxComplete frame s).cntrl3 = s.cntrl3 := rfl
@[simp] theorem State.rxComplete_cntrl4 (frame : List Byte) (s : State) :
    (State.rxComplete frame s).cntrl4 = s.cntrl4 := rfl
@[simp] theorem State.rxComplete_cntrl5 (frame : List Byte) (s : State) :
    (State.rxComplete frame s).cntrl5 = { s.cntrl5 with rxCecInt := true } := rfl
@[simp] theorem State.rxComplete_txData (frame : List Byte) (s : State) :
    (State.rxComplete frame s).txData = s.txData := rfl
@[simp] theorem State.rxComplete_rxData (frame : List Byte) (s : State) :
    (State.rxComplete frame s).rxData = frameBytes frame s.draws := rfl
@[simp] theorem State.rxComplete_cpuStatus (frame : List Byte) (s : State) :
    (State.rxComplete frame s).cpuStatus = true := rfl
@[simp] theorem State.rxComplete_cpuMask (frame : List Byte) (s : State) :
    (State.rxComplete frame s).cpuMask = s.cpuMask := rfl
@[simp] theorem State.rxComplete_pktConfig (frame : List Byte) (s : State) :
    (State.rxComplete frame s).pktConfig = s.pktConfig := rfl
@[simp] theorem State.rxComplete_slotSt (frame : List Byte) (s : State) :
    (State.rxComplete frame s).slotSt = s.slotSt := rfl
@[simp] theorem State.rxComplete_packetRam (frame : List Byte) (s : State) :
    (State.rxComplete frame s).packetRam = s.packetRam := rfl
@[simp] theorem State.rxComplete_txState (frame : List Byte) (s : State) :
    (State.rxComplete frame s).txState = s.txState := rfl
@[simp] theorem State.rxComplete_txAttempt (frame : List Byte) (s : State) :
    (State.rxComplete frame s).txAttempt = s.txAttempt := rfl
@[simp] theorem State.rxComplete_txLen (frame : List Byte) (s : State) :
    (State.rxComplete frame s).txLen = s.txLen := rfl
@[simp] theorem State.rxComplete_txBytes (frame : List Byte) (s : State) :
    (State.rxComplete frame s).txBytes = s.txBytes := rfl
@[simp] theorem State.rxComplete_slotTorn (frame : List Byte) (s : State) :
    (State.rxComplete frame s).slotTorn = s.slotTorn := rfl
@[simp] theorem State.rxComplete_rxMsg (frame : List Byte) (s : State) :
    (State.rxComplete frame s).rxMsg = s.rxMsg := rfl
@[simp] theorem State.rxComplete_irqWasRx (frame : List Byte) (s : State) :
    (State.rxComplete frame s).irqWasRx = s.irqWasRx := rfl
@[simp] theorem State.rxComplete_txOk (frame : List Byte) (s : State) :
    (State.rxComplete frame s).txOk = s.txOk := rfl
@[simp] theorem State.rxComplete_mailboxFull (frame : List Byte) (s : State) :
    (State.rxComplete frame s).mailboxFull = s.mailboxFull := rfl
@[simp] theorem State.rxComplete_fUnpowered (frame : List Byte) (s : State) :
    (State.rxComplete frame s).fUnpowered = s.fUnpowered := rfl
@[simp] theorem State.rxComplete_fTxRegWhileBusy (frame : List Byte) (s : State) :
    (State.rxComplete frame s).fTxRegWhileBusy = s.fTxRegWhileBusy := rfl
@[simp] theorem State.rxComplete_fMailboxOverrun (frame : List Byte) (s : State) :
    (State.rxComplete frame s).fMailboxOverrun = s.fMailboxOverrun := rfl
@[simp] theorem State.rxComplete_fPktRamOff (frame : List Byte) (s : State) :
    (State.rxComplete frame s).fPktRamOff = s.fPktRamOff := rfl
@[simp] theorem State.rxComplete_refused (frame : List Byte) (s : State) :
    (State.rxComplete frame s).refused = s.refused := rfl
@[simp] theorem State.rxComplete_proc (frame : List Byte) (s : State) :
    (State.rxComplete frame s).proc = s.proc := rfl
@[simp] theorem State.rxComplete_hard (frame : List Byte) (s : State) :
    (State.rxComplete frame s).hard = s.hard := rfl
@[simp] theorem State.rxComplete_thread (frame : List Byte) (s : State) :
    (State.rxComplete frame s).thread = s.thread := rfl
@[simp] theorem State.rxComplete_readData (frame : List Byte) (s : State) :
    (State.rxComplete frame s).readData = s.readData := rfl
@[simp] theorem State.rxComplete_packed (frame : List Byte) (s : State) :
    (State.rxComplete frame s).packed = s.packed := rfl
@[simp] theorem State.rxComplete_emitted (frame : List Byte) (s : State) :
    (State.rxComplete frame s).emitted = s.emitted := rfl
@[simp] theorem State.rxComplete_feed (frame : List Byte) (s : State) :
    (State.rxComplete frame s).feed = s.feed := rfl
@[simp] theorem State.rxComplete_plan (frame : List Byte) (s : State) :
    (State.rxComplete frame s).plan = s.plan := rfl
@[simp] theorem State.rxComplete_draws (frame : List Byte) (s : State) :
    (State.rxComplete frame s).draws = s.draws + 4 := rfl

/-! `State.clearHostVars`. -/

@[simp] theorem State.clearHostVars_variant (s : State) : s.clearHostVars.variant = s.variant := rfl
@[simp] theorem State.clearHostVars_powered (s : State) : s.clearHostVars.powered = s.powered := rfl
@[simp] theorem State.clearHostVars_cntrl1 (s : State) : s.clearHostVars.cntrl1 = s.cntrl1 := rfl
@[simp] theorem State.clearHostVars_cntrl2 (s : State) : s.clearHostVars.cntrl2 = s.cntrl2 := rfl
@[simp] theorem State.clearHostVars_cntrl3 (s : State) : s.clearHostVars.cntrl3 = s.cntrl3 := rfl
@[simp] theorem State.clearHostVars_cntrl4 (s : State) : s.clearHostVars.cntrl4 = s.cntrl4 := rfl
@[simp] theorem State.clearHostVars_cntrl5 (s : State) : s.clearHostVars.cntrl5 = s.cntrl5 := rfl
@[simp] theorem State.clearHostVars_txData (s : State) : s.clearHostVars.txData = s.txData := rfl
@[simp] theorem State.clearHostVars_rxData (s : State) : s.clearHostVars.rxData = s.rxData := rfl
@[simp] theorem State.clearHostVars_cpuStatus (s : State) : s.clearHostVars.cpuStatus = s.cpuStatus := rfl
@[simp] theorem State.clearHostVars_cpuMask (s : State) : s.clearHostVars.cpuMask = s.cpuMask := rfl
@[simp] theorem State.clearHostVars_pktConfig (s : State) : s.clearHostVars.pktConfig = s.pktConfig := rfl
@[simp] theorem State.clearHostVars_slotSt (s : State) : s.clearHostVars.slotSt = s.slotSt := rfl
@[simp] theorem State.clearHostVars_packetRam (s : State) : s.clearHostVars.packetRam = s.packetRam := rfl
@[simp] theorem State.clearHostVars_txState (s : State) : s.clearHostVars.txState = s.txState := rfl
@[simp] theorem State.clearHostVars_txAttempt (s : State) : s.clearHostVars.txAttempt = s.txAttempt := rfl
@[simp] theorem State.clearHostVars_txLen (s : State) : s.clearHostVars.txLen = s.txLen := rfl
@[simp] theorem State.clearHostVars_txBytes (s : State) : s.clearHostVars.txBytes = s.txBytes := rfl
@[simp] theorem State.clearHostVars_slotTorn (s : State) : s.clearHostVars.slotTorn = s.slotTorn := rfl
@[simp] theorem State.clearHostVars_rxMsg (s : State) : s.clearHostVars.rxMsg = {} := rfl
@[simp] theorem State.clearHostVars_irqWasRx (s : State) : s.clearHostVars.irqWasRx = false := rfl
@[simp] theorem State.clearHostVars_txOk (s : State) : s.clearHostVars.txOk = false := rfl
@[simp] theorem State.clearHostVars_mailboxFull (s : State) : s.clearHostVars.mailboxFull = false := rfl
@[simp] theorem State.clearHostVars_fUnpowered (s : State) : s.clearHostVars.fUnpowered = s.fUnpowered := rfl
@[simp] theorem State.clearHostVars_fTxRegWhileBusy (s : State) :
    s.clearHostVars.fTxRegWhileBusy = s.fTxRegWhileBusy := rfl
@[simp] theorem State.clearHostVars_fMailboxOverrun (s : State) :
    s.clearHostVars.fMailboxOverrun = s.fMailboxOverrun := rfl
@[simp] theorem State.clearHostVars_fPktRamOff (s : State) : s.clearHostVars.fPktRamOff = s.fPktRamOff := rfl
@[simp] theorem State.clearHostVars_refused (s : State) : s.clearHostVars.refused = s.refused := rfl
@[simp] theorem State.clearHostVars_proc (s : State) : s.clearHostVars.proc = s.proc := rfl
@[simp] theorem State.clearHostVars_hard (s : State) : s.clearHostVars.hard = s.hard := rfl
@[simp] theorem State.clearHostVars_thread (s : State) : s.clearHostVars.thread = s.thread := rfl
@[simp] theorem State.clearHostVars_readData (s : State) : s.clearHostVars.readData = s.readData := rfl
@[simp] theorem State.clearHostVars_packed (s : State) : s.clearHostVars.packed = s.packed := rfl
@[simp] theorem State.clearHostVars_emitted (s : State) : s.clearHostVars.emitted = s.emitted := rfl
@[simp] theorem State.clearHostVars_feed (s : State) : s.clearHostVars.feed = s.feed := rfl
@[simp] theorem State.clearHostVars_plan (s : State) : s.clearHostVars.plan = s.plan := rfl
@[simp] theorem State.clearHostVars_draws (s : State) : s.clearHostVars.draws = s.draws := rfl

/-! `State.setRxLen`. -/

@[simp] theorem State.setRxLen_variant (n : Nat) (s : State) : (State.setRxLen n s).variant = s.variant := rfl
@[simp] theorem State.setRxLen_powered (n : Nat) (s : State) : (State.setRxLen n s).powered = s.powered := rfl
@[simp] theorem State.setRxLen_cntrl1 (n : Nat) (s : State) : (State.setRxLen n s).cntrl1 = s.cntrl1 := rfl
@[simp] theorem State.setRxLen_cntrl2 (n : Nat) (s : State) : (State.setRxLen n s).cntrl2 = s.cntrl2 := rfl
@[simp] theorem State.setRxLen_cntrl3 (n : Nat) (s : State) : (State.setRxLen n s).cntrl3 = s.cntrl3 := rfl
@[simp] theorem State.setRxLen_cntrl4 (n : Nat) (s : State) : (State.setRxLen n s).cntrl4 = s.cntrl4 := rfl
@[simp] theorem State.setRxLen_cntrl5 (n : Nat) (s : State) : (State.setRxLen n s).cntrl5 = s.cntrl5 := rfl
@[simp] theorem State.setRxLen_txData (n : Nat) (s : State) : (State.setRxLen n s).txData = s.txData := rfl
@[simp] theorem State.setRxLen_rxData (n : Nat) (s : State) : (State.setRxLen n s).rxData = s.rxData := rfl
@[simp] theorem State.setRxLen_cpuStatus (n : Nat) (s : State) :
    (State.setRxLen n s).cpuStatus = s.cpuStatus := rfl
@[simp] theorem State.setRxLen_cpuMask (n : Nat) (s : State) : (State.setRxLen n s).cpuMask = s.cpuMask := rfl
@[simp] theorem State.setRxLen_pktConfig (n : Nat) (s : State) :
    (State.setRxLen n s).pktConfig = s.pktConfig := rfl
@[simp] theorem State.setRxLen_slotSt (n : Nat) (s : State) : (State.setRxLen n s).slotSt = s.slotSt := rfl
@[simp] theorem State.setRxLen_packetRam (n : Nat) (s : State) :
    (State.setRxLen n s).packetRam = s.packetRam := rfl
@[simp] theorem State.setRxLen_txState (n : Nat) (s : State) : (State.setRxLen n s).txState = s.txState := rfl
@[simp] theorem State.setRxLen_txAttempt (n : Nat) (s : State) :
    (State.setRxLen n s).txAttempt = s.txAttempt := rfl
@[simp] theorem State.setRxLen_txLen (n : Nat) (s : State) : (State.setRxLen n s).txLen = s.txLen := rfl
@[simp] theorem State.setRxLen_txBytes (n : Nat) (s : State) : (State.setRxLen n s).txBytes = s.txBytes := rfl
@[simp] theorem State.setRxLen_slotTorn (n : Nat) (s : State) :
    (State.setRxLen n s).slotTorn = s.slotTorn := rfl
@[simp] theorem State.setRxLen_rxMsg (n : Nat) (s : State) :
    (State.setRxLen n s).rxMsg = { s.rxMsg with len := n } := rfl
@[simp] theorem State.setRxLen_irqWasRx (n : Nat) (s : State) :
    (State.setRxLen n s).irqWasRx = s.irqWasRx := rfl
@[simp] theorem State.setRxLen_txOk (n : Nat) (s : State) : (State.setRxLen n s).txOk = s.txOk := rfl
@[simp] theorem State.setRxLen_mailboxFull (n : Nat) (s : State) :
    (State.setRxLen n s).mailboxFull = s.mailboxFull := rfl
@[simp] theorem State.setRxLen_fUnpowered (n : Nat) (s : State) :
    (State.setRxLen n s).fUnpowered = s.fUnpowered := rfl
@[simp] theorem State.setRxLen_fTxRegWhileBusy (n : Nat) (s : State) :
    (State.setRxLen n s).fTxRegWhileBusy = s.fTxRegWhileBusy := rfl
@[simp] theorem State.setRxLen_fMailboxOverrun (n : Nat) (s : State) :
    (State.setRxLen n s).fMailboxOverrun = s.fMailboxOverrun := rfl
@[simp] theorem State.setRxLen_fPktRamOff (n : Nat) (s : State) :
    (State.setRxLen n s).fPktRamOff = s.fPktRamOff := rfl
@[simp] theorem State.setRxLen_refused (n : Nat) (s : State) : (State.setRxLen n s).refused = s.refused := rfl
@[simp] theorem State.setRxLen_proc (n : Nat) (s : State) : (State.setRxLen n s).proc = s.proc := rfl
@[simp] theorem State.setRxLen_hard (n : Nat) (s : State) : (State.setRxLen n s).hard = s.hard := rfl
@[simp] theorem State.setRxLen_thread (n : Nat) (s : State) : (State.setRxLen n s).thread = s.thread := rfl
@[simp] theorem State.setRxLen_readData (n : Nat) (s : State) :
    (State.setRxLen n s).readData = s.readData := rfl
@[simp] theorem State.setRxLen_packed (n : Nat) (s : State) : (State.setRxLen n s).packed = s.packed := rfl
@[simp] theorem State.setRxLen_emitted (n : Nat) (s : State) : (State.setRxLen n s).emitted = s.emitted := rfl
@[simp] theorem State.setRxLen_feed (n : Nat) (s : State) : (State.setRxLen n s).feed = s.feed := rfl
@[simp] theorem State.setRxLen_plan (n : Nat) (s : State) : (State.setRxLen n s).plan = s.plan := rfl
@[simp] theorem State.setRxLen_draws (n : Nat) (s : State) : (State.setRxLen n s).draws = s.draws := rfl

/-! `State.setRxWord`. -/

@[simp] theorem State.setRxWord_variant (w : Nat) (l : Lanes) (s : State) :
    (State.setRxWord w l s).variant = s.variant := rfl
@[simp] theorem State.setRxWord_powered (w : Nat) (l : Lanes) (s : State) :
    (State.setRxWord w l s).powered = s.powered := rfl
@[simp] theorem State.setRxWord_cntrl1 (w : Nat) (l : Lanes) (s : State) :
    (State.setRxWord w l s).cntrl1 = s.cntrl1 := rfl
@[simp] theorem State.setRxWord_cntrl2 (w : Nat) (l : Lanes) (s : State) :
    (State.setRxWord w l s).cntrl2 = s.cntrl2 := rfl
@[simp] theorem State.setRxWord_cntrl3 (w : Nat) (l : Lanes) (s : State) :
    (State.setRxWord w l s).cntrl3 = s.cntrl3 := rfl
@[simp] theorem State.setRxWord_cntrl4 (w : Nat) (l : Lanes) (s : State) :
    (State.setRxWord w l s).cntrl4 = s.cntrl4 := rfl
@[simp] theorem State.setRxWord_cntrl5 (w : Nat) (l : Lanes) (s : State) :
    (State.setRxWord w l s).cntrl5 = s.cntrl5 := rfl
@[simp] theorem State.setRxWord_txData (w : Nat) (l : Lanes) (s : State) :
    (State.setRxWord w l s).txData = s.txData := rfl
@[simp] theorem State.setRxWord_rxData (w : Nat) (l : Lanes) (s : State) :
    (State.setRxWord w l s).rxData = s.rxData := rfl
@[simp] theorem State.setRxWord_cpuStatus (w : Nat) (l : Lanes) (s : State) :
    (State.setRxWord w l s).cpuStatus = s.cpuStatus := rfl
@[simp] theorem State.setRxWord_cpuMask (w : Nat) (l : Lanes) (s : State) :
    (State.setRxWord w l s).cpuMask = s.cpuMask := rfl
@[simp] theorem State.setRxWord_pktConfig (w : Nat) (l : Lanes) (s : State) :
    (State.setRxWord w l s).pktConfig = s.pktConfig := rfl
@[simp] theorem State.setRxWord_slotSt (w : Nat) (l : Lanes) (s : State) :
    (State.setRxWord w l s).slotSt = s.slotSt := rfl
@[simp] theorem State.setRxWord_packetRam (w : Nat) (l : Lanes) (s : State) :
    (State.setRxWord w l s).packetRam = s.packetRam := rfl
@[simp] theorem State.setRxWord_txState (w : Nat) (l : Lanes) (s : State) :
    (State.setRxWord w l s).txState = s.txState := rfl
@[simp] theorem State.setRxWord_txAttempt (w : Nat) (l : Lanes) (s : State) :
    (State.setRxWord w l s).txAttempt = s.txAttempt := rfl
@[simp] theorem State.setRxWord_txLen (w : Nat) (l : Lanes) (s : State) :
    (State.setRxWord w l s).txLen = s.txLen := rfl
@[simp] theorem State.setRxWord_txBytes (w : Nat) (l : Lanes) (s : State) :
    (State.setRxWord w l s).txBytes = s.txBytes := rfl
@[simp] theorem State.setRxWord_slotTorn (w : Nat) (l : Lanes) (s : State) :
    (State.setRxWord w l s).slotTorn = s.slotTorn := rfl
@[simp] theorem State.setRxWord_rxMsg (w : Nat) (l : Lanes) (s : State) :
    (State.setRxWord w l s).rxMsg = { s.rxMsg with bytes := Bytes16.setLanes s.rxMsg.bytes w l } := rfl
@[simp] theorem State.setRxWord_irqWasRx (w : Nat) (l : Lanes) (s : State) :
    (State.setRxWord w l s).irqWasRx = s.irqWasRx := rfl
@[simp] theorem State.setRxWord_txOk (w : Nat) (l : Lanes) (s : State) :
    (State.setRxWord w l s).txOk = s.txOk := rfl
@[simp] theorem State.setRxWord_mailboxFull (w : Nat) (l : Lanes) (s : State) :
    (State.setRxWord w l s).mailboxFull = s.mailboxFull := rfl
@[simp] theorem State.setRxWord_fUnpowered (w : Nat) (l : Lanes) (s : State) :
    (State.setRxWord w l s).fUnpowered = s.fUnpowered := rfl
@[simp] theorem State.setRxWord_fTxRegWhileBusy (w : Nat) (l : Lanes) (s : State) :
    (State.setRxWord w l s).fTxRegWhileBusy = s.fTxRegWhileBusy := rfl
@[simp] theorem State.setRxWord_fMailboxOverrun (w : Nat) (l : Lanes) (s : State) :
    (State.setRxWord w l s).fMailboxOverrun = s.fMailboxOverrun := rfl
@[simp] theorem State.setRxWord_fPktRamOff (w : Nat) (l : Lanes) (s : State) :
    (State.setRxWord w l s).fPktRamOff = s.fPktRamOff := rfl
@[simp] theorem State.setRxWord_refused (w : Nat) (l : Lanes) (s : State) :
    (State.setRxWord w l s).refused = s.refused := rfl
@[simp] theorem State.setRxWord_proc (w : Nat) (l : Lanes) (s : State) :
    (State.setRxWord w l s).proc = s.proc := rfl
@[simp] theorem State.setRxWord_hard (w : Nat) (l : Lanes) (s : State) :
    (State.setRxWord w l s).hard = s.hard := rfl
@[simp] theorem State.setRxWord_thread (w : Nat) (l : Lanes) (s : State) :
    (State.setRxWord w l s).thread = s.thread := rfl
@[simp] theorem State.setRxWord_readData (w : Nat) (l : Lanes) (s : State) :
    (State.setRxWord w l s).readData = s.readData := rfl
@[simp] theorem State.setRxWord_packed (w : Nat) (l : Lanes) (s : State) :
    (State.setRxWord w l s).packed = s.packed := rfl
@[simp] theorem State.setRxWord_emitted (w : Nat) (l : Lanes) (s : State) :
    (State.setRxWord w l s).emitted = s.emitted := rfl
@[simp] theorem State.setRxWord_feed (w : Nat) (l : Lanes) (s : State) :
    (State.setRxWord w l s).feed = s.feed := rfl
@[simp] theorem State.setRxWord_plan (w : Nat) (l : Lanes) (s : State) :
    (State.setRxWord w l s).plan = s.plan := rfl
@[simp] theorem State.setRxWord_draws (w : Nat) (l : Lanes) (s : State) :
    (State.setRxWord w l s).draws = s.draws := rfl

/-! `State.setWasRx`. -/

@[simp] theorem State.setWasRx_variant (b : Bool) (s : State) :
    (State.setWasRx b s).variant = s.variant := rfl
@[simp] theorem State.setWasRx_powered (b : Bool) (s : State) :
    (State.setWasRx b s).powered = s.powered := rfl
@[simp] theorem State.setWasRx_cntrl1 (b : Bool) (s : State) : (State.setWasRx b s).cntrl1 = s.cntrl1 := rfl
@[simp] theorem State.setWasRx_cntrl2 (b : Bool) (s : State) : (State.setWasRx b s).cntrl2 = s.cntrl2 := rfl
@[simp] theorem State.setWasRx_cntrl3 (b : Bool) (s : State) : (State.setWasRx b s).cntrl3 = s.cntrl3 := rfl
@[simp] theorem State.setWasRx_cntrl4 (b : Bool) (s : State) : (State.setWasRx b s).cntrl4 = s.cntrl4 := rfl
@[simp] theorem State.setWasRx_cntrl5 (b : Bool) (s : State) : (State.setWasRx b s).cntrl5 = s.cntrl5 := rfl
@[simp] theorem State.setWasRx_txData (b : Bool) (s : State) : (State.setWasRx b s).txData = s.txData := rfl
@[simp] theorem State.setWasRx_rxData (b : Bool) (s : State) : (State.setWasRx b s).rxData = s.rxData := rfl
@[simp] theorem State.setWasRx_cpuStatus (b : Bool) (s : State) :
    (State.setWasRx b s).cpuStatus = s.cpuStatus := rfl
@[simp] theorem State.setWasRx_cpuMask (b : Bool) (s : State) :
    (State.setWasRx b s).cpuMask = s.cpuMask := rfl
@[simp] theorem State.setWasRx_pktConfig (b : Bool) (s : State) :
    (State.setWasRx b s).pktConfig = s.pktConfig := rfl
@[simp] theorem State.setWasRx_slotSt (b : Bool) (s : State) : (State.setWasRx b s).slotSt = s.slotSt := rfl
@[simp] theorem State.setWasRx_packetRam (b : Bool) (s : State) :
    (State.setWasRx b s).packetRam = s.packetRam := rfl
@[simp] theorem State.setWasRx_txState (b : Bool) (s : State) :
    (State.setWasRx b s).txState = s.txState := rfl
@[simp] theorem State.setWasRx_txAttempt (b : Bool) (s : State) :
    (State.setWasRx b s).txAttempt = s.txAttempt := rfl
@[simp] theorem State.setWasRx_txLen (b : Bool) (s : State) : (State.setWasRx b s).txLen = s.txLen := rfl
@[simp] theorem State.setWasRx_txBytes (b : Bool) (s : State) :
    (State.setWasRx b s).txBytes = s.txBytes := rfl
@[simp] theorem State.setWasRx_slotTorn (b : Bool) (s : State) :
    (State.setWasRx b s).slotTorn = s.slotTorn := rfl
@[simp] theorem State.setWasRx_rxMsg (b : Bool) (s : State) : (State.setWasRx b s).rxMsg = s.rxMsg := rfl
@[simp] theorem State.setWasRx_irqWasRx (b : Bool) (s : State) : (State.setWasRx b s).irqWasRx = b := rfl
@[simp] theorem State.setWasRx_txOk (b : Bool) (s : State) : (State.setWasRx b s).txOk = s.txOk := rfl
@[simp] theorem State.setWasRx_mailboxFull (b : Bool) (s : State) :
    (State.setWasRx b s).mailboxFull = s.mailboxFull := rfl
@[simp] theorem State.setWasRx_fUnpowered (b : Bool) (s : State) :
    (State.setWasRx b s).fUnpowered = s.fUnpowered := rfl
@[simp] theorem State.setWasRx_fTxRegWhileBusy (b : Bool) (s : State) :
    (State.setWasRx b s).fTxRegWhileBusy = s.fTxRegWhileBusy := rfl
@[simp] theorem State.setWasRx_fMailboxOverrun (b : Bool) (s : State) :
    (State.setWasRx b s).fMailboxOverrun = s.fMailboxOverrun := rfl
@[simp] theorem State.setWasRx_fPktRamOff (b : Bool) (s : State) :
    (State.setWasRx b s).fPktRamOff = s.fPktRamOff := rfl
@[simp] theorem State.setWasRx_refused (b : Bool) (s : State) :
    (State.setWasRx b s).refused = s.refused := rfl
@[simp] theorem State.setWasRx_proc (b : Bool) (s : State) : (State.setWasRx b s).proc = s.proc := rfl
@[simp] theorem State.setWasRx_hard (b : Bool) (s : State) : (State.setWasRx b s).hard = s.hard := rfl
@[simp] theorem State.setWasRx_thread (b : Bool) (s : State) : (State.setWasRx b s).thread = s.thread := rfl
@[simp] theorem State.setWasRx_readData (b : Bool) (s : State) :
    (State.setWasRx b s).readData = s.readData := rfl
@[simp] theorem State.setWasRx_packed (b : Bool) (s : State) : (State.setWasRx b s).packed = s.packed := rfl
@[simp] theorem State.setWasRx_emitted (b : Bool) (s : State) :
    (State.setWasRx b s).emitted = s.emitted := rfl
@[simp] theorem State.setWasRx_feed (b : Bool) (s : State) : (State.setWasRx b s).feed = s.feed := rfl
@[simp] theorem State.setWasRx_plan (b : Bool) (s : State) : (State.setWasRx b s).plan = s.plan := rfl
@[simp] theorem State.setWasRx_draws (b : Bool) (s : State) : (State.setWasRx b s).draws = s.draws := rfl

/-! `State.setTxOk`. -/

@[simp] theorem State.setTxOk_variant (b : Bool) (s : State) : (State.setTxOk b s).variant = s.variant := rfl
@[simp] theorem State.setTxOk_powered (b : Bool) (s : State) : (State.setTxOk b s).powered = s.powered := rfl
@[simp] theorem State.setTxOk_cntrl1 (b : Bool) (s : State) : (State.setTxOk b s).cntrl1 = s.cntrl1 := rfl
@[simp] theorem State.setTxOk_cntrl2 (b : Bool) (s : State) : (State.setTxOk b s).cntrl2 = s.cntrl2 := rfl
@[simp] theorem State.setTxOk_cntrl3 (b : Bool) (s : State) : (State.setTxOk b s).cntrl3 = s.cntrl3 := rfl
@[simp] theorem State.setTxOk_cntrl4 (b : Bool) (s : State) : (State.setTxOk b s).cntrl4 = s.cntrl4 := rfl
@[simp] theorem State.setTxOk_cntrl5 (b : Bool) (s : State) : (State.setTxOk b s).cntrl5 = s.cntrl5 := rfl
@[simp] theorem State.setTxOk_txData (b : Bool) (s : State) : (State.setTxOk b s).txData = s.txData := rfl
@[simp] theorem State.setTxOk_rxData (b : Bool) (s : State) : (State.setTxOk b s).rxData = s.rxData := rfl
@[simp] theorem State.setTxOk_cpuStatus (b : Bool) (s : State) :
    (State.setTxOk b s).cpuStatus = s.cpuStatus := rfl
@[simp] theorem State.setTxOk_cpuMask (b : Bool) (s : State) : (State.setTxOk b s).cpuMask = s.cpuMask := rfl
@[simp] theorem State.setTxOk_pktConfig (b : Bool) (s : State) :
    (State.setTxOk b s).pktConfig = s.pktConfig := rfl
@[simp] theorem State.setTxOk_slotSt (b : Bool) (s : State) : (State.setTxOk b s).slotSt = s.slotSt := rfl
@[simp] theorem State.setTxOk_packetRam (b : Bool) (s : State) :
    (State.setTxOk b s).packetRam = s.packetRam := rfl
@[simp] theorem State.setTxOk_txState (b : Bool) (s : State) : (State.setTxOk b s).txState = s.txState := rfl
@[simp] theorem State.setTxOk_txAttempt (b : Bool) (s : State) :
    (State.setTxOk b s).txAttempt = s.txAttempt := rfl
@[simp] theorem State.setTxOk_txLen (b : Bool) (s : State) : (State.setTxOk b s).txLen = s.txLen := rfl
@[simp] theorem State.setTxOk_txBytes (b : Bool) (s : State) : (State.setTxOk b s).txBytes = s.txBytes := rfl
@[simp] theorem State.setTxOk_slotTorn (b : Bool) (s : State) :
    (State.setTxOk b s).slotTorn = s.slotTorn := rfl
@[simp] theorem State.setTxOk_rxMsg (b : Bool) (s : State) : (State.setTxOk b s).rxMsg = s.rxMsg := rfl
@[simp] theorem State.setTxOk_irqWasRx (b : Bool) (s : State) :
    (State.setTxOk b s).irqWasRx = s.irqWasRx := rfl
@[simp] theorem State.setTxOk_txOk (b : Bool) (s : State) : (State.setTxOk b s).txOk = b := rfl
@[simp] theorem State.setTxOk_mailboxFull (b : Bool) (s : State) :
    (State.setTxOk b s).mailboxFull = s.mailboxFull := rfl
@[simp] theorem State.setTxOk_fUnpowered (b : Bool) (s : State) :
    (State.setTxOk b s).fUnpowered = s.fUnpowered := rfl
@[simp] theorem State.setTxOk_fTxRegWhileBusy (b : Bool) (s : State) :
    (State.setTxOk b s).fTxRegWhileBusy = s.fTxRegWhileBusy := rfl
@[simp] theorem State.setTxOk_fMailboxOverrun (b : Bool) (s : State) :
    (State.setTxOk b s).fMailboxOverrun = s.fMailboxOverrun := rfl
@[simp] theorem State.setTxOk_fPktRamOff (b : Bool) (s : State) :
    (State.setTxOk b s).fPktRamOff = s.fPktRamOff := rfl
@[simp] theorem State.setTxOk_refused (b : Bool) (s : State) : (State.setTxOk b s).refused = s.refused := rfl
@[simp] theorem State.setTxOk_proc (b : Bool) (s : State) : (State.setTxOk b s).proc = s.proc := rfl
@[simp] theorem State.setTxOk_hard (b : Bool) (s : State) : (State.setTxOk b s).hard = s.hard := rfl
@[simp] theorem State.setTxOk_thread (b : Bool) (s : State) : (State.setTxOk b s).thread = s.thread := rfl
@[simp] theorem State.setTxOk_readData (b : Bool) (s : State) :
    (State.setTxOk b s).readData = s.readData := rfl
@[simp] theorem State.setTxOk_packed (b : Bool) (s : State) : (State.setTxOk b s).packed = s.packed := rfl
@[simp] theorem State.setTxOk_emitted (b : Bool) (s : State) : (State.setTxOk b s).emitted = s.emitted := rfl
@[simp] theorem State.setTxOk_feed (b : Bool) (s : State) : (State.setTxOk b s).feed = s.feed := rfl
@[simp] theorem State.setTxOk_plan (b : Bool) (s : State) : (State.setTxOk b s).plan = s.plan := rfl
@[simp] theorem State.setTxOk_draws (b : Bool) (s : State) : (State.setTxOk b s).draws = s.draws := rfl

/-! `State.setMailbox`. -/

@[simp] theorem State.setMailbox_variant (b : Bool) (s : State) :
    (State.setMailbox b s).variant = s.variant := rfl
@[simp] theorem State.setMailbox_powered (b : Bool) (s : State) :
    (State.setMailbox b s).powered = s.powered := rfl
@[simp] theorem State.setMailbox_cntrl1 (b : Bool) (s : State) :
    (State.setMailbox b s).cntrl1 = s.cntrl1 := rfl
@[simp] theorem State.setMailbox_cntrl2 (b : Bool) (s : State) :
    (State.setMailbox b s).cntrl2 = s.cntrl2 := rfl
@[simp] theorem State.setMailbox_cntrl3 (b : Bool) (s : State) :
    (State.setMailbox b s).cntrl3 = s.cntrl3 := rfl
@[simp] theorem State.setMailbox_cntrl4 (b : Bool) (s : State) :
    (State.setMailbox b s).cntrl4 = s.cntrl4 := rfl
@[simp] theorem State.setMailbox_cntrl5 (b : Bool) (s : State) :
    (State.setMailbox b s).cntrl5 = s.cntrl5 := rfl
@[simp] theorem State.setMailbox_txData (b : Bool) (s : State) :
    (State.setMailbox b s).txData = s.txData := rfl
@[simp] theorem State.setMailbox_rxData (b : Bool) (s : State) :
    (State.setMailbox b s).rxData = s.rxData := rfl
@[simp] theorem State.setMailbox_cpuStatus (b : Bool) (s : State) :
    (State.setMailbox b s).cpuStatus = s.cpuStatus := rfl
@[simp] theorem State.setMailbox_cpuMask (b : Bool) (s : State) :
    (State.setMailbox b s).cpuMask = s.cpuMask := rfl
@[simp] theorem State.setMailbox_pktConfig (b : Bool) (s : State) :
    (State.setMailbox b s).pktConfig = s.pktConfig := rfl
@[simp] theorem State.setMailbox_slotSt (b : Bool) (s : State) :
    (State.setMailbox b s).slotSt = s.slotSt := rfl
@[simp] theorem State.setMailbox_packetRam (b : Bool) (s : State) :
    (State.setMailbox b s).packetRam = s.packetRam := rfl
@[simp] theorem State.setMailbox_txState (b : Bool) (s : State) :
    (State.setMailbox b s).txState = s.txState := rfl
@[simp] theorem State.setMailbox_txAttempt (b : Bool) (s : State) :
    (State.setMailbox b s).txAttempt = s.txAttempt := rfl
@[simp] theorem State.setMailbox_txLen (b : Bool) (s : State) : (State.setMailbox b s).txLen = s.txLen := rfl
@[simp] theorem State.setMailbox_txBytes (b : Bool) (s : State) :
    (State.setMailbox b s).txBytes = s.txBytes := rfl
@[simp] theorem State.setMailbox_slotTorn (b : Bool) (s : State) :
    (State.setMailbox b s).slotTorn = s.slotTorn := rfl
@[simp] theorem State.setMailbox_rxMsg (b : Bool) (s : State) : (State.setMailbox b s).rxMsg = s.rxMsg := rfl
@[simp] theorem State.setMailbox_irqWasRx (b : Bool) (s : State) :
    (State.setMailbox b s).irqWasRx = s.irqWasRx := rfl
@[simp] theorem State.setMailbox_txOk (b : Bool) (s : State) : (State.setMailbox b s).txOk = s.txOk := rfl
@[simp] theorem State.setMailbox_mailboxFull (b : Bool) (s : State) :
    (State.setMailbox b s).mailboxFull = b := rfl
@[simp] theorem State.setMailbox_fUnpowered (b : Bool) (s : State) :
    (State.setMailbox b s).fUnpowered = s.fUnpowered := rfl
@[simp] theorem State.setMailbox_fTxRegWhileBusy (b : Bool) (s : State) :
    (State.setMailbox b s).fTxRegWhileBusy = s.fTxRegWhileBusy := rfl
@[simp] theorem State.setMailbox_fMailboxOverrun (b : Bool) (s : State) :
    (State.setMailbox b s).fMailboxOverrun = s.fMailboxOverrun := rfl
@[simp] theorem State.setMailbox_fPktRamOff (b : Bool) (s : State) :
    (State.setMailbox b s).fPktRamOff = s.fPktRamOff := rfl
@[simp] theorem State.setMailbox_refused (b : Bool) (s : State) :
    (State.setMailbox b s).refused = s.refused := rfl
@[simp] theorem State.setMailbox_proc (b : Bool) (s : State) : (State.setMailbox b s).proc = s.proc := rfl
@[simp] theorem State.setMailbox_hard (b : Bool) (s : State) : (State.setMailbox b s).hard = s.hard := rfl
@[simp] theorem State.setMailbox_thread (b : Bool) (s : State) :
    (State.setMailbox b s).thread = s.thread := rfl
@[simp] theorem State.setMailbox_readData (b : Bool) (s : State) :
    (State.setMailbox b s).readData = s.readData := rfl
@[simp] theorem State.setMailbox_packed (b : Bool) (s : State) :
    (State.setMailbox b s).packed = s.packed := rfl
@[simp] theorem State.setMailbox_emitted (b : Bool) (s : State) :
    (State.setMailbox b s).emitted = s.emitted := rfl
@[simp] theorem State.setMailbox_feed (b : Bool) (s : State) : (State.setMailbox b s).feed = s.feed := rfl
@[simp] theorem State.setMailbox_plan (b : Bool) (s : State) : (State.setMailbox b s).plan = s.plan := rfl
@[simp] theorem State.setMailbox_draws (b : Bool) (s : State) : (State.setMailbox b s).draws = s.draws := rfl

/-! `State.emit`. -/

@[simp] theorem State.emit_variant (e : UpEvent) (s : State) : (State.emit e s).variant = s.variant := rfl
@[simp] theorem State.emit_powered (e : UpEvent) (s : State) : (State.emit e s).powered = s.powered := rfl
@[simp] theorem State.emit_cntrl1 (e : UpEvent) (s : State) : (State.emit e s).cntrl1 = s.cntrl1 := rfl
@[simp] theorem State.emit_cntrl2 (e : UpEvent) (s : State) : (State.emit e s).cntrl2 = s.cntrl2 := rfl
@[simp] theorem State.emit_cntrl3 (e : UpEvent) (s : State) : (State.emit e s).cntrl3 = s.cntrl3 := rfl
@[simp] theorem State.emit_cntrl4 (e : UpEvent) (s : State) : (State.emit e s).cntrl4 = s.cntrl4 := rfl
@[simp] theorem State.emit_cntrl5 (e : UpEvent) (s : State) : (State.emit e s).cntrl5 = s.cntrl5 := rfl
@[simp] theorem State.emit_txData (e : UpEvent) (s : State) : (State.emit e s).txData = s.txData := rfl
@[simp] theorem State.emit_rxData (e : UpEvent) (s : State) : (State.emit e s).rxData = s.rxData := rfl
@[simp] theorem State.emit_cpuStatus (e : UpEvent) (s : State) :
    (State.emit e s).cpuStatus = s.cpuStatus := rfl
@[simp] theorem State.emit_cpuMask (e : UpEvent) (s : State) : (State.emit e s).cpuMask = s.cpuMask := rfl
@[simp] theorem State.emit_pktConfig (e : UpEvent) (s : State) :
    (State.emit e s).pktConfig = s.pktConfig := rfl
@[simp] theorem State.emit_slotSt (e : UpEvent) (s : State) : (State.emit e s).slotSt = s.slotSt := rfl
@[simp] theorem State.emit_packetRam (e : UpEvent) (s : State) :
    (State.emit e s).packetRam = s.packetRam := rfl
@[simp] theorem State.emit_txState (e : UpEvent) (s : State) : (State.emit e s).txState = s.txState := rfl
@[simp] theorem State.emit_txAttempt (e : UpEvent) (s : State) :
    (State.emit e s).txAttempt = s.txAttempt := rfl
@[simp] theorem State.emit_txLen (e : UpEvent) (s : State) : (State.emit e s).txLen = s.txLen := rfl
@[simp] theorem State.emit_txBytes (e : UpEvent) (s : State) : (State.emit e s).txBytes = s.txBytes := rfl
@[simp] theorem State.emit_slotTorn (e : UpEvent) (s : State) : (State.emit e s).slotTorn = s.slotTorn := rfl
@[simp] theorem State.emit_rxMsg (e : UpEvent) (s : State) : (State.emit e s).rxMsg = s.rxMsg := rfl
@[simp] theorem State.emit_irqWasRx (e : UpEvent) (s : State) : (State.emit e s).irqWasRx = s.irqWasRx := rfl
@[simp] theorem State.emit_txOk (e : UpEvent) (s : State) : (State.emit e s).txOk = s.txOk := rfl
@[simp] theorem State.emit_mailboxFull (e : UpEvent) (s : State) :
    (State.emit e s).mailboxFull = s.mailboxFull := rfl
@[simp] theorem State.emit_fUnpowered (e : UpEvent) (s : State) :
    (State.emit e s).fUnpowered = s.fUnpowered := rfl
@[simp] theorem State.emit_fTxRegWhileBusy (e : UpEvent) (s : State) :
    (State.emit e s).fTxRegWhileBusy = s.fTxRegWhileBusy := rfl
@[simp] theorem State.emit_fMailboxOverrun (e : UpEvent) (s : State) :
    (State.emit e s).fMailboxOverrun = s.fMailboxOverrun := rfl
@[simp] theorem State.emit_fPktRamOff (e : UpEvent) (s : State) :
    (State.emit e s).fPktRamOff = s.fPktRamOff := rfl
@[simp] theorem State.emit_refused (e : UpEvent) (s : State) : (State.emit e s).refused = s.refused := rfl
@[simp] theorem State.emit_proc (e : UpEvent) (s : State) : (State.emit e s).proc = s.proc := rfl
@[simp] theorem State.emit_hard (e : UpEvent) (s : State) : (State.emit e s).hard = s.hard := rfl
@[simp] theorem State.emit_thread (e : UpEvent) (s : State) : (State.emit e s).thread = s.thread := rfl
@[simp] theorem State.emit_readData (e : UpEvent) (s : State) : (State.emit e s).readData = s.readData := rfl
@[simp] theorem State.emit_packed (e : UpEvent) (s : State) : (State.emit e s).packed = s.packed := rfl
@[simp] theorem State.emit_emitted (e : UpEvent) (s : State) :
    (State.emit e s).emitted = s.emitted ++ [e] := rfl
@[simp] theorem State.emit_feed (e : UpEvent) (s : State) : (State.emit e s).feed = s.feed := rfl
@[simp] theorem State.emit_plan (e : UpEvent) (s : State) : (State.emit e s).plan = s.plan := rfl
@[simp] theorem State.emit_draws (e : UpEvent) (s : State) : (State.emit e s).draws = s.draws := rfl

/-! `State.setAgent`. -/

@[simp] theorem State.setAgent_variant (a : Agent) (h : HostAgent) (s : State) :
    (State.setAgent a h s).variant = s.variant := by cases a <;> rfl
@[simp] theorem State.setAgent_powered (a : Agent) (h : HostAgent) (s : State) :
    (State.setAgent a h s).powered = s.powered := by cases a <;> rfl
@[simp] theorem State.setAgent_cntrl1 (a : Agent) (h : HostAgent) (s : State) :
    (State.setAgent a h s).cntrl1 = s.cntrl1 := by cases a <;> rfl
@[simp] theorem State.setAgent_cntrl2 (a : Agent) (h : HostAgent) (s : State) :
    (State.setAgent a h s).cntrl2 = s.cntrl2 := by cases a <;> rfl
@[simp] theorem State.setAgent_cntrl3 (a : Agent) (h : HostAgent) (s : State) :
    (State.setAgent a h s).cntrl3 = s.cntrl3 := by cases a <;> rfl
@[simp] theorem State.setAgent_cntrl4 (a : Agent) (h : HostAgent) (s : State) :
    (State.setAgent a h s).cntrl4 = s.cntrl4 := by cases a <;> rfl
@[simp] theorem State.setAgent_cntrl5 (a : Agent) (h : HostAgent) (s : State) :
    (State.setAgent a h s).cntrl5 = s.cntrl5 := by cases a <;> rfl
@[simp] theorem State.setAgent_txData (a : Agent) (h : HostAgent) (s : State) :
    (State.setAgent a h s).txData = s.txData := by cases a <;> rfl
@[simp] theorem State.setAgent_rxData (a : Agent) (h : HostAgent) (s : State) :
    (State.setAgent a h s).rxData = s.rxData := by cases a <;> rfl
@[simp] theorem State.setAgent_cpuStatus (a : Agent) (h : HostAgent) (s : State) :
    (State.setAgent a h s).cpuStatus = s.cpuStatus := by cases a <;> rfl
@[simp] theorem State.setAgent_cpuMask (a : Agent) (h : HostAgent) (s : State) :
    (State.setAgent a h s).cpuMask = s.cpuMask := by cases a <;> rfl
@[simp] theorem State.setAgent_pktConfig (a : Agent) (h : HostAgent) (s : State) :
    (State.setAgent a h s).pktConfig = s.pktConfig := by cases a <;> rfl
@[simp] theorem State.setAgent_slotSt (a : Agent) (h : HostAgent) (s : State) :
    (State.setAgent a h s).slotSt = s.slotSt := by cases a <;> rfl
@[simp] theorem State.setAgent_packetRam (a : Agent) (h : HostAgent) (s : State) :
    (State.setAgent a h s).packetRam = s.packetRam := by cases a <;> rfl
@[simp] theorem State.setAgent_txState (a : Agent) (h : HostAgent) (s : State) :
    (State.setAgent a h s).txState = s.txState := by cases a <;> rfl
@[simp] theorem State.setAgent_txAttempt (a : Agent) (h : HostAgent) (s : State) :
    (State.setAgent a h s).txAttempt = s.txAttempt := by cases a <;> rfl
@[simp] theorem State.setAgent_txLen (a : Agent) (h : HostAgent) (s : State) :
    (State.setAgent a h s).txLen = s.txLen := by cases a <;> rfl
@[simp] theorem State.setAgent_txBytes (a : Agent) (h : HostAgent) (s : State) :
    (State.setAgent a h s).txBytes = s.txBytes := by cases a <;> rfl
@[simp] theorem State.setAgent_slotTorn (a : Agent) (h : HostAgent) (s : State) :
    (State.setAgent a h s).slotTorn = s.slotTorn := by cases a <;> rfl
@[simp] theorem State.setAgent_rxMsg (a : Agent) (h : HostAgent) (s : State) :
    (State.setAgent a h s).rxMsg = s.rxMsg := by cases a <;> rfl
@[simp] theorem State.setAgent_irqWasRx (a : Agent) (h : HostAgent) (s : State) :
    (State.setAgent a h s).irqWasRx = s.irqWasRx := by cases a <;> rfl
@[simp] theorem State.setAgent_txOk (a : Agent) (h : HostAgent) (s : State) :
    (State.setAgent a h s).txOk = s.txOk := by cases a <;> rfl
@[simp] theorem State.setAgent_mailboxFull (a : Agent) (h : HostAgent) (s : State) :
    (State.setAgent a h s).mailboxFull = s.mailboxFull := by cases a <;> rfl
@[simp] theorem State.setAgent_fUnpowered (a : Agent) (h : HostAgent) (s : State) :
    (State.setAgent a h s).fUnpowered = s.fUnpowered := by cases a <;> rfl
@[simp] theorem State.setAgent_fTxRegWhileBusy (a : Agent) (h : HostAgent) (s : State) :
    (State.setAgent a h s).fTxRegWhileBusy = s.fTxRegWhileBusy := by cases a <;> rfl
@[simp] theorem State.setAgent_fMailboxOverrun (a : Agent) (h : HostAgent) (s : State) :
    (State.setAgent a h s).fMailboxOverrun = s.fMailboxOverrun := by cases a <;> rfl
@[simp] theorem State.setAgent_fPktRamOff (a : Agent) (h : HostAgent) (s : State) :
    (State.setAgent a h s).fPktRamOff = s.fPktRamOff := by cases a <;> rfl
@[simp] theorem State.setAgent_refused (a : Agent) (h : HostAgent) (s : State) :
    (State.setAgent a h s).refused = s.refused := by cases a <;> rfl
@[simp] theorem State.setAgent_proc (a : Agent) (h : HostAgent) (s : State) :
    (State.setAgent a h s).proc = if a = .proc then h else s.proc := by cases a <;> rfl
@[simp] theorem State.setAgent_hard (a : Agent) (h : HostAgent) (s : State) :
    (State.setAgent a h s).hard = if a = .hard then h else s.hard := by cases a <;> rfl
@[simp] theorem State.setAgent_thread (a : Agent) (h : HostAgent) (s : State) :
    (State.setAgent a h s).thread = if a = .thread then h else s.thread := by cases a <;> rfl
@[simp] theorem State.setAgent_readData (a : Agent) (h : HostAgent) (s : State) :
    (State.setAgent a h s).readData = s.readData := by cases a <;> rfl
@[simp] theorem State.setAgent_packed (a : Agent) (h : HostAgent) (s : State) :
    (State.setAgent a h s).packed = s.packed := by cases a <;> rfl
@[simp] theorem State.setAgent_emitted (a : Agent) (h : HostAgent) (s : State) :
    (State.setAgent a h s).emitted = s.emitted := by cases a <;> rfl
@[simp] theorem State.setAgent_feed (a : Agent) (h : HostAgent) (s : State) :
    (State.setAgent a h s).feed = s.feed := by cases a <;> rfl
@[simp] theorem State.setAgent_plan (a : Agent) (h : HostAgent) (s : State) :
    (State.setAgent a h s).plan = s.plan := by cases a <;> rfl
@[simp] theorem State.setAgent_draws (a : Agent) (h : HostAgent) (s : State) :
    (State.setAgent a h s).draws = s.draws := by cases a <;> rfl

/-! `State.goOn`. -/

@[simp] theorem State.goOn_variant (a : Agent) (r : Run) (s : State) :
    (State.goOn a r s).variant = s.variant := by cases a <;> rfl
@[simp] theorem State.goOn_powered (a : Agent) (r : Run) (s : State) :
    (State.goOn a r s).powered = s.powered := by cases a <;> rfl
@[simp] theorem State.goOn_cntrl1 (a : Agent) (r : Run) (s : State) :
    (State.goOn a r s).cntrl1 = s.cntrl1 := by cases a <;> rfl
@[simp] theorem State.goOn_cntrl2 (a : Agent) (r : Run) (s : State) :
    (State.goOn a r s).cntrl2 = s.cntrl2 := by cases a <;> rfl
@[simp] theorem State.goOn_cntrl3 (a : Agent) (r : Run) (s : State) :
    (State.goOn a r s).cntrl3 = s.cntrl3 := by cases a <;> rfl
@[simp] theorem State.goOn_cntrl4 (a : Agent) (r : Run) (s : State) :
    (State.goOn a r s).cntrl4 = s.cntrl4 := by cases a <;> rfl
@[simp] theorem State.goOn_cntrl5 (a : Agent) (r : Run) (s : State) :
    (State.goOn a r s).cntrl5 = s.cntrl5 := by cases a <;> rfl
@[simp] theorem State.goOn_txData (a : Agent) (r : Run) (s : State) :
    (State.goOn a r s).txData = s.txData := by cases a <;> rfl
@[simp] theorem State.goOn_rxData (a : Agent) (r : Run) (s : State) :
    (State.goOn a r s).rxData = s.rxData := by cases a <;> rfl
@[simp] theorem State.goOn_cpuStatus (a : Agent) (r : Run) (s : State) :
    (State.goOn a r s).cpuStatus = s.cpuStatus := by cases a <;> rfl
@[simp] theorem State.goOn_cpuMask (a : Agent) (r : Run) (s : State) :
    (State.goOn a r s).cpuMask = s.cpuMask := by cases a <;> rfl
@[simp] theorem State.goOn_pktConfig (a : Agent) (r : Run) (s : State) :
    (State.goOn a r s).pktConfig = s.pktConfig := by cases a <;> rfl
@[simp] theorem State.goOn_slotSt (a : Agent) (r : Run) (s : State) :
    (State.goOn a r s).slotSt = s.slotSt := by cases a <;> rfl
@[simp] theorem State.goOn_packetRam (a : Agent) (r : Run) (s : State) :
    (State.goOn a r s).packetRam = s.packetRam := by cases a <;> rfl
@[simp] theorem State.goOn_txState (a : Agent) (r : Run) (s : State) :
    (State.goOn a r s).txState = s.txState := by cases a <;> rfl
@[simp] theorem State.goOn_txAttempt (a : Agent) (r : Run) (s : State) :
    (State.goOn a r s).txAttempt = s.txAttempt := by cases a <;> rfl
@[simp] theorem State.goOn_txLen (a : Agent) (r : Run) (s : State) :
    (State.goOn a r s).txLen = s.txLen := by cases a <;> rfl
@[simp] theorem State.goOn_txBytes (a : Agent) (r : Run) (s : State) :
    (State.goOn a r s).txBytes = s.txBytes := by cases a <;> rfl
@[simp] theorem State.goOn_slotTorn (a : Agent) (r : Run) (s : State) :
    (State.goOn a r s).slotTorn = s.slotTorn := by cases a <;> rfl
@[simp] theorem State.goOn_rxMsg (a : Agent) (r : Run) (s : State) :
    (State.goOn a r s).rxMsg = s.rxMsg := by cases a <;> rfl
@[simp] theorem State.goOn_irqWasRx (a : Agent) (r : Run) (s : State) :
    (State.goOn a r s).irqWasRx = s.irqWasRx := by cases a <;> rfl
@[simp] theorem State.goOn_txOk (a : Agent) (r : Run) (s : State) :
    (State.goOn a r s).txOk = s.txOk := by cases a <;> rfl
@[simp] theorem State.goOn_mailboxFull (a : Agent) (r : Run) (s : State) :
    (State.goOn a r s).mailboxFull = s.mailboxFull := by cases a <;> rfl
@[simp] theorem State.goOn_fUnpowered (a : Agent) (r : Run) (s : State) :
    (State.goOn a r s).fUnpowered = s.fUnpowered := by cases a <;> rfl
@[simp] theorem State.goOn_fTxRegWhileBusy (a : Agent) (r : Run) (s : State) :
    (State.goOn a r s).fTxRegWhileBusy = s.fTxRegWhileBusy := by cases a <;> rfl
@[simp] theorem State.goOn_fMailboxOverrun (a : Agent) (r : Run) (s : State) :
    (State.goOn a r s).fMailboxOverrun = s.fMailboxOverrun := by cases a <;> rfl
@[simp] theorem State.goOn_fPktRamOff (a : Agent) (r : Run) (s : State) :
    (State.goOn a r s).fPktRamOff = s.fPktRamOff := by cases a <;> rfl
@[simp] theorem State.goOn_refused (a : Agent) (r : Run) (s : State) :
    (State.goOn a r s).refused = s.refused := by cases a <;> rfl
@[simp] theorem State.goOn_proc (a : Agent) (r : Run) (s : State) :
    (State.goOn a r s).proc = if a = .proc then { run := some r, ret := s.proc.ret } else s.proc := by cases a <;> rfl
@[simp] theorem State.goOn_hard (a : Agent) (r : Run) (s : State) :
    (State.goOn a r s).hard = if a = .hard then { run := some r, ret := s.hard.ret } else s.hard := by cases a <;> rfl
@[simp] theorem State.goOn_thread (a : Agent) (r : Run) (s : State) :
    (State.goOn a r s).thread = if a = .thread then { run := some r, ret := s.thread.ret } else s.thread := by cases a <;> rfl
@[simp] theorem State.goOn_readData (a : Agent) (r : Run) (s : State) :
    (State.goOn a r s).readData = s.readData := by cases a <;> rfl
@[simp] theorem State.goOn_packed (a : Agent) (r : Run) (s : State) :
    (State.goOn a r s).packed = s.packed := by cases a <;> rfl
@[simp] theorem State.goOn_emitted (a : Agent) (r : Run) (s : State) :
    (State.goOn a r s).emitted = s.emitted := by cases a <;> rfl
@[simp] theorem State.goOn_feed (a : Agent) (r : Run) (s : State) :
    (State.goOn a r s).feed = s.feed := by cases a <;> rfl
@[simp] theorem State.goOn_plan (a : Agent) (r : Run) (s : State) :
    (State.goOn a r s).plan = s.plan := by cases a <;> rfl
@[simp] theorem State.goOn_draws (a : Agent) (r : Run) (s : State) :
    (State.goOn a r s).draws = s.draws := by cases a <;> rfl

/-! `State.endWith`. -/

@[simp] theorem State.endWith_variant (a : Agent) (c : Code) (s : State) :
    (State.endWith a c s).variant = s.variant := by cases a <;> rfl
@[simp] theorem State.endWith_powered (a : Agent) (c : Code) (s : State) :
    (State.endWith a c s).powered = s.powered := by cases a <;> rfl
@[simp] theorem State.endWith_cntrl1 (a : Agent) (c : Code) (s : State) :
    (State.endWith a c s).cntrl1 = s.cntrl1 := by cases a <;> rfl
@[simp] theorem State.endWith_cntrl2 (a : Agent) (c : Code) (s : State) :
    (State.endWith a c s).cntrl2 = s.cntrl2 := by cases a <;> rfl
@[simp] theorem State.endWith_cntrl3 (a : Agent) (c : Code) (s : State) :
    (State.endWith a c s).cntrl3 = s.cntrl3 := by cases a <;> rfl
@[simp] theorem State.endWith_cntrl4 (a : Agent) (c : Code) (s : State) :
    (State.endWith a c s).cntrl4 = s.cntrl4 := by cases a <;> rfl
@[simp] theorem State.endWith_cntrl5 (a : Agent) (c : Code) (s : State) :
    (State.endWith a c s).cntrl5 = s.cntrl5 := by cases a <;> rfl
@[simp] theorem State.endWith_txData (a : Agent) (c : Code) (s : State) :
    (State.endWith a c s).txData = s.txData := by cases a <;> rfl
@[simp] theorem State.endWith_rxData (a : Agent) (c : Code) (s : State) :
    (State.endWith a c s).rxData = s.rxData := by cases a <;> rfl
@[simp] theorem State.endWith_cpuStatus (a : Agent) (c : Code) (s : State) :
    (State.endWith a c s).cpuStatus = s.cpuStatus := by cases a <;> rfl
@[simp] theorem State.endWith_cpuMask (a : Agent) (c : Code) (s : State) :
    (State.endWith a c s).cpuMask = s.cpuMask := by cases a <;> rfl
@[simp] theorem State.endWith_pktConfig (a : Agent) (c : Code) (s : State) :
    (State.endWith a c s).pktConfig = s.pktConfig := by cases a <;> rfl
@[simp] theorem State.endWith_slotSt (a : Agent) (c : Code) (s : State) :
    (State.endWith a c s).slotSt = s.slotSt := by cases a <;> rfl
@[simp] theorem State.endWith_packetRam (a : Agent) (c : Code) (s : State) :
    (State.endWith a c s).packetRam = s.packetRam := by cases a <;> rfl
@[simp] theorem State.endWith_txState (a : Agent) (c : Code) (s : State) :
    (State.endWith a c s).txState = s.txState := by cases a <;> rfl
@[simp] theorem State.endWith_txAttempt (a : Agent) (c : Code) (s : State) :
    (State.endWith a c s).txAttempt = s.txAttempt := by cases a <;> rfl
@[simp] theorem State.endWith_txLen (a : Agent) (c : Code) (s : State) :
    (State.endWith a c s).txLen = s.txLen := by cases a <;> rfl
@[simp] theorem State.endWith_txBytes (a : Agent) (c : Code) (s : State) :
    (State.endWith a c s).txBytes = s.txBytes := by cases a <;> rfl
@[simp] theorem State.endWith_slotTorn (a : Agent) (c : Code) (s : State) :
    (State.endWith a c s).slotTorn = s.slotTorn := by cases a <;> rfl
@[simp] theorem State.endWith_rxMsg (a : Agent) (c : Code) (s : State) :
    (State.endWith a c s).rxMsg = s.rxMsg := by cases a <;> rfl
@[simp] theorem State.endWith_irqWasRx (a : Agent) (c : Code) (s : State) :
    (State.endWith a c s).irqWasRx = s.irqWasRx := by cases a <;> rfl
@[simp] theorem State.endWith_txOk (a : Agent) (c : Code) (s : State) :
    (State.endWith a c s).txOk = s.txOk := by cases a <;> rfl
@[simp] theorem State.endWith_mailboxFull (a : Agent) (c : Code) (s : State) :
    (State.endWith a c s).mailboxFull = s.mailboxFull := by cases a <;> rfl
@[simp] theorem State.endWith_fUnpowered (a : Agent) (c : Code) (s : State) :
    (State.endWith a c s).fUnpowered = s.fUnpowered := by cases a <;> rfl
@[simp] theorem State.endWith_fTxRegWhileBusy (a : Agent) (c : Code) (s : State) :
    (State.endWith a c s).fTxRegWhileBusy = s.fTxRegWhileBusy := by cases a <;> rfl
@[simp] theorem State.endWith_fMailboxOverrun (a : Agent) (c : Code) (s : State) :
    (State.endWith a c s).fMailboxOverrun = s.fMailboxOverrun := by cases a <;> rfl
@[simp] theorem State.endWith_fPktRamOff (a : Agent) (c : Code) (s : State) :
    (State.endWith a c s).fPktRamOff = s.fPktRamOff := by cases a <;> rfl
@[simp] theorem State.endWith_refused (a : Agent) (c : Code) (s : State) :
    (State.endWith a c s).refused = s.refused := by cases a <;> rfl
@[simp] theorem State.endWith_proc (a : Agent) (c : Code) (s : State) :
    (State.endWith a c s).proc = if a = .proc then { run := none, ret := some (.code c) } else s.proc := by cases a <;> rfl
@[simp] theorem State.endWith_hard (a : Agent) (c : Code) (s : State) :
    (State.endWith a c s).hard = if a = .hard then { run := none, ret := some (.code c) } else s.hard := by cases a <;> rfl
@[simp] theorem State.endWith_thread (a : Agent) (c : Code) (s : State) :
    (State.endWith a c s).thread = if a = .thread then { run := none, ret := some (.code c) } else s.thread := by cases a <;> rfl
@[simp] theorem State.endWith_readData (a : Agent) (c : Code) (s : State) :
    (State.endWith a c s).readData = s.readData := by cases a <;> rfl
@[simp] theorem State.endWith_packed (a : Agent) (c : Code) (s : State) :
    (State.endWith a c s).packed = s.packed := by cases a <;> rfl
@[simp] theorem State.endWith_emitted (a : Agent) (c : Code) (s : State) :
    (State.endWith a c s).emitted = s.emitted := by cases a <;> rfl
@[simp] theorem State.endWith_feed (a : Agent) (c : Code) (s : State) :
    (State.endWith a c s).feed = s.feed := by cases a <;> rfl
@[simp] theorem State.endWith_plan (a : Agent) (c : Code) (s : State) :
    (State.endWith a c s).plan = s.plan := by cases a <;> rfl
@[simp] theorem State.endWith_draws (a : Agent) (c : Code) (s : State) :
    (State.endWith a c s).draws = s.draws := by cases a <;> rfl

/-! `State.endSilent`. -/

@[simp] theorem State.endSilent_variant (a : Agent) (s : State) :
    (State.endSilent a s).variant = s.variant := by cases a <;> rfl
@[simp] theorem State.endSilent_powered (a : Agent) (s : State) :
    (State.endSilent a s).powered = s.powered := by cases a <;> rfl
@[simp] theorem State.endSilent_cntrl1 (a : Agent) (s : State) :
    (State.endSilent a s).cntrl1 = s.cntrl1 := by cases a <;> rfl
@[simp] theorem State.endSilent_cntrl2 (a : Agent) (s : State) :
    (State.endSilent a s).cntrl2 = s.cntrl2 := by cases a <;> rfl
@[simp] theorem State.endSilent_cntrl3 (a : Agent) (s : State) :
    (State.endSilent a s).cntrl3 = s.cntrl3 := by cases a <;> rfl
@[simp] theorem State.endSilent_cntrl4 (a : Agent) (s : State) :
    (State.endSilent a s).cntrl4 = s.cntrl4 := by cases a <;> rfl
@[simp] theorem State.endSilent_cntrl5 (a : Agent) (s : State) :
    (State.endSilent a s).cntrl5 = s.cntrl5 := by cases a <;> rfl
@[simp] theorem State.endSilent_txData (a : Agent) (s : State) :
    (State.endSilent a s).txData = s.txData := by cases a <;> rfl
@[simp] theorem State.endSilent_rxData (a : Agent) (s : State) :
    (State.endSilent a s).rxData = s.rxData := by cases a <;> rfl
@[simp] theorem State.endSilent_cpuStatus (a : Agent) (s : State) :
    (State.endSilent a s).cpuStatus = s.cpuStatus := by cases a <;> rfl
@[simp] theorem State.endSilent_cpuMask (a : Agent) (s : State) :
    (State.endSilent a s).cpuMask = s.cpuMask := by cases a <;> rfl
@[simp] theorem State.endSilent_pktConfig (a : Agent) (s : State) :
    (State.endSilent a s).pktConfig = s.pktConfig := by cases a <;> rfl
@[simp] theorem State.endSilent_slotSt (a : Agent) (s : State) :
    (State.endSilent a s).slotSt = s.slotSt := by cases a <;> rfl
@[simp] theorem State.endSilent_packetRam (a : Agent) (s : State) :
    (State.endSilent a s).packetRam = s.packetRam := by cases a <;> rfl
@[simp] theorem State.endSilent_txState (a : Agent) (s : State) :
    (State.endSilent a s).txState = s.txState := by cases a <;> rfl
@[simp] theorem State.endSilent_txAttempt (a : Agent) (s : State) :
    (State.endSilent a s).txAttempt = s.txAttempt := by cases a <;> rfl
@[simp] theorem State.endSilent_txLen (a : Agent) (s : State) :
    (State.endSilent a s).txLen = s.txLen := by cases a <;> rfl
@[simp] theorem State.endSilent_txBytes (a : Agent) (s : State) :
    (State.endSilent a s).txBytes = s.txBytes := by cases a <;> rfl
@[simp] theorem State.endSilent_slotTorn (a : Agent) (s : State) :
    (State.endSilent a s).slotTorn = s.slotTorn := by cases a <;> rfl
@[simp] theorem State.endSilent_rxMsg (a : Agent) (s : State) :
    (State.endSilent a s).rxMsg = s.rxMsg := by cases a <;> rfl
@[simp] theorem State.endSilent_irqWasRx (a : Agent) (s : State) :
    (State.endSilent a s).irqWasRx = s.irqWasRx := by cases a <;> rfl
@[simp] theorem State.endSilent_txOk (a : Agent) (s : State) :
    (State.endSilent a s).txOk = s.txOk := by cases a <;> rfl
@[simp] theorem State.endSilent_mailboxFull (a : Agent) (s : State) :
    (State.endSilent a s).mailboxFull = s.mailboxFull := by cases a <;> rfl
@[simp] theorem State.endSilent_fUnpowered (a : Agent) (s : State) :
    (State.endSilent a s).fUnpowered = s.fUnpowered := by cases a <;> rfl
@[simp] theorem State.endSilent_fTxRegWhileBusy (a : Agent) (s : State) :
    (State.endSilent a s).fTxRegWhileBusy = s.fTxRegWhileBusy := by cases a <;> rfl
@[simp] theorem State.endSilent_fMailboxOverrun (a : Agent) (s : State) :
    (State.endSilent a s).fMailboxOverrun = s.fMailboxOverrun := by cases a <;> rfl
@[simp] theorem State.endSilent_fPktRamOff (a : Agent) (s : State) :
    (State.endSilent a s).fPktRamOff = s.fPktRamOff := by cases a <;> rfl
@[simp] theorem State.endSilent_refused (a : Agent) (s : State) :
    (State.endSilent a s).refused = s.refused := by cases a <;> rfl
@[simp] theorem State.endSilent_proc (a : Agent) (s : State) :
    (State.endSilent a s).proc = if a = .proc then { run := none, ret := s.proc.ret } else s.proc := by cases a <;> rfl
@[simp] theorem State.endSilent_hard (a : Agent) (s : State) :
    (State.endSilent a s).hard = if a = .hard then { run := none, ret := s.hard.ret } else s.hard := by cases a <;> rfl
@[simp] theorem State.endSilent_thread (a : Agent) (s : State) :
    (State.endSilent a s).thread = if a = .thread then { run := none, ret := s.thread.ret } else s.thread := by cases a <;> rfl
@[simp] theorem State.endSilent_readData (a : Agent) (s : State) :
    (State.endSilent a s).readData = s.readData := by cases a <;> rfl
@[simp] theorem State.endSilent_packed (a : Agent) (s : State) :
    (State.endSilent a s).packed = s.packed := by cases a <;> rfl
@[simp] theorem State.endSilent_emitted (a : Agent) (s : State) :
    (State.endSilent a s).emitted = s.emitted := by cases a <;> rfl
@[simp] theorem State.endSilent_feed (a : Agent) (s : State) :
    (State.endSilent a s).feed = s.feed := by cases a <;> rfl
@[simp] theorem State.endSilent_plan (a : Agent) (s : State) :
    (State.endSilent a s).plan = s.plan := by cases a <;> rfl
@[simp] theorem State.endSilent_draws (a : Agent) (s : State) :
    (State.endSilent a s).draws = s.draws := by cases a <;> rfl

/-! `State.endRefused`. -/

@[simp] theorem State.endRefused_variant (a : Agent) (reason : Reason) (s : State) :
    (State.endRefused a reason s).variant = s.variant := by cases a <;> rfl
@[simp] theorem State.endRefused_powered (a : Agent) (reason : Reason) (s : State) :
    (State.endRefused a reason s).powered = s.powered := by cases a <;> rfl
@[simp] theorem State.endRefused_cntrl1 (a : Agent) (reason : Reason) (s : State) :
    (State.endRefused a reason s).cntrl1 = s.cntrl1 := by cases a <;> rfl
@[simp] theorem State.endRefused_cntrl2 (a : Agent) (reason : Reason) (s : State) :
    (State.endRefused a reason s).cntrl2 = s.cntrl2 := by cases a <;> rfl
@[simp] theorem State.endRefused_cntrl3 (a : Agent) (reason : Reason) (s : State) :
    (State.endRefused a reason s).cntrl3 = s.cntrl3 := by cases a <;> rfl
@[simp] theorem State.endRefused_cntrl4 (a : Agent) (reason : Reason) (s : State) :
    (State.endRefused a reason s).cntrl4 = s.cntrl4 := by cases a <;> rfl
@[simp] theorem State.endRefused_cntrl5 (a : Agent) (reason : Reason) (s : State) :
    (State.endRefused a reason s).cntrl5 = s.cntrl5 := by cases a <;> rfl
@[simp] theorem State.endRefused_txData (a : Agent) (reason : Reason) (s : State) :
    (State.endRefused a reason s).txData = s.txData := by cases a <;> rfl
@[simp] theorem State.endRefused_rxData (a : Agent) (reason : Reason) (s : State) :
    (State.endRefused a reason s).rxData = s.rxData := by cases a <;> rfl
@[simp] theorem State.endRefused_cpuStatus (a : Agent) (reason : Reason) (s : State) :
    (State.endRefused a reason s).cpuStatus = s.cpuStatus := by cases a <;> rfl
@[simp] theorem State.endRefused_cpuMask (a : Agent) (reason : Reason) (s : State) :
    (State.endRefused a reason s).cpuMask = s.cpuMask := by cases a <;> rfl
@[simp] theorem State.endRefused_pktConfig (a : Agent) (reason : Reason) (s : State) :
    (State.endRefused a reason s).pktConfig = s.pktConfig := by cases a <;> rfl
@[simp] theorem State.endRefused_slotSt (a : Agent) (reason : Reason) (s : State) :
    (State.endRefused a reason s).slotSt = s.slotSt := by cases a <;> rfl
@[simp] theorem State.endRefused_packetRam (a : Agent) (reason : Reason) (s : State) :
    (State.endRefused a reason s).packetRam = s.packetRam := by cases a <;> rfl
@[simp] theorem State.endRefused_txState (a : Agent) (reason : Reason) (s : State) :
    (State.endRefused a reason s).txState = s.txState := by cases a <;> rfl
@[simp] theorem State.endRefused_txAttempt (a : Agent) (reason : Reason) (s : State) :
    (State.endRefused a reason s).txAttempt = s.txAttempt := by cases a <;> rfl
@[simp] theorem State.endRefused_txLen (a : Agent) (reason : Reason) (s : State) :
    (State.endRefused a reason s).txLen = s.txLen := by cases a <;> rfl
@[simp] theorem State.endRefused_txBytes (a : Agent) (reason : Reason) (s : State) :
    (State.endRefused a reason s).txBytes = s.txBytes := by cases a <;> rfl
@[simp] theorem State.endRefused_slotTorn (a : Agent) (reason : Reason) (s : State) :
    (State.endRefused a reason s).slotTorn = s.slotTorn := by cases a <;> rfl
@[simp] theorem State.endRefused_rxMsg (a : Agent) (reason : Reason) (s : State) :
    (State.endRefused a reason s).rxMsg = s.rxMsg := by cases a <;> rfl
@[simp] theorem State.endRefused_irqWasRx (a : Agent) (reason : Reason) (s : State) :
    (State.endRefused a reason s).irqWasRx = s.irqWasRx := by cases a <;> rfl
@[simp] theorem State.endRefused_txOk (a : Agent) (reason : Reason) (s : State) :
    (State.endRefused a reason s).txOk = s.txOk := by cases a <;> rfl
@[simp] theorem State.endRefused_mailboxFull (a : Agent) (reason : Reason) (s : State) :
    (State.endRefused a reason s).mailboxFull = s.mailboxFull := by cases a <;> rfl
@[simp] theorem State.endRefused_fUnpowered (a : Agent) (reason : Reason) (s : State) :
    (State.endRefused a reason s).fUnpowered = s.fUnpowered := by cases a <;> rfl
@[simp] theorem State.endRefused_fTxRegWhileBusy (a : Agent) (reason : Reason) (s : State) :
    (State.endRefused a reason s).fTxRegWhileBusy = s.fTxRegWhileBusy := by cases a <;> rfl
@[simp] theorem State.endRefused_fMailboxOverrun (a : Agent) (reason : Reason) (s : State) :
    (State.endRefused a reason s).fMailboxOverrun = s.fMailboxOverrun := by cases a <;> rfl
@[simp] theorem State.endRefused_fPktRamOff (a : Agent) (reason : Reason) (s : State) :
    (State.endRefused a reason s).fPktRamOff = s.fPktRamOff := by cases a <;> rfl
@[simp] theorem State.endRefused_refused (a : Agent) (reason : Reason) (s : State) :
    (State.endRefused a reason s).refused = s.refused.or (some reason) := by cases a <;> rfl
@[simp] theorem State.endRefused_proc (a : Agent) (reason : Reason) (s : State) :
    (State.endRefused a reason s).proc = if a = .proc then { run := none, ret := some (.refused reason) } else s.proc := by cases a <;> rfl
@[simp] theorem State.endRefused_hard (a : Agent) (reason : Reason) (s : State) :
    (State.endRefused a reason s).hard = if a = .hard then { run := none, ret := some (.refused reason) } else s.hard := by cases a <;> rfl
@[simp] theorem State.endRefused_thread (a : Agent) (reason : Reason) (s : State) :
    (State.endRefused a reason s).thread = if a = .thread then { run := none, ret := some (.refused reason) } else s.thread := by cases a <;> rfl
@[simp] theorem State.endRefused_readData (a : Agent) (reason : Reason) (s : State) :
    (State.endRefused a reason s).readData = s.readData := by cases a <;> rfl
@[simp] theorem State.endRefused_packed (a : Agent) (reason : Reason) (s : State) :
    (State.endRefused a reason s).packed = s.packed := by cases a <;> rfl
@[simp] theorem State.endRefused_emitted (a : Agent) (reason : Reason) (s : State) :
    (State.endRefused a reason s).emitted = s.emitted := by cases a <;> rfl
@[simp] theorem State.endRefused_feed (a : Agent) (reason : Reason) (s : State) :
    (State.endRefused a reason s).feed = s.feed := by cases a <;> rfl
@[simp] theorem State.endRefused_plan (a : Agent) (reason : Reason) (s : State) :
    (State.endRefused a reason s).plan = s.plan := by cases a <;> rfl
@[simp] theorem State.endRefused_draws (a : Agent) (reason : Reason) (s : State) :
    (State.endRefused a reason s).draws = s.draws := by cases a <;> rfl

end Sys2Proof.Machine
end

