-- ==== Sys2Proof/Laws/Ops.lean ====
section
/-! SUPPORT. What each shared operation can do, said once: the guard of an MMIO access, the start of an
operation, one move of the schedule, and an operation run to its end. -/

namespace Sys2Proof.Machine

/-! Sequencing. -/

@[simp] theorem andThen_next (s : State) (f : State → Result) :
    Result.andThen (.next s) f = f s := rfl

@[simp] theorem andThen_fault (e : Fault) (f : State → Result) :
    Result.andThen (.fault e) f = .fault e := rfl

@[simp] theorem andThen_refused (e : Refusal) (f : State → Result) :
    Result.andThen (.refused e) f = .refused e := rfl

/-- A sequence answers a next state exactly when both of its parts do. -/
theorem andThen_eq_next {r : Result} {f : State → Result} {t : State} :
    r.andThen f = .next t ↔ ∃ u, r = .next u ∧ f u = .next t := by
  cases r <;> simp [Result.andThen]

/-! The guard of an MMIO access (R89). -/

theorem mmioRead_of_powered {α : Type} {s : State} (h : s.powered = true) (ofDraw : Word → α)
    (value : State → α) : mmioRead ofDraw value s = (value s, s.draw 1) := by
  simp [mmioRead, h]

theorem mmioRead_of_unpowered {α : Type} {s : State} (h : s.powered = false) (ofDraw : Word → α)
    (value : State → α) :
    mmioRead ofDraw value s = (ofDraw (Config.drawWord s.draws), (s.draw 1).raiseUnpowered) := by
  simp [mmioRead, h]

theorem mmioWrite_of_powered {s : State} (h : s.powered = true) (effect : State → State) :
    mmioWrite effect s = effect s := by
  simp [mmioWrite, h]

theorem mmioWrite_of_unpowered {s : State} (h : s.powered = false) (effect : State → State) :
    mmioWrite effect s = s.raiseUnpowered := by
  simp [mmioWrite, h]

/-- What a read leaves, powered or not: one free value taken, and the fault while unpowered. -/
theorem mmioRead_state {α : Type} (ofDraw : Word → α) (value : State → α) (s : State) :
    (mmioRead ofDraw value s).2 =
      { s with draws := s.draws + 1, fUnpowered := s.fUnpowered || !s.powered } := by
  unfold mmioRead
  cases h : s.powered <;> simp [State.draw, State.raiseUnpowered, h]

/-! The interrupt line (R185): neither a draw nor an agent's own step moves it. -/

@[simp] theorem irqLine_draw (n : Nat) (s : State) : (State.draw n s).irqLine = s.irqLine := rfl

@[simp] theorem irqLine_goOn (a : Agent) (r : Run) (s : State) : (State.goOn a r s).irqLine = s.irqLine := by
  simp [State.irqLine]

/-! The start of an operation (R135). -/

theorem startOp_proc {op : HostOp} {s : State} (ha : op.agent = .proc) (h : s.proc.run = none) :
    startOp op s = .next (s.begin op) := by
  simp [startOp, ha, h]

theorem startOp_hard {s : State} (h : s.hard.run = none)
    (hl : s.irqLine = true ∨ s.variant.allowSpurious = true) :
    startOp .cecIrqHard s = .next (s.begin .cecIrqHard) := by
  rcases hl with hl | hl <;> simp [startOp, enterHandler, HostOp.agent, h, hl]

theorem startOp_thread {s : State} (h : s.thread.run = none) (hm : s.mailboxFull = true) :
    startOp .cecIrqThread s = .next (s.begin .cecIrqThread) := by
  simp [startOp, HostOp.agent, h, hm]

/-! An operation run to its end with nothing between its steps. -/

/-- One step of the hard handler inside `finish`. -/
theorem finish_hard {n : Nat} {a : Agent} {s t : State} {r : Run} (h : s.hard.run = some r)
    (hs : stepRun r s = .next t) : finish (n + 1) a s = finish n a t := by
  simp [finish, h, advance, State.agent, hs]

/-- One step of the process-context operation inside `finish`. -/
theorem finish_proc {n : Nat} {s t : State} {r : Run} (hh : s.hard.run = none)
    (h : s.proc.run = some r) (hs : stepRun r s = .next t) :
    finish (n + 1) .proc s = finish n .proc t := by
  simp [finish, h, hh, advance, State.agent, hs]

/-- One step of the threaded handler inside `finish`. -/
theorem finish_thread {n : Nat} {s t : State} {r : Run} (hh : s.hard.run = none)
    (h : s.thread.run = some r) (hs : stepRun r s = .next t) :
    finish (n + 1) .thread s = finish n .thread t := by
  simp [finish, h, hh, advance, State.agent, hs]

/-- Nothing is left to do. -/
theorem finish_done {n : Nat} {a : Agent} {s : State} (hh : s.hard.run = none)
    (h : (s.agent a).run = none) : finish n a s = .next s := by
  cases n <;> simp [finish, hh, h]

end Sys2Proof.Machine
end

