-- ==== Sys2Proof/Laws/Mmio.lean ====
section
/-! SUPPORT. What each register operation leaves, as one update of the state with every condition inside a field,
so that a later proof reads any field of the result without splitting. -/

namespace Sys2Proof.Machine

/-- A write of `CEC_CNTRL_1` by fields (R92). -/
theorem writeCntrl1_eq (v : Cntrl1) (s : State) :
    writeCntrl1 v s = { s with
      cntrl1 := { v.store s.cntrl1 with receiveOff := s.cntrl1.receiveOff && !v.clearReceiveOff }
      cntrl5 := { s.cntrl5 with rxCecInt := s.cntrl5.rxCecInt && !v.clearReceiveOff }
      fTxRegWhileBusy := s.fTxRegWhileBusy || disturbsTransmit v s
      txState :=
        if !s.cntrl1.startXmitBegin && v.startXmitBegin && s.txState == .txIdle then .txBusy
        else if s.cntrl1.startXmitBegin && !v.startXmitBegin && s.txState == .txDone then .txIdle
        else s.txState
      txLen :=
        if !s.cntrl1.startXmitBegin && v.startXmitBegin && s.txState == .txIdle then
          lengthOf v.messageLength
        else s.txLen
      txBytes :=
        if !s.cntrl1.startXmitBegin && v.startXmitBegin && s.txState == .txIdle then s.txData
        else s.txBytes
      txAttempt :=
        if !s.cntrl1.startXmitBegin && v.startXmitBegin && s.txState == .txIdle then 0
        else s.txAttempt } := by
  unfold writeCntrl1
  cases hd : disturbsTransmit v s <;> cases hc : v.clearReceiveOff <;> cases ho : s.cntrl1.startXmitBegin <;>
    cases hn : v.startXmitBegin <;> cases ht : s.txState <;>
    simp [State.raiseTxReg, State.clearReceive, State.txStart, Cntrl1.store, hc, hn, ht]

/-- A write of `CEC_CNTRL_5` by fields (R100). -/
theorem writeCntrl5_eq (v : Cntrl5) (s : State) :
    writeCntrl5 v s = { s with
      cntrl5 := { v with
        reserved := s.cntrl5.reserved
        rxCecInt := s.cntrl5.rxCecInt && !v.rxSwReset }
      cntrl1 := { s.cntrl1 with receiveOff := s.cntrl1.receiveOff && !v.rxSwReset }
      txState := if v.txSwReset then .txReset else if s.txState = .txReset then .txIdle else s.txState
      txAttempt := if v.txSwReset then 0 else s.txAttempt } := by
  unfold writeCntrl5
  cases ht : v.txSwReset <;> cases hr : v.rxSwReset <;> cases hs : s.txState <;>
    simp [State.clearReceive]

/-- A write of a transmit data word (R102). -/
theorem writeTxData_eq (w : Nat) (l : Lanes) (s : State) :
    writeTxData w l s = { s with
      txData := Bytes16.setLanes s.txData w l
      fTxRegWhileBusy := s.fTxRegWhileBusy || s.txState == .txBusy } := by
  unfold writeTxData
  cases hs : s.txState <;> simp [State.raiseTxReg, hs]

/-- A write of `M` passes the check of R105 to R109 and has the effect. -/
theorem onCecBit_irqMask (effect : State → State) (s : State) :
    onCecBit (irqMask s.variant) effect s = effect s := by
  simp [onCecBit, irqMask]

@[simp] theorem writeCpuSet_irqMask (s : State) :
    writeCpuSet (irqMask s.variant) s = { s with cpuStatus := true } := onCecBit_irqMask _ s

@[simp] theorem writeCpuClear_irqMask (s : State) :
    writeCpuClear (irqMask s.variant) s = { s with cpuStatus := false } := onCecBit_irqMask _ s

@[simp] theorem writeCpuMaskSet_irqMask (s : State) :
    writeCpuMaskSet (irqMask s.variant) s = { s with cpuMask := true } := onCecBit_irqMask _ s

@[simp] theorem writeCpuMaskClear_irqMask (s : State) :
    writeCpuMaskClear (irqMask s.variant) s = { s with cpuMask := false } := onCecBit_irqMask _ s

/-- A set or clear write by cases of its word (R105 to R109). -/
theorem onCecBit_cases (v : Word) (effect : State → State) (s : State) :
    onCecBit v effect s = s.refuse .otherIrqSource ∨ onCecBit v effect s = effect s ∨
      onCecBit v effect s = s := by
  unfold onCecBit
  split_ifs <;> simp

/-- A store to packet RAM (R113). -/
theorem storePacketRam_eq (w : Nat) (v : Word) (s : State) :
    storePacketRam w v s = { s with
      packetRam := Memory.writeWord s.packetRam w
        (if s.pktConfig.ramPacketEnable then v else Config.drawWord s.draws)
      draws := if s.pktConfig.ramPacketEnable then s.draws else s.draws + 1
      fPktRamOff := s.fPktRamOff || !s.pktConfig.ramPacketEnable
      slotTorn :=
        if s.pktConfig.slotEn.getLsbD (w / Config.slotWords) ||
            s.slotSt.getLsbD (w / Config.slotWords) then
          setSlot s.slotTorn (w / Config.slotWords) true
        else s.slotTorn } := by
  unfold storePacketRam State.tearIfLive
  cases he : s.pktConfig.ramPacketEnable <;>
    cases hl : (s.pktConfig.slotEn.getLsbD (w / Config.slotWords) ||
      s.slotSt.getLsbD (w / Config.slotWords)) <;>
    simp [State.draw, State.raisePktRamOff, hl]

/-- A write of the packet-RAM configuration (R111). -/
theorem writePktConfig_eq (v : PktConfig) (s : State) :
    writePktConfig v s = { s with
      pktConfig := v
      slotTorn := s.slotTorn &&& (v.slotEn ||| s.slotSt) } := rfl

/-- One bit of a set of slots after a slot's bit is set to `b`. -/
theorem getLsbD_setSlot (v : BitVec 16) {i k : Nat} (hk : k < 16) (b : Bool) :
    (setSlot v i b).getLsbD k = if k = i then b else v.getLsbD k := by
  unfold setSlot
  by_cases h : k = i
  · subst h
    cases b <;> simp [hk]
  · have h' : i ≠ k := Ne.symm h
    cases b
    · simp [hk, h, h']
    · simp [BitVec.getLsbD_twoPow, hk, h]

end Sys2Proof.Machine
end

