-- ==== Sys2Proof/Laws/Agents.lean ====
section
/-! SUPPORT. No register operation and no host-variable update reads or writes the host agents' records, so each of
them commutes with an agent going on or ending. -/

namespace Sys2Proof.Machine

/-- An update that neither reads nor writes the agents' records. -/
def Blind (f : State → State) : Prop :=
  ∀ (a : Agent) (h : HostAgent) (s : State), f (State.setAgent a h s) = State.setAgent a h (f s)

theorem setAgent_setAgent (a : Agent) (h h' : HostAgent) (s : State) :
    State.setAgent a h (State.setAgent a h' s) = State.setAgent a h s := by cases a <;> rfl

theorem setAgent_self (a : Agent) (s : State) : State.setAgent a (s.agent a) s = s := by
  cases a <;> rfl

@[simp] theorem agent_setAgent (a : Agent) (h : HostAgent) (s : State) :
    (State.setAgent a h s).agent a = h := by cases a <;> rfl

theorem Blind.agent {f : State → State} (hf : Blind f) (a : Agent) (s : State) :
    (f s).agent a = s.agent a := by
  have e := hf a (s.agent a) s
  rw [setAgent_self] at e
  rw [e, agent_setAgent]

theorem Blind.goOn {f : State → State} (hf : Blind f) (a : Agent) (r : Run) (s : State) :
    f (State.goOn a r s) = State.goOn a r (f s) := by
  unfold State.goOn
  rw [hf, hf.agent a s]

theorem Blind.hard {f : State → State} (hf : Blind f) (s : State) : (f s).hard = s.hard := hf.agent .hard s

theorem Blind.proc {f : State → State} (hf : Blind f) (s : State) : (f s).proc = s.proc := hf.agent .proc s

theorem Blind.thread {f : State → State} (hf : Blind f) (s : State) : (f s).thread = s.thread :=
  hf.agent .thread s

@[simp] theorem goOn_goOn (a : Agent) (r r' : Run) (s : State) :
    State.goOn a r (State.goOn a r' s) = State.goOn a r s := by cases a <;> rfl

@[simp] theorem endWith_goOn (a : Agent) (c : Code) (r : Run) (s : State) :
    State.endWith a c (State.goOn a r s) = State.endWith a c s := by cases a <;> rfl

@[simp] theorem endRefused_goOn (a : Agent) (reason : Reason) (r : Run) (s : State) :
    State.endRefused a reason (State.goOn a r s) = State.endRefused a reason s := by cases a <;> rfl

@[simp] theorem agent_goOn (a : Agent) (r : Run) (s : State) :
    (State.goOn a r s).agent a = { run := some r, ret := (s.agent a).ret } := by cases a <;> rfl

/-! The blind updates. -/

theorem blind_draw (n : Nat) : Blind (State.draw n) := by intro a h s; cases a <;> rfl

theorem blind_refuse (r : Reason) : Blind (State.refuse r) := by intro a h s; cases a <;> rfl

theorem blind_raiseUnpowered : Blind State.raiseUnpowered := by intro a h s; cases a <;> rfl

theorem blind_raiseMailbox : Blind State.raiseMailbox := by intro a h s; cases a <;> rfl

theorem blind_raisePktRamOff : Blind State.raisePktRamOff := by intro a h s; cases a <;> rfl

theorem blind_clearHostVars : Blind State.clearHostVars := by intro a h s; cases a <;> rfl

theorem blind_setRxLen (n : Nat) : Blind (State.setRxLen n) := by intro a h s; cases a <;> rfl

theorem blind_setRxWord (w : Nat) (l : Lanes) : Blind (State.setRxWord w l) := by
  intro a h s; cases a <;> rfl

theorem blind_setWasRx (b : Bool) : Blind (State.setWasRx b) := by intro a h s; cases a <;> rfl

theorem blind_setTxOk (b : Bool) : Blind (State.setTxOk b) := by intro a h s; cases a <;> rfl

theorem blind_setMailbox (b : Bool) : Blind (State.setMailbox b) := by intro a h s; cases a <;> rfl

theorem blind_emit (e : UpEvent) : Blind (State.emit e) := by intro a h s; cases a <;> rfl

theorem blind_writeCntrl1 (v : Cntrl1) : Blind (writeCntrl1 v) := by
  intro a h s
  simp only [writeCntrl1_eq]
  cases a <;> rfl

theorem blind_writeCntrl2 (v : Cntrl2) : Blind (writeCntrl2 v) := by intro a h s; cases a <;> rfl

theorem blind_writeCntrl3 (v : Cntrl3) : Blind (writeCntrl3 v) := by intro a h s; cases a <;> rfl

theorem blind_writeCntrl4 (v : Cntrl4) : Blind (writeCntrl4 v) := by intro a h s; cases a <;> rfl

theorem blind_writeCntrl5 (v : Cntrl5) : Blind (writeCntrl5 v) := by
  intro a h s
  simp only [writeCntrl5_eq]
  cases a <;> rfl

theorem blind_writeTxData (w : Nat) (l : Lanes) : Blind (writeTxData w l) := by
  intro a h s
  simp only [writeTxData_eq]
  cases a <;> rfl

theorem blind_onCecBit (v : Word) {effect : State → State} (he : Blind effect) :
    Blind (onCecBit v effect) := by
  intro a h s
  simp only [onCecBit, State.setAgent_variant]
  split_ifs
  · exact blind_refuse _ a h s
  · exact he a h s
  · rfl

theorem blind_writeCpuSet (v : Word) : Blind (writeCpuSet v) :=
  blind_onCecBit v (by intro a h s; cases a <;> rfl)

theorem blind_writeCpuClear (v : Word) : Blind (writeCpuClear v) :=
  blind_onCecBit v (by intro a h s; cases a <;> rfl)

theorem blind_writeCpuMaskSet (v : Word) : Blind (writeCpuMaskSet v) :=
  blind_onCecBit v (by intro a h s; cases a <;> rfl)

theorem blind_writeCpuMaskClear (v : Word) : Blind (writeCpuMaskClear v) :=
  blind_onCecBit v (by intro a h s; cases a <;> rfl)

theorem blind_writePktConfig (v : PktConfig) : Blind (writePktConfig v) := by
  intro a h s; cases a <;> rfl

theorem blind_storePacketRam (w : Nat) (v : Word) : Blind (storePacketRam w v) := by
  intro a h s
  simp only [storePacketRam_eq]
  cases a <;> rfl

theorem blind_mmioWrite {effect : State → State} (he : Blind effect) : Blind (mmioWrite effect) := by
  intro a h s
  simp only [mmioWrite, State.setAgent_powered]
  split_ifs
  · exact he a h s
  · exact blind_raiseUnpowered a h s

theorem blind_writePacketRam (w : Nat) (v : Word) : Blind (writePacketRam w v) := by
  intro a h s
  unfold writePacketRam
  split_ifs
  · exact blind_mmioWrite (blind_storePacketRam w v) a h s
  · exact blind_refuse _ a h s

theorem blind_mmioRead {α : Type} (ofDraw : Word → α) (value : State → α) :
    Blind (fun s => (mmioRead ofDraw value s).2) := by
  intro a h s
  simp only [mmioRead_state]
  cases a <;> rfl

/-- What a read answers does not depend on the agents' records when the register's value does not. -/
theorem mmioRead_goOn_fst {α : Type} (ofDraw : Word → α) {value : State → α}
    (hv : ∀ a h s, value (State.setAgent a h s) = value s) (a : Agent) (r : Run) (s : State) :
    (mmioRead ofDraw value (State.goOn a r s)).1 = (mmioRead ofDraw value s).1 := by
  simp only [mmioRead, State.goOn, State.setAgent_powered, State.setAgent_draws, hv]
  split_ifs <;> rfl

end Sys2Proof.Machine
end

