-- ==== Sys2Proof/Laws/RunAlone.lean ====
section
/-! SUPPORT. An operation run alone, as the composition of its accesses. The first part lets an agent's record pass
through every access, and says that no access starts or ends an operation; the second steps an operation. -/

namespace Sys2Proof.Machine

/-! An agent's record passes through an update. -/

@[simp] theorem draw_goOn (n : Nat) (a : Agent) (r : Run) (s : State) :
    State.draw n (State.goOn a r s) = State.goOn a r (State.draw n s) := Blind.goOn (blind_draw n) a r s
@[simp] theorem clearHostVars_goOn (a : Agent) (r : Run) (s : State) :
    State.clearHostVars (State.goOn a r s) = State.goOn a r (State.clearHostVars s) :=
  Blind.goOn blind_clearHostVars a r s
@[simp] theorem setRxLen_goOn (n : Nat) (a : Agent) (r : Run) (s : State) :
    State.setRxLen n (State.goOn a r s) = State.goOn a r (State.setRxLen n s) :=
  Blind.goOn (blind_setRxLen n) a r s
@[simp] theorem setRxWord_goOn (w : Nat) (l : Lanes) (a : Agent) (r : Run) (s : State) :
    State.setRxWord w l (State.goOn a r s) = State.goOn a r (State.setRxWord w l s) :=
  Blind.goOn (blind_setRxWord w l) a r s
@[simp] theorem setWasRx_goOn (b : Bool) (a : Agent) (r : Run) (s : State) :
    State.setWasRx b (State.goOn a r s) = State.goOn a r (State.setWasRx b s) :=
  Blind.goOn (blind_setWasRx b) a r s
@[simp] theorem setTxOk_goOn (b : Bool) (a : Agent) (r : Run) (s : State) :
    State.setTxOk b (State.goOn a r s) = State.goOn a r (State.setTxOk b s) :=
  Blind.goOn (blind_setTxOk b) a r s
@[simp] theorem setMailbox_goOn (b : Bool) (a : Agent) (r : Run) (s : State) :
    State.setMailbox b (State.goOn a r s) = State.goOn a r (State.setMailbox b s) :=
  Blind.goOn (blind_setMailbox b) a r s
@[simp] theorem emit_goOn (e : UpEvent) (a : Agent) (r : Run) (s : State) :
    State.emit e (State.goOn a r s) = State.goOn a r (State.emit e s) := Blind.goOn (blind_emit e) a r s
@[simp] theorem raiseMailbox_goOn (a : Agent) (r : Run) (s : State) :
    State.raiseMailbox (State.goOn a r s) = State.goOn a r (State.raiseMailbox s) :=
  Blind.goOn blind_raiseMailbox a r s
@[simp] theorem raisePktRamOff_goOn (a : Agent) (r : Run) (s : State) :
    State.raisePktRamOff (State.goOn a r s) = State.goOn a r (State.raisePktRamOff s) :=
  Blind.goOn blind_raisePktRamOff a r s
@[simp] theorem writeCntrl1_goOn (v : Cntrl1) (a : Agent) (r : Run) (s : State) :
    mmioWrite (writeCntrl1 v) (State.goOn a r s) = State.goOn a r (mmioWrite (writeCntrl1 v) s) :=
  Blind.goOn (blind_mmioWrite (blind_writeCntrl1 v)) a r s
@[simp] theorem writeCntrl1_hard (v : Cntrl1) (s : State) :
    (mmioWrite (writeCntrl1 v) s).hard = s.hard := Blind.hard (blind_mmioWrite (blind_writeCntrl1 v)) s
@[simp] theorem writeCntrl1_proc (v : Cntrl1) (s : State) :
    (mmioWrite (writeCntrl1 v) s).proc = s.proc := Blind.proc (blind_mmioWrite (blind_writeCntrl1 v)) s
@[simp] theorem writeCntrl1_thread (v : Cntrl1) (s : State) :
    (mmioWrite (writeCntrl1 v) s).thread = s.thread := Blind.thread (blind_mmioWrite (blind_writeCntrl1 v)) s
@[simp] theorem writeCntrl2_goOn (v : Cntrl2) (a : Agent) (r : Run) (s : State) :
    mmioWrite (writeCntrl2 v) (State.goOn a r s) = State.goOn a r (mmioWrite (writeCntrl2 v) s) :=
  Blind.goOn (blind_mmioWrite (blind_writeCntrl2 v)) a r s
@[simp] theorem writeCntrl2_hard (v : Cntrl2) (s : State) :
    (mmioWrite (writeCntrl2 v) s).hard = s.hard := Blind.hard (blind_mmioWrite (blind_writeCntrl2 v)) s
@[simp] theorem writeCntrl2_proc (v : Cntrl2) (s : State) :
    (mmioWrite (writeCntrl2 v) s).proc = s.proc := Blind.proc (blind_mmioWrite (blind_writeCntrl2 v)) s
@[simp] theorem writeCntrl2_thread (v : Cntrl2) (s : State) :
    (mmioWrite (writeCntrl2 v) s).thread = s.thread := Blind.thread (blind_mmioWrite (blind_writeCntrl2 v)) s
@[simp] theorem writeCntrl3_goOn (v : Cntrl3) (a : Agent) (r : Run) (s : State) :
    mmioWrite (writeCntrl3 v) (State.goOn a r s) = State.goOn a r (mmioWrite (writeCntrl3 v) s) :=
  Blind.goOn (blind_mmioWrite (blind_writeCntrl3 v)) a r s
@[simp] theorem writeCntrl3_hard (v : Cntrl3) (s : State) :
    (mmioWrite (writeCntrl3 v) s).hard = s.hard := Blind.hard (blind_mmioWrite (blind_writeCntrl3 v)) s
@[simp] theorem writeCntrl3_proc (v : Cntrl3) (s : State) :
    (mmioWrite (writeCntrl3 v) s).proc = s.proc := Blind.proc (blind_mmioWrite (blind_writeCntrl3 v)) s
@[simp] theorem writeCntrl3_thread (v : Cntrl3) (s : State) :
    (mmioWrite (writeCntrl3 v) s).thread = s.thread := Blind.thread (blind_mmioWrite (blind_writeCntrl3 v)) s
@[simp] theorem writeCntrl4_goOn (v : Cntrl4) (a : Agent) (r : Run) (s : State) :
    mmioWrite (writeCntrl4 v) (State.goOn a r s) = State.goOn a r (mmioWrite (writeCntrl4 v) s) :=
  Blind.goOn (blind_mmioWrite (blind_writeCntrl4 v)) a r s
@[simp] theorem writeCntrl4_hard (v : Cntrl4) (s : State) :
    (mmioWrite (writeCntrl4 v) s).hard = s.hard := Blind.hard (blind_mmioWrite (blind_writeCntrl4 v)) s
@[simp] theorem writeCntrl4_proc (v : Cntrl4) (s : State) :
    (mmioWrite (writeCntrl4 v) s).proc = s.proc := Blind.proc (blind_mmioWrite (blind_writeCntrl4 v)) s
@[simp] theorem writeCntrl4_thread (v : Cntrl4) (s : State) :
    (mmioWrite (writeCntrl4 v) s).thread = s.thread := Blind.thread (blind_mmioWrite (blind_writeCntrl4 v)) s
@[simp] theorem writeCntrl5_goOn (v : Cntrl5) (a : Agent) (r : Run) (s : State) :
    mmioWrite (writeCntrl5 v) (State.goOn a r s) = State.goOn a r (mmioWrite (writeCntrl5 v) s) :=
  Blind.goOn (blind_mmioWrite (blind_writeCntrl5 v)) a r s
@[simp] theorem writeCntrl5_hard (v : Cntrl5) (s : State) :
    (mmioWrite (writeCntrl5 v) s).hard = s.hard := Blind.hard (blind_mmioWrite (blind_writeCntrl5 v)) s
@[simp] theorem writeCntrl5_proc (v : Cntrl5) (s : State) :
    (mmioWrite (writeCntrl5 v) s).proc = s.proc := Blind.proc (blind_mmioWrite (blind_writeCntrl5 v)) s
@[simp] theorem writeCntrl5_thread (v : Cntrl5) (s : State) :
    (mmioWrite (writeCntrl5 v) s).thread = s.thread := Blind.thread (blind_mmioWrite (blind_writeCntrl5 v)) s
@[simp] theorem writeTxData_goOn (w : Nat) (l : Lanes) (a : Agent) (r : Run) (s : State) :
    mmioWrite (writeTxData w l) (State.goOn a r s) = State.goOn a r (mmioWrite (writeTxData w l) s) :=
  Blind.goOn (blind_mmioWrite (blind_writeTxData w l)) a r s
@[simp] theorem writeTxData_hard (w : Nat) (l : Lanes) (s : State) :
    (mmioWrite (writeTxData w l) s).hard = s.hard := Blind.hard (blind_mmioWrite (blind_writeTxData w l)) s
@[simp] theorem writeTxData_proc (w : Nat) (l : Lanes) (s : State) :
    (mmioWrite (writeTxData w l) s).proc = s.proc := Blind.proc (blind_mmioWrite (blind_writeTxData w l)) s
@[simp] theorem writeTxData_thread (w : Nat) (l : Lanes) (s : State) :
    (mmioWrite (writeTxData w l) s).thread = s.thread :=
  Blind.thread (blind_mmioWrite (blind_writeTxData w l)) s
@[simp] theorem writeCpuClear_goOn (v : Word) (a : Agent) (r : Run) (s : State) :
    mmioWrite (writeCpuClear v) (State.goOn a r s) = State.goOn a r (mmioWrite (writeCpuClear v) s) :=
  Blind.goOn (blind_mmioWrite (blind_writeCpuClear v)) a r s
@[simp] theorem writeCpuClear_hard (v : Word) (s : State) :
    (mmioWrite (writeCpuClear v) s).hard = s.hard := Blind.hard (blind_mmioWrite (blind_writeCpuClear v)) s
@[simp] theorem writeCpuClear_proc (v : Word) (s : State) :
    (mmioWrite (writeCpuClear v) s).proc = s.proc := Blind.proc (blind_mmioWrite (blind_writeCpuClear v)) s
@[simp] theorem writeCpuClear_thread (v : Word) (s : State) :
    (mmioWrite (writeCpuClear v) s).thread = s.thread :=
  Blind.thread (blind_mmioWrite (blind_writeCpuClear v)) s
@[simp] theorem writeCpuMaskSet_goOn (v : Word) (a : Agent) (r : Run) (s : State) :
    mmioWrite (writeCpuMaskSet v) (State.goOn a r s) = State.goOn a r (mmioWrite (writeCpuMaskSet v) s) :=
  Blind.goOn (blind_mmioWrite (blind_writeCpuMaskSet v)) a r s
@[simp] theorem writeCpuMaskSet_hard (v : Word) (s : State) :
    (mmioWrite (writeCpuMaskSet v) s).hard = s.hard :=
  Blind.hard (blind_mmioWrite (blind_writeCpuMaskSet v)) s
@[simp] theorem writeCpuMaskSet_proc (v : Word) (s : State) :
    (mmioWrite (writeCpuMaskSet v) s).proc = s.proc :=
  Blind.proc (blind_mmioWrite (blind_writeCpuMaskSet v)) s
@[simp] theorem writeCpuMaskSet_thread (v : Word) (s : State) :
    (mmioWrite (writeCpuMaskSet v) s).thread = s.thread :=
  Blind.thread (blind_mmioWrite (blind_writeCpuMaskSet v)) s
@[simp] theorem writeCpuMaskClear_goOn (v : Word) (a : Agent) (r : Run) (s : State) :
    mmioWrite (writeCpuMaskClear v) (State.goOn a r s) = State.goOn a r (mmioWrite (writeCpuMaskClear v) s) :=
  Blind.goOn (blind_mmioWrite (blind_writeCpuMaskClear v)) a r s
@[simp] theorem writeCpuMaskClear_hard (v : Word) (s : State) :
    (mmioWrite (writeCpuMaskClear v) s).hard = s.hard :=
  Blind.hard (blind_mmioWrite (blind_writeCpuMaskClear v)) s
@[simp] theorem writeCpuMaskClear_proc (v : Word) (s : State) :
    (mmioWrite (writeCpuMaskClear v) s).proc = s.proc :=
  Blind.proc (blind_mmioWrite (blind_writeCpuMaskClear v)) s
@[simp] theorem writeCpuMaskClear_thread (v : Word) (s : State) :
    (mmioWrite (writeCpuMaskClear v) s).thread = s.thread :=
  Blind.thread (blind_mmioWrite (blind_writeCpuMaskClear v)) s
@[simp] theorem writePktConfig_goOn (v : PktConfig) (a : Agent) (r : Run) (s : State) :
    mmioWrite (writePktConfig v) (State.goOn a r s) = State.goOn a r (mmioWrite (writePktConfig v) s) :=
  Blind.goOn (blind_mmioWrite (blind_writePktConfig v)) a r s
@[simp] theorem writePktConfig_hard (v : PktConfig) (s : State) :
    (mmioWrite (writePktConfig v) s).hard = s.hard := Blind.hard (blind_mmioWrite (blind_writePktConfig v)) s
@[simp] theorem writePktConfig_proc (v : PktConfig) (s : State) :
    (mmioWrite (writePktConfig v) s).proc = s.proc := Blind.proc (blind_mmioWrite (blind_writePktConfig v)) s
@[simp] theorem writePktConfig_thread (v : PktConfig) (s : State) :
    (mmioWrite (writePktConfig v) s).thread = s.thread :=
  Blind.thread (blind_mmioWrite (blind_writePktConfig v)) s
@[simp] theorem writePacketRam_goOn (w : Nat) (v : Word) (a : Agent) (r : Run) (s : State) :
    writePacketRam w v (State.goOn a r s) = State.goOn a r (writePacketRam w v s) :=
  Blind.goOn (blind_writePacketRam w v) a r s
@[simp] theorem writePacketRam_hard (w : Nat) (v : Word) (s : State) :
    (writePacketRam w v s).hard = s.hard := Blind.hard (blind_writePacketRam w v) s
@[simp] theorem writePacketRam_proc (w : Nat) (v : Word) (s : State) :
    (writePacketRam w v s).proc = s.proc := Blind.proc (blind_writePacketRam w v) s
@[simp] theorem writePacketRam_thread (w : Nat) (v : Word) (s : State) :
    (writePacketRam w v s).thread = s.thread := Blind.thread (blind_writePacketRam w v) s

@[simp] theorem readCntrl1_goOn (a : Agent) (r : Run) (s : State) :
    readCntrl1 (State.goOn a r s) = ((readCntrl1 s).1, State.goOn a r (readCntrl1 s).2) :=
  Prod.ext (mmioRead_goOn_fst _ (by intro a h s; cases a <;> rfl) a r s) (Blind.goOn (blind_mmioRead _ _) a r s)
@[simp] theorem readCntrl1_hard (s : State) :
    (readCntrl1 s).2.hard = s.hard := Blind.hard (blind_mmioRead _ _) s
@[simp] theorem readCntrl1_proc (s : State) :
    (readCntrl1 s).2.proc = s.proc := Blind.proc (blind_mmioRead _ _) s
@[simp] theorem readCntrl1_thread (s : State) :
    (readCntrl1 s).2.thread = s.thread := Blind.thread (blind_mmioRead _ _) s
theorem readCntrl1_state (s : State) :
    (readCntrl1 s).2 = { s with draws := s.draws + 1, fUnpowered := s.fUnpowered || !s.powered } :=
  mmioRead_state _ _ s
@[simp] theorem readCntrl5_goOn (a : Agent) (r : Run) (s : State) :
    readCntrl5 (State.goOn a r s) = ((readCntrl5 s).1, State.goOn a r (readCntrl5 s).2) :=
  Prod.ext (mmioRead_goOn_fst _ (by intro a h s; cases a <;> rfl) a r s) (Blind.goOn (blind_mmioRead _ _) a r s)
@[simp] theorem readCntrl5_hard (s : State) :
    (readCntrl5 s).2.hard = s.hard := Blind.hard (blind_mmioRead _ _) s
@[simp] theorem readCntrl5_proc (s : State) :
    (readCntrl5 s).2.proc = s.proc := Blind.proc (blind_mmioRead _ _) s
@[simp] theorem readCntrl5_thread (s : State) :
    (readCntrl5 s).2.thread = s.thread := Blind.thread (blind_mmioRead _ _) s
theorem readCntrl5_state (s : State) :
    (readCntrl5 s).2 = { s with draws := s.draws + 1, fUnpowered := s.fUnpowered || !s.powered } :=
  mmioRead_state _ _ s
@[simp] theorem readCpuStatus_goOn (a : Agent) (r : Run) (s : State) :
    readCpuStatus (State.goOn a r s) = ((readCpuStatus s).1, State.goOn a r (readCpuStatus s).2) :=
  by
  unfold readCpuStatus
  rw [State.goOn_variant]
  exact Prod.ext (mmioRead_goOn_fst _ (by intro a h s; cases a <;> rfl) a r s)
    (Blind.goOn (blind_mmioRead _ _) a r s)
@[simp] theorem readCpuStatus_hard (s : State) :
    (readCpuStatus s).2.hard = s.hard := Blind.hard (blind_mmioRead _ _) s
@[simp] theorem readCpuStatus_proc (s : State) :
    (readCpuStatus s).2.proc = s.proc := Blind.proc (blind_mmioRead _ _) s
@[simp] theorem readCpuStatus_thread (s : State) :
    (readCpuStatus s).2.thread = s.thread := Blind.thread (blind_mmioRead _ _) s
theorem readCpuStatus_state (s : State) :
    (readCpuStatus s).2 = { s with draws := s.draws + 1, fUnpowered := s.fUnpowered || !s.powered } :=
  mmioRead_state _ _ s
@[simp] theorem readRxData_goOn (w : Nat) (a : Agent) (r : Run) (s : State) :
    readRxData w (State.goOn a r s) = ((readRxData w s).1, State.goOn a r (readRxData w s).2) :=
  Prod.ext (mmioRead_goOn_fst _ (by intro a h s; cases a <;> rfl) a r s) (Blind.goOn (blind_mmioRead _ _) a r s)
@[simp] theorem readRxData_hard (w : Nat) (s : State) :
    (readRxData w s).2.hard = s.hard := Blind.hard (blind_mmioRead _ _) s
@[simp] theorem readRxData_proc (w : Nat) (s : State) :
    (readRxData w s).2.proc = s.proc := Blind.proc (blind_mmioRead _ _) s
@[simp] theorem readRxData_thread (w : Nat) (s : State) :
    (readRxData w s).2.thread = s.thread := Blind.thread (blind_mmioRead _ _) s
theorem readRxData_state (w : Nat) (s : State) :
    (readRxData w s).2 = { s with draws := s.draws + 1, fUnpowered := s.fUnpowered || !s.powered } :=
  mmioRead_state _ _ s
@[simp] theorem readPktConfig_goOn (a : Agent) (r : Run) (s : State) :
    readPktConfig (State.goOn a r s) = ((readPktConfig s).1, State.goOn a r (readPktConfig s).2) :=
  Prod.ext (mmioRead_goOn_fst _ (by intro a h s; cases a <;> rfl) a r s) (Blind.goOn (blind_mmioRead _ _) a r s)
@[simp] theorem readPktConfig_hard (s : State) :
    (readPktConfig s).2.hard = s.hard := Blind.hard (blind_mmioRead _ _) s
@[simp] theorem readPktConfig_proc (s : State) :
    (readPktConfig s).2.proc = s.proc := Blind.proc (blind_mmioRead _ _) s
@[simp] theorem readPktConfig_thread (s : State) :
    (readPktConfig s).2.thread = s.thread := Blind.thread (blind_mmioRead _ _) s
theorem readPktConfig_state (s : State) :
    (readPktConfig s).2 = { s with draws := s.draws + 1, fUnpowered := s.fUnpowered || !s.powered } :=
  mmioRead_state _ _ s
@[simp] theorem readPktStatus_goOn (a : Agent) (r : Run) (s : State) :
    readPktStatus (State.goOn a r s) = ((readPktStatus s).1, State.goOn a r (readPktStatus s).2) :=
  Prod.ext (mmioRead_goOn_fst _ (by intro a h s; cases a <;> rfl) a r s) (Blind.goOn (blind_mmioRead _ _) a r s)
@[simp] theorem readPktStatus_hard (s : State) :
    (readPktStatus s).2.hard = s.hard := Blind.hard (blind_mmioRead _ _) s
@[simp] theorem readPktStatus_proc (s : State) :
    (readPktStatus s).2.proc = s.proc := Blind.proc (blind_mmioRead _ _) s
@[simp] theorem readPktStatus_thread (s : State) :
    (readPktStatus s).2.thread = s.thread := Blind.thread (blind_mmioRead _ _) s
theorem readPktStatus_state (s : State) :
    (readPktStatus s).2 = { s with draws := s.draws + 1, fUnpowered := s.fUnpowered || !s.powered } :=
  mmioRead_state _ _ s

/-- Whether or not a fault is raised, an agent's record passes. -/
@[simp] theorem raiseMailbox_if_goOn (c : Bool) (a : Agent) (r : Run) (s : State) :
    (if c then (State.goOn a r s).raiseMailbox else State.goOn a r s) =
      State.goOn a r (if c then s.raiseMailbox else s) := by cases c <;> simp

@[simp] theorem raisePktRamOff_if_goOn (c : Bool) (a : Agent) (r : Run) (s : State) :
    (if c then State.goOn a r s else (State.goOn a r s).raisePktRamOff) =
      State.goOn a r (if c then s else s.raisePktRamOff) := by cases c <;> simp

@[simp] theorem emit_if_goOn (c : Prop) [Decidable c] (e : UpEvent) (a : Agent) (r : Run) (s : State) :
    (if c then State.emit e (State.goOn a r s) else State.goOn a r s) =
      State.goOn a r (if c then State.emit e s else s) := by split_ifs <;> simp

/-! The start of an operation that runs alone. -/

theorem begin_eq (op : HostOp) (s : State) :
    s.begin op = State.goOn op.agent
      { op := op, polls := pollBound s.variant s.draws, polls2 := pollBound s.variant (s.draws + 1) }
      (s.draw 2) := by
  unfold State.begin
  rw [draw_goOn]

theorem plan_self {s : State} (h : s.plan = []) : ({ s with plan := [] } : State) = s := by
  cases s
  simp_all

/-- An operation that may start, run alone. -/
theorem runOp_alone {op : HostOp} {s : State} (hp : s.plan = []) (h : startOp op s = .next (s.begin op)) :
    runOp op s = finish (pollBound s.variant s.draws + pollBound s.variant (s.draws + 1) + 128) op.agent
      (State.goOn op.agent
        { op := op, polls := pollBound s.variant s.draws, polls2 := pollBound s.variant (s.draws + 1) }
        (s.draw 2)) := by
  rw [runOp, hp, plan_self hp, h, andThen_next, begin_eq, drive, stepsLeft, agent_goOn]

/-! One step of it. -/

theorem finish_goOn_hard (n : Nat) (a : Agent) (r : Run) (u : State) :
    finish (n + 1) a (State.goOn .hard r u) =
      (stepRun r (State.goOn .hard r u)).andThen (finish n a) := rfl

theorem finish_goOn_proc {u : State} (h : u.hard.run = none) (n : Nat) (r : Run) :
    finish (n + 1) .proc (State.goOn .proc r u) =
      (stepRun r (State.goOn .proc r u)).andThen (finish n .proc) := by
  have hh : (State.goOn .proc r u).hard.run = none := h
  have hr : ((State.goOn .proc r u).agent .proc).run = some r := rfl
  rw [finish, hh, hr]
  simp only [advance, hh, hr, Option.isSome, ne_eq, reduceCtorEq, and_false, if_false, if_true,
    Bool.false_eq_true]

theorem finish_goOn_thread {u : State} (h : u.hard.run = none) (n : Nat) (r : Run) :
    finish (n + 1) .thread (State.goOn .thread r u) =
      (stepRun r (State.goOn .thread r u)).andThen (finish n .thread) := by
  have hh : (State.goOn .thread r u).hard.run = none := h
  have hr : ((State.goOn .thread r u).agent .thread).run = some r := rfl
  rw [finish, hh, hr]
  simp only [advance, hh, hr, Option.isSome, ne_eq, reduceCtorEq, and_false, if_false, if_true,
    Bool.false_eq_true]

theorem finish_endWith_hard (n : Nat) (c : Code) (u : State) :
    finish n .hard (State.endWith .hard c u) = .next (State.endWith .hard c u) :=
  finish_done rfl rfl

theorem finish_endWith_proc {u : State} (h : u.hard.run = none) (n : Nat) (c : Code) :
    finish n .proc (State.endWith .proc c u) = .next (State.endWith .proc c u) :=
  finish_done h rfl

theorem finish_endRefused_proc {u : State} (h : u.hard.run = none) (n : Nat) (reason : Reason) :
    finish n .proc (State.endRefused .proc reason u) = .next (State.endRefused .proc reason u) :=
  finish_done h rfl

theorem finish_endWith_thread {u : State} (h : u.hard.run = none) (n : Nat) (c : Code) :
    finish n .thread (State.endWith .thread c u) = .next (State.endWith .thread c u) :=
  finish_done h rfl

end Sys2Proof.Machine
end

