-- ==== Sys2Proof/Laws/Alone.lean ====
section
/-! SUPPORT. Each host operation run alone, powered or not, as the composition of its accesses in their order; the
loops of accesses inside a step; and how the number of steps given to `finish` matters. -/

namespace Sys2Proof.Machine

/-! The number of steps given. -/

/-- An operation that ended within some steps ends the same way within more. -/
theorem finish_more {n : Nat} {a : Agent} {s t : State} (h : finish n a s = .next t)
    (hh : t.hard.run = none) (ha : (t.agent a).run = none) (k : Nat) : finish (n + k) a s = .next t := by
  induction n generalizing s with
  | zero =>
    have e : s = t := by simpa [finish] using h
    subst e
    exact finish_done hh ha
  | succ n ih =>
    rw [Nat.succ_add]
    simp only [finish] at h ⊢
    split_ifs at h ⊢ with h1 h2
    · obtain ⟨u, hu, hn⟩ := andThen_eq_next.mp h
      rw [hu, andThen_next]
      exact ih hn
    · obtain ⟨u, hu, hn⟩ := andThen_eq_next.mp h
      rw [hu, andThen_next]
      exact ih hn
    · exact h

/-! Loops of accesses. -/

/-- `count` data words of a message written from word `i` on (R141 step 3). -/
def sendWords (msg : List Byte) : Nat → Nat → State → State
  | 0, _, u => u
  | count + 1, i, u =>
    sendWords msg count (i + 1) (mmioWrite (writeTxData i (messageLanes msg i u.draws)) (u.draw 1))

/-- `count` words of receive data copied from word `i` on (R142 step 8b). -/
def copyWords : Nat → Nat → State → State
  | 0, _, u => u
  | count + 1, i, u => copyWords count (i + 1) ((readRxData i u).2.setRxWord i (readRxData i u).1)

/-- `count` words of an image written from word `i` on (R168 step 8). -/
def storeWords (slot : Nat) (words : List Word) : Nat → Nat → State → State
  | 0, _, u => u
  | count + 1, i, u =>
    storeWords slot words count (i + 1) (writePacketRam (Config.slotWords * slot + i) (words.getD i 0) u)

theorem blind_sendWords (msg : List Byte) (count i : Nat) : Blind (sendWords msg count i) := by
  induction count generalizing i with
  | zero => exact fun _ _ _ => rfl
  | succ n ih =>
    intro a h s
    simp only [sendWords]
    rw [blind_draw 1 a h s, State.setAgent_draws, blind_mmioWrite (blind_writeTxData _ _) a h, ih _ a h]

theorem blind_copyWords (count i : Nat) : Blind (copyWords count i) := by
  induction count generalizing i with
  | zero => exact fun _ _ _ => rfl
  | succ n ih =>
    intro a h s
    have e : (readRxData i (State.setAgent a h s)).1 = (readRxData i s).1 := by
      simp only [readRxData, mmioRead, State.setAgent_powered, State.setAgent_draws,
        State.setAgent_rxData]
      split_ifs <;> rfl
    have e2 : (readRxData i (State.setAgent a h s)).2 = State.setAgent a h (readRxData i s).2 :=
      blind_mmioRead _ _ a h s
    simp only [copyWords]
    rw [e, e2, blind_setRxWord _ _ a h, ih _ a h]

theorem blind_storeWords (slot : Nat) (words : List Word) (count i : Nat) :
    Blind (storeWords slot words count i) := by
  induction count generalizing i with
  | zero => exact fun _ _ _ => rfl
  | succ n ih =>
    intro a h s
    simp only [storeWords]
    rw [blind_writePacketRam _ _ a h, ih _ a h]

@[simp] theorem sendWords_goOn (msg : List Byte) (count i : Nat) (a : Agent) (r : Run) (s : State) :
    sendWords msg count i (State.goOn a r s) = State.goOn a r (sendWords msg count i s) :=
  (blind_sendWords msg count i).goOn a r s

@[simp] theorem sendWords_hard (msg : List Byte) (count i : Nat) (s : State) :
    (sendWords msg count i s).hard = s.hard := (blind_sendWords msg count i).hard s

@[simp] theorem copyWords_goOn (count i : Nat) (a : Agent) (r : Run) (s : State) :
    copyWords count i (State.goOn a r s) = State.goOn a r (copyWords count i s) :=
  (blind_copyWords count i).goOn a r s

@[simp] theorem storeWords_goOn (slot : Nat) (words : List Word) (count i : Nat) (a : Agent) (r : Run)
    (s : State) : storeWords slot words count i (State.goOn a r s) =
      State.goOn a r (storeWords slot words count i s) := (blind_storeWords slot words count i).goOn a r s

@[simp] theorem storeWords_hard (slot : Nat) (words : List Word) (count i : Nat) (s : State) :
    (storeWords slot words count i s).hard = s.hard := (blind_storeWords slot words count i).hard s

/-- The loop of `CEC_TRANSMIT`'s step 3. -/
theorem finish_sendWords (msg : List Byte) (count n : Nat) {i : Nat} {r : Run} {u : State}
    (ho : r.op = .cecTransmit msg) (hl : r.line = 3) (hi : r.idx = i)
    (hc : i + (count + 1) = wordsFor msg.length) (hh : u.hard.run = none) :
    finish (n + (count + 1)) .proc (State.goOn .proc r u) =
      finish n .proc (State.goOn .proc { r with line := 4, idx := i + count }
        (sendWords msg (count + 1) i u)) := by
  induction count generalizing i r u with
  | zero =>
    have hlt : ¬ i + 1 < wordsFor msg.length := by omega
    rw [← hc] at hlt
    obtain ⟨op, line, idx⟩ := r
    simp only at ho hl hi
    subst ho hl hi
    simp [finish_goOn_proc, hh, stepRun, stepCecTransmit, ← hc, Run.goto, sendWords]
  | succ k ih =>
    have hlt : i + 1 < wordsFor msg.length := by omega
    obtain ⟨op, line, idx⟩ := r
    simp only at ho hl hi
    subst ho hl hi
    rw [show n + (k + 1 + 1) = n + (k + 1) + 1 from rfl, finish_goOn_proc hh]
    simp only [stepRun, stepCecTransmit, hlt, if_true, andThen_next, draw_goOn, State.goOn_draws,
      writeTxData_goOn, goOn_goOn]
    rw [ih rfl rfl rfl (by dsimp only; omega) (by simpa using hh)]
    simp only [show idx + 1 + k = idx + (k + 1) by omega]
    rfl

/-- The loop of the hard handler's step 8b. -/
theorem finish_copyWords (a : Agent) (count n : Nat) {i : Nat} {r : Run} {u : State}
    (ho : r.op = .cecIrqHard) (hl : r.line = 82) (hi : r.idx = i)
    (hc : i + (count + 1) = wordsFor (lengthOf r.c1.recLen)) :
    finish (n + (count + 1)) a (State.goOn .hard r u) =
      finish n a (State.goOn .hard { r with line := 83, idx := i + count } (copyWords (count + 1) i u)) := by
  induction count generalizing i r u with
  | zero =>
    obtain ⟨op, line, idx⟩ := r
    simp only at ho hl hi hc
    subst ho hl hi
    have hlt : ¬ idx + 1 < wordsFor (lengthOf ‹Cntrl1›.recLen) := by omega
    simp [finish_goOn_hard, stepRun, stepCecIrqHard, hlt, Run.goto, copyWords]
  | succ k ih =>
    obtain ⟨op, line, idx⟩ := r
    simp only at ho hl hi hc
    subst ho hl hi
    have hlt : idx + 1 < wordsFor (lengthOf ‹Cntrl1›.recLen) := by omega
    rw [show n + (k + 1 + 1) = n + (k + 1) + 1 from rfl, finish_goOn_hard]
    simp only [stepRun, stepCecIrqHard, hlt, if_true, andThen_next, readRxData_goOn, setRxWord_goOn,
      goOn_goOn]
    rw [ih rfl rfl rfl (by simp only; omega)]
    simp only [show idx + 1 + k = idx + (k + 1) by omega]
    rfl

/-- The loop of `PKT_WRITE`'s step 8. -/
theorem finish_storeWords (ty : Byte) (rec : Record) (count n : Nat) {i : Nat} {r : Run} {u : State}
    (ho : r.op = .pktWrite ty rec) (hl : r.line = 8) (hi : r.idx = i)
    (hc : i + (count + 1) = r.words.length) (hh : u.hard.run = none) :
    finish (n + (count + 1)) .proc (State.goOn .proc r u) =
      finish n .proc (State.goOn .proc { r with line := 9, idx := i + count }
        (storeWords (slotOf ty) r.words (count + 1) i u)) := by
  induction count generalizing i r u with
  | zero =>
    obtain ⟨op, line, idx⟩ := r
    simp only at ho hl hi hc
    subst ho hl hi
    simp [finish_goOn_proc, hh, stepRun, stepPktWrite, ← hc, Run.goto, storeWords]
  | succ k ih =>
    obtain ⟨op, line, idx⟩ := r
    simp only at ho hl hi hc
    subst ho hl hi
    have hlt : idx + 1 < (‹List Word›).length := by omega
    rw [show n + (k + 1 + 1) = n + (k + 1) + 1 from rfl, finish_goOn_proc hh]
    simp only [stepRun, stepPktWrite, hlt, if_true, andThen_next, writePacketRam_goOn, goOn_goOn]
    rw [ih rfl rfl rfl (by simp only; omega) (by simpa using hh)]
    simp only [show idx + 1 + k = idx + (k + 1) by omega]
    rfl

/-! The bounded wait of R164 while powered, with no scheduler step between its polls. -/

/-- The status bit is as wanted: one poll. -/
theorem pollStatus_found {slot : Nat} {want : Bool} {u : State} (hp : u.powered = true)
    (hb : u.slotSt.getLsbD slot = want) (doneLine : Nat) (r r' : Run) :
    pollStatus slot want doneLine r (State.goOn .proc r' u) =
      .next (State.goOn .proc { r with line := doneLine, timedOut := false } (u.draw 1)) := by
  have e : readPktStatus u = (pktStatusValue u, u.draw 1) := mmioRead_of_powered hp _ _
  simp [pollStatus, e, pktStatusValue, hb, Run.goto]

/-- The status bit is not as wanted: the poll fails, and is the last one when the bound is used up. -/
theorem pollStatus_failed {slot : Nat} {want : Bool} {u : State} (hp : u.powered = true)
    (hb : u.slotSt.getLsbD slot = !want) (doneLine : Nat) (r r' : Run) :
    pollStatus slot want doneLine r (State.goOn .proc r' u) =
      .next (State.goOn .proc
        (if r.polls ≤ 1 then { r with line := doneLine, timedOut := true }
         else { r with polls := r.polls - 1 }) (u.draw 1)) := by
  have e : readPktStatus u = (pktStatusValue u, u.draw 1) := mmioRead_of_powered hp _ _
  have hne : u.slotSt.getLsbD slot ≠ want := by rw [hb]; cases want <;> simp
  simp [pollStatus, e, pktStatusValue, hne, Run.goto]

/-- A wait whose condition does not come makes every poll its bound allows and times out. -/
theorem finish_pollTimeout {slot : Nat} {want : Bool} {doneLine : Nat} (n p : Nat) {r : Run} {u : State}
    (hs : ∀ q v, stepRun { r with polls := q } (State.goOn .proc { r with polls := q } v) =
      pollStatus slot want doneLine { r with polls := q } (State.goOn .proc { r with polls := q } v))
    (hr : r.polls = p) (hp : u.powered = true) (hh : u.hard.run = none)
    (hb : u.slotSt.getLsbD slot = !want) :
    finish (n + max 1 p) .proc (State.goOn .proc r u) =
      finish n .proc (State.goOn .proc
        { r with line := doneLine, timedOut := true, polls := min p 1 } (u.draw (max 1 p))) := by
  induction p generalizing r u with
  | zero =>
    have h := hs 0 u
    rw [show ({ r with polls := 0 } : Run) = r by rw [← hr]] at h
    rw [show n + max 1 0 = n + 1 from rfl, finish_goOn_proc hh, h, pollStatus_failed hp hb, hr]
    rfl
  | succ p ih =>
    have h := hs (p + 1) u
    rw [show ({ r with polls := p + 1 } : Run) = r by rw [← hr]] at h
    rcases Nat.eq_zero_or_pos p with h0 | hpos
    · subst h0
      rw [show n + max 1 (0 + 1) = n + 1 from rfl, finish_goOn_proc hh, h, pollStatus_failed hp hb, hr]
      simp
    · rw [show n + max 1 (p + 1) = n + max 1 p + 1 by omega, finish_goOn_proc hh, h,
        pollStatus_failed hp hb, hr, if_neg (by omega), andThen_next,
        ih (r := { r with polls := p + 1 - 1 }) (u := u.draw 1) (fun q v => hs q v) rfl hp hh hb]
      have e1 : min p 1 = min (p + 1) 1 := by omega
      have e2 : (u.draw 1).draw (max 1 p) = u.draw (max 1 (p + 1)) := by
        simp only [State.draw, show u.draws + 1 + max 1 p = u.draws + max 1 (p + 1) by omega]
      rw [e1, e2]

/-! The operations. -/

section

variable {s : State} (hp : s.plan = []) (h1 : s.proc.run = none) (h2 : s.hard.run = none)

include hp h1 h2

/-- `CEC_INIT` with a divider that fits. -/
theorem alone_cecInit (hd : dividerQuotient s.variant < 4096) :
    execCecInit s =
      let u := mmioWrite (writeCpuMaskSet (irqMask s.variant)) (s.draw 2).clearHostVars
      .next (State.endWith .proc .ok
        (mmioWrite (writeCntrl1 { (readCntrl1 u).1 with
          addr := 0xF
          divClkCnt := BitVec.ofNat 12 (dividerQuotient s.variant) }) (readCntrl1 u).2)) := by
  unfold execCecInit
  rw [runOp_alone hp (startOp_proc rfl h1)]
  generalize pollBound s.variant s.draws + pollBound s.variant (s.draws + 1) = n
  have hd' : ¬ 4096 ≤ dividerQuotient s.variant := by omega
  have hv (f : State → State) (u : State) : (mmioWrite (writeCpuMaskSet (irqMask s.variant)) u).variant =
      u.variant := by
    unfold mmioWrite writeCpuMaskSet onCecBit
    split_ifs <;> rfl
  have hr (u : State) : (readCntrl1 u).2.variant = u.variant := by rw [readCntrl1_state]
  simp [HostOp.agent, finish_goOn_proc, finish_endWith_proc, stepRun, stepCecInit, Run.goto, h2, hd',
    hv id, hr]

/-- `CEC_INIT` with a divider that does not fit. -/
theorem alone_cecInit_refused (hd : 4096 ≤ dividerQuotient s.variant) :
    execCecInit s = .next (State.endRefused .proc .badConfig (s.draw 2)) := by
  unfold execCecInit
  rw [runOp_alone hp (startOp_proc rfl h1)]
  generalize pollBound s.variant s.draws + pollBound s.variant (s.draws + 1) = n
  simp [HostOp.agent, finish_goOn_proc, finish_endRefused_proc, stepRun, stepCecInit, h2, hd]

/-- `CEC_ENABLE`. -/
theorem alone_cecEnable :
    execCecEnable s =
      let u := mmioWrite (writeCntrl4 (Cntrl4.ofWord 0xAC9C908C))
        (mmioWrite (writeCntrl3 (Cntrl3.ofWord 0x6E605244))
          (mmioWrite (writeCntrl2 (Cntrl2.ofWord 0x3C690310)) (s.draw 2)))
      let v : Cntrl5 := { (readCntrl5 u).1 with
        txSwReset := false
        rxSwReset := false
        cnt4700 := BitVec.ofNat 8 (timingCount 4700)
        cnt4500 := BitVec.ofNat 8 (timingCount 4500) }
      let w := mmioWrite (writeCntrl5 v)
        (mmioWrite (writeCntrl5 { v with txSwReset := true, rxSwReset := true }) (readCntrl5 u).2)
      .next (State.endWith .proc .ok (mmioWrite (writeCpuMaskClear (irqMask w.variant)) w)) := by
  unfold execCecEnable
  rw [runOp_alone hp (startOp_proc rfl h1)]
  generalize pollBound s.variant s.draws + pollBound s.variant (s.draws + 1) = n
  simp [HostOp.agent, finish_goOn_proc, finish_endWith_proc, stepRun, stepCecEnable, Run.goto, h2]

/-- `CEC_DISABLE`. -/
theorem alone_cecDisable :
    execCecDisable s =
      let u := mmioWrite (writeCpuMaskSet (irqMask s.variant)) (s.draw 2)
      .next (State.endWith .proc .ok
        (mmioWrite (writeCntrl5 { (readCntrl5 u).1 with txSwReset := true, rxSwReset := true })
          (readCntrl5 u).2)) := by
  unfold execCecDisable
  rw [runOp_alone hp (startOp_proc rfl h1)]
  generalize pollBound s.variant s.draws + pollBound s.variant (s.draws + 1) = n
  simp [HostOp.agent, finish_goOn_proc, finish_endWith_proc, stepRun, stepCecDisable, Run.goto, h2]

/-- `CEC_SET_LOG_ADDR`. -/
theorem alone_cecSetLogAddr (la : BitVec 4) :
    execCecSetLogAddr la s =
      .next (State.endWith .proc .ok
        (mmioWrite (writeCntrl1 { (readCntrl1 (s.draw 2)).1 with addr := la })
          (readCntrl1 (s.draw 2)).2)) := by
  unfold execCecSetLogAddr
  rw [runOp_alone hp (startOp_proc rfl h1)]
  generalize pollBound s.variant s.draws + pollBound s.variant (s.draws + 1) = n
  simp [HostOp.agent, finish_goOn_proc, finish_endWith_proc, stepRun, stepCecSetLogAddr, Run.goto, h2]

/-- `CEC_TRANSMIT` of 1 to 16 bytes. -/
theorem alone_cecTransmit (msg : List Byte) (hl : 1 ≤ msg.length) (hm : msg.length ≤ Config.cecMaxLen) :
    execCecTransmit msg s =
      let u := sendWords msg (wordsFor msg.length) 0 (s.draw 2)
      let v : Cntrl1 := { (readCntrl1 u).1 with startXmitBegin := false }
      .next (State.endWith .proc .ok
        (mmioWrite (writeCntrl1 { v with
            messageLength := lengthField msg.length, startXmitBegin := true })
          (mmioWrite (writeCntrl1 v) (readCntrl1 u).2))) := by
  unfold execCecTransmit
  rw [runOp_alone hp (startOp_proc rfl h1)]
  generalize hn : pollBound s.variant s.draws + pollBound s.variant (s.draws + 1) = n
  have hb : ¬ Config.cecMaxLen < msg.length := by omega
  have hz : ¬ msg.length = 0 := by omega
  obtain ⟨k, hk⟩ : ∃ k, wordsFor msg.length = k + 1 := ⟨wordsFor msg.length - 1, by
    unfold wordsFor; omega⟩
  have h16 : Config.cecMaxLen = 16 := rfl
  have hk4 : k < 4 := by unfold wordsFor at hk; omega
  rw [show n + 128 = n + (125 - k) + (k + 1) + 1 + 1 by omega]
  simp only [HostOp.agent]
  rw [finish_goOn_proc (by simpa using h2)]
  simp only [stepRun, stepCecTransmit, hb, if_false, andThen_next, goOn_goOn, Run.goto]
  rw [finish_goOn_proc (by simpa using h2)]
  simp only [stepRun, stepCecTransmit, hz, if_false, andThen_next, goOn_goOn, Run.goto]
  rw [finish_sendWords msg k _ rfl rfl rfl (by simp only; omega) (by simpa using h2)]
  obtain ⟨m, hm'⟩ : ∃ m, n + (125 - k) = m + 6 := ⟨n + (125 - k) - 6, by omega⟩
  rw [hm', hk]
  generalize hu : sendWords msg (k + 1) 0 (s.draw 2) = u
  have hh : u.hard.run = none := by rw [← hu]; simpa using h2
  simp [finish_goOn_proc, finish_endWith_proc, stepRun, stepCecTransmit, Run.goto, hh]

/-- `CEC_TRANSMIT` of more than 16 bytes. -/
theorem alone_cecTransmit_tooLarge (msg : List Byte) (hm : Config.cecMaxLen < msg.length) :
    execCecTransmit msg s = .next (State.endWith .proc .eTooLarge (s.draw 2)) := by
  unfold execCecTransmit
  rw [runOp_alone hp (startOp_proc rfl h1)]
  generalize pollBound s.variant s.draws + pollBound s.variant (s.draws + 1) = n
  simp [HostOp.agent, finish_goOn_proc, finish_endWith_proc, stepRun, stepCecTransmit, h2, hm]

/-- `CEC_TRANSMIT` of no bytes. -/
theorem alone_cecTransmit_empty :
    execCecTransmit [] s = .next (State.endRefused .proc .badLength (s.draw 2)) := by
  unfold execCecTransmit
  rw [runOp_alone hp (startOp_proc rfl h1)]
  generalize pollBound s.variant s.draws + pollBound s.variant (s.draws + 1) = n
  simp [HostOp.agent, finish_goOn_proc, finish_endRefused_proc, stepRun, stepCecTransmit, h2, Run.goto]

/-- `PKT_RAM_ENABLE`. -/
theorem alone_pktRamEnable :
    execPktRamEnable s =
      .next (State.endWith .proc .ok
        (mmioWrite (writePktConfig { (readPktConfig (s.draw 2)).1 with ramPacketEnable := true })
          (readPktConfig (s.draw 2)).2)) := by
  unfold execPktRamEnable
  rw [runOp_alone hp (startOp_proc rfl h1)]
  generalize pollBound s.variant s.draws + pollBound s.variant (s.draws + 1) = n
  simp [HostOp.agent, finish_goOn_proc, finish_endWith_proc, stepRun, stepPktRamEnable, Run.goto, h2,
    readConfigStep, writeConfigStep]

/-- `PKT_RAM_DISABLE`. -/
theorem alone_pktRamDisable :
    execPktRamDisable s =
      .next (State.endWith .proc .ok
        (mmioWrite (writePktConfig { (readPktConfig (s.draw 2)).1 with ramPacketEnable := false })
          (readPktConfig (s.draw 2)).2)) := by
  unfold execPktRamDisable
  rw [runOp_alone hp (startOp_proc rfl h1)]
  generalize pollBound s.variant s.draws + pollBound s.variant (s.draws + 1) = n
  simp [HostOp.agent, finish_goOn_proc, finish_endWith_proc, stepRun, stepPktRamDisable, Run.goto, h2,
    readConfigStep, writeConfigStep]

/-- `PKT_STOP` of a type that is not one of the three. -/
theorem alone_pktStop_refused (ty : Byte) (ht : acceptedType ty = false) :
    execPktStop ty s = .next (State.endRefused .proc .badType (s.draw 2)) := by
  unfold execPktStop
  rw [runOp_alone hp (startOp_proc rfl h1)]
  generalize pollBound s.variant s.draws + pollBound s.variant (s.draws + 1) = n
  simp [HostOp.agent, finish_goOn_proc, finish_endRefused_proc, stepRun, stepPktStop, h2, ht]

/-- `PKT_WRITE` of a type that is not one of the three, or of a record of another kind. -/
theorem alone_pktWrite_refused (ty : Byte) (rec : Record)
    (ht : (acceptedType ty && kindMatches ty rec) = false) :
    execPktWrite ty rec s = .next (State.endRefused .proc .badType (s.draw 2)) := by
  unfold execPktWrite
  rw [runOp_alone hp (startOp_proc rfl h1)]
  generalize pollBound s.variant s.draws + pollBound s.variant (s.draws + 1) = n
  rw [HostOp.agent, finish_goOn_proc (by simpa using h2)]
  simp only [stepRun, stepPktWrite, ht, Bool.false_eq_true, if_false, andThen_next, endRefused_goOn]
  exact finish_endRefused_proc (by simpa using h2) _ _

end

/-! The hard handler, step by step, whatever agent `finish` waits for. -/

@[simp] theorem takesEvent_goOn (r q : Run) (a : Agent) (s : State) :
    takesEvent r (State.goOn a q s) = takesEvent r s := by simp [takesEvent]

theorem takesEvent_readCpuStatus (r : Run) (s : State) :
    takesEvent r (readCpuStatus s).2 = takesEvent r s := by
  rw [readCpuStatus_state]
  rfl

section

variable {n : Nat} {a : Agent} {r : Run} {u : State} (ho : r.op = .cecIrqHard)

include ho

/-- Step 1 of the hard handler: the status is read, the line looked at. -/
theorem finish_hard_1 (hl : r.line = 1) :
    finish (n + 1) a (State.goOn .hard r u) =
      finish n a (State.goOn .hard
        { r with line := 2, status := (readCpuStatus u).1, lineLow := !u.irqLine } (readCpuStatus u).2) := by
  obtain ⟨op, line⟩ := r
  simp only at ho hl
  subst ho hl
  simp [finish_goOn_hard, stepRun, stepCecIrqHard, Run.goto]

/-- Step 3: the buffer's length is cleared. -/
theorem finish_hard_3 (hl : r.line = 3) :
    finish (n + 1) a (State.goOn .hard r u) =
      finish n a (State.goOn .hard { r with line := 4 } (u.setRxLen 0)) := by
  obtain ⟨op, line⟩ := r
  simp only at ho hl
  subst ho hl
  simp [finish_goOn_hard, stepRun, stepCecIrqHard, Run.goto]

/-- Step 4: `CEC_CNTRL_1` is read. -/
theorem finish_hard_4 (hl : r.line = 4) :
    finish (n + 1) a (State.goOn .hard r u) =
      finish n a (State.goOn .hard { r with line := 5, c1 := (readCntrl1 u).1 } (readCntrl1 u).2) := by
  obtain ⟨op, line⟩ := r
  simp only at ho hl
  subst ho hl
  simp [finish_goOn_hard, stepRun, stepCecIrqHard, Run.goto]

/-- Step 5: `CEC_CNTRL_5` is read. -/
theorem finish_hard_5 (hl : r.line = 5) :
    finish (n + 1) a (State.goOn .hard r u) =
      finish n a (State.goOn .hard { r with line := 6, c5 := (readCntrl5 u).1 } (readCntrl5 u).2) := by
  obtain ⟨op, line⟩ := r
  simp only at ho hl
  subst ho hl
  simp [finish_goOn_hard, stepRun, stepCecIrqHard, Run.goto]

/-- Step 6: the mailbox is looked at. -/
theorem finish_hard_6 (hl : r.line = 6) :
    finish (n + 1) a (State.goOn .hard r u) =
      finish n a (State.goOn .hard { r with line := 7, wasFull := u.mailboxFull, wasRx := u.irqWasRx } u) := by
  obtain ⟨op, line⟩ := r
  simp only at ho hl
  subst ho hl
  simp [finish_goOn_hard, stepRun, stepCecIrqHard, Run.goto]

/-- Step 7: the kind of event is kept. -/
theorem finish_hard_7 (hl : r.line = 7) :
    finish (n + 1) a (State.goOn .hard r u) =
      finish n a (State.goOn .hard { r with line := 8 } (u.setWasRx r.c5.rxCecInt)) := by
  obtain ⟨op, line⟩ := r
  simp only at ho hl
  subst ho hl
  simp [finish_goOn_hard, stepRun, stepCecIrqHard, Run.goto]

/-- Step 8a. -/
theorem finish_hard_81 (hl : r.line = 81) :
    finish (n + 1) a (State.goOn .hard r u) =
      finish n a (State.goOn .hard { r with line := 82, idx := 0 } u) := by
  obtain ⟨op, line⟩ := r
  simp only at ho hl
  subst ho hl
  simp [finish_goOn_hard, stepRun, stepCecIrqHard, Run.goto]

/-- Step 8c: the length is taken. -/
theorem finish_hard_83 (hl : r.line = 83) :
    finish (n + 1) a (State.goOn .hard r u) =
      finish n a (State.goOn .hard { r with line := 84 } (u.setRxLen (lengthOf r.c1.recLen))) := by
  obtain ⟨op, line⟩ := r
  simp only at ho hl
  subst ho hl
  simp [finish_goOn_hard, stepRun, stepCecIrqHard, Run.goto]

/-- Step 8d: the clear-bit is set. -/
theorem finish_hard_84 (hl : r.line = 84) :
    finish (n + 1) a (State.goOn .hard r u) =
      finish n a (State.goOn .hard { r with line := 85 } (mmioWrite (writeCntrl1 { r.c1 with clearReceiveOff := true }) u)) := by
  obtain ⟨op, line⟩ := r
  simp only at ho hl
  subst ho hl
  simp [finish_goOn_hard, stepRun, stepCecIrqHard, Run.goto]

/-- Step 8e: the clear-bit is cleared. -/
theorem finish_hard_85 (hl : r.line = 85) :
    finish (n + 1) a (State.goOn .hard r u) =
      finish n a (State.goOn .hard { r with line := 10 } (mmioWrite (writeCntrl1 { r.c1 with clearReceiveOff := false }) u)) := by
  obtain ⟨op, line⟩ := r
  simp only at ho hl
  subst ho hl
  simp [finish_goOn_hard, stepRun, stepCecIrqHard, Run.goto]

/-- Step 9a: the result is captured. -/
theorem finish_hard_91 (hl : r.line = 91) :
    finish (n + 1) a (State.goOn .hard r u) =
      finish n a (State.goOn .hard { r with line := 92 } (u.setTxOk r.c1.txStatusGood)) := by
  obtain ⟨op, line⟩ := r
  simp only at ho hl
  subst ho hl
  simp [finish_goOn_hard, stepRun, stepCecIrqHard, Run.goto]

/-- Step 9b: the transmit-begin bit is cleared. -/
theorem finish_hard_92 (hl : r.line = 92) :
    finish (n + 1) a (State.goOn .hard r u) =
      finish n a (State.goOn .hard { r with line := 10 } (mmioWrite (writeCntrl1 { r.c1 with startXmitBegin := false }) u)) := by
  obtain ⟨op, line⟩ := r
  simp only at ho hl
  subst ho hl
  simp [finish_goOn_hard, stepRun, stepCecIrqHard, Run.goto]

/-- Step 10: the status bit is cleared. -/
theorem finish_hard_10 (hl : r.line = 10) :
    finish (n + 1) a (State.goOn .hard r u) =
      finish n a (State.goOn .hard { r with line := 11 } (mmioWrite (writeCpuClear (irqMask u.variant)) u)) := by
  obtain ⟨op, line⟩ := r
  simp only at ho hl
  subst ho hl
  simp [finish_goOn_hard, stepRun, stepCecIrqHard, Run.goto]

/-- Step 11: a second event of one kind is the overrun fault. -/
theorem finish_hard_11 (hl : r.line = 11) :
    finish (n + 1) a (State.goOn .hard r u) =
      finish n a (State.goOn .hard { r with line := 12 } (if r.wasFull && r.wasRx == u.irqWasRx then u.raiseMailbox else u)) := by
  obtain ⟨op, line⟩ := r
  simp only at ho hl
  subst ho hl
  simp only [finish_goOn_hard, stepRun, stepCecIrqHard, Run.goto, State.goOn_irqWasRx, andThen_next]
  split_ifs <;> simp

/-- Step 12: the mailbox is filled. -/
theorem finish_hard_12 (hl : r.line = 12) :
    finish (n + 1) a (State.goOn .hard r u) =
      finish n a (State.goOn .hard { r with line := 13 } (u.setMailbox true)) := by
  obtain ⟨op, line⟩ := r
  simp only at ho hl
  subst ho hl
  simp [finish_goOn_hard, stepRun, stepCecIrqHard, Run.goto]

/-- Step 2 where the handler goes on. -/
theorem finish_hard_2 (hl : r.line = 2) (hc : takesEvent r u = true) :
    finish (n + 1) a (State.goOn .hard r u) =
      finish n a (State.goOn .hard { r with line := 3 } u) := by
  obtain ⟨op, line⟩ := r
  simp only at ho hl
  subst ho hl
  simp [finish_goOn_hard, stepRun, stepCecIrqHard, Run.goto, hc]

/-- Step 8: the branch on the kind of event. -/
theorem finish_hard_8 (hl : r.line = 8) :
    finish (n + 1) a (State.goOn .hard r u) =
      finish n a (State.goOn .hard { r with line := (if u.irqWasRx then 81 else 91) } u) := by
  obtain ⟨op, line⟩ := r
  simp only at ho hl
  subst ho hl
  simp [finish_goOn_hard, stepRun, stepCecIrqHard, Run.goto]

/-- Step 13: the handler returns. -/
theorem finish_hard_13 (hl : r.line = 13) (n : Nat) :
    finish (n + 1) .hard (State.goOn .hard r u) = .next (State.endWith .hard .irqWakeThread u) := by
  obtain ⟨op, line⟩ := r
  simp only at ho hl
  subst ho hl
  rw [finish_goOn_hard]
  simp only [stepRun, stepCecIrqHard, leaveHandler, andThen_next, endWith_goOn]
  exact finish_endWith_hard _ _ _

/-- Step 2 where the handler does not go on. -/
theorem finish_hard_2_none (hl : r.line = 2) (hc : takesEvent r u = false) (n : Nat) :
    finish (n + 1) .hard (State.goOn .hard r u) = .next (State.endWith .hard .irqNone u) := by
  obtain ⟨op, line⟩ := r
  simp only at ho hl
  subst ho hl
  rw [finish_goOn_hard]
  simp only [stepRun, stepCecIrqHard, takesEvent_goOn, hc, Bool.false_eq_true, if_false, leaveHandler,
    andThen_next, endWith_goOn]
  exact finish_endWith_hard _ _ _

end

/-- `CEC_IRQ_HARD` with the status bit read as 0, or with the line low where the instance follows R185. -/
theorem alone_cecIrqHard_notMine {s : State} (hp : s.plan = []) (h : s.hard.run = none)
    (hl : s.irqLine = true ∨ s.variant.allowSpurious = true)
    (hc : ((readCpuStatus (s.draw 2)).1.cec && (s.irqLine || s.variant.onLineLow == .goOn)) = false) :
    execCecIrqHard s = .next (State.endWith .hard .irqNone (readCpuStatus (s.draw 2)).2) := by
  unfold execCecIrqHard
  rw [runOp_alone hp (startOp_hard h hl)]
  refine Eq.trans (finish_hard_1 rfl rfl) ?_
  exact finish_hard_2_none rfl rfl ((takesEvent_readCpuStatus _ _).trans (by simpa [takesEvent] using hc)) _

/-- The steps 3 to 7 of the hard handler: the length cleared, the two registers read, the kind of event kept. -/
def hardLook (u : State) : State :=
  let v := (readCntrl5 (readCntrl1 (u.setRxLen 0)).2)
  v.2.setWasRx v.1.rxCecInt

/-- The steps 10 to 12 of the hard handler: the status bit cleared, the mailbox filled. -/
def hardFill (wasFull wasRx : Bool) (u : State) : State :=
  let v := mmioWrite (writeCpuClear (irqMask u.variant)) u
  (if wasFull && wasRx == v.irqWasRx then v.raiseMailbox else v).setMailbox true

/-- The hard handler from step 10 on. -/
theorem finish_hard_fill {r : Run} {u : State} (ho : r.op = .cecIrqHard) (hl : r.line = 10) (n : Nat) :
    finish (n + 4) .hard (State.goOn .hard r u) =
      .next (State.endWith .hard .irqWakeThread (hardFill r.wasFull r.wasRx u)) := by
  rw [finish_hard_10 (n := n + 3) ho hl]
  refine Eq.trans (finish_hard_11 (n := n + 2) ho rfl) ?_
  refine Eq.trans (finish_hard_12 (n := n + 1) ho rfl) ?_
  exact finish_hard_13 (by exact ho) (by rfl) n

/-- The RX path from step 8 on. -/
theorem finish_hard_rx {r : Run} {u : State} (ho : r.op = .cecIrqHard) (hl : r.line = 8)
    (hr : u.irqWasRx = true) (n : Nat) :
    finish (n + 16) .hard (State.goOn .hard r u) =
      .next (State.endWith .hard .irqWakeThread (hardFill r.wasFull r.wasRx
        (mmioWrite (writeCntrl1 { r.c1 with clearReceiveOff := false })
          (mmioWrite (writeCntrl1 { r.c1 with clearReceiveOff := true })
            ((copyWords (wordsFor (lengthOf r.c1.recLen)) 0 u).setRxLen (lengthOf r.c1.recLen)))))) := by
  obtain ⟨k, hk⟩ : ∃ k, wordsFor (lengthOf r.c1.recLen) = k + 1 := ⟨wordsFor (lengthOf r.c1.recLen) - 1, by
    unfold wordsFor lengthOf; omega⟩
  have hk4 : k < 4 := by
    have := r.c1.recLen.isLt
    unfold wordsFor lengthOf at hk
    omega
  rw [finish_hard_8 (n := n + 15) ho hl, hr, if_pos rfl]
  refine Eq.trans (finish_hard_81 (n := n + 14) ho rfl) ?_
  rw [show n + 14 = n + (6 - k) + 7 + (k + 1) by omega]
  refine Eq.trans (finish_copyWords .hard k (n + (6 - k) + 7) (i := 0) ho rfl rfl (by simp only; omega)) ?_
  generalize n + (6 - k) = m
  refine Eq.trans (finish_hard_83 (n := m + 6) ho rfl) ?_
  refine Eq.trans (finish_hard_84 (n := m + 5) ho rfl) ?_
  refine Eq.trans (finish_hard_85 (n := m + 4) ho rfl) ?_
  rw [hk]
  exact finish_hard_fill (by exact ho) (by rfl) m

/-- The TX path from step 8 on. -/
theorem finish_hard_tx {r : Run} {u : State} (ho : r.op = .cecIrqHard) (hl : r.line = 8)
    (hr : u.irqWasRx = false) (n : Nat) :
    finish (n + 16) .hard (State.goOn .hard r u) =
      .next (State.endWith .hard .irqWakeThread (hardFill r.wasFull r.wasRx
        (mmioWrite (writeCntrl1 { r.c1 with startXmitBegin := false }) (u.setTxOk r.c1.txStatusGood)))) := by
  rw [finish_hard_8 (n := n + 15) ho hl, hr, if_neg Bool.false_ne_true]
  refine Eq.trans (finish_hard_91 (n := n + 14) ho rfl) ?_
  refine Eq.trans (finish_hard_92 (n := n + 13) ho rfl) ?_
  exact finish_hard_fill (by exact ho) (by rfl) (n + 9)

/-- The steps 3 to 7 of the hard handler. -/
theorem finish_hard_look {a : Agent} {r : Run} {u : State} (ho : r.op = .cecIrqHard) (hl : r.line = 3) (n : Nat) :
    finish (n + 5) a (State.goOn .hard r u) =
      finish n a (State.goOn .hard
        { r with
          line := 8
          c1 := (readCntrl1 (u.setRxLen 0)).1
          c5 := (readCntrl5 (readCntrl1 (u.setRxLen 0)).2).1
          wasFull := u.mailboxFull
          wasRx := u.irqWasRx } (hardLook u)) := by
  have hm : (readCntrl5 (readCntrl1 (u.setRxLen 0)).2).2.mailboxFull = u.mailboxFull := by
    rw [readCntrl5_state, readCntrl1_state]
    rfl
  have hw : (readCntrl5 (readCntrl1 (u.setRxLen 0)).2).2.irqWasRx = u.irqWasRx := by
    rw [readCntrl5_state, readCntrl1_state]
    rfl
  rw [finish_hard_3 (n := n + 4) ho hl, ← hm, ← hw, hardLook]
  generalize u.setRxLen 0 = v
  refine Eq.trans (finish_hard_4 (n := n + 3) (by exact ho) (by rfl)) ?_
  generalize readCntrl1 v = w
  refine Eq.trans (finish_hard_5 (n := n + 2) (by exact ho) (by rfl)) ?_
  generalize readCntrl5 w.2 = x
  refine Eq.trans (finish_hard_6 (n := n + 1) (by exact ho) (by rfl)) ?_
  exact finish_hard_7 (by exact ho) (by rfl)

/-- The hard handler up to step 8, where it goes on at step 2. -/
theorem alone_cecIrqHard_look {s : State} (hp : s.plan = []) (h : s.hard.run = none)
    (hl : s.irqLine = true ∨ s.variant.allowSpurious = true)
    (hc : ((readCpuStatus (s.draw 2)).1.cec && (s.irqLine || s.variant.onLineLow == .goOn)) = true) :
    ∃ (n : Nat) (r : Run),
      execCecIrqHard s =
        finish (n + 16) .hard (State.goOn .hard r (hardLook (readCpuStatus (s.draw 2)).2)) ∧
      r.op = .cecIrqHard ∧ r.line = 8 ∧ r.c1 = (readCntrl1 ((readCpuStatus (s.draw 2)).2.setRxLen 0)).1 ∧
      r.wasFull = s.mailboxFull ∧ r.wasRx = s.irqWasRx := by
  have hm : (readCpuStatus (s.draw 2)).2.mailboxFull = s.mailboxFull := by
    rw [readCpuStatus_state]
    rfl
  have hw : (readCpuStatus (s.draw 2)).2.irqWasRx = s.irqWasRx := by
    rw [readCpuStatus_state]
    rfl
  have e : execCecIrqHard s = runOp .cecIrqHard s := rfl
  rw [e, runOp_alone hp (startOp_hard h hl), ← hm, ← hw]
  have hg : ((readCpuStatus (s.draw 2)).1.cec &&
      ((s.draw 2).irqLine || (s.draw 2).variant.onLineLow == .goOn)) = true := hc
  generalize pollBound s.variant s.draws + pollBound s.variant (s.draws + 1) = n
  generalize pollBound s.variant s.draws = p1
  generalize pollBound s.variant (s.draws + 1) = p2
  generalize s.draw 2 = u at *
  refine ⟨n + 105, ?r, ?h1, ?h2⟩
  case h1 =>
    rw [show n + 105 + 16 = n + 121 from rfl, show n + 128 = n + 127 + 1 from rfl]
    refine Eq.trans (finish_hard_1 (by rfl) (by rfl)) ?_
    rw [show n + 127 = n + 126 + 1 from rfl]
    refine Eq.trans (finish_hard_2 (by rfl) (by rfl)
      ((takesEvent_readCpuStatus _ _).trans (by simpa [takesEvent] using hg))) ?_
    rw [show n + 126 = n + 121 + 5 from rfl]
    refine finish_hard_look ?_ ?_ _ <;> rfl
  case h2 => exact ⟨rfl, rfl, rfl, rfl, rfl⟩

/-- `CEC_IRQ_HARD` where it goes on at step 2, after steps 3 to 7 left `hardLook`. -/
theorem alone_cecIrqHard {s u w : State} {c1 : Cntrl1} (hp : s.plan = []) (h : s.hard.run = none)
    (hl : s.irqLine = true ∨ s.variant.allowSpurious = true)
    (hc : ((readCpuStatus (s.draw 2)).1.cec && (s.irqLine || s.variant.onLineLow == .goOn)) = true) (hu : (readCpuStatus (s.draw 2)).2 = u)
    (hw : hardLook u = w) (h1 : (readCntrl1 (u.setRxLen 0)).1 = c1) :
    execCecIrqHard s = .next (State.endWith .hard .irqWakeThread
      (hardFill s.mailboxFull s.irqWasRx
        (if w.irqWasRx then
          mmioWrite (writeCntrl1 { c1 with clearReceiveOff := false })
            (mmioWrite (writeCntrl1 { c1 with clearReceiveOff := true })
              ((copyWords (wordsFor (lengthOf c1.recLen)) 0 w).setRxLen (lengthOf c1.recLen)))
        else
          mmioWrite (writeCntrl1 { c1 with startXmitBegin := false }) (w.setTxOk c1.txStatusGood)))) := by
  obtain ⟨n, r, he, ho, hl8, hc1, hf, hx⟩ := alone_cecIrqHard_look hp h hl hc
  rw [hu, h1] at hc1
  rw [he, hu, hw, ← hf, ← hx, ← hc1]
  split_ifs with hr
  · exact finish_hard_rx ho hl8 hr n
  · exact finish_hard_tx ho hl8 (by simpa using hr) n

/-! The parts of the hard handler while powered. -/

theorem hardLook_powered {u : State} (hp : u.powered = true) :
    hardLook u = { u with
      rxMsg := { u.rxMsg with len := 0 }
      irqWasRx := u.cntrl5.rxCecInt
      draws := u.draws + 2 } := by
  simp [hardLook, readCntrl1, readCntrl5, mmioRead, hp, State.setRxLen, State.setWasRx, State.draw,
    cntrl5Value]

theorem hardFill_powered {u : State} (hp : u.powered = true) (wasFull wasRx : Bool) :
    hardFill wasFull wasRx u = { u with
      cpuStatus := false
      fMailboxOverrun := u.fMailboxOverrun || (wasFull && wasRx == u.irqWasRx)
      mailboxFull := true } := by
  simp only [hardFill, mmioWrite_of_powered hp, writeCpuClear_irqMask]
  cases hx : wasFull && wasRx == u.irqWasRx <;> simp [State.raiseMailbox, State.setMailbox]

theorem copyWords_powered (count i : Nat) {u : State} (hp : u.powered = true) :
    copyWords count i u = { u with
      draws := u.draws + count
      rxMsg := { u.rxMsg with
        bytes := ((List.range' i count).foldl
          (fun b w => Bytes16.setLanes b w (Bytes16.lanes u.rxData w)) u.rxMsg.bytes) } } := by
  induction count generalizing i u with
  | zero => rfl
  | succ n ih =>
    have e : readRxData i u = (Bytes16.lanes u.rxData i, u.draw 1) := mmioRead_of_powered hp _ _
    simp only [copyWords, e]
    rw [ih _ (by exact hp)]
    simp [State.draw, State.setRxWord, List.range'_succ, Nat.add_assoc, Nat.add_comm 1 n]

theorem sendWords_powered (msg : List Byte) (count i : Nat) {u : State} (hp : u.powered = true) :
    sendWords msg count i u = { u with
      draws := u.draws + count
      fTxRegWhileBusy := u.fTxRegWhileBusy || (count != 0 && u.txState == .txBusy)
      txData := ((List.range count).foldl
        (fun b k => Bytes16.setLanes b (i + k) (messageLanes msg (i + k) (u.draws + k))) u.txData) } := by
  induction count generalizing i u with
  | zero => simp [sendWords]
  | succ n ih =>
    simp only [sendWords]
    rw [ih _ (by rw [mmioWrite_of_powered (by exact hp), writeTxData_eq]; exact hp),
      mmioWrite_of_powered (by exact hp), writeTxData_eq]
    simp only [State.draw, List.range_succ_eq_map, List.foldl_cons, List.foldl_map, Nat.add_zero]
    simp only [show ∀ k, i + 1 + k = i + (k + 1) by omega, Nat.succ_eq_add_one,
      show ∀ k, u.draws + 1 + k = u.draws + (k + 1) by omega, Nat.add_comm n 1]
    cases hb : u.txState == .txBusy <;> cases n <;> simp

/-- `CEC_IRQ_THREAD`. -/
theorem alone_cecIrqThread {s : State} (hp : s.plan = []) (h : s.thread.run = none)
    (hh : s.hard.run = none) (hm : s.mailboxFull = true) :
    execCecIrqThread s =
      .next (State.endWith .thread .irqHandled (State.setMailbox false
        (if s.irqWasRx then if 0 < s.rxMsg.len then State.emit (.rxDeliver s.message) (s.draw 2) else s.draw 2
         else if s.txOk then State.emit (.txDone .ok 0 0 0 0) (s.draw 2)
         else State.emit (.txDone .nack 0 2 0 0) (s.draw 2)))) := by
  unfold execCecIrqThread
  rw [runOp_alone hp (startOp_thread h hm)]
  generalize pollBound s.variant s.draws + pollBound s.variant (s.draws + 1) = n
  have hmsg (r : Run) (u : State) : (State.goOn .thread r u).message = u.message := rfl
  have hmsg2 : (s.draw 2).message = s.message := rfl
  cases hr : s.irqWasRx <;> cases ht : s.txOk <;> by_cases hl : 0 < s.rxMsg.len <;>
    simp [HostOp.agent, finish_goOn_thread, finish_endWith_thread, stepRun, stepCecIrqThread, Run.goto,
      hh, hr, ht, hl, hmsg, hmsg2]

end Sys2Proof.Machine
end

