-- ==== Sys2Proof/Laws/Beside.lean ====
section
/-! SUPPORT. The bytes beside a descriptor: what the readers of byte strings give back of what the encoder
writes, with whatever follows it. -/

namespace Sys2Proof

/-- As many bytes as are there are taken, and the rest is left. -/
theorem takeBytes_append (xs rest : List Byte) : takeBytes xs.length (xs ++ rest) = .ok (xs, rest) := by
  induction xs with
  | nil => rfl
  | cons x xs ih => simp [takeBytes, ih]

/-- A string of any length is read back. -/
theorem takeString_stringBytes (xs rest : List Byte) : takeString (stringBytes xs ++ rest) = .ok (xs, rest) := by
  induction xs with
  | nil => rfl
  | cons x xs ih =>
    show takeString (1#8 :: x :: (stringBytes xs ++ rest)) = _
    simp [takeString, ih]

/-- Every SPD record is read back. -/
theorem takeSpd_spdBytes (r : SpdRecord) (rest : List Byte) : takeSpd (spdBytes r ++ rest) = .ok (r, rest) := by
  simp [takeSpd, spdBytes, List.append_assoc, takeString_stringBytes]

end Sys2Proof
end

