-- ==== Sys2Proof/Laws/Invariant.lean ====
section
/-! SUPPORT. What every update of the machine keeps, every step keeps: the induction over the operations, their
steps and the schedules, made once. -/

namespace Sys2Proof.Machine

/-- A property that every update of the machine keeps, power changes to the values that `allow` admits among them. -/
structure Kept (allow : Bool → Prop) (P : State → Prop) : Prop where
  setAgent : ∀ a h s, P s → P (State.setAgent a h s)
  draw : ∀ n s, P s → P (State.draw n s)
  refuse : ∀ e s, P s → P (State.refuse e s)
  raiseUnpowered : ∀ s, P s → P (State.raiseUnpowered s)
  raiseMailbox : ∀ s, P s → P (State.raiseMailbox s)
  raisePktRamOff : ∀ s, P s → P (State.raisePktRamOff s)
  clearHostVars : ∀ s, P s → P (State.clearHostVars s)
  setRxLen : ∀ n s, n ≤ 16 → P s → P (State.setRxLen n s)
  setRxWord : ∀ w l s, P s → P (State.setRxWord w l s)
  setWasRx : ∀ b s, P s → P (State.setWasRx b s)
  setTxOk : ∀ b s, P s → P (State.setTxOk b s)
  setMailbox : ∀ b s, P s → P (State.setMailbox b s)
  emit : ∀ e s, P s → P (State.emit e s)
  readData : ∀ v s, P s → P { s with readData := v }
  packed : ∀ v s, P s → P { s with packed := v }
  plan : ∀ v s, P s → P { s with plan := v }
  cntrl1 : ∀ v s, P s → P (writeCntrl1 v s)
  cntrl2 : ∀ v s, P s → P (writeCntrl2 v s)
  cntrl3 : ∀ v s, P s → P (writeCntrl3 v s)
  cntrl4 : ∀ v s, P s → P (writeCntrl4 v s)
  cntrl5 : ∀ v s, P s → P (writeCntrl5 v s)
  txData : ∀ w l s, P s → P (writeTxData w l s)
  cpuStatus : ∀ b s, P s → P { s with cpuStatus := b }
  cpuMask : ∀ b s, P s → P { s with cpuMask := b }
  pktConfig : ∀ v s, P s → P (writePktConfig v s)
  packetRam : ∀ w v s, w < Config.packetRamWords → P s → P (storePacketRam w v s)
  txAttemptEnds : ∀ acked s, s.txState = .txBusy → P s → P (State.txAttemptEnds acked s)
  rxComplete : ∀ frame s, P s → P (State.rxComplete frame s)
  moveStatus : ∀ slot b s, P s → P (State.moveStatus slot b s)
  setPower : ∀ on s, allow on → P s → P (State.setPower on s)

/-- A field of four bits codes a length of at most 16. -/
theorem lengthOf_le (f : BitVec 4) : lengthOf f ≤ 16 := by
  have := f.isLt
  unfold lengthOf
  omega

namespace Kept

variable {allow : Bool → Prop} {P : State → Prop} (k : Kept allow P)

include k

theorem goOn (a : Agent) (r : Run) (s : State) (h : P s) : P (State.goOn a r s) := k.setAgent _ _ _ h

theorem endWith (a : Agent) (c : Code) (s : State) (h : P s) : P (State.endWith a c s) := k.setAgent _ _ _ h

theorem endRefused (a : Agent) (e : Reason) (s : State) (h : P s) : P (State.endRefused a e s) :=
  k.setAgent _ _ _ (k.refuse _ _ h)

theorem read {α : Type} (ofDraw : Word → α) (value : State → α) (s : State) (h : P s) :
    P (mmioRead ofDraw value s).2 := by
  unfold mmioRead
  split_ifs
  · exact k.draw _ _ h
  · exact k.raiseUnpowered _ (k.draw _ _ h)

theorem write (f : State → State) (hf : ∀ s, P s → P (f s)) (s : State) (h : P s) : P (mmioWrite f s) := by
  unfold mmioWrite
  split_ifs
  · exact hf s h
  · exact k.raiseUnpowered s h

theorem onCecBit (v : Word) (f : State → State) (hf : ∀ s, P s → P (f s)) (s : State) (h : P s) :
    P (onCecBit v f s) := by
  rcases onCecBit_cases v f s with e | e | e <;> rw [e]
  · exact k.refuse _ _ h
  · exact hf s h
  · exact h

theorem writePacketRam (w : Nat) (v : Word) (s : State) (h : P s) : P (writePacketRam w v s) := by
  unfold Machine.writePacketRam
  split_ifs with hw
  · exact k.write _ (fun s h => k.packetRam w v s hw h) s h
  · exact k.refuse _ _ h

theorem readRxData (w : Nat) (s : State) (h : P s) : P (readRxData w s).2 := k.read _ _ s h
theorem readCntrl1 (s : State) (h : P s) : P (readCntrl1 s).2 := k.read _ _ s h
theorem readCntrl5 (s : State) (h : P s) : P (readCntrl5 s).2 := k.read _ _ s h
theorem readCpuStatus (s : State) (h : P s) : P (readCpuStatus s).2 := k.read _ _ s h
theorem readPktConfig (s : State) (h : P s) : P (readPktConfig s).2 := k.read _ _ s h
theorem readPktStatus (s : State) (h : P s) : P (readPktStatus s).2 := k.read _ _ s h

theorem writeCntrl1 (v : Cntrl1) (s : State) (h : P s) : P (mmioWrite (writeCntrl1 v) s) :=
  k.write _ (k.cntrl1 v) s h
theorem writeCntrl2 (v : Cntrl2) (s : State) (h : P s) : P (mmioWrite (writeCntrl2 v) s) :=
  k.write _ (k.cntrl2 v) s h
theorem writeCntrl3 (v : Cntrl3) (s : State) (h : P s) : P (mmioWrite (writeCntrl3 v) s) :=
  k.write _ (k.cntrl3 v) s h
theorem writeCntrl4 (v : Cntrl4) (s : State) (h : P s) : P (mmioWrite (writeCntrl4 v) s) :=
  k.write _ (k.cntrl4 v) s h
theorem writeCntrl5 (v : Cntrl5) (s : State) (h : P s) : P (mmioWrite (writeCntrl5 v) s) :=
  k.write _ (k.cntrl5 v) s h
theorem writeTxData (w : Nat) (l : Lanes) (s : State) (h : P s) : P (mmioWrite (writeTxData w l) s) :=
  k.write _ (k.txData w l) s h
theorem writePktConfig (v : PktConfig) (s : State) (h : P s) : P (mmioWrite (writePktConfig v) s) :=
  k.write _ (k.pktConfig v) s h
theorem writeCpuSet (v : Word) (s : State) (h : P s) : P (mmioWrite (writeCpuSet v) s) :=
  k.write _ (k.onCecBit v _ (k.cpuStatus true)) s h
theorem writeCpuClear (v : Word) (s : State) (h : P s) : P (mmioWrite (writeCpuClear v) s) :=
  k.write _ (k.onCecBit v _ (k.cpuStatus false)) s h
theorem writeCpuMaskSet (v : Word) (s : State) (h : P s) : P (mmioWrite (writeCpuMaskSet v) s) :=
  k.write _ (k.onCecBit v _ (k.cpuMask true)) s h
theorem writeCpuMaskClear (v : Word) (s : State) (h : P s) : P (mmioWrite (writeCpuMaskClear v) s) :=
  k.write _ (k.onCecBit v _ (k.cpuMask false)) s h

/-- The numbered steps of `CEC_INIT`. -/
theorem stepCecInit {r : Run} {s t : State} (hs : P s) (h : stepCecInit r s = .next t) : P t := by
  unfold Machine.stepCecInit at h
  split at h <;> (try split_ifs at h) <;> cases h
  · exact k.endRefused _ _ _ hs
  · exact k.goOn _ _ _ (k.clearHostVars _ hs)
  · exact k.goOn _ _ _ (k.writeCpuMaskSet _ _ hs)
  · exact k.goOn _ _ _ (k.readCntrl1 _ hs)
  · exact k.goOn _ _ _ hs
  · exact k.goOn _ _ _ (k.writeCntrl1 _ _ hs)
  · exact k.endWith _ _ _ hs

/-- The numbered steps of `CEC_ENABLE`. -/
theorem stepCecEnable {r : Run} {s t : State} (hs : P s) (h : stepCecEnable r s = .next t) : P t := by
  unfold Machine.stepCecEnable at h
  split at h <;> cases h
  · exact k.goOn _ _ _ (k.writeCntrl2 _ _ hs)
  · exact k.goOn _ _ _ (k.writeCntrl3 _ _ hs)
  · exact k.goOn _ _ _ (k.writeCntrl4 _ _ hs)
  · exact k.goOn _ _ _ (k.readCntrl5 _ hs)
  · exact k.goOn _ _ _ hs
  · exact k.goOn _ _ _ (k.writeCntrl5 _ _ hs)
  · exact k.goOn _ _ _ (k.writeCntrl5 _ _ hs)
  · exact k.goOn _ _ _ (k.writeCpuMaskClear _ _ hs)
  · exact k.endWith _ _ _ hs

/-- The numbered steps of `CEC_DISABLE`. -/
theorem stepCecDisable {r : Run} {s t : State} (hs : P s) (h : stepCecDisable r s = .next t) : P t := by
  unfold Machine.stepCecDisable at h
  split at h <;> cases h
  · exact k.goOn _ _ _ (k.writeCpuMaskSet _ _ hs)
  · exact k.goOn _ _ _ (k.readCntrl5 _ hs)
  · exact k.goOn _ _ _ (k.writeCntrl5 _ _ hs)
  · exact k.endWith _ _ _ hs

/-- The numbered steps of `CEC_SET_LOG_ADDR`. -/
theorem stepCecSetLogAddr {la : BitVec 4} {r : Run} {s t : State} (hs : P s)
    (h : stepCecSetLogAddr la r s = .next t) : P t := by
  unfold Machine.stepCecSetLogAddr at h
  split at h <;> cases h
  · exact k.goOn _ _ _ (k.readCntrl1 _ hs)
  · exact k.goOn _ _ _ (k.writeCntrl1 _ _ hs)
  · exact k.endWith _ _ _ hs

/-- The numbered steps of `CEC_TRANSMIT`. -/
theorem stepCecTransmit {msg : List Byte} {r : Run} {s t : State} (hs : P s)
    (h : stepCecTransmit msg r s = .next t) : P t := by
  unfold Machine.stepCecTransmit at h
  split at h <;> (try split_ifs at h) <;> cases h
  · exact k.endWith _ _ _ hs
  · exact k.goOn _ _ _ hs
  · exact k.endRefused _ _ _ hs
  · exact k.goOn _ _ _ hs
  · exact k.goOn _ _ _ (k.writeTxData _ _ _ (k.draw _ _ hs))
  · exact k.goOn _ _ _ (k.writeTxData _ _ _ (k.draw _ _ hs))
  · exact k.goOn _ _ _ (k.readCntrl1 _ hs)
  · exact k.goOn _ _ _ hs
  · exact k.goOn _ _ _ (k.writeCntrl1 _ _ hs)
  · exact k.goOn _ _ _ hs
  · exact k.goOn _ _ _ (k.writeCntrl1 _ _ hs)
  · exact k.endWith _ _ _ hs

/-- The numbered steps of the hard handler. -/
theorem stepCecIrqHard {r : Run} {s t : State} (hs : P s) (h : stepCecIrqHard r s = .next t) : P t := by
  unfold Machine.stepCecIrqHard at h
  split at h
  · cases h
    exact k.goOn _ _ _ (k.readCpuStatus _ hs)
  · split_ifs at h <;> cases h
    · exact k.goOn _ _ _ hs
    · exact k.endWith _ _ _ hs
  · cases h
    exact k.goOn _ _ _ (k.setRxLen _ _ (by omega) hs)
  · cases h
    exact k.goOn _ _ _ (k.readCntrl1 _ hs)
  · cases h
    exact k.goOn _ _ _ (k.readCntrl5 _ hs)
  · cases h
    exact k.goOn _ _ _ hs
  · cases h
    exact k.goOn _ _ _ (k.setWasRx _ _ hs)
  · cases h
    exact k.goOn _ _ _ hs
  · cases h
    exact k.goOn _ _ _ hs
  · cases h
    exact k.goOn _ _ _ (k.setRxWord _ _ _ (k.readRxData _ _ hs))
  · cases h
    exact k.goOn _ _ _ (k.setRxLen _ _ (lengthOf_le _) hs)
  · cases h
    exact k.goOn _ _ _ (k.writeCntrl1 _ _ hs)
  · cases h
    exact k.goOn _ _ _ (k.writeCntrl1 _ _ hs)
  · cases h
    exact k.goOn _ _ _ (k.setTxOk _ _ hs)
  · cases h
    exact k.goOn _ _ _ (k.writeCntrl1 _ _ hs)
  · cases h
    exact k.goOn _ _ _ (k.writeCpuClear _ _ hs)
  · cases h
    refine k.goOn _ _ _ ?_
    split_ifs
    · exact k.raiseMailbox _ hs
    · exact hs
  · cases h
    exact k.goOn _ _ _ (k.setMailbox _ _ hs)
  · cases h
    exact k.endWith _ _ _ hs
  · cases h

/-- The numbered steps of the threaded handler. -/
theorem stepCecIrqThread {r : Run} {s t : State} (hs : P s) (h : stepCecIrqThread r s = .next t) : P t := by
  unfold Machine.stepCecIrqThread at h
  split at h <;> (try split_ifs at h) <;> cases h
  · exact k.goOn _ _ _ (k.emit _ _ hs)
  · exact k.goOn _ _ _ hs
  · exact k.goOn _ _ _ hs
  · exact k.goOn _ _ _ (k.emit _ _ hs)
  · exact k.goOn _ _ _ hs
  · exact k.goOn _ _ _ (k.emit _ _ hs)
  · exact k.goOn _ _ _ (k.setMailbox _ _ hs)
  · exact k.endWith _ _ _ hs

theorem readConfigStep {n : Nat} {r : Run} {s t : State} (hs : P s)
    (h : readConfigStep n r s = .next t) : P t := by
  cases h
  exact k.goOn _ _ _ (k.readPktConfig _ hs)

theorem writeConfigStep {n : Nat} {v : PktConfig} {r : Run} {s t : State} (hs : P s)
    (h : writeConfigStep n v r s = .next t) : P t := by
  cases h
  exact k.goOn _ _ _ (k.writePktConfig _ _ hs)

theorem pollStatus {slot n : Nat} {want : Bool} {r : Run} {s t : State} (hs : P s)
    (h : pollStatus slot want n r s = .next t) : P t := by
  cases h
  exact k.goOn _ _ _ (k.readPktStatus _ hs)

/-- The numbered steps of `PKT_RAM_ENABLE`. -/
theorem stepPktRamEnable {r : Run} {s t : State} (hs : P s) (h : stepPktRamEnable r s = .next t) : P t := by
  unfold Machine.stepPktRamEnable at h
  split at h
  · exact k.readConfigStep hs h
  · exact k.writeConfigStep hs h
  · cases h
    exact k.endWith _ _ _ hs
  · cases h

/-- The numbered steps of `PKT_RAM_DISABLE`. -/
theorem stepPktRamDisable {r : Run} {s t : State} (hs : P s) (h : stepPktRamDisable r s = .next t) : P t := by
  unfold Machine.stepPktRamDisable at h
  split at h
  · exact k.readConfigStep hs h
  · exact k.writeConfigStep hs h
  · cases h
    exact k.endWith _ _ _ hs
  · cases h

/-- The numbered steps of `PKT_STOP`. -/
theorem stepPktStop {ty : Byte} {r : Run} {s t : State} (hs : P s)
    (h : stepPktStop ty r s = .next t) : P t := by
  unfold Machine.stepPktStop at h
  split at h
  · split_ifs at h <;> cases h
    · exact k.goOn _ _ _ hs
    · exact k.endRefused _ _ _ hs
  · cases h
    exact k.goOn _ _ _ hs
  · exact k.readConfigStep hs h
  · exact k.writeConfigStep hs h
  · exact k.pollStatus hs h
  · cases h
    exact k.endWith _ _ _ hs
  · cases h

/-- The numbered steps of the audio startup check. -/
theorem stepAudioStartup {r : Run} {s t : State} (hs : P s) (h : stepAudioStartup r s = .next t) : P t := by
  unfold Machine.stepAudioStartup at h
  split at h
  · exact k.readConfigStep hs h
  · cases h
    split_ifs
    · exact k.setAgent _ _ _ hs
    · exact k.endWith _ _ _ hs
  · cases h

/-- The numbered steps of `PKT_WRITE`. -/
theorem stepPktWrite {ty : Byte} {rec : Record} {r : Run} {s t : State} (hs : P s)
    (h : stepPktWrite ty rec r s = .next t) : P t := by
  unfold Machine.stepPktWrite at h
  split at h
  · split_ifs at h <;> cases h
    · exact k.goOn _ _ _ hs
    · exact k.endRefused _ _ _ hs
  · cases h
    exact k.goOn _ _ _ hs
  · cases h
    exact k.goOn _ _ _ hs
  · exact k.readConfigStep hs h
  · cases h
    refine k.goOn _ _ _ ?_
    split_ifs
    · exact hs
    · exact k.raisePktRamOff _ hs
  · exact k.readConfigStep hs h
  · exact k.writeConfigStep hs h
  · exact k.pollStatus hs h
  · cases h
    exact k.goOn _ _ _ hs
  · split_ifs at h <;> cases h
    · exact k.endWith _ _ _ hs
    · exact k.goOn _ _ _ hs
  · cases h
    exact k.goOn _ _ _ (k.writePacketRam _ _ _ hs)
  · exact k.readConfigStep hs h
  · exact k.writeConfigStep hs h
  · exact k.pollStatus hs h
  · cases h
    exact k.endWith _ _ _ hs
  · cases h

/-- A numbered step of any operation. -/
theorem stepRun {r : Run} {s t : State} (hs : P s) (h : stepRun r s = .next t) : P t := by
  unfold Machine.stepRun at h
  split at h
  · exact k.stepCecInit hs h
  · exact k.stepCecEnable hs h
  · exact k.stepCecDisable hs h
  · exact k.stepCecSetLogAddr hs h
  · exact k.stepCecTransmit hs h
  · exact k.stepCecIrqHard hs h
  · exact k.stepCecIrqThread hs h
  · exact k.stepPktRamEnable hs h
  · exact k.stepPktRamDisable hs h
  · exact k.stepPktStop hs h
  · exact k.stepPktWrite hs h
  · exact k.stepAudioStartup hs h

theorem advance {a : Agent} {s t : State} (hs : P s) (h : advance a s = .next t) : P t := by
  unfold Machine.advance at h
  split_ifs at h
  split at h
  · cases h
  · exact k.stepRun hs h

theorem begin (op : HostOp) {s : State} (hs : P s) : P (s.begin op) := k.draw _ _ (k.goOn _ _ _ hs)

theorem startOp {op : HostOp} {s t : State} (hs : P s) (h : startOp op s = .next t) : P t := by
  unfold Machine.startOp enterHandler at h
  split at h <;> split_ifs at h <;> cases h <;> exact k.begin _ hs

theorem answerRead {α : Type} {toWord : α → Word} {r : α × State} {t : State} (hr : P r.2)
    (h : answerRead toWord r = .next t) : P t := by
  cases h
  exact k.readData _ _ hr

/-- An instruction that is an access, an event or a pure row runs whole; an operation starts. -/
theorem beginInstr {i : Instr} {s t : State} (hs : P s) (h : beginInstr i s = .next t) : P t := by
  cases i <;> simp only [Machine.beginInstr] at h
  case rdCecCntrl1 => exact k.answerRead (k.readCntrl1 _ hs) h
  case rdCecCntrl2 => exact k.answerRead (k.read _ _ _ hs) h
  case rdCecCntrl3 => exact k.answerRead (k.read _ _ _ hs) h
  case rdCecCntrl4 => exact k.answerRead (k.read _ _ _ hs) h
  case rdCecCntrl5 => exact k.answerRead (k.readCntrl5 _ hs) h
  case rdCecCpuStatus => exact k.answerRead (k.readCpuStatus _ hs) h
  case rdCecCpuMaskStatus => exact k.answerRead (k.read _ _ _ hs) h
  case rdRamPacketConfig => exact k.answerRead (k.readPktConfig _ hs) h
  case rdRamPacketStatus => exact k.answerRead (k.readPktStatus _ hs) h
  case rdCecTxData =>
    unfold execRdCecTxData at h
    split_ifs at h
    · exact k.answerRead (k.read _ _ _ hs) h
    · cases h
      exact k.refuse _ _ hs
  case rdCecRxData =>
    unfold execRdCecRxData at h
    split_ifs at h
    · exact k.answerRead (k.readRxData _ _ hs) h
    · cases h
      exact k.refuse _ _ hs
  case wrCecTxData =>
    unfold execWrCecTxData at h
    split_ifs at h <;> cases h
    · exact k.writeTxData _ _ _ hs
    · exact k.refuse _ _ hs
  case wrCecCntrl1 => cases h; exact k.writeCntrl1 _ _ hs
  case wrCecCntrl2 => cases h; exact k.writeCntrl2 _ _ hs
  case wrCecCntrl3 => cases h; exact k.writeCntrl3 _ _ hs
  case wrCecCntrl4 => cases h; exact k.writeCntrl4 _ _ hs
  case wrCecCntrl5 => cases h; exact k.writeCntrl5 _ _ hs
  case wrCecCpuSet => cases h; exact k.writeCpuSet _ _ hs
  case wrCecCpuClear => cases h; exact k.writeCpuClear _ _ hs
  case wrCecCpuMaskSet => cases h; exact k.writeCpuMaskSet _ _ hs
  case wrCecCpuMaskClear => cases h; exact k.writeCpuMaskClear _ _ hs
  case wrRamPacketConfig => cases h; exact k.writePktConfig _ _ hs
  case wrPacketRam => cases h; exact k.writePacketRam _ _ _ hs
  case ifPackAvi => cases h; exact k.packed _ _ hs
  case ifPackSpd => cases h; exact k.packed _ _ hs
  case ifPackAudio => cases h; exact k.packed _ _ hs
  case evTxAttempt =>
    unfold execEvTxAttempt at h
    split_ifs at h with h1 h2
    cases h
    exact k.txAttemptEnds _ _ h2 hs
  case evRxFrame =>
    unfold execEvRxFrame at h
    split_ifs at h
    cases h
    exact k.rxComplete _ _ hs
  case evCecSpurious =>
    unfold execEvCecSpurious at h
    split_ifs at h
    cases h
    exact k.cpuStatus _ _ hs
  case evPktStatus =>
    unfold execEvPktStatus at h
    split_ifs at h <;> cases h
    · exact k.refuse _ _ hs
    · exact k.moveStatus _ _ _ hs
  all_goals exact k.startOp hs h

theorem issueBetween {i : Instr} {s t : State} (hs : P s) (h : issueBetween i s = .next t) : P t := by
  unfold Machine.issueBetween at h
  split_ifs at h
  exact k.beginInstr hs h

/-- One move of the schedule. -/
theorem doMove {m : Move} {s t : State} (hm : ∀ on, m = .power on → allow on) (hs : P s)
    (h : doMove m s = .next t) : P t := by
  unfold Machine.doMove at h
  split at h
  · exact k.advance hs h
  · split at h
    · cases h
      exact k.refuse _ _ hs
    · exact k.issueBetween hs h
  · split at h
    · cases h
      exact k.refuse _ _ hs
    · exact k.issueBetween hs h
  · cases h
    exact k.setPower _ _ (hm _ rfl) hs

theorem finish {n : Nat} {a : Agent} {s t : State} (hs : P s) (h : finish n a s = .next t) : P t := by
  induction n generalizing s with
  | zero =>
    cases h
    exact hs
  | succ n ih =>
    simp only [Machine.finish] at h
    split_ifs at h
    · obtain ⟨u, hu, hn⟩ := andThen_eq_next.mp h
      exact ih (k.advance hs hu) hn
    · obtain ⟨u, hu, hn⟩ := andThen_eq_next.mp h
      exact ih (k.advance hs hu) hn
    · cases h
      exact hs

theorem drive {a : Agent} {ms : List Move} {s t : State} (hm : ∀ on, Move.power on ∈ ms → allow on) (hs : P s)
    (h : drive a ms s = .next t) : P t := by
  induction ms generalizing s with
  | nil => exact k.finish hs h
  | cons m ms ih =>
    obtain ⟨u, hu, hn⟩ := andThen_eq_next.mp h
    exact ih (fun on ho => hm on (.tail _ ho))
      (k.doMove (fun on ho => hm on (ho ▸ .head _)) hs hu) hn

theorem runOp {op : HostOp} {s t : State} (hm : ∀ on, Move.power on ∈ s.plan → allow on) (hs : P s)
    (h : runOp op s = .next t) : P t := by
  obtain ⟨u, hu, hn⟩ := andThen_eq_next.mp h
  exact k.drive hm (k.startOp (k.plan _ _ hs) hu) hn

/-- Every instruction. -/
theorem exec {i : Instr} {s t : State} (hm : ∀ on, Move.power on ∈ s.plan → allow on) (hs : P s)
    (h : exec i s = .next t) : P t := by
  have hb : Machine.beginInstr i s = .next t → P t := k.beginInstr hs
  cases i
  case cecInit => exact k.runOp hm hs h
  case cecEnable => exact k.runOp hm hs h
  case cecDisable => exact k.runOp hm hs h
  case cecSetLogAddr => exact k.runOp hm hs h
  case cecTransmit => exact k.runOp hm hs h
  case cecIrqHard => exact k.runOp hm hs h
  case cecIrqThread => exact k.runOp hm hs h
  case pktRamEnable => exact k.runOp hm hs h
  case pktRamDisable => exact k.runOp hm hs h
  case pktStop => exact k.runOp hm hs h
  case pktWrite => exact k.runOp hm hs h
  all_goals exact hb h

/-- Every caller, for a property that does not depend on what happens next. -/
theorem runCaller (hfeed : ∀ v s, P s → P { s with feed := v }) {c : Caller} {plans : List (List Move)}
    {s t : State} (hm : ∀ on, Safety.Brings on (.call c plans) → allow on) (hs : P s)
    (h : runCaller c plans s = .next t) : P t := by
  unfold Machine.runCaller at h
  split_ifs at h
  · refine k.runOp (s := { s with plan := plans.headD [] }) (fun on ho => hm on ?_) (k.plan _ _ hs) h
    cases plans with
    | nil => cases ho
    | cons p ps => exact ⟨p, .head _, ho⟩
  · cases h
    exact hfeed _ _ hs

/-- Every step, for a property that does not depend on what happens next. -/
theorem step (hfeed : ∀ v s, P s → P { s with feed := v }) {s t : State}
    (hm : ∀ item rest, s.feed = item :: rest → ∀ on, Safety.Brings on item → allow on) (hs : P s)
    (h : step s = .next t) : P t := by
  unfold Machine.step at h
  split at h
  case h_1 =>
    cases h
    exact hs
  case h_2 d beside plan rest hf =>
    have h1 : P { s with feed := rest } := hfeed rest s hs
    split at h
    · cases h
      exact k.refuse _ _ h1
    · exact k.exec (s := { s with feed := rest, plan := plan }) (fun on ho => hm _ _ hf on ho) (k.plan plan _ h1) h
  case h_3 b rest hf =>
    have h1 : P { s with feed := rest } := hfeed rest s hs
    split at h
    · cases h
      exact k.refuse _ _ h1
    · exact k.exec (s := { s with feed := rest, plan := [] }) (fun on ho => by cases ho) (k.plan [] _ h1) h
  case h_4 on rest hf =>
    cases h
    exact k.setPower _ _ (hm _ _ hf on rfl) (hfeed rest s hs)
  case h_5 c plans rest hf =>
    exact k.runCaller hfeed (fun on ho => hm _ _ hf on ho) (hfeed rest s hs) h
  case h_6 a rest hf => exact k.advance (hfeed rest s hs) h

end Kept

end Sys2Proof.Machine
end

