-- ==== Sys2Proof/Laws/Memory.lean ====
section
/-! SUPPORT. The packet RAM: a read after a write, and the canonical form that every write keeps. -/

namespace Sys2Proof.Machine
/-- A form canonical from an address on is canonical from any lower one. -/
theorem Memory.wfFrom_mono {lo lo' : Nat} (h : lo' ≤ lo) {m : Memory} (hm : Memory.wfFrom lo m = true) :
    Memory.wfFrom lo' m = true := by
  cases m with
  | nil => rfl
  | cons c m =>
    simp only [Memory.wfFrom, Bool.and_eq_true, decide_eq_true_eq] at hm ⊢
    exact ⟨⟨by omega, hm.1.2⟩, hm.2⟩

/-- An address below the first listed one is not listed. -/
theorem Memory.read_of_lt {lo a : Nat} (h : a < lo) {m : Memory} (hm : Memory.wfFrom lo m = true) :
    Memory.read m a = Memory.unlisted := by
  induction m generalizing lo with
  | nil => rfl
  | cons c m ih =>
    simp only [Memory.wfFrom, Bool.and_eq_true, decide_eq_true_eq] at hm
    rw [Memory.read, if_neg (by omega)]
    exact ih (lo := c.1 + 1) (by omega) hm.2

/-- A byte written reads back, and every other byte reads as before. -/
theorem Memory.read_write {lo : Nat} {m : Memory} (hm : Memory.wfFrom lo m = true) (a a' : Nat) (b : Byte) :
    Memory.read (Memory.write m a b) a' = if a' = a then b else Memory.read m a' := by
  induction m generalizing lo with
  | nil =>
    by_cases hb : b = Memory.unlisted <;> by_cases ha : a' = a
    · simp [Memory.write, Memory.read, hb]
    · simp [Memory.write, Memory.read, hb]
    · simp [Memory.write, Memory.read, hb, ha]
    · simp [Memory.write, Memory.read, hb, ha, Ne.symm ha]
  | cons c m ih =>
    obtain ⟨c, d⟩ := c
    simp only [Memory.wfFrom, Bool.and_eq_true, decide_eq_true_eq] at hm
    have hu : ∀ x < c + 1, Memory.read m x = Memory.unlisted := fun x hx => Memory.read_of_lt hx hm.2
    simp only [Memory.write]
    by_cases h1 : a < c
    · have hu2 := hu a (by omega)
      by_cases hb : b = Memory.unlisted <;> by_cases ha : a' = a
      · subst ha; simp [h1, hb, Memory.read, hu2, Nat.ne_of_gt h1]
      · simp [h1, hb, ha]
      · simp [h1, hb, Memory.read, ha]
      · simp [h1, hb, Memory.read, ha, Ne.symm ha]
    · by_cases h2 : c = a
      · subst h2
        have hu2 := hu c (by omega)
        by_cases hb : b = Memory.unlisted <;> by_cases ha : a' = c
        · subst ha; simp [hb, hu2]
        · simp [hb, ha, Memory.read, Ne.symm ha]
        · simp [hb, ha, Memory.read]
        · simp [hb, ha, Memory.read, Ne.symm ha]
      · simp only [h1, h2, if_false, Memory.read, ih hm.2]
        by_cases ha : a' = a
        · subst ha; simp [h2]
        · simp [ha]

/-- A write at or above the first address keeps the canonical form. -/
theorem Memory.wfFrom_write {lo : Nat} {m : Memory} (hm : Memory.wfFrom lo m = true) {a : Nat} (ha : lo ≤ a) (b : Byte) :
    Memory.wfFrom lo (Memory.write m a b) = true := by
  induction m generalizing lo with
  | nil => by_cases hb : b = Memory.unlisted <;> simp [Memory.write, Memory.wfFrom, hb, ha]
  | cons c m ih =>
    obtain ⟨c, d⟩ := c
    have hm' := hm
    simp only [Memory.wfFrom, Bool.and_eq_true, decide_eq_true_eq] at hm'
    simp only [Memory.write]
    by_cases h1 : a < c
    · by_cases hb : b = Memory.unlisted
      · simpa [h1, hb] using hm
      · simp only [h1, hb, if_true, if_false, Memory.wfFrom, Bool.and_eq_true, decide_eq_true_eq, bne_iff_ne]
        refine ⟨⟨ha, by simpa using hb⟩, ⟨by omega, by simpa using hm'.1.2⟩, hm'.2⟩
    · by_cases h2 : c = a
      · subst h2
        by_cases hb : b = Memory.unlisted
        · simpa [hb] using Memory.wfFrom_mono (by omega : lo ≤ c + 1) hm'.2
        · simp only [h1, hb, if_true, if_false, Memory.wfFrom, Bool.and_eq_true, decide_eq_true_eq]
          exact ⟨⟨ha, by simpa using hb⟩, hm'.2⟩
      · simp only [h1, h2, if_false, Memory.wfFrom, Bool.and_eq_true, decide_eq_true_eq]
        exact ⟨hm'.1, ih hm'.2 (by omega)⟩

/-- A write inside the packet RAM keeps every listed address inside it. -/
theorem Memory.inRange_write {m : Memory} (hm : Memory.inRange m = true) {a : Nat}
    (ha : a < 4 * Config.packetRamWords) (b : Byte) : Memory.inRange (Memory.write m a b) = true := by
  induction m with
  | nil => by_cases hb : b = Memory.unlisted <;> simp [Memory.write, Memory.inRange, hb, ha]
  | cons c m ih =>
    obtain ⟨c, d⟩ := c
    simp only [Memory.inRange, List.all_cons, Bool.and_eq_true, decide_eq_true_eq] at hm ih
    have hi := ih hm.2
    simp only [Memory.write]
    split_ifs <;>
      simp only [Memory.inRange, List.all_cons, Bool.and_eq_true, decide_eq_true_eq, hm, ha, hi, and_self]

/-- Two canonical memories that read the same everywhere are the same data. -/
theorem Memory.ext_of_read {lo : Nat} {m m' : Memory} (hm : Memory.wfFrom lo m = true) (hm' : Memory.wfFrom lo m' = true)
    (h : ∀ a, Memory.read m a = Memory.read m' a) : m = m' := by
  induction m generalizing lo m' with
  | nil =>
    cases m' with
    | nil => rfl
    | cons c m' =>
      simp only [Memory.wfFrom, Bool.and_eq_true, decide_eq_true_eq, bne_iff_ne] at hm'
      exact absurd (by simpa [Memory.read] using (h c.1).symm) hm'.1.2
  | cons c m ih =>
    obtain ⟨c, d⟩ := c
    cases m' with
    | nil =>
      simp only [Memory.wfFrom, Bool.and_eq_true, decide_eq_true_eq, bne_iff_ne] at hm
      exact absurd (by simpa [Memory.read] using (h c)) hm.1.2
    | cons c' m' =>
      obtain ⟨c', d'⟩ := c'
      simp only [Memory.wfFrom, Bool.and_eq_true, decide_eq_true_eq, bne_iff_ne] at hm hm'
      have e : c = c' := by
        by_contra hne
        have h1 := h c
        have h2 := h c'
        simp only [Memory.read, if_true] at h1 h2
        rw [if_neg (Ne.symm hne)] at h1
        rw [if_neg hne] at h2
        rcases Nat.lt_or_gt_of_ne hne with hl | hl
        · exact hm.1.2 (h1.trans (Memory.read_of_lt (by omega) hm'.2))
        · exact hm'.1.2 (h2.symm.trans (Memory.read_of_lt (by omega) hm.2))
      subst e
      have hd : d = d' := by simpa [Memory.read] using h c
      subst hd
      congr 1
      refine ih hm.2 hm'.2 fun a => ?_
      by_cases ha : a = c
      · subst ha; rw [Memory.read_of_lt (by omega) hm.2, Memory.read_of_lt (by omega) hm'.2]
      · simpa [Memory.read, Ne.symm ha] using h a

/-- Every write keeps the canonical form. -/
theorem Memory.wf_write {m : Memory} (hm : Memory.wf m = true) (a : Nat) (b : Byte) :
    Memory.wf (Memory.write m a b) = true := Memory.wfFrom_write hm (Nat.zero_le a) b

/-- A word write keeps the canonical form. -/
theorem Memory.wf_writeWord {m : Memory} (hm : Memory.wf m = true) (w : Nat) (v : Word) :
    Memory.wf (Memory.writeWord m w v) = true :=
  Memory.wf_write (Memory.wf_write (Memory.wf_write (Memory.wf_write hm _ _) _ _) _ _) _ _

/-- A write of a word of the packet RAM keeps every listed address inside it. -/
theorem Memory.inRange_writeWord {m : Memory} (hm : Memory.inRange m = true) {w : Nat}
    (hw : w < Config.packetRamWords) (v : Word) : Memory.inRange (Memory.writeWord m w v) = true := by
  unfold Config.packetRamWords at hw
  refine Memory.inRange_write (Memory.inRange_write (Memory.inRange_write (Memory.inRange_write hm
    ?_ _) ?_ _) ?_ _) ?_ _ <;> unfold Config.packetRamWords <;> omega

/-- A byte outside a written word reads as before. -/
theorem Memory.read_writeWord_other {m : Memory} (hm : Memory.wf m = true) {w a : Nat}
    (ha : a < 4 * w ∨ 4 * w + 4 ≤ a) (v : Word) :
    Memory.read (Memory.writeWord m w v) a = Memory.read m a := by
  have h0 := Memory.wf_write hm (4 * w) (v.extractLsb' 0 8)
  have h1 := Memory.wf_write h0 (4 * w + 1) (v.extractLsb' 8 8)
  have h2 := Memory.wf_write h1 (4 * w + 2) (v.extractLsb' 16 8)
  rw [Memory.writeWord, Memory.read_write h2, if_neg (by omega), Memory.read_write h1,
    if_neg (by omega), Memory.read_write h0, if_neg (by omega), Memory.read_write hm, if_neg (by omega)]

/-- Byte `k` of a written word is its lane `k`. -/
theorem Memory.read_writeWord_lane {m : Memory} (hm : Memory.wf m = true) (w : Nat) {k : Nat}
    (hk : k < 4) (v : Word) :
    Memory.read (Memory.writeWord m w v) (4 * w + k) = v.extractLsb' (8 * k) 8 := by
  have h0 := Memory.wf_write hm (4 * w) (v.extractLsb' 0 8)
  have h1 := Memory.wf_write h0 (4 * w + 1) (v.extractLsb' 8 8)
  have h2 := Memory.wf_write h1 (4 * w + 2) (v.extractLsb' 16 8)
  rw [Memory.writeWord, Memory.read_write h2, Memory.read_write h1, Memory.read_write h0,
    Memory.read_write hm]
  match k, hk with
  | 0, _ => simp
  | 1, _ => simp
  | 2, _ => simp
  | 3, _ => simp

/-- A word written reads back. -/
theorem Memory.readWord_writeWord_same {m : Memory} (hm : Memory.wf m = true) (w : Nat) (v : Word) :
    Memory.readWord (Memory.writeWord m w v) w = v := by
  have h (k : Nat) (hk : k < 4) := Memory.read_writeWord_lane hm w hk v
  have h0 := h 0 (by omega)
  rw [Nat.add_zero] at h0
  rw [Memory.readWord, h 3 (by omega), h 2 (by omega), h 1 (by omega), h0]
  apply BitVec.eq_of_getLsbD_eq
  intro i hi
  simp only [BitVec.getLsbD_append, BitVec.getLsbD_extractLsb']
  split_ifs with h1 h2 h3
  · simp [h1]
  · rw [show 8 * 1 + (i - 8) = i by omega]; simp [h2]
  · rw [show 8 * 2 + (i - 8 - 8) = i by omega]; simp [h3]
  · rw [show 8 * 3 + (i - 8 - 8 - 8) = i by omega]; simp; omega

/-- A word write leaves every other word. -/
theorem Memory.readWord_writeWord_other {m : Memory} (hm : Memory.wf m = true) {w w' : Nat}
    (h : w' ≠ w) (v : Word) :
    Memory.readWord (Memory.writeWord m w v) w' = Memory.readWord m w' := by
  have e (k : Nat) (hk : k < 4) : Memory.read (Memory.writeWord m w v) (4 * w' + k) =
      Memory.read m (4 * w' + k) := Memory.read_writeWord_other hm (by omega) v
  have e0 := e 0 (by omega)
  rw [Nat.add_zero] at e0
  rw [Memory.readWord, e 3 (by omega), e 2 (by omega), e 1 (by omega), e0]
  rfl

end Sys2Proof.Machine
end

