-- ==== Sys2Proof/Laws/Moments.lean ====
section
/-! SUPPORT. What the moments of a step hold: the state before it, the state after it, and the end of the operation
it runs. -/

namespace Sys2Proof.Machine

@[simp] theorem momentsAfter_next (s : State) (f : State → List State) : momentsAfter (.next s) f = f s := rfl

/-- A step's moments begin with the state before it. -/
theorem self_mem_moments (s : State) : s ∈ moments s := .head _

/-- The state after a step is one of its moments. -/
theorem next_mem_moments {s t : State} (h : step s = .next t) : t ∈ moments s := by
  simp [moments, h]

/-- Where `finish` ends is one of its moments. -/
theorem finish_mem_finishMoments {n : Nat} {a : Agent} {s t : State} (h : finish n a s = .next t) :
    t ∈ finishMoments n a s := by
  induction n generalizing s with
  | zero =>
    cases h
    exact .head _
  | succ n ih =>
    simp only [finish] at h
    unfold finishMoments
    split_ifs at h ⊢
    · obtain ⟨u, hu, hn⟩ := andThen_eq_next.mp h
      simp [hu, ih hn]
    · obtain ⟨u, hu, hn⟩ := andThen_eq_next.mp h
      simp [hu, ih hn]
    · cases h
      exact .head _

/-- Where `drive` ends is one of its moments. -/
theorem drive_mem_driveMoments {a : Agent} {ms : List Move} {s t : State} (h : drive a ms s = .next t) :
    t ∈ driveMoments a ms s := by
  induction ms generalizing s with
  | nil => exact finish_mem_finishMoments h
  | cons m ms ih =>
    obtain ⟨u, hu, hn⟩ := andThen_eq_next.mp h
    simp [driveMoments, hu, ih hn]

/-- Where an operation ends is one of its moments. -/
theorem runOp_mem_opMoments {op : HostOp} {s t : State} (h : runOp op s = .next t) : t ∈ opMoments op s := by
  obtain ⟨u, hu, hn⟩ := andThen_eq_next.mp h
  simp [opMoments, hu, drive_mem_driveMoments hn]

/-- An instruction that starts an operation runs that operation. -/
theorem exec_of_hostOpOf {i : Instr} {op : HostOp} (h : hostOpOf i = some op) : exec i = runOp op := by
  cases i <;> simp [hostOpOf] at h <;> subst h <;> rfl

end Sys2Proof.Machine
end

