-- ==== Sys2Proof/Laws/PerInstr.lean ====
section
/-! SUPPORT. The family `TableRow`: the descriptor of every well-formed instruction carries the fixed bits of its
row of spec/opcode_table.json. One lemma per constructor. -/

namespace Sys2Proof.Laws.TableRow

/-- The mask and the match of an instruction's row of spec/opcode_table.json, copied from the table. -/
def row : Instr → Word × Word
  | .rdCecCntrl1 => (0xFFFFFFFF, 0x01000000)
  | .wrCecCntrl1 _ => (0xFFFFFFFF, 0x41000000)
  | .rdCecCntrl2 => (0xFFFFFFFF, 0x02000000)
  | .wrCecCntrl2 _ => (0xFFFFFFFF, 0x42000000)
  | .rdCecCntrl3 => (0xFFFFFFFF, 0x03000000)
  | .wrCecCntrl3 _ => (0xFFFFFFFF, 0x43000000)
  | .rdCecCntrl4 => (0xFFFFFFFF, 0x04000000)
  | .wrCecCntrl4 _ => (0xFFFFFFFF, 0x44000000)
  | .rdCecCntrl5 => (0xFFFFFFFF, 0x05000000)
  | .wrCecCntrl5 _ => (0xFFFFFFFF, 0x45000000)
  | .rdCecTxData _ => (0xFFFFFC00, 0x06000000)
  | .wrCecTxData _ _ => (0xFFFFFC00, 0x46000000)
  | .rdCecRxData _ => (0xFFFFFC00, 0x07000000)
  | .rdCecCpuStatus => (0xFFFFFFFF, 0x08000000)
  | .wrCecCpuSet _ => (0xFFFFFFFF, 0x49000000)
  | .wrCecCpuClear _ => (0xFFFFFFFF, 0x4A000000)
  | .rdCecCpuMaskStatus => (0xFFFFFFFF, 0x0B000000)
  | .wrCecCpuMaskSet _ => (0xFFFFFFFF, 0x4C000000)
  | .wrCecCpuMaskClear _ => (0xFFFFFFFF, 0x4D000000)
  | .rdRamPacketConfig => (0xFFFFFFFF, 0x10000000)
  | .wrRamPacketConfig _ => (0xFFFFFFFF, 0x50000000)
  | .rdRamPacketStatus => (0xFFFFFFFF, 0x11000000)
  | .wrPacketRam _ _ => (0xFFFFFC00, 0x52000000)
  | .cecInit => (0xFFFFFFFF, 0x81000000)
  | .cecEnable => (0xFFFFFFFF, 0x82000000)
  | .cecDisable => (0xFFFFFFFF, 0x83000000)
  | .cecSetLogAddr _ => (0xFFFFFFF0, 0x84000000)
  | .cecTransmit _ => (0xFFFFFF00, 0x85000000)
  | .cecIrqHard => (0xFFFFFFFF, 0x86000000)
  | .cecIrqThread => (0xFFFFFFFF, 0x87000000)
  | .pktRamEnable => (0xFFFFFFFF, 0x90000000)
  | .pktRamDisable => (0xFFFFFFFF, 0x91000000)
  | .pktStop _ => (0xFFFFFF00, 0x92000000)
  | .pktWrite _ _ => (0xFFFFFF00, 0x93000000)
  | .ifPackAvi _ => (0xFFFFFFFF, 0x98000000)
  | .ifPackSpd _ => (0xFFFFFFFF, 0x99000000)
  | .ifPackAudio _ => (0xFFFFFFFF, 0x9A000000)
  | .evTxAttempt _ => (0xFFFFFFFE, 0xC1000000)
  | .evRxFrame _ => (0xFFFFFFF0, 0xC2000000)
  | .evCecSpurious => (0xFFFFFFFF, 0xC3000000)
  | .evPktStatus _ _ => (0xFFFFFEE0, 0xC4000000)

/-- The descriptor carries the fixed bits of the row. -/
def Statement (i : Instr) : Prop := i.wf = true → descriptor i &&& (row i).1 = (row i).2

/-- A descriptor with a word index keeps the fixed bits of its row, for every index. -/
theorem rd_tx_index : ∀ w : BitVec 10, mmioWord false .cecTxData w &&& 0xFFFFFC00 = 0x06000000 := by decide

theorem wr_tx_index : ∀ w : BitVec 10, mmioWord true .cecTxData w &&& 0xFFFFFC00 = 0x46000000 := by decide

theorem rd_rx_index : ∀ w : BitVec 10, mmioWord false .cecRxData w &&& 0xFFFFFC00 = 0x07000000 := by decide

theorem wr_ram_index : ∀ w : BitVec 10, mmioWord true .packetRam w &&& 0xFFFFFC00 = 0x52000000 := by decide

theorem log_addr_operand : ∀ la : BitVec 4,
    opWord 0x04 (la.setWidth 24) &&& 0xFFFFFFF0 = 0x84000000 := by decide

theorem length_byte : ∀ n : Byte, opWord 0x05 (n.setWidth 24) &&& 0xFFFFFF00 = 0x85000000 := by decide

theorem length_operand (n : Nat) (h : n < 256) :
    opWord 0x05 (BitVec.ofNat 24 n) &&& 0xFFFFFF00 = 0x85000000 := by
  have e : (BitVec.ofNat 8 n).setWidth 24 = BitVec.ofNat 24 n := by
    apply BitVec.eq_of_toNat_eq
    simp
    omega
  exact e ▸ length_byte (BitVec.ofNat 8 n)

theorem stop_operand : ∀ ty : Byte, opWord 0x12 (ty.setWidth 24) &&& 0xFFFFFF00 = 0x92000000 := by decide

theorem write_operand : ∀ ty : Byte, opWord 0x13 (ty.setWidth 24) &&& 0xFFFFFF00 = 0x93000000 := by decide

theorem attempt_operand : ∀ b : Bool,
    evWord 0x01 (0#23 ++ BitVec.ofBool b) &&& 0xFFFFFFFE = 0xC1000000 := by decide

theorem frame_operand : ∀ n < 16, evWord 0x02 (BitVec.ofNat 24 n) &&& 0xFFFFFFF0 = 0xC2000000 := by decide

theorem status_operand : ∀ (s : BitVec 5) (b : Bool),
    evWord 0x04 (0#15 ++ BitVec.ofBool b ++ 0#3 ++ s) &&& 0xFFFFFEE0 = 0xC4000000 := by decide

theorem rdCecCntrl1 : Statement .rdCecCntrl1 := fun _ => by decide

theorem wrCecCntrl1 (v : Word) : Statement (.wrCecCntrl1 v) := fun _ =>
  (by decide : mmioWord true .cecCntrl1 0 &&& 0xFFFFFFFF = 0x41000000)

theorem rdCecCntrl2 : Statement .rdCecCntrl2 := fun _ => by decide

theorem wrCecCntrl2 (v : Word) : Statement (.wrCecCntrl2 v) := fun _ =>
  (by decide : mmioWord true .cecCntrl2 0 &&& 0xFFFFFFFF = 0x42000000)

theorem rdCecCntrl3 : Statement .rdCecCntrl3 := fun _ => by decide

theorem wrCecCntrl3 (v : Word) : Statement (.wrCecCntrl3 v) := fun _ =>
  (by decide : mmioWord true .cecCntrl3 0 &&& 0xFFFFFFFF = 0x43000000)

theorem rdCecCntrl4 : Statement .rdCecCntrl4 := fun _ => by decide

theorem wrCecCntrl4 (v : Word) : Statement (.wrCecCntrl4 v) := fun _ =>
  (by decide : mmioWord true .cecCntrl4 0 &&& 0xFFFFFFFF = 0x44000000)

theorem rdCecCntrl5 : Statement .rdCecCntrl5 := fun _ => by decide

theorem wrCecCntrl5 (v : Word) : Statement (.wrCecCntrl5 v) := fun _ =>
  (by decide : mmioWord true .cecCntrl5 0 &&& 0xFFFFFFFF = 0x45000000)

theorem rdCecTxData (w : BitVec 10) : Statement (.rdCecTxData w) := fun _ => rd_tx_index w

theorem wrCecTxData (w : BitVec 10) (v : Word) : Statement (.wrCecTxData w v) :=
  fun _ => wr_tx_index w

theorem rdCecRxData (w : BitVec 10) : Statement (.rdCecRxData w) := fun _ => rd_rx_index w

theorem rdCecCpuStatus : Statement .rdCecCpuStatus := fun _ => by decide

theorem wrCecCpuSet (v : Word) : Statement (.wrCecCpuSet v) := fun _ =>
  (by decide : mmioWord true .cecCpuSet 0 &&& 0xFFFFFFFF = 0x49000000)

theorem wrCecCpuClear (v : Word) : Statement (.wrCecCpuClear v) := fun _ =>
  (by decide : mmioWord true .cecCpuClear 0 &&& 0xFFFFFFFF = 0x4A000000)

theorem rdCecCpuMaskStatus : Statement .rdCecCpuMaskStatus := fun _ => by decide

theorem wrCecCpuMaskSet (v : Word) : Statement (.wrCecCpuMaskSet v) := fun _ =>
  (by decide : mmioWord true .cecCpuMaskSet 0 &&& 0xFFFFFFFF = 0x4C000000)

theorem wrCecCpuMaskClear (v : Word) : Statement (.wrCecCpuMaskClear v) := fun _ =>
  (by decide : mmioWord true .cecCpuMaskClear 0 &&& 0xFFFFFFFF = 0x4D000000)

theorem rdRamPacketConfig : Statement .rdRamPacketConfig := fun _ => by decide

theorem wrRamPacketConfig (v : Word) : Statement (.wrRamPacketConfig v) := fun _ =>
  (by decide : mmioWord true .ramPacketConfig 0 &&& 0xFFFFFFFF = 0x50000000)

theorem rdRamPacketStatus : Statement .rdRamPacketStatus := fun _ => by decide

theorem wrPacketRam (w : BitVec 10) (v : Word) : Statement (.wrPacketRam w v) :=
  fun _ => wr_ram_index w

theorem cecInit : Statement .cecInit := fun _ => by decide

theorem cecEnable : Statement .cecEnable := fun _ => by decide

theorem cecDisable : Statement .cecDisable := fun _ => by decide

theorem cecSetLogAddr (la : BitVec 4) : Statement (.cecSetLogAddr la) := fun _ => log_addr_operand la

theorem cecTransmit (msg : List Byte) : Statement (.cecTransmit msg) := by
  intro h
  exact length_operand msg.length (by simp [Instr.wf] at h; omega)

theorem cecIrqHard : Statement .cecIrqHard := fun _ => by decide

theorem cecIrqThread : Statement .cecIrqThread := fun _ => by decide

theorem pktRamEnable : Statement .pktRamEnable := fun _ => by decide

theorem pktRamDisable : Statement .pktRamDisable := fun _ => by decide

theorem pktStop (ty : Byte) : Statement (.pktStop ty) := fun _ => stop_operand ty

theorem pktWrite (ty : Byte) (rec : Record) : Statement (.pktWrite ty rec) :=
  fun _ => write_operand ty

theorem ifPackAvi (r : AviRecord) : Statement (.ifPackAvi r) := fun _ =>
  (by decide : opWord 0x18 0 &&& 0xFFFFFFFF = 0x98000000)

theorem ifPackSpd (r : SpdRecord) : Statement (.ifPackSpd r) := fun _ =>
  (by decide : opWord 0x19 0 &&& 0xFFFFFFFF = 0x99000000)

theorem ifPackAudio (r : AudioRecord) : Statement (.ifPackAudio r) := fun _ =>
  (by decide : opWord 0x1A 0 &&& 0xFFFFFFFF = 0x9A000000)

theorem evTxAttempt (acked : Bool) : Statement (.evTxAttempt acked) := fun _ => attempt_operand acked

theorem evRxFrame (frame : List Byte) : Statement (.evRxFrame frame) := by
  intro h
  exact frame_operand (frame.length - 1) (by
    simp only [Instr.wf, Bool.and_eq_true, decide_eq_true_eq] at h
    have := h.2
    unfold Config.cecMaxLen at this
    omega)

theorem evCecSpurious : Statement .evCecSpurious := fun _ => by decide

theorem evPktStatus (s : BitVec 5) (b : Bool) : Statement (.evPktStatus s b) :=
  fun _ => status_operand s b

end Sys2Proof.Laws.TableRow
end

