-- ==== Sys2Proof/Tests/Slice0.lean ====
section
/-! SUPPORT. Tests of the model, each a named theorem: ill-formed terms refused, descriptors written out from the
encoding tables, the spec's own vectors (spec/95_test_vectors.md, cited by their ids), and for each statement with
hypotheses a state and operands that meet them. -/

namespace Sys2Proof.Tests

open Sys2Proof Sys2Proof.Machine Sys2Proof.Claims

/-- Whether a step answers a next state that has a property. -/
def answers (r : Result) (p : State → Bool) : Bool :=
  match r with
  | .next t => p t
  | .fault _ => false
  | .refused _ => false

/-- Whether the decoder refuses a descriptor with a given reason. -/
def rejects (d : Word) (beside : List Byte) (e : Reject) : Bool :=
  match decode d beside with
  | .ok _ => false
  | .error e' => e' == e

/-! Records and states the tests use. -/

/-- An AVI record of zeros. -/
def avi0 : AviRecord :=
  { y := 0, s := 0, c := 0, m := 0, r := 0, itc := 0, ec := 0, q := 0, sc := 0, vic := 0, yq := 0, cn := 0,
    pr := 0, top := 0, bottom := 0, left := 0, right := 0 }

/-- The SPD record of V43.6. -/
def spdBroadcom : SpdRecord :=
  { vendor := [0x42, 0x72, 0x6F, 0x61, 0x64, 0x63, 0x6F, 0x6D]
    product := [0x56, 0x69, 0x64, 0x65, 0x6F, 0x63, 0x6F, 0x72, 0x65]
    sdi := 9 }

/-- An Audio record of zeros but for the channel count. -/
def audioOf (ch : Nat) : AudioRecord :=
  { ch := ch, ct := 0, ss := 0, sf := 0, cxt := 0, ca := 0, lsv := 0, dmInh := 0, lfepbl := 0 }

/-- The state after Init and Enable and a logical address, by its registers (`S_ready` of P1). -/
def ready : State := { State.reset with
  cntrl1 := Cntrl1.ofWord 0x402A3000
  cntrl2 := Cntrl2.ofWord 0x3C690310
  cntrl3 := Cntrl3.ofWord 0x6E605244
  cntrl4 := Cntrl4.ofWord 0xAC9C908C
  cntrl5 := Cntrl5.ofWord 0x0000BCB4 }

/-- A transmit of two bytes in progress (after V42.5). -/
def busy : State := { ready with
  cntrl1 := Cntrl1.ofWord 0x402A3011
  txState := .txBusy
  txLen := 2 }

/-- A transmit completed, its interrupt pending (V42.11). -/
def completed : State := { ready with
  cntrl1 := Cntrl1.ofWord 0x402A3411
  txState := .txDone
  txAttempt := 1
  cpuStatus := true }

/-- A frame pending (after P2 line 1). -/
def pending : State := { ready with
  cntrl1 := Cntrl1.ofWord 0x412A3004
  cntrl5 := Cntrl5.ofWord 0x0080BCB4
  rxData := Bytes16.setLanes Bytes16.zero 0 (Lanes.ofWord 0x00003604)
  cpuStatus := true }

/-- The mailbox holding a received message (V42.17). -/
def delivered : State := { ready with
  rxMsg := { len := 2, bytes := Bytes16.setLanes Bytes16.zero 0 (Lanes.ofWord 0x00003604) }
  irqWasRx := true
  mailboxFull := true }

/-- Packet RAM on with nothing enabled (after V44.1). -/
def ramOn : State := { State.reset with
  pktConfig := PktConfig.ofWord 0x00010000
  slotTorn := 0 }

/-- Slots 2, 3 and 4 enabled and emitting (V44.3). -/
def emitting : State := { ramOn with
  pktConfig := PktConfig.ofWord 0x0001001C
  slotSt := 0x1C }

/-- The block without power. -/
def unpowered : State := { State.reset with powered := false }

/-- Another state of the instance's parameters: no spurious starts. -/
def noSpurious : State := { ready with variant := { Variant.legacy with allowSpurious := false } }

/-! ## Ill-formed terms -/

theorem test_ill_formed_tx_read_index :
    Instr.wf (.rdCecTxData 4) = false := by decide

theorem test_ill_formed_tx_write_index :
    Instr.wf (.wrCecTxData 4 0) = false := by decide

theorem test_ill_formed_rx_index :
    Instr.wf (.rdCecRxData 4) = false := by decide

theorem test_ill_formed_ram_index :
    Instr.wf (.wrPacketRam 144 0) = false := by decide

set_option maxRecDepth 10000 in
theorem test_ill_formed_long_message :
    Instr.wf (.cecTransmit (List.replicate 256 0)) = false := by decide

theorem test_ill_formed_audio_channels :
    Instr.wf (.ifPackAudio (audioOf 9)) = false := by decide

theorem test_ill_formed_written_record :
    Instr.wf (.pktWrite 0x84 (.audio (audioOf 9))) = false := by decide

theorem test_ill_formed_empty_frame :
    Instr.wf (.evRxFrame []) = false := by decide

theorem test_ill_formed_long_frame :
    Instr.wf (.evRxFrame (List.replicate 17 0)) = false := by decide

theorem test_ill_formed_slot :
    Instr.wf (.evPktStatus 16 true) = false := by decide

theorem test_well_formed_boundaries :
    ([.rdCecTxData 3, .rdCecRxData 3, .wrPacketRam 143 0, .cecTransmit (List.replicate 17 0), .ifPackAudio (audioOf 8),
      .evRxFrame (List.replicate 16 0), .evPktStatus 15 false] : List Instr).all Instr.wf = true := by decide

/-! ## Descriptors written out from R69 to R76 -/

theorem test_decode_rd_cntrl1 : decode 0x01000000 [] = .ok (.rdCecCntrl1) := by decide

theorem test_decode_wr_cntrl1 :
    decode 0x41000000 [0x11, 0x30, 0x2A, 0x40] =
      .ok (.wrCecCntrl1 0x402A3011) := by decide

theorem test_decode_rd_cntrl2 : decode 0x02000000 [] = .ok (.rdCecCntrl2) := by decide

theorem test_decode_wr_cntrl2 : decode 0x42000000 [1, 2, 3, 4] = .ok (.wrCecCntrl2 0x04030201) := by decide

theorem test_decode_rd_cntrl3 : decode 0x03000000 [] = .ok (.rdCecCntrl3) := by decide

theorem test_decode_wr_cntrl3 : decode 0x43000000 [1, 2, 3, 4] = .ok (.wrCecCntrl3 0x04030201) := by decide

theorem test_decode_rd_cntrl4 : decode 0x04000000 [] = .ok (.rdCecCntrl4) := by decide

theorem test_decode_wr_cntrl4 : decode 0x44000000 [1, 2, 3, 4] = .ok (.wrCecCntrl4 0x04030201) := by decide

theorem test_decode_rd_cntrl5 : decode 0x05000000 [] = .ok (.rdCecCntrl5) := by decide

theorem test_decode_wr_cntrl5 : decode 0x45000000 [1, 2, 3, 4] = .ok (.wrCecCntrl5 0x04030201) := by decide

theorem test_decode_rd_tx_data : decode 0x06000001 [] = .ok (.rdCecTxData 1) := by decide

theorem test_decode_wr_tx_data : decode 0x46000003 [1, 2, 3, 4] = .ok (.wrCecTxData 3 0x04030201) := by decide

theorem test_decode_rd_rx_data : decode 0x07000002 [] = .ok (.rdCecRxData 2) := by decide

theorem test_decode_rd_cpu_status : decode 0x08000000 [] = .ok (.rdCecCpuStatus) := by decide

theorem test_decode_wr_cpu_set : decode 0x49000000 [0x40, 0, 0, 0] = .ok (.wrCecCpuSet 0x40) := by decide

theorem test_decode_wr_cpu_clear : decode 0x4A000000 [0x40, 0, 0, 0] = .ok (.wrCecCpuClear 0x40) := by decide

theorem test_decode_rd_cpu_mask : decode 0x0B000000 [] = .ok (.rdCecCpuMaskStatus) := by decide

theorem test_decode_wr_cpu_mask_set : decode 0x4C000000 [0x40, 0, 0, 0] = .ok (.wrCecCpuMaskSet 0x40) := by decide

theorem test_decode_wr_cpu_mask_clear :
    decode 0x4D000000 [0x40, 0, 0, 0] =
      .ok (.wrCecCpuMaskClear 0x40) := by decide

theorem test_decode_rd_pkt_config : decode 0x10000000 [] = .ok (.rdRamPacketConfig) := by decide

theorem test_decode_wr_pkt_config : decode 0x50000000 [4, 0, 1, 0] = .ok (.wrRamPacketConfig 0x00010004) := by decide

theorem test_decode_rd_pkt_status : decode 0x11000000 [] = .ok (.rdRamPacketStatus) := by decide

theorem test_decode_wr_packet_ram : decode 0x5200008F [1, 2, 3, 4] = .ok (.wrPacketRam 143 0x04030201) := by decide

theorem test_decode_init : decode 0x81000000 [] = .ok (.cecInit) := by decide

theorem test_decode_enable : decode 0x82000000 [] = .ok (.cecEnable) := by decide

theorem test_decode_disable : decode 0x83000000 [] = .ok (.cecDisable) := by decide

theorem test_decode_set_log_addr : decode 0x84000004 [] = .ok (.cecSetLogAddr 4) := by decide

theorem test_decode_transmit : decode 0x85000002 [0x40, 4] = .ok (.cecTransmit [0x40, 4]) := by decide

theorem test_decode_irq_hard : decode 0x86000000 [] = .ok (.cecIrqHard) := by decide

theorem test_decode_irq_thread : decode 0x87000000 [] = .ok (.cecIrqThread) := by decide

theorem test_decode_ram_enable : decode 0x90000000 [] = .ok (.pktRamEnable) := by decide

theorem test_decode_ram_disable : decode 0x91000000 [] = .ok (.pktRamDisable) := by decide

theorem test_decode_stop : decode 0x92000085 [] = .ok (.pktStop 0x85) := by decide

theorem test_decode_pkt_write :
    decode 0x93000084 [2, 2, 0, 0, 0, 0, 0, 0, 0, 0] =
      .ok (.pktWrite 0x84 (.audio (audioOf 2))) := by decide

theorem test_decode_pack_avi :
    decode 0x98000000 [0, 0, 0, 2, 8, 0, 0, 0, 0, 16, 0, 0, 0, 0, 0, 0, 0, 0, 0, 0, 0] =
      .ok (.ifPackAvi { avi0 with vic := 16, m := 2, r := 8 }) := by decide

theorem test_decode_pack_spd :
    decode 0x99000000 [1, 0x61, 1, 0x62, 0, 1, 0x63, 0, 9] =
      .ok (.ifPackSpd { vendor := [0x61, 0x62], product := [0x63], sdi := 9 }) := by decide

theorem test_decode_pack_audio :
    decode 0x9A000000 [8, 0, 0, 0, 0, 0x13, 0, 0, 0] =
      .ok (.ifPackAudio { audioOf 8 with ca := 0x13 }) := by decide

theorem test_decode_tx_attempt : decode 0xC1000001 [] = .ok (.evTxAttempt true) := by decide

theorem test_decode_rx_frame : decode 0xC2000001 [4, 0x36] = .ok (.evRxFrame [4, 0x36]) := by decide

theorem test_decode_spurious : decode 0xC3000000 [] = .ok (.evCecSpurious) := by decide

theorem test_decode_pkt_status : decode 0xC4000104 [] = .ok (.evPktStatus 4 true) := by decide

/-- V30.3: the refused descriptors, case by case of R84. -/
theorem test_rejected_descriptors :
    rejects 0x0E000000 [] .reservedRegister &&
    rejects 0x01000400 [] .mustBeZero &&
    rejects 0x06000004 [] .indexRange &&
    rejects 0x52000090 [] .indexRange &&
    rejects 0x01000001 [] .indexRange &&
    rejects 0x47000000 [] .wrongDirection &&
    rejects 0x48000000 [] .wrongDirection &&
    rejects 0x09000000 [] .wrongDirection &&
    rejects 0x12000000 [] .wrongDirection &&
    rejects 0x88000000 [] .reservedOperation &&
    rejects 0x84000010 [] .operandBits &&
    rejects 0x85000100 [] .operandBits &&
    rejects 0xC5000000 [] .reservedEvent &&
    rejects 0xC1000002 [] .eventBits &&
    rejects 0xC4000010 [] .eventBits &&
    rejects 0xC4000204 [] .eventBits := by decide

/-- The bytes beside a descriptor are exactly its operands' (log 2). -/
theorem test_rejected_operand_bytes :
    rejects 0x41000000 [1, 2, 3] .shortOperand && rejects 0x01000000 [0] .trailingOperand &&
    rejects 0x93000084 [3] .badRecord && rejects 0x9A000000 [9, 0, 0, 0, 0, 0, 0, 0, 0] .badRecord := by decide

set_option maxRecDepth 10000 in
theorem test_table_words :
    decodeTableWord 32 0x52000001 = some (.wrPacketRam 1 0) ∧
    decodeTableWord 32 0x93000083 = some (.pktWrite 0x83 (.avi avi0)) ∧
    decodeTableWord 32 0xC200000F = some (.evRxFrame (List.replicate 16 0)) ∧ decodeTableWord 32 0x0E000000 = none :=
  ⟨rfl, rfl, rfl, rfl⟩

/-! ## Register layout and operand assembly (V30, V40) -/

/-- V40.1. -/
theorem test_cntrl1_word :
    Cntrl1.toWord { addr := 4, divClkCnt := 675, txStatusGood := true, messageLength := 1, startXmitBegin := true } =
      0x402A3411 := by decide

/-- V30.1. -/
theorem test_timing_counts :
    [4700, 4500, 1500, 1300, 800, 600, 400, 2750, 2400, 2050, 1700, 4300, 3900, 3600, 3500].map timingCount =
      [188, 180, 60, 52, 32, 24, 16, 110, 96, 82, 68, 172, 156, 144, 140] := by decide

/-- V30.2. -/
theorem test_dividers :
    [27000000, 54000000, 108000000, 40000, 39999, 163839999, 163840000].map
      (fun hz => dividerQuotient { Variant.legacy with inputClockHz := hz }) = [675, 1350, 2700, 1, 0, 4095, 4096] := by
  decide

/-- V30.5. -/
theorem test_byte_packing :
    (Lanes.toWord (Bytes16.lanes (Vector.ofFn fun i : Fin 16 => BitVec.ofNat 8 i.val) 3)) = 0x0F0E0D0C := by decide

/-! ## One step of each instruction, from the spec's vectors -/

/-- V40.1, the bits that are no draws. -/
theorem test_rd_cntrl1 :
    answers (exec (.rdCecCntrl1) ready)
      (fun t => t.draws == 1 && t.cntrl1 == ready.cntrl1 && !t.faulted) = true := by
  decide

/-- V40.2. -/
theorem test_wr_cntrl1_starts :
    answers (exec (.wrCecCntrl1 0x40FFB011) { ready with cntrl1 := Cntrl1.ofWord 0x40FFB010 })
      (fun t => t.txState == .txBusy && t.txLen == 2 && t.txAttempt == 0) = true := by
  decide

/-- V40.7. -/
theorem test_wr_cntrl1_clear_bit :
    answers (exec (.wrCecCntrl1 0x402A3008) pending)
      (fun t => !t.cntrl1.receiveOff && !t.cntrl5.rxCecInt && t.cntrl1.clearReceiveOff) = true := by
  decide

/-- V30.1. -/
theorem test_wr_cntrl2 :
    answers (exec (.wrCecCntrl2 0x3C690310) State.reset)
      (fun t => t.cntrl2 == ready.cntrl2 && t.cntrl1 == State.reset.cntrl1) = true := by
  decide

/-- V40.12. -/
theorem test_rd_cntrl3 :
    answers (exec (.rdCecCntrl3) ready) (fun t => t.readData == 0x6E605244) = true := by
  decide

/-- V30.1. -/
theorem test_wr_cntrl3 :
    answers (exec (.wrCecCntrl3 0x6E605244) State.reset)
      (fun t => t.cntrl3 == ready.cntrl3 && t.cntrl1 == State.reset.cntrl1) = true := by
  decide

/-- V40.12. -/
theorem test_rd_cntrl4 :
    answers (exec (.rdCecCntrl4) ready) (fun t => t.readData == 0xAC9C908C) = true := by
  decide

/-- V30.1. -/
theorem test_wr_cntrl4 :
    answers (exec (.wrCecCntrl4 0xAC9C908C) State.reset)
      (fun t => t.cntrl4 == ready.cntrl4 && t.cntrl1 == State.reset.cntrl1) = true := by
  decide

/-- V40.12, the bits that are no draws. -/
theorem test_rd_cntrl2 :
    answers (exec (.rdCecCntrl2) ready) (fun t => t.draws == 1 && t.cntrl2 == ready.cntrl2) = true := by
  decide

/-- V40.11, the bits that are no draws. -/
theorem test_rd_cntrl5 :
    answers (exec (.rdCecCntrl5) pending) (fun t => t.draws == 1 && t.cntrl5 == pending.cntrl5) = true := by
  decide

/-- V40.9. -/
theorem test_wr_cntrl5_resets :
    answers (exec (.wrCecCntrl5 0x0C00BCB4) { busy with cpuStatus := true })
      (fun t => t.txState == .txReset && t.txAttempt == 0 && !t.cntrl1.receiveOff && t.cpuStatus) = true := by
  decide

/-- V40.10. -/
theorem test_wr_cntrl5_releases :
    answers (exec (.wrCecCntrl5 0x0000BCB4) { busy with txState := .txReset })
      (fun t => t.txState == .txIdle && t.cntrl1.startXmitBegin) = true := by
  decide

/-- R101. -/
theorem test_rd_tx_data :
    answers (exec (.rdCecTxData 0) { ready with txData := pending.rxData })
      (fun t => t.readData == 0x00003604) = true := by
  decide

/-- V40.13. -/
theorem test_wr_tx_data_busy :
    answers (exec (.wrCecTxData 1 0x12345678) busy)
      (fun t => t.fTxRegWhileBusy && Lanes.toWord (Bytes16.lanes t.txData 1) == 0x12345678 &&
        t.txBytes == busy.txBytes) = true := by
  decide

/-- V40.14 with draws 0. -/
theorem test_rd_rx_data :
    answers (exec (.rdCecRxData 0) pending) (fun t => t.readData == 0x00003604) = true := by
  decide

/-- R104: nothing but a draw. -/
theorem test_rd_cpu_status :
    answers (exec (.rdCecCpuStatus) completed) (fun t => t.cpuStatus && t.draws == 1) = true := by
  decide

/-- V40.17. -/
theorem test_wr_cpu_set :
    answers (exec (.wrCecCpuSet 0x40) { ready with cpuMask := true })
      (fun t => t.cpuStatus && !t.irqLine) = true := by
  decide

/-- V40.15. -/
theorem test_wr_cpu_clear :
    answers (exec (.wrCecCpuClear 0x40) completed) (fun t => !t.cpuStatus && !t.irqLine) = true := by
  decide

/-- V40.16. -/
theorem test_wr_cpu_clear_other :
    answers (exec (.wrCecCpuClear 0x41) completed)
      (fun t => t.cpuStatus && t.refused == some .otherIrqSource) = true := by
  decide

/-- R107: nothing but a draw. -/
theorem test_rd_cpu_mask :
    answers (exec (.rdCecCpuMaskStatus) completed) (fun t => !t.cpuMask && t.draws == 1) = true := by
  decide

/-- R108. -/
theorem test_wr_cpu_mask_set :
    answers (exec (.wrCecCpuMaskSet 0x40) completed) (fun t => t.cpuMask && !t.irqLine) = true := by
  decide

/-- V40.18. -/
theorem test_wr_cpu_mask_clear :
    answers (exec (.wrCecCpuMaskClear 0x40) { completed with cpuMask := true }) (fun t => t.irqLine) = true := by
  decide

/-- V40.20. -/
theorem test_rd_pkt_config :
    answers (exec (.rdRamPacketConfig) { ramOn with pktConfig := PktConfig.ofWord 0x0001000C })
      (fun t => t.readData == 0x0001000C) = true := by
  decide

/-- V40.19. -/
theorem test_wr_pkt_config :
    answers (exec (.wrRamPacketConfig 0x00010004) State.reset)
      (fun t => t.pktConfig.ramPacketEnable && t.pktConfig.slotEn == 4 && t.slotSt == 0 && t.slotTorn == 4) = true := by
  decide

/-- R112: nothing but a draw. -/
theorem test_rd_pkt_status :
    answers (exec (.rdRamPacketStatus) emitting) (fun t => t.slotSt == 0x1C && t.draws == 1) = true := by
  decide

/-- V40.21. -/
theorem test_wr_packet_ram :
    answers (exec (.wrPacketRam 36 0x000A0184) ramOn)
      (fun t => Memory.readWord t.packetRam 36 == 0x000A0184 && t.slotTorn == 0) = true := by
  decide

/-- V40.22. -/
theorem test_wr_packet_ram_live :
    answers (exec (.wrPacketRam 36 0x000A0184) emitting)
      (fun t => Memory.readWord t.packetRam 36 == 0x000A0184 && t.slotTorn == 0x10) = true := by
  decide

/-- V40.24. -/
theorem test_rd_unpowered :
    answers (exec (.rdCecCntrl1) unpowered) (fun t => t.fUnpowered) = true := by
  decide

/-- V40.25. -/
theorem test_wr_unpowered :
    answers (exec (.wrCecCntrl5 0x0C00BCB4) unpowered)
      (fun t => t.fUnpowered && t.txState == .txIdle && !t.cntrl5.txSwReset) = true := by
  decide

/-- V60.1. -/
theorem test_refusal_before_fault :
    answers (exec (.wrCecTxData 4 0) unpowered)
      (fun t => t.refused == some .badDescriptor && !t.fUnpowered) = true := by
  decide

/-- V42.1. -/
theorem test_init :
    answers (exec (.cecInit) State.reset)
      (fun t => t.cpuMask && Cntrl1.toWord t.cntrl1 >>> 28 == 0xF && t.cntrl1.divClkCnt == 675 &&
        t.proc.ret == some (.code .ok)) = true := by
  decide

/-- V42.18. -/
theorem test_init_bad_config :
    answers (exec (.cecInit) { State.reset with variant := { Variant.legacy with inputClockHz := 163840000 } })
      (fun t => t.refused == some .badConfig && !t.cpuMask) = true := by
  decide

/-- V42.2. -/
theorem test_enable :
    answers (exec (.cecEnable) { State.reset with cpuMask := true, txState := .txReset })
      (fun t => t.cntrl2 == ready.cntrl2 && t.cntrl5.cnt4700 == 188 && t.txState == .txIdle && !t.cpuMask) = true := by
  decide

/-- V42.3. -/
theorem test_disable :
    answers (exec (.cecDisable) ready)
      (fun t => t.cpuMask && t.txState == .txReset && t.rxState == .rxReset && t.cntrl5.cnt4500 == 180) = true := by
  decide

/-- V42.4. -/
theorem test_set_log_addr :
    answers (exec (.cecSetLogAddr 4) { ready with cntrl1 := Cntrl1.ofWord 0xF02A3000 })
      (fun t => t.cntrl1.addr == 4 && t.cntrl1.divClkCnt == 0x2A3) = true := by
  decide

/-- V42.6. -/
theorem test_transmit :
    answers (exec (.cecTransmit [0, 1, 2, 3, 4, 5, 6, 7, 8, 9, 10, 11, 12, 13, 14, 15]) ready)
      (fun t => t.txState == .txBusy && t.txLen == 16 &&
        Lanes.toWord (Bytes16.lanes t.txBytes 3) == 0x0F0E0D0C) = true := by
  decide

/-- V42.7. -/
theorem test_transmit_too_large :
    answers (exec (.cecTransmit (List.replicate 17 0)) ready)
      (fun t => t.proc.ret == some (.code .eTooLarge) && !t.cntrl1.startXmitBegin && t.refused.isNone) = true := by
  decide

/-- V42.11. -/
theorem test_irq_hard_tx :
    answers (exec (.cecIrqHard) completed)
      (fun t => !t.irqWasRx && t.txOk && t.txState == .txIdle && t.mailboxFull && !t.cpuStatus &&
        t.hard.ret == some (.code .irqWakeThread)) = true := by
  decide

/-- V42.12. -/
theorem test_irq_hard_rx :
    answers (exec (.cecIrqHard) pending)
      (fun t => t.irqWasRx && t.message == [0x04, 0x36] && t.rxState == .rxListen && t.mailboxFull) = true := by
  decide

/-- V42.17. -/
theorem test_irq_thread_rx :
    answers (exec (.cecIrqThread) delivered)
      (fun t => t.emitted == [.rxDeliver [0x04, 0x36]] && !t.mailboxFull) = true := by
  decide

/-- V42.15. -/
theorem test_irq_thread_nack :
    answers (exec (.cecIrqThread) { ready with mailboxFull := true })
      (fun t => t.emitted == [.txDone .nack 0 2 0 0] && t.thread.ret == some (.code .irqHandled)) = true := by
  decide

/-- V44.1. -/
theorem test_ram_enable :
    answers (exec (.pktRamEnable) State.reset) (fun t => t.pktConfig.ramPacketEnable && t.slotTorn == 0) = true := by
  decide

/-- V44.2. -/
theorem test_ram_disable :
    answers (exec (.pktRamDisable) emitting)
      (fun t => !t.pktConfig.ramPacketEnable && t.pktConfig.slotEn == 0x1C && t.slotSt == 0x1C) = true := by
  decide

/-- V44.3: one failed poll, then the scheduler. -/
theorem test_stop :
    answers (exec (.pktStop 0x84)
      { emitting with plan := List.replicate 5 (.advance .proc) ++ [.issue 0xC4000004 []] })
      (fun t => t.pktConfig.slotEn == 0x0C && t.slotSt == 0x0C && t.proc.ret == some (.code .ok)) = true := by
  decide

/-- V44.5. -/
theorem test_stop_timeout :
    answers (exec (.pktStop 0x84) { emitting with variant := { Variant.legacy with waitBound := some 1 } })
      (fun t => t.pktConfig.slotEn == 0x0C && t.slotSt == 0x1C && t.proc.ret == some (.code .eStopTimeout)) = true := by
  decide

/-- V44.7: one failed poll, then the scheduler. -/
theorem test_pkt_write :
    answers (exec (.pktWrite 0x84 (.audio (audioOf 2)))
      { ramOn with plan := List.replicate 17 (.advance .proc) ++ [.issue 0xC4000104 []] })
      (fun t => t.slotContent 4 == [0x000A0184, 0x00000170, 0, 0, 0, 0, 0, 0, 0] && t.slotSt == 0x10 && t.slotTorn == 0 &&
        t.proc.ret == some (.code .ok)) = true := by
  decide

/-- V44.11. -/
theorem test_pkt_write_tears :
    answers (exec (.pktWrite 0x83 (.spd spdBroadcom))
      { ramOn with variant := { Variant.legacy with waitBound := some 1 }, pktConfig := PktConfig.ofWord 0x00010010, slotSt := 0x10 })
      (fun t => t.slotTorn == 0x10 && Memory.readWord t.packetRam 28 == 0x6F724293 &&
        t.pktConfig.slotEn == 0x18) = true := by
  decide

/-- V43.3. -/
theorem test_pack_avi :
    answers (exec (.ifPackAvi { avi0 with vic := 4, m := 2, r := 8, q := 2, top := 0x123, bottom := 0x456 })
      State.reset)
      (fun t => t.packed.map (fun p => (p.buf.take p.plen, ramWords p)) == some ([0x82, 0x02, 0x0D, 0xA5, 0x18, 0x28, 0x08, 0x04, 0x00, 0x23, 0x01, 0x56, 0x04, 0, 0, 0, 0], [0x000D0282, 0x082818A5, 0x00230004, 0x00045601, 0, 0])) = true := by
  decide

/-- V43.6. -/
theorem test_pack_spd :
    answers (exec (.ifPackSpd spdBroadcom) State.reset)
      (fun t => t.packed.map ramWords == some [0x00190183, 0x6F724293, 0x00636461, 0x69566D6F, 0x006F6564, 0x65726F63, 0, 0, 0x00000009, 0]) = true := by
  decide

/-- V43.12. -/
theorem test_pack_audio :
    answers (exec (.ifPackAudio { audioOf 2 with lsv := 5, dmInh := 1, ct := 1, sf := 3, ss := 1 }) State.reset)
      (fun t => t.packed.map ramWords == some [0x000A0184, 0x000D11AB, 0x0000A800, 0]) = true := by
  decide

/-- V41.1. -/
theorem test_tx_attempt_good :
    answers (exec (.evTxAttempt true) busy)
      (fun t => t.txAttempt == 1 && t.cntrl1.txStatusGood && t.txState == .txDone && t.cpuStatus) = true := by
  decide

/-- V41.2. -/
theorem test_tx_attempt_retry :
    answers (exec (.evTxAttempt false) busy)
      (fun t => t.txAttempt == 1 && t.txState == .txBusy && !t.cpuStatus) = true := by
  decide

/-- V41.6. -/
theorem test_rx_frame :
    answers (exec (.evRxFrame [0, 1, 2, 3, 4, 5, 6, 7, 8, 9, 10, 11, 12, 13, 14, 15]) ready)
      (fun t => Lanes.toWord (Bytes16.lanes t.rxData 2) == 0x0B0A0908 && t.cntrl1.recLen == 15 && t.cntrl1.receiveOff &&
        t.cntrl5.rxCecInt && t.cpuStatus) = true := by
  decide

/-- V41.10. -/
theorem test_spurious :
    answers (exec (.evCecSpurious) ready) (fun t => t.cpuStatus && t.txState == .txIdle) = true := by
  decide

/-- V44.14. -/
theorem test_pkt_status :
    answers (exec (.evPktStatus 2 true) State.reset) (fun t => t.slotSt == 4 && t.emittedSlots == []) = true := by
  decide

/-- V41.5, V41.8, V44.15: steps that do not exist. -/
theorem test_not_enabled :
    exec (.evTxAttempt false) ready = .fault .txNotBusy ∧ exec (.evRxFrame [0x0F]) pending = .fault .receiverNotListening ∧
    exec (.evPktStatus 2 true) ramOn = .fault .statusMayNotMove := ⟨rfl, rfl, rfl⟩

set_option maxRecDepth 10000 in
/-- The next item of the feed runs (R88), and an idle block stays as it is (R198). -/
theorem test_step :
    answers (step (State.reset.withFetchWord 32 0xC3000000)) (fun t => t.cpuStatus && t.feed.isEmpty) = true ∧
    step State.reset = .next State.reset := ⟨rfl, rfl⟩

set_option maxRecDepth 10000 in
/-- R150: a string of any length travels beside a descriptor. -/
theorem test_decode_long_spd :
    (encode (.ifPackSpd { vendor := List.replicate 300 7, product := [], sdi := 1 })).2.length = 603 ∧
    decode 0x99000000 (stringBytes (List.replicate 300 7) ++ [0, 1]) =
      .ok (.ifPackSpd { vendor := List.replicate 300 7, product := [], sdi := 1 }) := by decide

theorem test_bad_string :
    rejects 0x99000000 [2, 0, 0, 0] .badRecord = true ∧ rejects 0x99000000 [1] .shortOperand = true ∧
    rejects 0x99000000 [0, 0] .shortOperand = true := by decide

/-- R152: a caller's stream of more than 8 channels is refused, however many it has (log 24). -/
theorem test_stream_channels :
    ([9, 255, 256, 258].all fun ch =>
      rejects 0x93000084 (besideBytes (.pktWrite 0x84 (.audio (audioOf ch)))) .badRecord) = true := by decide

/-- R178. -/
theorem test_outcome_values :
    [Code.ok, .eTooLarge, .eStopTimeout, .eStartTimeout, .eNodev, .irqNone, .irqWakeThread, .irqHandled].map Code.value =
      [0, 1, 2, 3, 4, 0x10, 0x11, 0x12] := by decide

/-- V42.5, D24: the frame on the wire has no byte past its length. -/
theorem test_wire_frame :
    answers (exec (.cecTransmit [0x40, 0x04]) ready) (fun t => t.wireFrame == some [0x40, 0x04]) = true ∧
    ready.wireFrame = none := ⟨rfl, rfl⟩

/-- R174, R176 (b), R214. -/
theorem test_audio_startup :
    answers (step { State.reset with feed := [.call .audioStartup []] })
      (fun t => t.proc.ret == some (.code .eNodev) && t.proc.run.isNone && t.feed.isEmpty) = true ∧
    answers (step { ramOn with feed := [.call .audioStartup []] })
      (fun t => t.proc == {} && t.feed.isEmpty) = true ∧
    step { ramOn with feed := [.call .audioStartup []], proc := { run := some { op := .cecDisable } } } =
      .fault .agentBusy := ⟨rfl, rfl, rfl⟩

/-- R158 (b): the record of R150. -/
theorem test_device_spd :
    Variant.legacy.spd = spdBroadcom ∧
    callerInstrs Variant.legacy (.videoEnableHdmi avi0 none) =
      [.pktRamEnable, .pktWrite 0x82 (.avi avi0), .pktWrite 0x83 (.spd spdBroadcom)] := by decide

/-- R197: power restored clears the marks and keeps the host variables. -/
theorem test_power_restored :
    answers (step { delivered with
        feed := [.power true], powered := false, fUnpowered := true, refused := some .badType })
      (fun t => !t.faulted && t.refused.isNone && t.mailboxFull && t.rxMsg == delivered.rxMsg) = true := rfl

/-- R207: the first transmit result is reported, not the second. -/
theorem test_first_result_reported :
    answers (exec .cecIrqThread { completed with
        plan := [.advance .thread, .issue 0x86000000 []], mailboxFull := true, txOk := false })
      (fun t => t.emitted == [.txDone .nack 0 2 0 0] && t.txOk && t.fMailboxOverrun && !t.mailboxFull) = true := rfl

/-- A completion pending on a masked source, with either reading of R142 and R185 (log 23). -/
def masked (reading : OnLineLow) : State :=
  { completed with cpuMask := true, variant := { Variant.legacy with onLineLow := reading } }

/-- R142 step 2 tests the status bit alone; R185 says IRQ_NONE with the line low. -/
theorem test_irq_hard_masked :
    answers (exec .cecIrqHard (masked .goOn))
      (fun t => t.hard.ret == some (.code .irqWakeThread) && !t.cpuStatus) = true ∧
    answers (exec .cecIrqHard (masked .irqNone))
      (fun t => t.hard.ret == some (.code .irqNone) && t.cpuStatus && !t.mailboxFull) = true := ⟨rfl, rfl⟩

/-- R13: an operation that another one's plan left suspended goes on by itself, with no handler enabled. -/
theorem test_lone_step :
    answers (step { delivered with feed := [.issue 0x87000000 [] [.issue 0x83000000 [], .advance .proc]] })
      (fun t => (t.proc.run.map (·.line)) == some 2 && !t.mailboxFull &&
        answers (step { t with feed := [.advance .proc] }) fun u =>
          (u.proc.run.map (·.line)) == some 3 && u.hard == t.hard && u.thread == t.thread) = true := rfl

/-- R63: an illegal descriptor between the hard handler's steps is refused and the handler goes on (log 12). -/
theorem test_refused_inside_handler :
    answers (exec .cecIrqHard { completed with plan := [.advance .hard, .issue 0x86000001 []] })
      (fun t => t.hard.ret == some (.code .irqWakeThread) && t.refused == some .badDescriptor) = true := rfl

/-- R135 (d): the moments of a step show the threaded handler inside another agent's plan. -/
theorem test_moments :
    ((moments { delivered with feed := [.issue 0x84000004 [] [.issue 0x87000000 [], .advance .thread]] }).map
      fun t => (t.thread.run.isSome, t.emitted.length)).take 4 =
      [(false, 0), (false, 0), (true, 0), (true, 1)] := rfl

/-! ## States and operands that meet the hypotheses of the statements -/

/-- Meets the hypotheses of `Obligations.DecodeEncodeAgree`. -/
theorem witness_DecodeEncodeAgree :
    Instr.wf (.wrPacketRam 143 0) = true ∧ Instr.wf (.evRxFrame [0]) = true ∧ Instr.wf .cecInit = true := by decide

/-- Meets the hypotheses of `Obligations.DecodedInstructionIsTheOneEncoded`. -/
theorem witness_DecodedInstructionIsTheOneEncoded :
    decode 0x5200008F [0, 0, 0, 0] = .ok (.wrPacketRam 143 0) := by decide

/-- Meets the hypotheses of `Obligations.IllegalDescriptorsAreRefused`. -/
theorem witness_IllegalDescriptorsAreRefused :
    (∃ s : State, s.feed = .issue 0x0E000000 [] [] :: []) ∧
    IllegalDescriptor 0x0E000000 ∧ IllegalDescriptor 0x01000400 ∧ IllegalDescriptor 0x06000004 ∧
    IllegalDescriptor 0x52000090 ∧ IllegalDescriptor 0x01000001 ∧ IllegalDescriptor 0x09000000 ∧
    IllegalDescriptor 0x47000000 ∧ IllegalDescriptor 0x88000000 ∧ IllegalDescriptor 0x81000001 ∧
    IllegalDescriptor 0x84000010 ∧ IllegalDescriptor 0x85000100 ∧ IllegalDescriptor 0xC5000000 ∧
    IllegalDescriptor 0xC1000002 ∧ IllegalDescriptor 0xC2000010 ∧ IllegalDescriptor 0xC3000001 ∧
    IllegalDescriptor 0xC4000010 ∧ IllegalDescriptor 0xC4000020 ∧ IllegalDescriptor 0xC4000204 := by
  refine ⟨⟨{ State.reset with feed := [.issue 0x0E000000 [] []] }, rfl⟩, ?_⟩
  refine ⟨?_, ?_, ?_, ?_, ?_, ?_, ?_, ?_, ?_, ?_, ?_, ?_, ?_, ?_, ?_, ?_, ?_, ?_⟩ <;> simp [IllegalDescriptor]

/-- Meets the hypotheses of `Obligations.StepRunsTheDecodedInstruction`. -/
theorem witness_StepRunsTheDecodedInstruction :
    ({ ready with feed := [.issue 0x84000004 [] []] } : State).feed = .issue 0x84000004 [] [] :: [] ∧
    decode 0x84000004 [] = .ok (.cecSetLogAddr 4) ∧
    let r : Run := { op := .cecDisable }
    let s : State := { ready with feed := [.advance .proc], proc := { run := some r } }
    s.feed = .advance .proc :: [] ∧ s.hard.run = none ∧ (s.agent .proc).run = some r := by decide

/-- Meets the hypotheses of `Obligations.LegacyBusAddressNamesTheAccess`. -/
theorem witness_LegacyBusAddressNamesTheAccess :
    let b : BusAccess := { write := true, width := 32, addr := 0x400 + 4 * 143, value := 5 }
    let s : State := { State.reset with feed := [.bus b] }
    s.variant.gen = .legacy ∧ s.variant.combinedBase % 4 = 0 ∧ 143 ≤ LReg.packetRam.lastIndex ∧
      LReg.packetRam.write (BitVec.ofNat 10 143) 5 = some (.wrPacketRam 143 5) ∧
      LReg.cecRxData.read (BitVec.ofNat 10 0) = some (.rdCecRxData 0) ∧
      b.addr = s.variant.combinedBase + legacyOffset .packetRam + 4 * 143 := by decide

/-- Meets each clause of `Obligations.BadBusAccessIsRefused`: a 16-bit access, a misaligned address, and the byte address
0xAC, at which no listed word lies. -/
theorem witness_BadBusAccessIsRefused :
    (16 : Nat) ≠ 32 ∧ 0xE9 % 4 ≠ 0 ∧ ∀ (r : LReg) (a w : Nat), regAddress Variant.legacy r = some a →
      w ≤ r.lastIndex → 0xAC ≠ a + 4 * w := by
  refine ⟨by decide, by decide, ?_⟩
  intro r a w h hw
  cases r <;> simp [regAddress, Variant.legacy, legacyOffset, LReg.lastIndex, Config.packetRamWords] at h hw <;> omega

/-- Meets the hypotheses of `Obligations.ReadOfControl1`. -/
theorem witness_ReadOfControl1 :
    State.reset.powered = true := rfl

/-- Meets the hypotheses of `Obligations.ReadOfTimingRegisters`. -/
theorem witness_ReadOfTimingRegisters :
    State.reset.powered = true := rfl

/-- Meets the hypotheses of `Obligations.ReadOfInterruptWords`. -/
theorem witness_ReadOfInterruptWords :
    State.reset.powered = true := rfl

/-- Meets the hypotheses of `Obligations.ReadOfPacketRegisters`. -/
theorem witness_ReadOfPacketRegisters :
    State.reset.powered = true := rfl

/-- Meets the hypotheses of `Obligations.WriteOfControl1`. -/
theorem witness_WriteOfControl1 :
    State.reset.powered = true := rfl

/-- Meets the hypotheses of `Obligations.WriteOfTimingRegisters`. -/
theorem witness_WriteOfTimingRegisters :
    State.reset.powered = true := rfl

/-- Meets the hypotheses of `Obligations.WriteOfControl5`. -/
theorem witness_WriteOfControl5 :
    State.reset.powered = true := rfl

/-- Meets the hypotheses of `Obligations.WriteOfPacketConfig`. -/
theorem witness_WriteOfPacketConfig :
    State.reset.powered = true := rfl

/-- Meets the hypotheses of `Obligations.ReadOfDataWords`. -/
theorem witness_ReadOfDataWords :
    State.reset.powered = true ∧ (0#10).toNat < 4 ∧ (3#10).toNat < 4 := by decide

/-- Meets the hypotheses of `Obligations.ReadsHaveNoSideEffect`. -/
theorem witness_ReadsHaveNoSideEffect :
    IsRead .rdCecCntrl1 ∧ IsRead (.rdCecTxData 3) ∧ IsRead (.rdCecRxData 3) ∧ IsRead .rdRamPacketStatus :=
  ⟨trivial, by unfold IsRead; decide, by unfold IsRead; decide, trivial⟩

/-- Meets the hypotheses of `Obligations.UnpoweredAccessFaults`. -/
theorem witness_UnpoweredAccessFaults :
    unpowered.powered = false ∧ IsRead (.rdCecRxData 3) ∧ IsWrite (.wrCecTxData 3 0) ∧ IsWrite (.wrPacketRam 143 0) ∧
    IsWrite (.wrRamPacketConfig 0) :=
  ⟨rfl, by unfold IsRead; decide, by unfold IsWrite; decide, by unfold IsWrite; decide, trivial⟩

/-- Meets the hypotheses of `Obligations.WriteOfTransmitData`. -/
theorem witness_WriteOfTransmitData :
    busy.powered = true ∧ (0#10).toNat < 4 ∧ (3#10).toNat < 4 := by decide

/-- Meets the hypotheses of `Obligations.WriteOfInterruptWords`. -/
theorem witness_WriteOfInterruptWords :
    State.reset.powered = true ∧ OnlyBit State.reset.variant.irqBit 0x40 ∧
    OnlyBit State.reset.variant.irqBit 0 ∧ ¬OnlyBit State.reset.variant.irqBit 0x41 := by
  unfold OnlyBit
  decide

/-- Meets the hypotheses of `Obligations.WriteOfPacketRam`. -/
theorem witness_WriteOfPacketRam :
    ramOn.powered = true ∧ (0#10).toNat < 144 ∧ (143#10).toNat < 144 ∧ Memory.wf ramOn.packetRam = true := by decide

/-- Meets the hypotheses of `Obligations.TransmitAttemptEnds`. -/
theorem witness_TransmitAttemptEnds :
    busy.powered = true ∧ busy.txState = .txBusy := by decide

/-- Meets the hypotheses of `Obligations.ReceivedFrameCompletes`. -/
theorem witness_ReceivedFrameCompletes :
    ready.powered = true ∧ 1 ≤ [(0x0F : Byte)].length ∧ (List.replicate 16 (0 : Byte)).length ≤ 16 ∧
    ready.cntrl5.rxSwReset = false ∧ ready.cntrl1.receiveOff = false ∧ ready.cntrl1.clearReceiveOff = false := by decide

/-- Meets the hypotheses of `Obligations.SpuriousEventSetsStatus`. -/
theorem witness_SpuriousEventSetsStatus :
    ready.powered = true ∧ ready.variant.allowSpurious = true := by decide

/-- Meets the hypotheses of `Obligations.SlotStatusMoves`. -/
theorem witness_SlotStatusMoves :
    (ramOn.powered = true ∧ (15#5).toNat < 16 ∧ State.reset.slotSt.getLsbD 15 = !true ∧
      (State.reset.pktConfig.ramPacketEnable = true → State.reset.pktConfig.slotEn.getLsbD 15 = true)) ∧
    (emitting.powered = true ∧ (2#5).toNat < 16 ∧ emitting.slotSt.getLsbD 2 = !false ∧
      ({ emitting with pktConfig := PktConfig.ofWord 0x00010018 } : State).pktConfig.slotEn.getLsbD 2 = false) := by decide

/-- Meets the hypotheses of `Obligations.StepsNotEnabledStop`. -/
theorem witness_StepsNotEnabledStop :
    (ready.powered = true ∧ ready.txState ≠ .txBusy) ∧
    (pending.powered = true ∧ pending.cntrl1.receiveOff = true) ∧
    (([] : List Byte).length = 0 ∧ 16 < (List.replicate 17 (0 : Byte)).length) ∧
    (noSpurious.powered = true ∧ noSpurious.variant.allowSpurious = false) ∧
    (ramOn.powered = true ∧ (15#5).toNat < 16 ∧ ramOn.slotSt.getLsbD 15 = false ∧
      ramOn.pktConfig.ramPacketEnable = true ∧ ramOn.pktConfig.slotEn.getLsbD 15 ≠ true) ∧
    (unpowered.powered = false ∧ (List.replicate 16 (0 : Byte)).length ≤ 16 ∧ (15#5).toNat < 16) ∧
    (noSpurious.hard.run = none ∧ noSpurious.cpuStatus = false) ∧
    (ready.thread.run = none ∧ ready.mailboxFull = false) ∧
    (StartsOn .proc (.pktStop 0x84) ∧ StartsOn .hard .cecIrqHard ∧ StartsOn .thread .cecIrqThread ∧
      (({ ready with hard := { run := some { op := .cecIrqHard } } } : State).agent .hard).run ≠ none) := by
  refine ⟨by decide, by decide, by decide, by decide, by decide, by decide, by decide, by decide, ?_⟩
  exact ⟨trivial, trivial, trivial, by decide⟩

/-- Meets the hypotheses of `Obligations.InitSetsUpTheInstance`. -/
theorem witness_InitSetsUpTheInstance :
    ProcReady State.reset ∧ State.reset.powered = true ∧ State.reset.variant.inputClockHz / 40000 < 4096 ∧
    4096 ≤ ({ Variant.legacy with inputClockHz := 163840000 } : Variant).inputClockHz / 40000 :=
  ⟨⟨rfl, rfl, rfl⟩, rfl, by decide, by decide⟩

/-- Meets the hypotheses of `Obligations.EnableProgramsAndReleases`. -/
theorem witness_EnableProgramsAndReleases :
    ProcReady ready ∧ ready.powered = true :=
  ⟨⟨rfl, rfl, rfl⟩, rfl⟩

/-- Meets the hypotheses of `Obligations.DisableHoldsBothEngines`. -/
theorem witness_DisableHoldsBothEngines :
    ProcReady ready ∧ ready.powered = true :=
  ⟨⟨rfl, rfl, rfl⟩, rfl⟩

/-- Meets the hypotheses of `Obligations.SetLogAddrPreservesTheRest`. -/
theorem witness_SetLogAddrPreservesTheRest :
    ProcReady ready ∧ ready.powered = true :=
  ⟨⟨rfl, rfl, rfl⟩, rfl⟩

/-- Meets the hypotheses of `Obligations.PacketRamOnAndOff`. -/
theorem witness_PacketRamOnAndOff :
    ProcReady ready ∧ ready.powered = true :=
  ⟨⟨rfl, rfl, rfl⟩, rfl⟩

/-- Meets the hypotheses of `Obligations.TransmitStartsTheFrame`. -/
theorem witness_TransmitStartsTheFrame :
    ProcReady ready ∧ ready.powered = true ∧ 1 ≤ [(0x40 : Byte)].length ∧
    (List.replicate 16 (0x40 : Byte)).length ≤ 16 :=
  ⟨⟨rfl, rfl, rfl⟩, rfl, by decide, by decide⟩

/-- Meets the hypotheses of `Obligations.TransmitOfBadLengthTouchesNothing`. -/
theorem witness_TransmitOfBadLengthTouchesNothing :
    ProcReady ready ∧ 16 < (List.replicate 17 (0 : Byte)).length ∧ ([] : List Byte).length = 0 :=
  ⟨⟨rfl, rfl, rfl⟩, by decide, rfl⟩

/-- Meets the hypotheses of `Obligations.HardHandlerTakesTheFrame`. -/
theorem witness_HardHandlerTakesTheFrame :
    HardReady pending ∧ pending.powered = true ∧ HardGoesOn pending ∧ pending.cntrl5.rxCecInt = true ∧
    let masked : State := { pending with cpuMask := true }
    HardReady masked ∧ HardGoesOn masked ∧ masked.variant.onLineLow = .goOn :=
  ⟨⟨rfl, rfl, .inl ⟨rfl, rfl⟩⟩, rfl, ⟨rfl, .inl rfl⟩, rfl, ⟨rfl, rfl, .inr rfl⟩, ⟨rfl, .inr rfl⟩, rfl⟩

/-- Meets the hypotheses of `Obligations.HardHandlerTransmitPath`. -/
theorem witness_HardHandlerTransmitPath :
    (HardReady completed ∧ completed.powered = true ∧ HardGoesOn completed ∧ completed.cntrl5.rxCecInt = false) ∧
    (HardReady ready ∧ ready.powered = true ∧ ready.cpuStatus = false) ∧
    HardReady (masked .irqNone) ∧ (masked .irqNone).powered = true ∧ (masked .irqNone).cpuMask = true ∧
      (masked .irqNone).variant.onLineLow = .irqNone :=
  ⟨⟨⟨rfl, rfl, .inl ⟨rfl, rfl⟩⟩, rfl, ⟨rfl, .inl rfl⟩, rfl⟩, ⟨⟨rfl, rfl, .inr rfl⟩, by decide⟩, ⟨rfl, rfl, .inr rfl⟩, by decide⟩

/-- Meets the hypotheses of `Obligations.ThreadReportsAndDrains`. -/
theorem witness_ThreadReportsAndDrains :
    ThreadReady delivered :=
  ⟨rfl, rfl, rfl, rfl⟩

/-- Meets the hypotheses of `Obligations.StopPollsTheStatusBit`. -/
theorem witness_StopPollsTheStatusBit :
    TypeSlot 0x82 2 ∧ TypeSlot 0x83 3 ∧ TypeSlot 0x84 4 ∧ ProcReady emitting ∧ emitting.powered = true :=
  ⟨.inl ⟨rfl, rfl⟩, .inr (.inl ⟨rfl, rfl⟩), .inr (.inr ⟨rfl, rfl⟩), ⟨rfl, rfl, rfl⟩, rfl⟩

/-- Meets the hypotheses of `Obligations.StopWaitsForTheScheduler`. -/
theorem witness_StopWaitsForTheScheduler :
    let s : State := { emitting with
      plan := List.replicate 4 (.advance .proc) ++ [.issue (0xC4000000 ||| BitVec.ofNat 32 4) []] }
    TypeSlot 0x84 4 ∧ s.plan = List.replicate 4 (.advance .proc) ++ [.issue (0xC4000000 ||| BitVec.ofNat 32 4) []] ∧
      s.proc.run = none ∧ s.hard.run = none ∧ s.powered = true ∧ s.slotSt.getLsbD 4 = true :=
  ⟨.inr (.inr ⟨rfl, rfl⟩), rfl, rfl, rfl, rfl, by decide⟩

/-- A stopped and a live slot that meet the hypotheses of `Obligations.WriteEnablesTheNewContent`. -/
theorem witness_WriteEnablesTheNewContent :
    let r : Record := .audio (audioOf 2)
    let tail : List Move := List.replicate (5 + (ramWords (packRecord r)).length) (.advance .proc) ++
      [.issue (0xC4000100 ||| BitVec.ofNat 32 4) []]
    let stopped : State := { ramOn with plan := List.replicate 7 (.advance .proc) ++ [] ++ tail }
    let live : State := { emitting with
      plan := List.replicate 7 (.advance .proc) ++ [.issue (0xC4000000 ||| BitVec.ofNat 32 4) []] ++ tail }
    TypeSlot 0x84 4 ∧ KindMatches 0x84 r ∧ stopped.slotSt.getLsbD 4 = false ∧ live.slotSt.getLsbD 4 = true ∧
      stopped.proc.run = none ∧ live.proc.run = none ∧ stopped.hard.run = none ∧ live.hard.run = none ∧
      stopped.powered = true ∧ live.powered = true ∧ Memory.wf stopped.packetRam = true ∧
      Memory.wf live.packetRam = true ∧ stopped.pktConfig.ramPacketEnable = true ∧
      live.pktConfig.ramPacketEnable = true ∧
      (∀ s ∈ [stopped, live], s.plan = List.replicate 7 (.advance .proc) ++
        (if s.slotSt.getLsbD 4 then [.issue (0xC4000000 ||| BitVec.ofNat 32 4) []] else []) ++
        List.replicate (5 + (ramWords (packRecord r)).length) (.advance .proc) ++
        [.issue (0xC4000100 ||| BitVec.ofNat 32 4) []]) := by
  refine ⟨.inr (.inr ⟨rfl, rfl⟩), rfl, by decide, by decide, rfl, rfl, rfl, rfl, rfl, rfl, rfl, rfl, rfl, rfl, ?_⟩
  decide

/-- Packet RAM on and off: both meet the hypotheses of `Obligations.WriteMayTimeOutAtTheStart`. -/
theorem witness_WriteMayTimeOutAtTheStart :
    (TypeSlot 0x83 3 ∧ KindMatches 0x83 (.spd spdBroadcom) ∧ ProcReady ramOn ∧ ramOn.powered = true ∧
      Memory.wf ramOn.packetRam = true ∧ ramOn.pktConfig.ramPacketEnable = true ∧ ramOn.slotSt.getLsbD 3 = false) ∧
    (TypeSlot 0x84 4 ∧ KindMatches 0x84 (.audio (audioOf 2)) ∧ ProcReady ready ∧ ready.powered = true ∧
      Memory.wf ready.packetRam = true ∧ ready.pktConfig.ramPacketEnable = false ∧ ready.slotSt.getLsbD 4 = false) :=
  ⟨⟨.inr (.inl ⟨rfl, rfl⟩), rfl, ⟨rfl, rfl, rfl⟩, rfl, rfl, rfl, by decide⟩,
    .inr (.inr ⟨rfl, rfl⟩), rfl, ⟨rfl, rfl, rfl⟩, rfl, rfl, rfl, by decide⟩

/-- Meets the hypotheses of both clauses of `Obligations.WriteWhoseStopTimesOut`. -/
theorem witness_WriteWhoseStopTimesOut :
    let proceeds : State := { emitting with variant := { Variant.legacy with onStopTimeout := .proceed } }
    (TypeSlot 0x82 2 ∧ KindMatches 0x82 (.avi avi0) ∧ ProcReady emitting ∧ emitting.powered = true ∧
      emitting.slotSt.getLsbD 2 = true ∧ emitting.variant.onStopTimeout = .abort) ∧
    (ProcReady proceeds ∧ proceeds.powered = true ∧ proceeds.slotSt.getLsbD 2 = true ∧
      proceeds.variant.onStopTimeout = .proceed ∧ Memory.wf proceeds.packetRam = true) :=
  ⟨⟨.inl ⟨rfl, rfl⟩, rfl, ⟨rfl, rfl, rfl⟩, rfl, by decide, rfl⟩, ⟨rfl, rfl, rfl⟩, rfl, by decide, rfl, rfl⟩

/-- Meets the hypotheses of `Obligations.BadTypeIsRefused`. -/
theorem witness_BadTypeIsRefused :
    ProcReady ready ∧ (0x81#8 ≠ 0x82#8 ∧ 0x81#8 ≠ 0x83#8 ∧ 0x81#8 ≠ 0x84#8) ∧ ¬KindMatches 0x85 (.avi avi0) ∧
    ¬KindMatches 0x82 (.audio (audioOf 2)) :=
  ⟨⟨rfl, rfl, rfl⟩, by decide, by unfold KindMatches; decide, by unfold KindMatches; decide⟩

/-- Meets the hypotheses of `Obligations.AudioBufferIsPacked`. -/
theorem witness_AudioBufferIsPacked :
    (audioOf 0).ch ≤ 8 ∧ (audioOf 1).ch ≤ 8 ∧ (audioOf 8).ch ≤ 8 := by decide

/-- Meets the hypotheses of `Obligations.RamWordsPackSevenBytes`. -/
theorem witness_RamWordsPackSevenBytes :
    7 * 0 < (packSpd spdBroadcom).plen ∧ 7 * 4 < (packSpd spdBroadcom).plen := by decide

/-- Meets the hypotheses of `Obligations.OperationsRunToTheirEnd`. -/
theorem witness_OperationsRunToTheirEnd :
    OpReady ready .cecInit ∧ OpReady unpowered (.pktWrite 0x84 (.audio (audioOf 2))) ∧ OpReady pending .cecIrqHard ∧
    OpReady delivered .cecIrqThread :=
  ⟨⟨rfl, rfl, rfl⟩, ⟨rfl, rfl, rfl⟩, ⟨rfl, rfl, .inl ⟨rfl, rfl⟩⟩, ⟨rfl, rfl, rfl, rfl⟩⟩

/-- Meets the hypotheses of `Obligations.EngineInvariantIsKept`. -/
theorem witness_EngineInvariantIsKept :
    EngineInv busy ∧ ∃ t, step { busy with feed := [.issue 0xC1000001 [] []] } = .next t := by
  refine ⟨?_, _, rfl⟩
  unfold EngineInv
  decide

/-- Meets the hypotheses of `Obligations.PacketRamFormIsKept`. -/
theorem witness_PacketRamFormIsKept :
    Memory.wf State.reset.packetRam = true ∧ Memory.inRange [(575, 1)] = true ∧
    ∃ t, step { State.reset with feed := [.issue 0x5200008F [1, 0, 0, 0] []] } = .next t :=
  ⟨rfl, by decide, _, rfl⟩

/-- Meets the hypotheses of `Obligations.StickyMarksStay`. -/
theorem witness_StickyMarksStay :
    let s : State := { State.reset with
      fUnpowered := true
      refused := some .badType
      feed := [.issue 0xC3000000 [] [.power false]] }
    s.fUnpowered = true ∧ (∀ item rest, s.feed = item :: rest → ¬Safety.Brings true item) ∧ ∃ t, step s = .next t := by
  refine ⟨rfl, ?_, _, rfl⟩
  intro item rest h
  cases h
  simp [Safety.Brings]

/-- Meets the hypotheses of `Obligations.VariantAndReceiveBufferStay`. -/
theorem witness_VariantAndReceiveBufferStay :
    ({ delivered with rxMsg := { len := 16 } } : State).rxMsg.len ≤ 16 ∧ ∃ t, step delivered = .next t :=
  ⟨by decide, _, rfl⟩

/-- Meets the hypotheses of `Obligations.PowerChanges`. -/
theorem witness_PowerChanges :
    (({ ready with feed := [.power false] } : State).feed = .power false :: []) ∧
    (({ ready with feed := [.power true] } : State).feed = .power true :: [] ∧ ready.powered = true) ∧
    ({ unpowered with feed := [.power true] } : State).feed = .power true :: [] ∧ unpowered.powered = false :=
  ⟨rfl, ⟨rfl, rfl⟩, rfl, rfl⟩

/-- Meets the hypotheses of `Obligations.EmissionFollowsTheStatusBits`. -/
theorem witness_EmissionFollowsTheStatusBits :
    (15 : Nat) < 16 ∧ 4 ∈ emitting.emittedSlots ∧ emitting.slotTorn.getLsbD 4 = false := by decide

/-- Meets the hypotheses of each clause of `Obligations.CallersIssueTheirOperations`. -/
theorem witness_CallersIssueTheirOperations :
    (∀ c ∈ [Caller.videoEnableHdmi avi0 none, .videoEnableHdmi avi0 (some { ch := 2, ca := none }), .videoEnableDvi,
      .videoDisable, .audioStartup, .audioTriggerStart { ch := 2, ca := none }, .audioTriggerStop,
      .audioShutdown true, .audioShutdown false],
      ({ State.reset with feed := [.call c [[], [.advance .proc]]] } : State).feed = .call c [[], [.advance .proc]] :: []) ∧
    (State.reset.proc.run = none ∧ State.reset.hard.run = none ∧ [[], [Move.advance .proc]].getD 0 [] = []) ∧
    ({ State.reset with proc := { run := some { op := .cecInit } } } : State).proc.run ≠ none ∧
    ∃ t, exec .evCecSpurious State.reset = .next t := by
  refine ⟨fun c _ => rfl, ⟨rfl, rfl, rfl⟩, by decide, _, rfl⟩

/-- Meets the hypotheses of `Obligations.LogicalAddressRace`. -/
theorem witness_LogicalAddressRace :
    let s : State := { completed with plan := [.advance .proc, .issue 0x86000000 []] }
    s.plan = [.advance .proc, .issue 0x86000000 []] ∧ s.proc.run = none ∧ s.hard.run = none ∧ s.powered = true ∧
      s.txState = .txDone ∧ s.cntrl1.startXmitBegin = true ∧ s.cpuStatus = true ∧ s.cpuMask = false ∧
      s.cntrl5.rxCecInt = false := by decide

/-- Meets the hypotheses of both clauses of `Obligations.CauseDuringTheHandlerGetsNoRun`, at the last place of each. -/
theorem witness_CauseDuringTheHandlerGetsNoRun :
    (let plan : List Move := List.replicate 10 (.advance .hard) ++ [.issue (0xC2000000 ||| BitVec.ofNat 32 1) [0x04, 0x36]]
      let s : State := { completed with plan := plan }
      s.plan = plan ∧ s.hard.run = none ∧ s.powered = true ∧ s.cpuStatus = true ∧ s.cpuMask = false ∧
        s.cntrl5.rxCecInt = false ∧ s.cntrl5.rxSwReset = false ∧ s.cntrl1.receiveOff = false ∧
        s.cntrl1.clearReceiveOff = false) ∧
    (let plan : List Move := List.replicate 13 (.advance .hard) ++
        [.issue (0xC1000000 ||| (BitVec.ofBool true).setWidth 32) []]
      let s : State := { pending with
        plan := plan
        txState := .txBusy
        cntrl1 := Cntrl1.ofWord 0x412A3005 }
      13 ≤ 12 + (s.cntrl1.recLen.toNat + 4) / 4 ∧ s.plan = plan ∧ s.hard.run = none ∧ s.powered = true ∧
        s.cpuStatus = true ∧ s.cpuMask = false ∧ s.cntrl5.rxCecInt = true ∧ s.txState = .txBusy ∧
        s.cntrl1.startXmitBegin = true) := by decide

/-- A message first with a result second, and a result first with a message second: both meet the hypotheses of
`Obligations.SecondEventIsDropped`, at the last place of each. -/
theorem witness_SecondEventIsDropped :
    let first : State := { completed with
      plan := List.replicate 1 (.advance .thread) ++ [.issue 0x86000000 []]
      rxMsg := delivered.rxMsg
      irqWasRx := true
      mailboxFull := true }
    let result : State := { pending with
      plan := List.replicate 3 (.advance .thread) ++ [.issue 0x86000000 []]
      mailboxFull := true }
    (first.irqWasRx = true ∧ first.plan = List.replicate 1 (.advance .thread) ++ [.issue 0x86000000 []] ∧
      first.thread.run = none ∧ first.hard.run = none ∧ first.powered = true ∧ first.mailboxFull = true ∧
      first.cpuStatus = true ∧ first.cpuMask = false ∧ first.cntrl5.rxCecInt = false) ∧
    (result.irqWasRx = false ∧ result.txOk = false ∧
      result.plan = List.replicate 3 (.advance .thread) ++ [.issue 0x86000000 []] ∧
      result.thread.run = none ∧ result.hard.run = none ∧ result.powered = true ∧ result.mailboxFull = true ∧
      result.cpuStatus = true ∧ result.cpuMask = false ∧ result.cntrl5.rxCecInt = true) := by decide

end Sys2Proof.Tests
end

/-! The bound variant and the length of the received message (O53). -/

namespace Sys2Proof.Machine

/-- The variant is the one given (R2), and the received message fits its 16-byte buffer (R44). -/
def BoundAndFitting (v : Variant) (s : State) : Prop := s.variant = v ∧ s.rxMsg.len ≤ 16

/-- No update of the machine writes the variant, and only the host's own updates write `rx_msg`, with at most 16. -/
theorem kept_boundAndFitting (v : Variant) : Kept (fun _ => True) (BoundAndFitting v) where
  setAgent a _ _ h := by cases a <;> exact h
  draw _ _ h := h
  refuse _ _ h := h
  raiseUnpowered _ h := h
  raiseMailbox _ h := h
  raisePktRamOff _ h := h
  clearHostVars _ h := ⟨h.1, Nat.zero_le _⟩
  setRxLen _ _ hn h := ⟨h.1, hn⟩
  setRxWord _ _ _ h := h
  setWasRx _ _ h := h
  setTxOk _ _ h := h
  setMailbox _ _ h := h
  emit _ _ h := h
  readData _ _ h := h
  packed _ _ h := h
  plan _ _ h := h
  cntrl1 _ _ h := by rw [writeCntrl1_eq]; exact h
  cntrl2 _ _ h := h
  cntrl3 _ _ h := h
  cntrl4 _ _ h := h
  cntrl5 _ _ h := by rw [writeCntrl5_eq]; exact h
  txData _ _ _ h := by rw [writeTxData_eq]; exact h
  cpuStatus _ _ h := h
  cpuMask _ _ h := h
  pktConfig _ _ h := h
  packetRam _ _ _ _ h := by rw [storePacketRam_eq]; exact h
  txAttemptEnds _ _ _ h := by
    unfold State.txAttemptEnds
    dsimp only
    split_ifs <;> exact h
  rxComplete _ _ h := h
  moveStatus _ _ _ h := by
    unfold State.moveStatus
    dsimp only
    split_ifs <;> exact h
  setPower _ _ _ h := by
    unfold State.setPower
    split_ifs <;> exact h

/-- Settles O53: the property is kept by every update, so by every step, power changes included. -/
theorem variantAndReceiveBufferStay : Obligations.VariantAndReceiveBufferStay := by
  intro s t hlen hstep
  exact (kept_boundAndFitting s.variant).step (fun _ _ h => h) (fun _ _ _ _ _ => trivial) ⟨rfl, hlen⟩ hstep

end Sys2Proof.Machine

/-! Every operation run alone ends (O49): what its accesses keep outside it, its loops and its bounded waits. -/

namespace Sys2Proof.Machine

open Sys2Proof.Claims

/-- What every access and host-variable update of an operation keeps (R10): the inputs, the schedule, and every host
agent's record. -/
structure SameOutside (s t : State) : Prop where
  feed : t.feed = s.feed
  plan : t.plan = s.plan
  variant : t.variant = s.variant
  powered : t.powered = s.powered
  agent : ∀ a, t.agent a = s.agent a

namespace SameOutside

variable {s t u : State}

theorem refl (s : State) : SameOutside s s := ⟨rfl, rfl, rfl, rfl, fun _ => rfl⟩

theorem trans (h : SameOutside s t) (h' : SameOutside t u) : SameOutside s u :=
  ⟨h'.feed.trans h.feed, h'.plan.trans h.plan, h'.variant.trans h.variant, h'.powered.trans h.powered,
    fun a => (h'.agent a).trans (h.agent a)⟩

theorem hard (h : SameOutside s t) : t.hard = s.hard := h.agent .hard

/-! The updates of the host variables, the marks and the draw counter. -/

theorem draw (n : Nat) (h : SameOutside s t) : SameOutside s (t.draw n) :=
  h.trans ⟨rfl, rfl, rfl, rfl, fun a => (blind_draw n).agent a t⟩

theorem refuse (e : Reason) (h : SameOutside s t) : SameOutside s (t.refuse e) :=
  h.trans ⟨rfl, rfl, rfl, rfl, fun a => (blind_refuse e).agent a t⟩

theorem raiseUnpowered (h : SameOutside s t) : SameOutside s t.raiseUnpowered :=
  h.trans ⟨rfl, rfl, rfl, rfl, fun a => blind_raiseUnpowered.agent a t⟩

theorem raiseMailbox (h : SameOutside s t) : SameOutside s t.raiseMailbox :=
  h.trans ⟨rfl, rfl, rfl, rfl, fun a => blind_raiseMailbox.agent a t⟩

theorem raisePktRamOff (h : SameOutside s t) : SameOutside s t.raisePktRamOff :=
  h.trans ⟨rfl, rfl, rfl, rfl, fun a => blind_raisePktRamOff.agent a t⟩

theorem clearHostVars (h : SameOutside s t) : SameOutside s t.clearHostVars :=
  h.trans ⟨rfl, rfl, rfl, rfl, fun a => blind_clearHostVars.agent a t⟩

theorem setRxLen (n : Nat) (h : SameOutside s t) : SameOutside s (t.setRxLen n) :=
  h.trans ⟨rfl, rfl, rfl, rfl, fun a => (blind_setRxLen n).agent a t⟩

theorem setRxWord (w : Nat) (l : Lanes) (h : SameOutside s t) : SameOutside s (t.setRxWord w l) :=
  h.trans ⟨rfl, rfl, rfl, rfl, fun a => (blind_setRxWord w l).agent a t⟩

theorem setWasRx (b : Bool) (h : SameOutside s t) : SameOutside s (t.setWasRx b) :=
  h.trans ⟨rfl, rfl, rfl, rfl, fun a => (blind_setWasRx b).agent a t⟩

theorem setTxOk (b : Bool) (h : SameOutside s t) : SameOutside s (t.setTxOk b) :=
  h.trans ⟨rfl, rfl, rfl, rfl, fun a => (blind_setTxOk b).agent a t⟩

theorem setMailbox (b : Bool) (h : SameOutside s t) : SameOutside s (t.setMailbox b) :=
  h.trans ⟨rfl, rfl, rfl, rfl, fun a => (blind_setMailbox b).agent a t⟩

theorem emit (e : UpEvent) (h : SameOutside s t) : SameOutside s (t.emit e) :=
  h.trans ⟨rfl, rfl, rfl, rfl, fun a => (blind_emit e).agent a t⟩

/-! The MMIO accesses, powered or not. -/

theorem read {α : Type} (ofDraw : Word → α) (value : State → α) (h : SameOutside s t) :
    SameOutside s (mmioRead ofDraw value t).2 := by
  unfold mmioRead
  split_ifs
  · exact h.draw 1
  · exact (h.draw 1).raiseUnpowered

theorem readCntrl1 (h : SameOutside s t) : SameOutside s (readCntrl1 t).2 := h.read _ _
theorem readCntrl5 (h : SameOutside s t) : SameOutside s (readCntrl5 t).2 := h.read _ _
theorem readCpuStatus (h : SameOutside s t) : SameOutside s (readCpuStatus t).2 := h.read _ _
theorem readRxData (w : Nat) (h : SameOutside s t) : SameOutside s (readRxData w t).2 := h.read _ _
theorem readPktConfig (h : SameOutside s t) : SameOutside s (readPktConfig t).2 := h.read _ _
theorem readPktStatus (h : SameOutside s t) : SameOutside s (readPktStatus t).2 := h.read _ _

theorem write {effect : State → State} (he : ∀ t, SameOutside t (effect t)) (h : SameOutside s t) :
    SameOutside s (mmioWrite effect t) := by
  unfold mmioWrite
  split_ifs
  · exact h.trans (he t)
  · exact h.raiseUnpowered

theorem onCecBit (v : Word) {effect : State → State} (he : ∀ t, SameOutside t (effect t)) (t : State) :
    SameOutside t (onCecBit v effect t) := by
  rcases onCecBit_cases v effect t with e | e | e <;> rw [e]
  · exact (refl t).refuse _
  · exact he t
  · exact refl t

theorem writeCntrl1 (v : Cntrl1) : SameOutside s t → SameOutside s (mmioWrite (writeCntrl1 v) t) :=
  write fun u => by
    refine ⟨?_, ?_, ?_, ?_, fun a => (blind_writeCntrl1 v).agent a u⟩ <;> rw [writeCntrl1_eq]

theorem writeCntrl2 (v : Cntrl2) : SameOutside s t → SameOutside s (mmioWrite (writeCntrl2 v) t) :=
  write fun u => ⟨rfl, rfl, rfl, rfl, fun a => (blind_writeCntrl2 v).agent a u⟩

theorem writeCntrl3 (v : Cntrl3) : SameOutside s t → SameOutside s (mmioWrite (writeCntrl3 v) t) :=
  write fun u => ⟨rfl, rfl, rfl, rfl, fun a => (blind_writeCntrl3 v).agent a u⟩

theorem writeCntrl4 (v : Cntrl4) : SameOutside s t → SameOutside s (mmioWrite (writeCntrl4 v) t) :=
  write fun u => ⟨rfl, rfl, rfl, rfl, fun a => (blind_writeCntrl4 v).agent a u⟩

theorem writeCntrl5 (v : Cntrl5) : SameOutside s t → SameOutside s (mmioWrite (writeCntrl5 v) t) :=
  write fun u => by
    refine ⟨?_, ?_, ?_, ?_, fun a => (blind_writeCntrl5 v).agent a u⟩ <;> rw [writeCntrl5_eq]

theorem writeTxData (w : Nat) (l : Lanes) :
    SameOutside s t → SameOutside s (mmioWrite (writeTxData w l) t) :=
  write fun u => by
    refine ⟨?_, ?_, ?_, ?_, fun a => (blind_writeTxData w l).agent a u⟩ <;> rw [writeTxData_eq]

theorem writePktConfig (v : PktConfig) : SameOutside s t → SameOutside s (mmioWrite (writePktConfig v) t) :=
  write fun u => ⟨rfl, rfl, rfl, rfl, fun a => (blind_writePktConfig v).agent a u⟩

theorem writeCpuClear (v : Word) : SameOutside s t → SameOutside s (mmioWrite (writeCpuClear v) t) :=
  write (onCecBit v fun _ => ⟨rfl, rfl, rfl, rfl, fun a => by cases a <;> rfl⟩)

theorem writeCpuMaskSet (v : Word) : SameOutside s t → SameOutside s (mmioWrite (writeCpuMaskSet v) t) :=
  write (onCecBit v fun _ => ⟨rfl, rfl, rfl, rfl, fun a => by cases a <;> rfl⟩)

theorem writeCpuMaskClear (v : Word) : SameOutside s t → SameOutside s (mmioWrite (writeCpuMaskClear v) t) :=
  write (onCecBit v fun _ => ⟨rfl, rfl, rfl, rfl, fun a => by cases a <;> rfl⟩)

theorem writePacketRam (w : Nat) (v : Word) (h : SameOutside s t) : SameOutside s (writePacketRam w v t) := by
  unfold Machine.writePacketRam
  split_ifs
  · refine h.write fun u => ?_
    refine ⟨?_, ?_, ?_, ?_, fun a => (blind_storePacketRam w v).agent a u⟩ <;> rw [storePacketRam_eq]
  · exact h.refuse _

/-! The loops of accesses inside a step, and the parts of the hard handler. -/

theorem sendWords (msg : List Byte) (count i : Nat) (h : SameOutside s t) :
    SameOutside s (sendWords msg count i t) := by
  induction count generalizing i t with
  | zero => exact h
  | succ n ih => exact ih _ ((h.draw 1).writeTxData _ _)

theorem copyWords (count i : Nat) (h : SameOutside s t) : SameOutside s (copyWords count i t) := by
  induction count generalizing i t with
  | zero => exact h
  | succ n ih => exact ih _ ((h.readRxData i).setRxWord _ _)

theorem storeWords (slot : Nat) (words : List Word) (count i : Nat) (h : SameOutside s t) :
    SameOutside s (storeWords slot words count i t) := by
  induction count generalizing i t with
  | zero => exact h
  | succ n ih => exact ih _ (h.writePacketRam _ _)

theorem hardLook (h : SameOutside s t) : SameOutside s (hardLook t) :=
  (h.setRxLen 0).readCntrl1.readCntrl5.setWasRx _

theorem hardFill (wasFull wasRx : Bool) (h : SameOutside s t) : SameOutside s (hardFill wasFull wasRx t) := by
  refine setMailbox true ?_
  split_ifs
  · exact (h.writeCpuClear _).raiseMailbox
  · exact h.writeCpuClear _

end SameOutside

/-- An operation of an agent ends (R10): with an outcome or a refusal returned, the agent running nothing, and nothing
outside the operation changed. -/
def EndsAlone (a : Agent) (s : State) (res : Result) : Prop :=
  ∃ (v : State) (e : Ended), SameOutside s v ∧ res = .next (State.setAgent a { run := none, ret := some e } v)

theorem endsAlone_endWith {a : Agent} {c : Code} {s v : State} (h : SameOutside s v) :
    EndsAlone a s (.next (State.endWith a c v)) := ⟨v, .code c, h, rfl⟩

theorem endsAlone_endRefused {a : Agent} {e : Reason} {s v : State} (h : SameOutside s v) :
    EndsAlone a s (.next (State.endRefused a e v)) := ⟨v.refuse e, .refused e, h.refuse e, rfl⟩

/-! The operations without a bounded wait. -/

section

variable {s : State}

theorem cecInit_ends (hs : ProcReady s) : EndsAlone .proc s (execCecInit s) := by
  obtain ⟨hplan, hproc, hhard⟩ := hs
  by_cases hd : dividerQuotient s.variant < 4096
  · rw [alone_cecInit hplan hproc hhard hd]
    exact endsAlone_endWith
      ((((SameOutside.refl s).draw 2).clearHostVars.writeCpuMaskSet _).readCntrl1.writeCntrl1 _)
  · rw [alone_cecInit_refused hplan hproc hhard (by omega)]
    exact endsAlone_endRefused ((SameOutside.refl s).draw 2)

theorem cecEnable_ends (hs : ProcReady s) : EndsAlone .proc s (execCecEnable s) := by
  obtain ⟨hplan, hproc, hhard⟩ := hs
  rw [alone_cecEnable hplan hproc hhard]
  exact endsAlone_endWith ((((((((SameOutside.refl s).draw 2).writeCntrl2 _).writeCntrl3 _).writeCntrl4 _
    ).readCntrl5.writeCntrl5 _).writeCntrl5 _).writeCpuMaskClear _)

theorem cecDisable_ends (hs : ProcReady s) : EndsAlone .proc s (execCecDisable s) := by
  obtain ⟨hplan, hproc, hhard⟩ := hs
  rw [alone_cecDisable hplan hproc hhard]
  exact endsAlone_endWith ((((SameOutside.refl s).draw 2).writeCpuMaskSet _).readCntrl5.writeCntrl5 _)

theorem cecSetLogAddr_ends (la : BitVec 4) (hs : ProcReady s) : EndsAlone .proc s (execCecSetLogAddr la s) := by
  obtain ⟨hplan, hproc, hhard⟩ := hs
  rw [alone_cecSetLogAddr hplan hproc hhard]
  exact endsAlone_endWith (((SameOutside.refl s).draw 2).readCntrl1.writeCntrl1 _)

theorem cecTransmit_ends (msg : List Byte) (hs : ProcReady s) : EndsAlone .proc s (execCecTransmit msg s) := by
  obtain ⟨hplan, hproc, hhard⟩ := hs
  by_cases hlong : Config.cecMaxLen < msg.length
  · rw [alone_cecTransmit_tooLarge hplan hproc hhard msg hlong]
    exact endsAlone_endWith ((SameOutside.refl s).draw 2)
  · cases msg with
    | nil =>
      rw [alone_cecTransmit_empty hplan hproc hhard]
      exact endsAlone_endRefused ((SameOutside.refl s).draw 2)
    | cons b bs =>
      rw [alone_cecTransmit hplan hproc hhard (b :: bs) (by simp) (by omega)]
      have sent := ((SameOutside.refl s).draw 2).sendWords (b :: bs) (wordsFor (b :: bs).length) 0
      exact endsAlone_endWith ((sent.readCntrl1.writeCntrl1 _).writeCntrl1 _)

theorem pktRamEnable_ends (hs : ProcReady s) : EndsAlone .proc s (execPktRamEnable s) := by
  obtain ⟨hplan, hproc, hhard⟩ := hs
  rw [alone_pktRamEnable hplan hproc hhard]
  exact endsAlone_endWith (((SameOutside.refl s).draw 2).readPktConfig.writePktConfig _)

theorem pktRamDisable_ends (hs : ProcReady s) : EndsAlone .proc s (execPktRamDisable s) := by
  obtain ⟨hplan, hproc, hhard⟩ := hs
  rw [alone_pktRamDisable hplan hproc hhard]
  exact endsAlone_endWith (((SameOutside.refl s).draw 2).readPktConfig.writePktConfig _)

theorem cecIrqHard_ends (hs : HardReady s) : EndsAlone .hard s (execCecIrqHard s) := by
  obtain ⟨hplan, hhard, hstart⟩ := hs
  have hl : s.irqLine = true ∨ s.variant.allowSpurious = true := by simpa [State.irqLine] using hstart
  have status := ((SameOutside.refl s).draw 2).readCpuStatus
  cases hc : (readCpuStatus (s.draw 2)).1.cec && (s.irqLine || s.variant.onLineLow == .goOn) with
  | false =>
    rw [alone_cecIrqHard_notMine hplan hhard hl hc]
    exact endsAlone_endWith status
  | true =>
    rw [alone_cecIrqHard hplan hhard hl hc rfl rfl rfl]
    refine endsAlone_endWith (SameOutside.hardFill _ _ ?_)
    split_ifs
    · exact (((status.hardLook.copyWords _ _).setRxLen _).writeCntrl1 _).writeCntrl1 _
    · exact (status.hardLook.setTxOk _).writeCntrl1 _

theorem cecIrqThread_ends (hs : ThreadReady s) : EndsAlone .thread s (execCecIrqThread s) := by
  obtain ⟨hplan, hhard, hthread, hfull⟩ := hs
  have drawn := (SameOutside.refl s).draw 2
  rw [alone_cecIrqThread hplan hthread hhard hfull]
  refine endsAlone_endWith (SameOutside.setMailbox false ?_)
  split_ifs
  · exact drawn.emit _
  · exact drawn
  · exact drawn.emit _
  · exact drawn.emit _

end

/-! The bounded wait of R164 and the two operations that wait. -/

/-- An operation that ends within some steps ends within more. -/
theorem EndsAlone.more {n : Nat} {s u : State} (hh : s.hard.run = none)
    (h : EndsAlone .proc s (finish n .proc u)) (k : Nat) : EndsAlone .proc s (finish (n + k) .proc u) := by
  obtain ⟨v, e, hv, hn⟩ := h
  exact ⟨v, e, hv, finish_more hn (by simpa [hv.hard] using hh) rfl k⟩

/-- One poll, powered or not: the wait is over, or one failed poll fewer is left and at least one still is. -/
theorem pollStatus_cases (slot : Nat) (want : Bool) (doneLine : Nat) (r r' : Run) (u : State) :
    (∃ b, pollStatus slot want doneLine r (State.goOn .proc r' u) =
      .next (State.goOn .proc { r with line := doneLine, timedOut := b } (readPktStatus u).2)) ∨
    (2 ≤ r.polls ∧ pollStatus slot want doneLine r (State.goOn .proc r' u) =
      .next (State.goOn .proc { r with polls := r.polls - 1 } (readPktStatus u).2)) := by
  simp only [pollStatus, readPktStatus_goOn, goOn_goOn, Run.goto]
  split_ifs with hfound hlast
  · exact .inl ⟨false, rfl⟩
  · exact .inl ⟨true, rfl⟩
  · exact .inr ⟨by omega, rfl⟩

/-- A bounded wait is over after at most as many polls as its bound allows, whatever they read (R10, R164); so an
operation ends if it ends from the step after the wait. -/
theorem finish_wait_ends {slot : Nat} {want : Bool} {doneLine n p : Nat} {r : Run} {s u : State}
    (hp : r.polls = p)
    (hs : ∀ q v, stepRun { r with polls := q } v = pollStatus slot want doneLine { r with polls := q } v)
    (hh : s.hard.run = none) (hu : SameOutside s u)
    (hdone : ∀ b q v, SameOutside s v → EndsAlone .proc s
      (finish n .proc (State.goOn .proc { r with line := doneLine, timedOut := b, polls := q } v))) :
    EndsAlone .proc s (finish (n + max 1 p) .proc (State.goOn .proc r u)) := by
  induction p using Nat.strong_induction_on generalizing r u with
  | _ p ih =>
    have hstep : stepRun r (State.goOn .proc r u) = pollStatus slot want doneLine r (State.goOn .proc r u) :=
      hs r.polls _
    rw [show n + max 1 p = n + (max 1 p - 1) + 1 by omega, finish_goOn_proc (by rwa [hu.hard]), hstep]
    rcases pollStatus_cases slot want doneLine r r u with ⟨b, ended⟩ | ⟨_, again⟩
    · rw [ended, andThen_next]
      exact (hdone b r.polls _ hu.readPktStatus).more hh _
    · rw [again, andThen_next, show max 1 p - 1 = max 1 (p - 1) by omega]
      exact ih (p - 1) (by omega) (r := { r with polls := r.polls - 1 }) (by simp only [hp]) hs
        hu.readPktStatus hdone

/-- The word image of a record is 2 to 10 words (R157). -/
theorem ramWords_packRecord_length (rec : Record) :
    ∃ c, (ramWords (packRecord rec)).length = c + 1 ∧ c < 10 := by
  have hlen (p : Packed) : (ramWords p).length = (p.plen + 6) / 7 * 2 := by simp [ramWords, chunkWords]
  have hplen : 4 ≤ (packRecord rec).plen ∧ (packRecord rec).plen ≤ 29 := by
    cases rec <;>
      simp [packRecord, packAvi, packSpd, packAudio, framed, aviPayload, spdPayload, audioPayload, fitBytes]
    omega
  have := hlen (packRecord rec)
  exact ⟨(ramWords (packRecord rec)).length - 1, by omega, by omega⟩

section

variable {s : State}

theorem pktStop_ends (ty : Byte) (hs : ProcReady s) : EndsAlone .proc s (execPktStop ty s) := by
  obtain ⟨hplan, hproc, hhard⟩ := hs
  cases ht : acceptedType ty with
  | false =>
    rw [alone_pktStop_refused hplan hproc hhard ty ht]
    exact endsAlone_endRefused ((SameOutside.refl s).draw 2)
  | true =>
    unfold execPktStop
    rw [runOp_alone hplan (startOp_proc rfl hproc)]
    generalize pollBound s.variant s.draws = p
    generalize pollBound s.variant (s.draws + 1) = p'
    obtain ⟨k, hk⟩ : ∃ k, p + p' + 128 = k + 1 + max 1 p + 4 := ⟨p + p' + 123 - max 1 p, by omega⟩
    rw [hk]
    simp only [HostOp.agent, finish_goOn_proc, stepRun, stepPktStop, Run.goto, ht, if_true, andThen_next,
      readConfigStep, writeConfigStep, goOn_goOn, readPktConfig_goOn, writePktConfig_goOn, readPktConfig_hard,
      State.draw_hard, hhard]
    refine finish_wait_ends (slot := slotOf ty) (want := false) (doneLine := 6) rfl (fun _ _ => rfl) hhard
      (((SameOutside.refl s).draw 2).readPktConfig.writePktConfig _) fun b q v hv => ?_
    rw [finish_goOn_proc (by rwa [hv.hard])]
    simp only [stepRun, stepPktStop, andThen_next, endWith_goOn]
    rw [finish_endWith_proc (by rwa [hv.hard])]
    exact endsAlone_endWith hv

/-- `PKT_WRITE` from step 9 on: the slot enabled, and the wait for its start. -/
theorem pktWrite_ends_from_start {ty : Byte} {rec : Record} {k : Nat} {r : Run} {u : State}
    (ho : r.op = .pktWrite ty rec) (hl : r.line = 9) (hh : s.hard.run = none) (hu : SameOutside s u) :
    EndsAlone .proc s (finish (k + 1 + max 1 r.polls2 + 2) .proc (State.goOn .proc r u)) := by
  obtain ⟨op, line⟩ := r
  simp only at ho hl
  subst ho hl
  have huh : u.hard.run = none := by rwa [hu.hard]
  simp only [finish_goOn_proc, stepRun, stepPktWrite, Run.goto, andThen_next, readConfigStep, writeConfigStep,
    goOn_goOn, readPktConfig_goOn, writePktConfig_goOn, readPktConfig_hard, huh]
  refine finish_wait_ends (slot := slotOf ty) (want := true) (doneLine := 12) rfl (fun _ _ => rfl) hh
    (hu.readPktConfig.writePktConfig _) fun b q v hv => ?_
  rw [finish_goOn_proc (by rwa [hv.hard])]
  simp only [stepRun, stepPktWrite, andThen_next, endWith_goOn]
  rw [finish_endWith_proc (by rwa [hv.hard])]
  exact endsAlone_endWith hv

/-- `PKT_WRITE` after its Stop's wait, from step 66 on: it returns where the Stop timed out and the variant aborts;
else the image of `c + 1` words is written, and it goes on from step 9. -/
theorem pktWrite_ends_from_stopped {ty : Byte} {rec : Record} {k c : Nat} {r : Run} {u : State}
    (ho : r.op = .pktWrite ty rec) (hl : r.line = 66) (hw : r.words.length = c + 1) (hh : s.hard.run = none)
    (hu : SameOutside s u) :
    EndsAlone .proc s (finish (k + 1 + max 1 r.polls2 + 2 + (c + 1) + 2) .proc (State.goOn .proc r u)) := by
  obtain ⟨op, line⟩ := r
  simp only at ho hl
  subst ho hl
  have huh : u.hard.run = none := by rwa [hu.hard]
  simp only [finish_goOn_proc, stepRun, stepPktWrite, Run.goto, andThen_next, goOn_goOn, huh]
  split_ifs
  · rw [andThen_next, endWith_goOn, finish_endWith_proc huh]
    exact endsAlone_endWith hu
  · rw [andThen_next, finish_storeWords ty rec c _ rfl rfl rfl ((Nat.zero_add _).trans hw.symm) huh]
    exact pktWrite_ends_from_start rfl rfl hh (hu.storeWords _ _ _ _)

theorem pktWrite_ends (ty : Byte) (rec : Record) (hs : ProcReady s) :
    EndsAlone .proc s (execPktWrite ty rec s) := by
  obtain ⟨hplan, hproc, hhard⟩ := hs
  cases ht : acceptedType ty && kindMatches ty rec with
  | false =>
    rw [alone_pktWrite_refused hplan hproc hhard ty rec ht]
    exact endsAlone_endRefused ((SameOutside.refl s).draw 2)
  | true =>
    unfold execPktWrite
    rw [runOp_alone hplan (startOp_proc rfl hproc)]
    generalize pollBound s.variant s.draws = p
    generalize pollBound s.variant (s.draws + 1) = p'
    obtain ⟨c, hwords, hc⟩ := ramWords_packRecord_length rec
    obtain ⟨k, hk⟩ : ∃ k, p + p' + 128 = k + 1 + max 1 p' + 2 + (c + 1) + 2 + max 1 p + 7 :=
      ⟨p + p' + 115 - max 1 p - max 1 p' - c, by omega⟩
    have configured (cfg : PktConfig) : SameOutside s
        (if cfg.ramPacketEnable then (readPktConfig (s.draw 2)).2
          else (readPktConfig (s.draw 2)).2.raisePktRamOff) := by
      have read := ((SameOutside.refl s).draw 2).readPktConfig
      split_ifs
      · exact read
      · exact read.raisePktRamOff
    have hrun (cfg : PktConfig) := (congrArg HostAgent.run (configured cfg).hard).trans hhard
    rw [hk]
    simp only [HostOp.agent, finish_goOn_proc, stepRun, stepPktWrite, Run.goto, ht, if_true, andThen_next,
      readConfigStep, writeConfigStep, goOn_goOn, readPktConfig_goOn, writePktConfig_goOn, raisePktRamOff_if_goOn,
      readPktConfig_hard, State.draw_hard, hhard, hrun]
    exact finish_wait_ends (slot := slotOf ty) (want := false) (doneLine := 66) rfl (fun _ _ => rfl) hhard
      ((configured _).readPktConfig.writePktConfig _) fun b q v hv =>
        pktWrite_ends_from_stopped rfl rfl hwords hhard hv

end

/-! Every operation. -/

/-- The agent an OP instruction starts its operation on (R135). -/
def agentOf : Instr → Agent
  | .cecIrqHard => .hard
  | .cecIrqThread => .thread
  | _ => .proc

theorem agentOf_eq_proc {i : Instr} (hh : i ≠ .cecIrqHard) (ht : i ≠ .cecIrqThread) : agentOf i = .proc := by
  cases i
  case cecIrqHard => exact absurd rfl hh
  case cecIrqThread => exact absurd rfl ht
  all_goals rfl

/-- Every operation that may start ends when it runs alone. -/
theorem exec_endsAlone {i : Instr} {s : State} (hs : OpReady s i) : EndsAlone (agentOf i) s (exec i s) := by
  cases i
  case cecInit => exact cecInit_ends hs
  case cecEnable => exact cecEnable_ends hs
  case cecDisable => exact cecDisable_ends hs
  case cecSetLogAddr la => exact cecSetLogAddr_ends la hs
  case cecTransmit msg => exact cecTransmit_ends msg hs
  case cecIrqHard => exact cecIrqHard_ends hs
  case cecIrqThread => exact cecIrqThread_ends hs
  case pktRamEnable => exact pktRamEnable_ends hs
  case pktRamDisable => exact pktRamDisable_ends hs
  case pktStop ty => exact pktStop_ends ty hs
  case pktWrite ty rec => exact pktWrite_ends ty rec hs
  all_goals exact False.elim hs

/-- An operation that may start alone has no plan and finds the hard handler running nothing. -/
theorem opReady_idle {i : Instr} {s : State} (hs : OpReady s i) : s.plan = [] ∧ s.hard.run = none := by
  cases i
  case cecIrqHard | cecIrqThread =>
    obtain ⟨hplan, hhard, _⟩ := hs
    exact ⟨hplan, hhard⟩
  case cecInit | cecEnable | cecDisable | cecSetLogAddr | cecTransmit | pktRamEnable | pktRamDisable | pktStop
      | pktWrite =>
    obtain ⟨hplan, _, hhard⟩ := hs
    exact ⟨hplan, hhard⟩
  all_goals exact False.elim hs

theorem agent_setAgent_of_ne {a b : Agent} (hb : b ≠ a) (h : HostAgent) (s : State) :
    (State.setAgent a h s).agent b = s.agent b := by
  revert hb
  cases a <;> cases b <;> simp [State.agent]

/-- What an operation that ends alone leaves: its agent with nothing to run and something returned, and all else outside
it as before. -/
theorem EndsAlone.outcome {a : Agent} {s : State} {res : Result} (h : EndsAlone a s res) :
    ∃ t : State, res = .next t ∧ (t.agent a).run = none ∧ (t.agent a).ret.isSome = true ∧
      (∀ b, b ≠ a → t.agent b = s.agent b) ∧
      t.plan = s.plan ∧ t.feed = s.feed ∧ t.variant = s.variant ∧ t.powered = s.powered := by
  obtain ⟨v, e, hv, rfl⟩ := h
  refine ⟨_, rfl, by simp, by simp, fun b hb => ?_, ?_⟩
  · rw [agent_setAgent_of_ne hb, hv.agent b]
  · simp [hv.plan, hv.feed, hv.variant, hv.powered]

/-- Settles O49: each operation run alone is the composition of its accesses, its loops and its bounded waits, and
comes to its last step. -/
theorem operationsRunToTheirEnd : Obligations.OperationsRunToTheirEnd := by
  intro i s hs
  obtain ⟨hplan, hhard⟩ := opReady_idle hs
  obtain ⟨t, hexec, hrun, hret, hothers, htplan, hfeed, hvariant, hpowered⟩ := (exec_endsAlone hs).outcome
  have hidle : t.hard.run = none := by
    by_cases ha : Agent.hard = agentOf i
    · rw [← ha] at hrun
      exact hrun
    · exact (congrArg HostAgent.run (hothers .hard ha)).trans hhard
  refine ⟨t, hexec, hidle, htplan.trans hplan, hfeed, hvariant, hpowered, ?hard, ?thread, ?proc⟩
  case hard =>
    rintro rfl
    exact ⟨hret, hothers .proc nofun, hothers .thread nofun⟩
  case thread =>
    rintro rfl
    exact ⟨hrun, hret, hothers .proc nofun⟩
  case proc =>
    intro hneHard hneThread
    rw [agentOf_eq_proc hneHard hneThread] at hrun hret hothers
    exact ⟨hrun, hret, hothers .thread nofun⟩

end Sys2Proof.Machine

/-! What an engine event leaves, as one update of the state: neither a word of packet RAM nor a sticky mark (R119,
R161). -/

namespace Sys2Proof.Machine

/-- The end of an attempt (R119): the last one, acknowledged or not, completes the transmit (R120). -/
theorem txAttemptEnds_eq (acked : Bool) (s : State) :
    State.txAttemptEnds acked s = { s with
      txAttempt := s.txAttempt + 1
      cntrl1 :=
        if acked || s.txAttempt + 1 == Config.cecTxAttempts then { s.cntrl1 with txStatusGood := acked }
        else s.cntrl1
      txState := if acked || s.txAttempt + 1 == Config.cecTxAttempts then .txDone else s.txState
      cpuStatus := if acked || s.txAttempt + 1 == Config.cecTxAttempts then true else s.cpuStatus } := by
  unfold State.txAttemptEnds State.txComplete
  cases acked
  case false => by_cases hlast : s.txAttempt + 1 = Config.cecTxAttempts <;> simp [hlast]
  case true => simp

/-- The move of a slot's status bit (R161): a disabled slot that stops is no longer torn (R43). -/
theorem moveStatus_eq (slot : Nat) (b : Bool) (s : State) :
    State.moveStatus slot b s = { s with
      slotSt := setSlot s.slotSt slot b
      slotTorn :=
        if !s.pktConfig.slotEn.getLsbD slot && !b then setSlot s.slotTorn slot false else s.slotTorn } := by
  unfold State.moveStatus
  dsimp only
  split_ifs <;> rfl

end Sys2Proof.Machine

/-! The canonical form of packet RAM (O51). -/

namespace Sys2Proof.Machine

/-- What holds of the packet RAM at reset and is kept by every store of a word inside it, every update keeps: only a
store (R113) and power restored (R197) write the packet RAM. -/
theorem kept_ofPacketRam {form : Memory → Prop} (hreset : form State.reset.packetRam)
    (hstore : ∀ m w v, w < Config.packetRamWords → form m → form (Memory.writeWord m w v)) :
    Kept (fun _ => True) (fun s => form s.packetRam) where
  setAgent _ _ _ h := by rwa [State.setAgent_packetRam]
  draw _ _ h := h
  refuse _ _ h := h
  raiseUnpowered _ h := h
  raiseMailbox _ h := h
  raisePktRamOff _ h := h
  clearHostVars _ h := h
  setRxLen _ _ _ h := h
  setRxWord _ _ _ h := h
  setWasRx _ _ h := h
  setTxOk _ _ h := h
  setMailbox _ _ h := h
  emit _ _ h := h
  readData _ _ h := h
  packed _ _ h := h
  plan _ _ h := h
  cntrl1 _ _ h := by rwa [writeCntrl1_eq]
  cntrl2 _ _ h := h
  cntrl3 _ _ h := h
  cntrl4 _ _ h := h
  cntrl5 _ _ h := by rwa [writeCntrl5_eq]
  txData _ _ _ h := by rwa [writeTxData_eq]
  cpuStatus _ _ h := h
  cpuMask _ _ h := h
  pktConfig _ _ h := h
  packetRam w _ s hw h := by
    rw [storePacketRam_eq]
    exact hstore s.packetRam w _ hw h
  txAttemptEnds _ _ _ h := by rwa [txAttemptEnds_eq]
  rxComplete _ _ h := h
  moveStatus _ _ _ h := by rwa [moveStatus_eq]
  setPower _ _ _ h := by
    unfold State.setPower
    split_ifs
    · exact h
    · exact hreset
    · exact h

/-- The canonical form (R51) with every listed address inside the packet RAM (R39). -/
def Memory.Canonical (m : Memory) : Prop := Memory.wf m = true ∧ Memory.inRange m = true

theorem Memory.canonical_writeWord {m : Memory} {w : Nat} (hw : w < Config.packetRamWords) (hm : Memory.Canonical m)
    (v : Word) : Memory.Canonical (Memory.writeWord m w v) := by
  obtain ⟨hwf, hrange⟩ := hm
  exact ⟨Memory.wf_writeWord hwf w v, Memory.inRange_writeWord hrange hw v⟩

theorem reset_packetRam_canonical : Memory.Canonical State.reset.packetRam := ⟨rfl, rfl⟩

/-- Settles O51: the form holds of the RAM that power restored leaves, and a store of a word inside the RAM keeps it,
so every step keeps it. -/
theorem packetRamFormIsKept : Obligations.PacketRamFormIsKept := by
  intro s t hwf hrange hstep
  have kept := kept_ofPacketRam reset_packetRam_canonical fun _ _ v hw hm => Memory.canonical_writeWord hw hm v
  exact kept.step (fun _ _ h => h) (fun _ _ _ _ _ => trivial) ⟨hwf, hrange⟩ hstep

end Sys2Proof.Machine

/-! The sticky marks (O52). -/

namespace Sys2Proof.Machine

/-- The sticky marks of a state: the fault bits (R48, R180) and the REFUSED mark with its reason (R181, log 9). -/
structure Marks where
  unpowered : Bool
  txRegWhileBusy : Bool
  mailboxOverrun : Bool
  pktRamOff : Bool
  refused : Option Reason

def State.marks (s : State) : Marks where
  unpowered := s.fUnpowered
  txRegWhileBusy := s.fTxRegWhileBusy
  mailboxOverrun := s.fMailboxOverrun
  pktRamOff := s.fPktRamOff
  refused := s.refused

/-- Every mark of `m` still stands in `m'`, the reason of the refusal as it was (R48, log 9). -/
structure Marks.StandIn (m m' : Marks) : Prop where
  unpowered : m.unpowered = true → m'.unpowered = true
  txRegWhileBusy : m.txRegWhileBusy = true → m'.txRegWhileBusy = true
  mailboxOverrun : m.mailboxOverrun = true → m'.mailboxOverrun = true
  pktRamOff : m.pktRamOff = true → m'.pktRamOff = true
  refused : m.refused.isSome = true → m'.refused = m.refused

namespace Marks.StandIn

variable {m : Marks} {s : State}

theorem refl (m : Marks) : m.StandIn m := ⟨id, id, id, id, fun _ => rfl⟩

theorem raiseUnpowered (h : m.StandIn s.marks) : m.StandIn s.raiseUnpowered.marks :=
  ⟨fun _ => rfl, h.txRegWhileBusy, h.mailboxOverrun, h.pktRamOff, h.refused⟩

theorem raiseMailbox (h : m.StandIn s.marks) : m.StandIn s.raiseMailbox.marks :=
  ⟨h.unpowered, h.txRegWhileBusy, fun _ => rfl, h.pktRamOff, h.refused⟩

theorem raisePktRamOff (h : m.StandIn s.marks) : m.StandIn s.raisePktRamOff.marks :=
  ⟨h.unpowered, h.txRegWhileBusy, h.mailboxOverrun, fun _ => rfl, h.refused⟩

/-- A later refusal leaves the reason of the first one (log 9). -/
theorem refuse (e : Reason) (h : m.StandIn s.marks) : m.StandIn (s.refuse e).marks where
  unpowered := h.unpowered
  txRegWhileBusy := h.txRegWhileBusy
  mailboxOverrun := h.mailboxOverrun
  pktRamOff := h.pktRamOff
  refused hm := by
    have hs : s.refused = m.refused := h.refused hm
    obtain ⟨r, hr⟩ := Option.isSome_iff_exists.mp hm
    simp [State.marks, hs, hr]

/-- A write of `CEC_CNTRL_1` may raise `F_TX_REG_WHILE_BUSY` (R92) and touches no other mark. -/
theorem writeCntrl1 (v : Cntrl1) (h : m.StandIn s.marks) : m.StandIn (writeCntrl1 v s).marks := by
  rw [writeCntrl1_eq]
  exact ⟨h.unpowered, fun hm => Bool.or_inl (h.txRegWhileBusy hm), h.mailboxOverrun, h.pktRamOff, h.refused⟩

/-- A write of a transmit data word may raise `F_TX_REG_WHILE_BUSY` (R102) and touches no other mark. -/
theorem writeTxData (w : Nat) (l : Lanes) (h : m.StandIn s.marks) : m.StandIn (writeTxData w l s).marks := by
  rw [writeTxData_eq]
  exact ⟨h.unpowered, fun hm => Bool.or_inl (h.txRegWhileBusy hm), h.mailboxOverrun, h.pktRamOff, h.refused⟩

/-- A store to packet RAM may raise `F_PKT_RAM_OFF` (R113) and touches no other mark. -/
theorem storePacketRam (w : Nat) (v : Word) (h : m.StandIn s.marks) : m.StandIn (storePacketRam w v s).marks := by
  rw [storePacketRam_eq]
  exact ⟨h.unpowered, h.txRegWhileBusy, h.mailboxOverrun, fun hm => Bool.or_inl (h.pktRamOff hm), h.refused⟩

end Marks.StandIn

/-- No update but power restored clears a mark: those that raise one or refuse are the lemmas above, and the others
leave all of them. -/
theorem kept_marksStandIn (m : Marks) : Kept (fun on => on = false) (fun s => m.StandIn s.marks) where
  setAgent a _ _ h := by cases a <;> exact h
  draw _ _ h := h
  refuse e _ h := h.refuse e
  raiseUnpowered _ h := h.raiseUnpowered
  raiseMailbox _ h := h.raiseMailbox
  raisePktRamOff _ h := h.raisePktRamOff
  clearHostVars _ h := h
  setRxLen _ _ _ h := h
  setRxWord _ _ _ h := h
  setWasRx _ _ h := h
  setTxOk _ _ h := h
  setMailbox _ _ h := h
  emit _ _ h := h
  readData _ _ h := h
  packed _ _ h := h
  plan _ _ h := h
  cntrl1 v _ h := h.writeCntrl1 v
  cntrl2 _ _ h := h
  cntrl3 _ _ h := h
  cntrl4 _ _ h := h
  cntrl5 _ _ h := by rw [writeCntrl5_eq]; exact h
  txData w l _ h := h.writeTxData w l
  cpuStatus _ _ h := h
  cpuMask _ _ h := h
  pktConfig _ _ h := h
  packetRam w v _ _ h := h.storePacketRam w v
  txAttemptEnds _ _ _ h := by rw [txAttemptEnds_eq]; exact h
  rxComplete _ _ h := h
  moveStatus _ _ _ h := by rw [moveStatus_eq]; exact h
  setPower _ _ hoff h := by
    subst hoff
    exact h

/-- Settles O52: no update of a step that brings no restoration of power clears a mark. -/
theorem stickyMarksStay : Obligations.StickyMarksStay := by
  intro s t hpower hstep
  have only_off : ∀ item rest, s.feed = item :: rest → ∀ on, Safety.Brings on item → on = false
    | item, rest, hfeed, true, hon => absurd hon (hpower item rest hfeed)
    | _, _, _, false, _ => rfl
  have stand : s.marks.StandIn t.marks :=
    (kept_marksStandIn s.marks).step (fun _ _ h => h) only_off (.refl _) hstep
  exact ⟨stand.unpowered, stand.txRegWhileBusy, stand.mailboxOverrun, stand.pktRamOff, stand.refused⟩

end Sys2Proof.Machine

/-! The state after reset (O54). -/

namespace Sys2Proof.Machine

open Sys2Proof.Claims

/-- R197 with R43: `slot_torn` is 1 for every slot. -/
theorem reset_slotTorn {k : Nat} (hk : k < 16) : State.reset.slotTorn.getLsbD k = true := by
  have allTorn : State.reset.slotTorn = BitVec.allOnes 16 := rfl
  rw [allTorn, BitVec.getLsbD_allOnes]
  exact decide_eq_true hk

/-- R134 at reset: no frame is in transmission, and the receiver holds none. -/
theorem reset_engineInv : EngineInv State.reset := ⟨nofun, nofun, rfl, nofun⟩

/-- Settles O54: each value is the one `State.reset` names, and the invariants hold of them. -/
theorem resetStateIsAsStated : Obligations.ResetStateIsAsStated := by
  obtain ⟨hwf, hrange⟩ := reset_packetRam_canonical
  exact ⟨fun _ hk => reset_slotTorn hk, rfl, rfl, rfl, rfl, rfl, rfl, reset_engineInv, hwf, hrange, Nat.zero_le 16⟩

end Sys2Proof.Machine

/-! A register word splits into its fields and back: `FIELD_LAYOUT` covers each bit of the word once. -/

namespace Sys2Proof.Machine

theorem ofBool_getLsbD (v : Word) (k : Nat) : BitVec.ofBool (v.getLsbD k) = v.extractLsb' k 1 := by
  refine BitVec.eq_of_getLsbD_eq fun i hi => ?_
  have h0 : i = 0 := by omega
  subst h0
  simp

theorem Cntrl1.toWord_ofWord (v : Word) : (Cntrl1.ofWord v).toWord = v := by
  simp only [Cntrl1.toWord, Cntrl1.ofWord, ofBool_getLsbD, BitVec.extractLsb'_append_extractLsb'_eq_extractLsb']
  exact BitVec.extractLsb'_eq_self

theorem Cntrl2.toWord_ofWord (v : Word) : (Cntrl2.ofWord v).toWord = v := by
  simp only [Cntrl2.toWord, Cntrl2.ofWord, ofBool_getLsbD, BitVec.extractLsb'_append_extractLsb'_eq_extractLsb']
  exact BitVec.extractLsb'_eq_self

theorem Cntrl3.toWord_ofWord (v : Word) : (Cntrl3.ofWord v).toWord = v := by
  simp only [Cntrl3.toWord, Cntrl3.ofWord, BitVec.extractLsb'_append_extractLsb'_eq_extractLsb']
  exact BitVec.extractLsb'_eq_self

theorem Cntrl4.toWord_ofWord (v : Word) : (Cntrl4.ofWord v).toWord = v := by
  simp only [Cntrl4.toWord, Cntrl4.ofWord, BitVec.extractLsb'_append_extractLsb'_eq_extractLsb']
  exact BitVec.extractLsb'_eq_self

theorem Cntrl5.toWord_ofWord (v : Word) : (Cntrl5.ofWord v).toWord = v := by
  simp only [Cntrl5.toWord, Cntrl5.ofWord, ofBool_getLsbD, BitVec.extractLsb'_append_extractLsb'_eq_extractLsb']
  exact BitVec.extractLsb'_eq_self

theorem PktConfig.toWord_ofWord (v : Word) : (PktConfig.ofWord v).toWord = v := by
  simp only [PktConfig.toWord, PktConfig.ofWord, ofBool_getLsbD, BitVec.extractLsb'_append_extractLsb'_eq_extractLsb']
  exact BitVec.extractLsb'_eq_self

theorem StatusWord.toWord_ofWord (v : Word) : (StatusWord.ofWord v).toWord = v := by
  simp only [StatusWord.toWord, StatusWord.ofWord, BitVec.extractLsb'_append_extractLsb'_eq_extractLsb']
  exact BitVec.extractLsb'_eq_self

theorem Lanes.toWord_ofWord (v : Word) : (Lanes.ofWord v).toWord = v := by
  simp only [Lanes.toWord, Lanes.ofWord, BitVec.extractLsb'_append_extractLsb'_eq_extractLsb']
  exact BitVec.extractLsb'_eq_self

/-- Bit `c` is the CEC source's, and every other bit stands in the word of the other sources (R104, R107). -/
theorem IrqWord.toWord_ofWord (c : Fin 32) (v : Word) : (IrqWord.ofWord c v).toWord c = v := by
  unfold IrqWord.toWord IrqWord.ofWord
  refine BitVec.eq_of_getLsbD_eq fun i hi => ?_
  by_cases hc : i = c.val
  · subst hc
    cases v.getLsbD c.val <;> simp
  · cases v.getLsbD c.val <;> simp [hc, hi]

end Sys2Proof.Machine

/-! The guard of R89 at every MMIO row (O13, O14): each read row is one guarded read and each write row one guarded
write. -/

namespace Sys2Proof.Machine

open Sys2Proof.Claims

/-- A read with an index in range is one guarded read whose layout shows a drawn word as it is (R89). -/
theorem exec_of_isRead {i : Instr} (hi : IsRead i) (s : State) :
    ∃ (α : Type) (ofDraw : Word → α) (value : State → α) (toWord : α → Word),
      (∀ v, toWord (ofDraw v) = v) ∧ exec i s = answerRead toWord (mmioRead ofDraw value s) := by
  cases i with
  | rdCecCntrl1 => exact ⟨_, _, _, _, Cntrl1.toWord_ofWord, rfl⟩
  | rdCecCntrl2 => exact ⟨_, _, _, _, Cntrl2.toWord_ofWord, rfl⟩
  | rdCecCntrl3 => exact ⟨_, _, _, _, Cntrl3.toWord_ofWord, rfl⟩
  | rdCecCntrl4 => exact ⟨_, _, _, _, Cntrl4.toWord_ofWord, rfl⟩
  | rdCecCntrl5 => exact ⟨_, _, _, _, Cntrl5.toWord_ofWord, rfl⟩
  | rdCecTxData w => exact ⟨_, _, _, _, Lanes.toWord_ofWord, if_pos hi⟩
  | rdCecRxData w => exact ⟨_, _, _, _, Lanes.toWord_ofWord, if_pos hi⟩
  | rdCecCpuStatus => exact ⟨_, _, _, _, IrqWord.toWord_ofWord s.variant.irqBit, rfl⟩
  | rdCecCpuMaskStatus => exact ⟨_, _, _, _, IrqWord.toWord_ofWord s.variant.irqBit, rfl⟩
  | rdRamPacketConfig => exact ⟨_, _, _, _, PktConfig.toWord_ofWord, rfl⟩
  | rdRamPacketStatus => exact ⟨_, _, _, _, StatusWord.toWord_ofWord, rfl⟩
  | _ => exact hi.elim

/-- A write with an index in range is one guarded write (R89). -/
theorem exec_of_isWrite {i : Instr} (hi : IsWrite i) :
    ∃ effect : State → State, ∀ s, exec i s = .next (mmioWrite effect s) := by
  cases i with
  | wrCecCntrl1 | wrCecCntrl2 | wrCecCntrl3 | wrCecCntrl4 | wrCecCntrl5 | wrCecCpuSet | wrCecCpuClear
  | wrCecCpuMaskSet | wrCecCpuMaskClear | wrRamPacketConfig => exact ⟨_, fun _ => rfl⟩
  | wrCecTxData w v => exact ⟨_, fun _ => if_pos hi⟩
  | wrPacketRam w v => exact ⟨_, fun _ => congrArg Host.Outcome.next (if_pos hi)⟩
  | _ => exact hi.elim

/-- Settles O13: what a guarded read leaves does not depend on the register it reads. -/
theorem readsHaveNoSideEffect : Obligations.ReadsHaveNoSideEffect := by
  intro i s hi
  obtain ⟨α, ofDraw, value, toWord, -, hexec⟩ := exec_of_isRead hi s
  refine ⟨toWord (mmioRead ofDraw value s).1, ?_⟩
  rw [hexec, answerRead, mmioRead_state]

/-- Settles O14: the guard answers before the register is reached, and the layout shows the drawn word as it is. -/
theorem unpoweredAccessFaults : Obligations.UnpoweredAccessFaults := by
  intro i s hoff
  constructor
  case left =>
    intro hi
    obtain ⟨α, ofDraw, value, toWord, hword, hexec⟩ := exec_of_isRead hi s
    refine ⟨Config.drawWord s.draws, ?_, fun _ _ => rfl⟩
    rw [hexec, mmioRead_of_unpowered hoff, answerRead, hword]
    rfl
  case right =>
    intro hi
    obtain ⟨effect, hexec⟩ := exec_of_isWrite hi
    rw [hexec, mmioWrite_of_unpowered hoff]
    rfl

end Sys2Proof.Machine

/-! Raw bus addresses (O6, O7): the word a byte address meets, and the access it is. -/

namespace Sys2Proof

theorem LReg.mem_all (r : LReg) : r ∈ LReg.all := by cases r <;> decide

end Sys2Proof

namespace Sys2Proof.Machine

/-- A byte address meets word `w` of a register exactly where R56 puts that word. -/
theorem wordAt_eq_some {v : Variant} {addr w : Nat} {r q : LReg} :
    wordAt v addr r = some (q, w) ↔
      q = r ∧ ∃ a, regAddress v r = some a ∧ w ≤ r.lastIndex ∧ addr = a + 4 * w := by
  unfold wordAt
  cases hreg : regAddress v r with
  | none => simp
  | some a =>
    dsimp only
    split_ifs with hmeets
    · obtain ⟨hlow, hhigh, haligned⟩ := hmeets
      simp only [Option.some.injEq, Prod.mk.injEq, exists_eq_left', eq_comm (a := r)]
      refine and_congr_right fun _ => ⟨fun hw => ?_, fun hw => ?_⟩ <;> omega
    · simp only [Option.some.injEq, exists_eq_left', false_iff, not_and]
      intro _ hw haddr
      exact hmeets (by omega)

/-- An address of no listed word meets no register. -/
theorem findSome_wordAt_eq_none {v : Variant} {addr : Nat}
    (h : ∀ (r : LReg) (a w : Nat), regAddress v r = some a → w ≤ r.lastIndex → addr ≠ a + 4 * w) :
    LReg.all.findSome? (wordAt v addr) = none := by
  rw [List.findSome?_eq_none_iff]
  intro r _
  rw [Option.eq_none_iff_forall_ne_some]
  rintro ⟨q, w⟩ hmeets
  obtain ⟨-, a, ha, hw, haddr⟩ := wordAt_eq_some.mp hmeets
  exact h r a w ha hw haddr

/-- R58: another width, a misaligned address, and an address of no listed word. -/
theorem busInstr_eq_badAccess {v : Variant} {b : BusAccess}
    (h : b.width ≠ 32 ∨ b.addr % 4 ≠ 0 ∨
      ∀ (r : LReg) (a w : Nat), regAddress v r = some a → w ≤ r.lastIndex → b.addr ≠ a + 4 * w) :
    busInstr v b = .error .badAccess := by
  by_cases hshape : b.width ≠ 32 ∨ b.addr % 4 ≠ 0
  · exact if_pos hshape
  · have hunlisted := (or_assoc.mpr h).resolve_left hshape
    rw [busInstr, if_neg hshape, findSome_wordAt_eq_none hunlisted]

/-- An aligned 32-bit access of the word met is the register's own access, where its direction has one. -/
theorem busInstr_eq_ok {v : Variant} {b : BusAccess} {r : LReg} {w : Nat} {i : Instr} (hwidth : b.width = 32)
    (haligned : b.addr % 4 = 0) (hmeets : LReg.all.findSome? (wordAt v b.addr) = some (r, w))
    (hi : (if b.write then r.write (BitVec.ofNat 10 w) b.value else r.read (BitVec.ofNat 10 w)) = some i) :
    busInstr v b = .ok i := by
  simp only [busInstr, hwidth, haligned, hmeets, hi, ne_eq, not_true_eq_false, or_self, if_false]

theorem step_of_busInstr_ok {s : State} {b : BusAccess} {rest : List Item} {i : Instr}
    (hfeed : s.feed = .bus b :: rest) (hb : busInstr s.variant b = .ok i) :
    step s = exec i { s with feed := rest, plan := [] } := by
  simp only [step, hfeed, hb]

theorem step_of_busInstr_error {s : State} {b : BusAccess} {rest : List Item} {e : Reason}
    (hfeed : s.feed = .bus b :: rest) (hb : busInstr s.variant b = .error e) :
    step s = .next (State.refuse e { s with feed := rest }) := by
  simp only [step, hfeed, hb]

/-- Settles O7: each of R58's three causes leaves no access, and a refusal sets the mark alone (R181). -/
theorem badBusAccessIsRefused : Obligations.BadBusAccessIsRefused := by
  intro s b rest hfeed hbad
  exact step_of_busInstr_error hfeed (busInstr_eq_badAccess hbad)

/-! The offsets of LEGACY (R54). -/

theorem legacyOffset_mod_four (r : LReg) : legacyOffset r % 4 = 0 := by cases r <;> rfl

/-- The table of R54 keeps registers apart: of two registers, the words of one end below the other. -/
theorem legacyOffset_disjoint : ∀ r ∈ LReg.all, ∀ q ∈ LReg.all, r ≠ q →
    legacyOffset r + 4 * r.lastIndex < legacyOffset q ∨ legacyOffset q + 4 * q.lastIndex < legacyOffset r := by
  decide

/-- On LEGACY no byte address belongs to two words. -/
theorem legacyOffset_word_inj {r q : LReg} {w u : Nat} (hw : w ≤ r.lastIndex) (hu : u ≤ q.lastIndex)
    (h : legacyOffset r + 4 * w = legacyOffset q + 4 * u) : r = q ∧ w = u := by
  have hreg : r = q := by
    by_contra hne
    have hapart := legacyOffset_disjoint r r.mem_all q q.mem_all hne
    omega
  subst hreg
  exact ⟨rfl, by omega⟩

theorem regAddress_legacy {v : Variant} (hgen : v.gen = .legacy) (r : LReg) :
    regAddress v r = some (v.combinedBase + legacyOffset r) := by
  simp only [regAddress, hgen]

/-- On LEGACY the byte address of a word meets that word, whatever register the search tries first. -/
theorem findSome_wordAt_legacy {v : Variant} {r : LReg} {w : Nat} (hgen : v.gen = .legacy) (hw : w ≤ r.lastIndex) :
    LReg.all.findSome? (wordAt v (v.combinedBase + legacyOffset r + 4 * w)) = some (r, w) := by
  have hmeets : wordAt v (v.combinedBase + legacyOffset r + 4 * w) r = some (r, w) :=
    wordAt_eq_some.mpr ⟨rfl, _, regAddress_legacy hgen r, hw, rfl⟩
  have hfound := List.findSome?_isSome_iff.mpr ⟨r, r.mem_all, Option.isSome_of_eq_some hmeets⟩
  obtain ⟨⟨q, u⟩, hq⟩ := Option.isSome_iff_exists.mp hfound
  obtain ⟨p, -, hp⟩ := List.exists_of_findSome?_eq_some hq
  obtain ⟨rfl, a, ha, hu, haddr⟩ := wordAt_eq_some.mp hp
  rw [regAddress_legacy hgen, Option.some.injEq] at ha
  obtain ⟨rfl, rfl⟩ := legacyOffset_word_inj hw hu (by omega)
  exact hq

/-- Settles O6: the address is aligned and meets the word it was made from, so the access is that word's. -/
theorem legacyBusAddressNamesTheAccess : Obligations.LegacyBusAddressNamesTheAccess := by
  intro s r w v write i rest hgen hbase hw hi hfeed
  have haligned : (s.variant.combinedBase + legacyOffset r + 4 * w) % 4 = 0 := by
    have hoffset := legacyOffset_mod_four r
    omega
  exact step_of_busInstr_ok hfeed (busInstr_eq_ok rfl haligned (findSome_wordAt_legacy hgen hw) hi)

end Sys2Proof.Machine

/-! The fields of a descriptor (R69 to R72): every word is of one of the three formats, and a word of a format has the
fields it was made of. -/

namespace Sys2Proof

/-- A word of the MMIO format (R70) with any register number and any bits between the number and the index. -/
def mmioFields (write : Bool) (num : BitVec 6) (mid : BitVec 14) (w : BitVec 10) : Word :=
  (if write then 1#2 else 0#2) ++ num ++ mid ++ w

theorem mmioWord_eq_mmioFields (write : Bool) (r : LReg) (w : BitVec 10) :
    mmioWord write r w = mmioFields write r.num 0 w := rfl

section

open BitVec

variable (write : Bool) (n : BitVec 6) (mid : BitVec 14) (w : BitVec 10) (o : BitVec 24)

@[simp] theorem mmioFields_class : (mmioFields write n mid w).extractLsb' 30 2 = if write then 1#2 else 0#2 :=
  calc (mmioFields write n mid w).extractLsb' 30 2
    _ = ((if write then 1#2 else 0#2) ++ n ++ mid).extractLsb' 20 2 := extractLsb'_append_eq_of_le (by decide)
    _ = ((if write then 1#2 else 0#2) ++ n).extractLsb' 6 2 := extractLsb'_append_eq_of_le (by decide)
    _ = _ := extractLsb'_append_eq_left

@[simp] theorem mmioFields_num : (mmioFields write n mid w).extractLsb' 24 6 = n :=
  calc (mmioFields write n mid w).extractLsb' 24 6
    _ = ((if write then 1#2 else 0#2) ++ n ++ mid).extractLsb' 14 6 := extractLsb'_append_eq_of_le (by decide)
    _ = ((if write then 1#2 else 0#2) ++ n).extractLsb' 0 6 := extractLsb'_append_eq_of_le (by decide)
    _ = n := extractLsb'_append_eq_right

@[simp] theorem mmioFields_mid : (mmioFields write n mid w).extractLsb' 10 14 = mid :=
  (extractLsb'_append_eq_of_le (by decide)).trans extractLsb'_append_eq_right

@[simp] theorem mmioFields_index : (mmioFields write n mid w).extractLsb' 0 10 = w := extractLsb'_append_eq_right

@[simp] theorem opWord_class : (opWord n o).extractLsb' 30 2 = 2#2 :=
  (extractLsb'_append_eq_of_le (by decide)).trans extractLsb'_append_eq_left

@[simp] theorem opWord_code : (opWord n o).extractLsb' 24 6 = n :=
  (extractLsb'_append_eq_of_le (by decide)).trans extractLsb'_append_eq_right

theorem opWord_operand {lo len : Nat} (h : lo + len ≤ 24) :
    (opWord n o).extractLsb' lo len = o.extractLsb' lo len := extractLsb'_append_eq_of_add_le h

@[simp] theorem evWord_class : (evWord n o).extractLsb' 30 2 = 3#2 :=
  (extractLsb'_append_eq_of_le (by decide)).trans extractLsb'_append_eq_left

@[simp] theorem evWord_code : (evWord n o).extractLsb' 24 6 = n :=
  (extractLsb'_append_eq_of_le (by decide)).trans extractLsb'_append_eq_right

theorem evWord_operand {lo len : Nat} (h : lo + len ≤ 24) :
    (evWord n o).extractLsb' lo len = o.extractLsb' lo len := extractLsb'_append_eq_of_add_le h

theorem evWord_getLsbD {k : Nat} (h : k < 24) : (evWord n o).getLsbD k = o.getLsbD k :=
  getLsbD_append.trans (if_pos h)

end

/-- R69, R70: a word of class 0 or 1 is of the MMIO format. -/
theorem eq_mmioFields {d : Word} {write : Bool} (h : d.extractLsb' 30 2 = if write then 1#2 else 0#2) :
    d = mmioFields write (d.extractLsb' 24 6) (d.extractLsb' 10 14) (d.extractLsb' 0 10) := by
  unfold mmioFields
  simp only [← h, BitVec.extractLsb'_append_extractLsb'_eq_extractLsb']
  exact BitVec.extractLsb'_eq_self.symm

/-- R69, R71: a word of class 2 is of the OP format. -/
theorem eq_opWord {d : Word} (h : d.extractLsb' 30 2 = 2#2) :
    d = opWord (d.extractLsb' 24 6) (d.extractLsb' 0 24) := by
  unfold opWord
  simp only [← h, BitVec.extractLsb'_append_extractLsb'_eq_extractLsb']
  exact BitVec.extractLsb'_eq_self.symm

/-- R69, R72: a word of class 3 is of the EV format. -/
theorem eq_evWord {d : Word} (h : d.extractLsb' 30 2 = 3#2) :
    d = evWord (d.extractLsb' 24 6) (d.extractLsb' 0 24) := by
  unfold evWord
  simp only [← h, BitVec.extractLsb'_append_extractLsb'_eq_extractLsb']
  exact BitVec.extractLsb'_eq_self.symm

/-- R69: every word is of one of the three formats. -/
theorem word_formats (d : Word) :
    (∃ write n mid w, d = mmioFields write n mid w) ∨ (∃ n o, d = opWord n o) ∨ ∃ n o, d = evWord n o := by
  have classes : ∀ c : BitVec 2, c = 0#2 ∨ c = 1#2 ∨ c = 2#2 ∨ c = 3#2 := by decide
  rcases classes (d.extractLsb' 30 2) with h | h | h | h
  · exact .inl ⟨false, _, _, _, eq_mmioFields h⟩
  · exact .inl ⟨true, _, _, _, eq_mmioFields h⟩
  · exact .inr (.inl ⟨_, _, eq_opWord h⟩)
  · exact .inr (.inr ⟨_, _, eq_evWord h⟩)

/-- An operand whose bits from `k` on are zero is its low `k` bits. -/
theorem setWidth_low {n k : Nat} {x : BitVec n} (h : x.extractLsb' k (n - k) = 0) :
    (x.extractLsb' 0 k).setWidth n = x := by
  refine BitVec.eq_of_getLsbD_eq fun i hi => ?_
  by_cases hik : i < k
  · simp [hi, hik]
  · have hbit : (x.extractLsb' k (n - k)).getLsbD (i - k) = false := by simp [h]
    have hlow : k + (i - k) = i := by omega
    have hlen : i - k < n - k := by omega
    rw [BitVec.getLsbD_extractLsb', hlow, decide_eq_true hlen, Bool.true_and] at hbit
    rw [hbit, BitVec.getLsbD_setWidth, BitVec.getLsbD_extractLsb', decide_eq_false hik, Bool.false_and, Bool.and_false]

end Sys2Proof

/-! The bytes beside a descriptor: each reader takes back what the encoder writes, with whatever follows it, and what
it takes is well-formed. -/

namespace Sys2Proof

theorem append_halfBytes (v : BitVec 16) : v.extractLsb' 8 8 ++ v.extractLsb' 0 8 = v := by
  simp only [BitVec.extractLsb'_append_extractLsb'_eq_extractLsb']
  exact BitVec.extractLsb'_eq_self

theorem takeWord_wordBytes (v : Word) (rest : List Byte) : takeWord (wordBytes v ++ rest) = .ok (v, rest) := by
  have hv : v.extractLsb' 24 8 ++ v.extractLsb' 16 8 ++ v.extractLsb' 8 8 ++ v.extractLsb' 0 8 = v := by
    simp only [BitVec.extractLsb'_append_extractLsb'_eq_extractLsb']
    exact BitVec.extractLsb'_eq_self
  exact congrArg (fun w => Except.ok (w, rest)) hv

theorem takeAvi_aviBytes (r : AviRecord) (rest : List Byte) : takeAvi (aviBytes r ++ rest) = .ok (r, rest) := by
  simp [takeAvi, aviBytes, halfBytes, append_halfBytes, BitVec.setWidth_setWidth_of_le]

theorem takeAudio_audioBytes {r : AudioRecord} (h : r.wf = true) (rest : List Byte) :
    takeAudio (audioBytes r ++ rest) = .ok (r, rest) := by
  have hch : r.ch ≤ 8 := of_decide_eq_true h
  have hbyte : (BitVec.ofNat 8 (min r.ch 255)).toNat = r.ch := by
    rw [BitVec.toNat_ofNat]
    omega
  simp only [takeAudio, audioBytes, List.cons_append, List.nil_append, hbyte, Nat.not_lt.mpr hch, if_false]
  simp [BitVec.setWidth_setWidth_of_le]

/-- A record of any kind is read back by its kind's reader. -/
theorem takeRecord_recordBytes {rec : Record} (h : rec.wf = true) (rest : List Byte) :
    takeRecord (recordBytes rec ++ rest) = .ok (rec, rest) := by
  cases rec with
  | avi r => simp [takeRecord, recordBytes, takeAvi_aviBytes, Except.map]
  | spd r => simp [takeRecord, recordBytes, takeSpd_spdBytes, Except.map]
  | audio r => simp [takeRecord, recordBytes, takeAudio_audioBytes h, Except.map]

/-- What a mapped reader answers is what the reader took. -/
theorem eq_ok_of_map_eq_ok {ε α β : Type} {x : Except ε α} {f : α → β} {b : β} (h : x.map f = .ok b) :
    ∃ a, x = .ok a ∧ f a = b := by
  cases x with
  | error e => exact nomatch h
  | ok a => exact ⟨a, rfl, Except.ok.inj h⟩

theorem length_of_takeBytes {n : Nat} {bs : List Byte} {p : List Byte × List Byte} (h : takeBytes n bs = .ok p) :
    p.1.length = n := by
  induction n generalizing bs p with
  | zero =>
    obtain rfl := Except.ok.inj h
    rfl
  | succ n ih =>
    cases bs with
    | nil => exact nomatch h
    | cons b bs =>
      unfold takeBytes at h
      split at h
      next htail =>
        obtain rfl := Except.ok.inj h
        exact congrArg (· + 1) (ih htail)
      next => exact nomatch h

/-- R152: a channel count above 8 is no record. -/
theorem wf_of_takeAudio {bs rest : List Byte} {r : AudioRecord} (h : takeAudio bs = .ok (r, rest)) : r.wf = true := by
  unfold takeAudio at h
  split at h
  next ch _ _ _ _ _ _ _ _ _ =>
    split at h
    next => exact nomatch h
    next hch =>
      obtain ⟨rfl, -⟩ := Prod.mk.inj (Except.ok.inj h)
      exact decide_eq_true (Nat.not_lt.mp hch)
  next => exact nomatch h

theorem wf_of_takeRecord {bs rest : List Byte} {rec : Record} (h : takeRecord bs = .ok (rec, rest)) :
    rec.wf = true := by
  unfold takeRecord at h
  split at h
  next =>
    obtain ⟨p, -, hp⟩ := eq_ok_of_map_eq_ok h
    obtain ⟨rfl, -⟩ := Prod.mk.inj hp
    rfl
  next =>
    obtain ⟨p, -, hp⟩ := eq_ok_of_map_eq_ok h
    obtain ⟨rfl, -⟩ := Prod.mk.inj hp
    rfl
  next =>
    obtain ⟨p, htake, hp⟩ := eq_ok_of_map_eq_ok h
    obtain ⟨rfl, -⟩ := Prod.mk.inj hp
    exact wf_of_takeAudio htake
  next => exact nomatch h
  next => exact nomatch h

end Sys2Proof

/-! The logical registers (R73): their numbers, and the instructions their accesses are. -/

namespace Sys2Proof

theorem LReg.ofNum_num (r : LReg) : LReg.ofNum r.num = some r := by cases r <;> rfl

theorem LReg.num_of_ofNum {n : BitVec 6} {r : LReg} (h : LReg.ofNum n = some r) : n = r.num := by
  unfold LReg.ofNum at h
  have hnum := List.find?_some h
  exact (beq_iff_eq.mp hnum).symm

/-- Where a register may be written does not depend on the word written. -/
theorem LReg.isSome_write (w : BitVec 10) (u v : Word) (r : LReg) :
    (r.write w u).isSome = (r.write w v).isSome := by cases r <;> rfl

/-- A scalar's only word index is 0. -/
theorem eq_zero_of_toNat_le_zero {w : BitVec 10} (h : w.toNat ≤ 0) : w = 0 :=
  BitVec.eq_of_toNat_eq (Nat.le_zero.mp h)

/-- R73: the read of a register with an index in range is well-formed, and the register and the index are its
descriptor's. -/
theorem LReg.read_sound {r : LReg} {w : BitVec 10} {i : Instr} (hw : w.toNat ≤ r.lastIndex)
    (hi : r.read w = some i) : i.wf = true ∧ descriptor i = mmioWord false r w := by
  cases r with
  | cecTxData | cecRxData =>
    obtain rfl := Option.some.inj hi
    exact ⟨decide_eq_true (Nat.lt_succ_of_le hw), rfl⟩
  | cecCpuSet | cecCpuClear | cecCpuMaskSet | cecCpuMaskClear | packetRam => exact nomatch hi
  | _ =>
    obtain rfl := Option.some.inj hi
    obtain rfl := eq_zero_of_toNat_le_zero hw
    exact ⟨rfl, rfl⟩

/-- R73: the write of a register with an index in range is well-formed, and the register and the index are its
descriptor's. -/
theorem LReg.write_sound {r : LReg} {w : BitVec 10} {v : Word} {i : Instr} (hw : w.toNat ≤ r.lastIndex)
    (hi : r.write w v = some i) : i.wf = true ∧ descriptor i = mmioWord true r w := by
  cases r with
  | cecTxData | packetRam =>
    obtain rfl := Option.some.inj hi
    exact ⟨decide_eq_true (Nat.lt_succ_of_le hw), rfl⟩
  | cecRxData | cecCpuStatus | cecCpuMaskStatus | ramPacketStatus => exact nomatch hi
  | _ =>
    obtain rfl := Option.some.inj hi
    obtain rfl := eq_zero_of_toNat_le_zero hw
    exact ⟨rfl, rfl⟩

end Sys2Proof

/-! The decoder on each of the three formats (R70 to R72). -/

namespace Sys2Proof

theorem decodePrefix_mmioFields (write : Bool) (n : BitVec 6) (mid : BitVec 14) (w : BitVec 10) (bs : List Byte) :
    decodePrefix (mmioFields write n mid w) bs = decodeMmio write (mmioFields write n mid w) bs := by
  unfold decodePrefix
  rw [mmioFields_class]
  cases write <;> rfl

theorem decodePrefix_opWord (n : BitVec 6) (o : BitVec 24) (bs : List Byte) :
    decodePrefix (opWord n o) bs = decodeOp (opWord n o) bs := by
  unfold decodePrefix
  rw [opWord_class]
  rfl

theorem decodePrefix_evWord (n : BitVec 6) (o : BitVec 24) (bs : List Byte) :
    decodePrefix (evWord n o) bs = decodeEv (evWord n o) bs := by
  unfold decodePrefix
  rw [evWord_class]
  rfl

/-- R84 (a) to (c): what the MMIO format decodes has a listed register, zero bits between, and an index in range. -/
theorem fields_of_decodeMmio {write : Bool} {n : BitVec 6} {mid : BitVec 14} {w : BitVec 10} {bs : List Byte}
    {p : Instr × List Byte} (h : decodeMmio write (mmioFields write n mid w) bs = .ok p) :
    ∃ r : LReg, n = r.num ∧ mid = 0 ∧ w.toNat ≤ r.lastIndex := by
  unfold decodeMmio at h
  rw [mmioFields_num, mmioFields_mid, mmioFields_index] at h
  split at h
  next => exact nomatch h
  next r hr =>
    dsimp only at h
    split_ifs at h with hmid hindex
    all_goals exact ⟨r, LReg.num_of_ofNum hr, not_not.mp hmid, Nat.not_lt.mp hindex⟩

/-- R84 (d): a descriptor of a read decodes to the register's read, and takes no byte beside it. -/
theorem decodeMmio_read_iff {r : LReg} {w : BitVec 10} {bs rest : List Byte} {i : Instr} (hw : w.toNat ≤ r.lastIndex) :
    decodeMmio false (mmioWord false r w) bs = .ok (i, rest) ↔ r.read w = some i ∧ rest = bs := by
  unfold decodeMmio
  rw [mmioWord_eq_mmioFields, mmioFields_num, mmioFields_mid, mmioFields_index, LReg.ofNum_num]
  dsimp only
  rw [if_neg (not_not.mpr rfl), if_neg (Nat.not_lt.mpr hw), if_neg Bool.false_ne_true]
  cases r.read w with
  | none => simp
  | some j => simp [eq_comm (a := bs)]

/-- R84 (d): a descriptor of a write decodes to the register's write of the word beside it. -/
theorem decodeMmio_write_iff {r : LReg} {w : BitVec 10} {bs rest : List Byte} {i : Instr}
    (hw : w.toNat ≤ r.lastIndex) :
    decodeMmio true (mmioWord true r w) bs = .ok (i, rest) ↔
      ∃ v, takeWord bs = .ok (v, rest) ∧ r.write w v = some i := by
  unfold decodeMmio
  rw [mmioWord_eq_mmioFields, mmioFields_num, mmioFields_mid, mmioFields_index, LReg.ofNum_num]
  dsimp only
  rw [if_neg (not_not.mpr rfl), if_neg (Nat.not_lt.mpr hw), if_pos rfl]
  cases hzero : r.write w 0 with
  | none =>
    have hnone (v : Word) : r.write w v = none := by
      rw [← Option.not_isSome_iff_eq_none, r.isSome_write w v 0, hzero]
      exact Bool.false_ne_true
    simp [hnone]
  | some j =>
    cases htake : takeWord bs with
    | error e => simp
    | ok p =>
      obtain ⟨v, rest'⟩ := p
      obtain ⟨k, hk⟩ : ∃ k, r.write w v = some k :=
        Option.isSome_iff_exists.mp (by rw [r.isSome_write w v 0, hzero, Option.isSome_some])
      simp [hk, and_comm]

end Sys2Proof

/-! The operands of the OP and EV formats (R74, R76): the bits a row uses, and zero in the others. -/

namespace Sys2Proof

open BitVec

theorem extractLsb'_setWidth_low {k n : Nat} (x : BitVec k) (h : k ≤ n) : (x.setWidth n).extractLsb' 0 k = x := by
  rw [← setWidth_eq_extractLsb' h, setWidth_setWidth_of_le x h, setWidth_eq]

theorem extractLsb'_setWidth_high {k n m : Nat} (x : BitVec k) : (x.setWidth n).extractLsb' k m = 0 := by
  refine eq_of_getLsbD_eq fun i _ => ?_
  simp

theorem ofNat_eq_setWidth {k n m : Nat} (h : m < 2 ^ k) : BitVec.ofNat n m = (BitVec.ofNat k m).setWidth n := by
  rw [← ofNat_toNat, toNat_ofNat, Nat.mod_eq_of_lt h]

theorem ofBool_getLsbD_eq_extractLsb' {n : Nat} (x : BitVec n) (k : Nat) :
    BitVec.ofBool (x.getLsbD k) = x.extractLsb' k 1 := by
  refine eq_of_getLsbD_eq fun i hi => ?_
  obtain rfl : i = 0 := by omega
  simp

/-- R76: an operand with zero above bit 0 is that bit. -/
theorem attemptOperand_eq {o : BitVec 24} (h : o.extractLsb' 1 23 = 0) :
    0#23 ++ BitVec.ofBool (o.getLsbD 0) = o := by
  have hzero : 0#23 = o.extractLsb' 1 23 := h.symm
  rw [hzero, ofBool_getLsbD_eq_extractLsb']
  simp only [extractLsb'_append_extractLsb'_eq_extractLsb']
  exact extractLsb'_eq_self

/-- R76: the slot and the bit of a status operand stand at their places, and every other bit is zero. -/
theorem statusOperand_fields : ∀ (s : BitVec 5) (b : Bool),
    let o := 0#15 ++ BitVec.ofBool b ++ 0#3 ++ s
    o.extractLsb' 5 3 = 0 ∧ o.extractLsb' 9 15 = 0 ∧ o.extractLsb' 0 5 = s ∧ o.getLsbD 8 = b := by decide

/-- R76: an operand with zero outside bits 0 to 4 and 8 is those bits. -/
theorem statusOperand_eq {o : BitVec 24} (hmid : o.extractLsb' 5 3 = 0) (hhigh : o.extractLsb' 9 15 = 0) :
    0#15 ++ BitVec.ofBool (o.getLsbD 8) ++ 0#3 ++ o.extractLsb' 0 5 = o := by
  have hmid' : 0#3 = o.extractLsb' 5 3 := hmid.symm
  have hhigh' : 0#15 = o.extractLsb' 9 15 := hhigh.symm
  rw [hmid', hhigh', ofBool_getLsbD_eq_extractLsb']
  simp only [extractLsb'_append_extractLsb'_eq_extractLsb']
  exact extractLsb'_eq_self

end Sys2Proof

/-! What the decoder accepts (O2). -/

namespace Sys2Proof

/-- R76: a frame has 1 to 16 bytes. -/
theorem wf_evRxFrame_iff {frame : List Byte} :
    (Instr.evRxFrame frame).wf = true ↔ 1 ≤ frame.length ∧ frame.length ≤ 16 := by
  unfold Instr.wf
  rw [Bool.and_eq_true, decide_eq_true_iff, decide_eq_true_iff]
  rfl

/-- A check that answers was passed. -/
theorem of_guard_eq_ok {ε α : Type} {c : Prop} [Decidable c] {x : Except ε α} {e : ε} {a : α}
    (h : (if c then x else .error e) = .ok a) : c ∧ x = .ok a := by
  split_ifs at h with hc
  exact ⟨hc, h⟩

/-- A row that uses no operand bit answers its own instruction for the operand 0 alone. -/
theorem of_plain_eq_ok {o : BitVec 24} {why : Reject} {i j : Instr} {bs rest : List Byte}
    (h : plain (o.extractLsb' 0 24) why j bs = .ok (i, rest)) : o = 0 ∧ j = i := by
  obtain ⟨hzero, hj⟩ := of_guard_eq_ok h
  exact ⟨BitVec.extractLsb'_eq_self.symm.trans hzero, (Prod.mk.inj (Except.ok.inj hj)).1⟩

/-- R74: what the OP format decodes is well-formed, and its code and operand are its descriptor's. -/
theorem decodeOp_sound {n : BitVec 6} {o : BitVec 24} {bs rest : List Byte} {i : Instr}
    (h : decodeOp (opWord n o) bs = .ok (i, rest)) : i.wf = true ∧ descriptor i = opWord n o := by
  unfold decodeOp at h
  simp (disch := decide) only [opWord_code, opWord_operand] at h
  split at h
  case h_1 hn | h_2 hn | h_3 hn | h_6 hn | h_7 hn | h_8 hn | h_9 hn =>
    obtain ⟨rfl, rfl⟩ := of_plain_eq_ok h
    exact ⟨rfl, congrArg (opWord · 0) (BitVec.eq_of_toNat_eq hn.symm)⟩
  case h_4 hn =>
    obtain ⟨hhigh, hi⟩ := of_guard_eq_ok h
    obtain ⟨rfl, -⟩ := Prod.mk.inj (Except.ok.inj hi)
    exact ⟨rfl, congrArg₂ opWord (BitVec.eq_of_toNat_eq hn.symm) (setWidth_low hhigh)⟩
  case h_5 hn =>
    obtain ⟨hhigh, hi⟩ := of_guard_eq_ok h
    obtain ⟨p, htake, hp⟩ := eq_ok_of_map_eq_ok hi
    obtain ⟨rfl, -⟩ := Prod.mk.inj hp
    have hlen := length_of_takeBytes htake
    have hbyte := (o.extractLsb' 0 8).isLt
    refine ⟨decide_eq_true (by omega), congrArg₂ opWord (BitVec.eq_of_toNat_eq hn.symm) ?_⟩
    rw [hlen, BitVec.ofNat_toNat]
    exact setWidth_low hhigh
  case h_10 hn =>
    obtain ⟨hhigh, hi⟩ := of_guard_eq_ok h
    obtain ⟨rfl, -⟩ := Prod.mk.inj (Except.ok.inj hi)
    exact ⟨rfl, congrArg₂ opWord (BitVec.eq_of_toNat_eq hn.symm) (setWidth_low hhigh)⟩
  case h_11 hn =>
    obtain ⟨hhigh, hi⟩ := of_guard_eq_ok h
    obtain ⟨p, htake, hp⟩ := eq_ok_of_map_eq_ok hi
    obtain ⟨rfl, -⟩ := Prod.mk.inj hp
    exact ⟨wf_of_takeRecord htake, congrArg₂ opWord (BitVec.eq_of_toNat_eq hn.symm) (setWidth_low hhigh)⟩
  case h_12 hn | h_13 hn =>
    obtain ⟨hzero, hi⟩ := of_guard_eq_ok h
    obtain ⟨p, -, hp⟩ := eq_ok_of_map_eq_ok hi
    obtain ⟨rfl, -⟩ := Prod.mk.inj hp
    exact ⟨rfl, congrArg₂ opWord (BitVec.eq_of_toNat_eq hn.symm) (BitVec.extractLsb'_eq_self.symm.trans hzero).symm⟩
  case h_14 hn =>
    obtain ⟨hzero, hi⟩ := of_guard_eq_ok h
    obtain ⟨p, htake, hp⟩ := eq_ok_of_map_eq_ok hi
    obtain ⟨rfl, -⟩ := Prod.mk.inj hp
    exact ⟨wf_of_takeAudio htake,
      congrArg₂ opWord (BitVec.eq_of_toNat_eq hn.symm) (BitVec.extractLsb'_eq_self.symm.trans hzero).symm⟩
  case h_15 => exact nomatch h

/-- R76: what the EV format decodes is well-formed, and its code and operand are its descriptor's. -/
theorem decodeEv_sound {n : BitVec 6} {o : BitVec 24} {bs rest : List Byte} {i : Instr}
    (h : decodeEv (evWord n o) bs = .ok (i, rest)) : i.wf = true ∧ descriptor i = evWord n o := by
  unfold decodeEv at h
  simp (disch := decide) only [evWord_code, evWord_operand, evWord_getLsbD] at h
  split at h
  case h_1 hn =>
    obtain ⟨hhigh, hi⟩ := of_guard_eq_ok h
    obtain ⟨rfl, -⟩ := Prod.mk.inj (Except.ok.inj hi)
    exact ⟨rfl, congrArg₂ evWord (BitVec.eq_of_toNat_eq hn.symm) (attemptOperand_eq hhigh)⟩
  case h_2 hn =>
    obtain ⟨hhigh, hi⟩ := of_guard_eq_ok h
    obtain ⟨p, htake, hp⟩ := eq_ok_of_map_eq_ok hi
    obtain ⟨rfl, -⟩ := Prod.mk.inj hp
    have hlen := length_of_takeBytes htake
    have hcount := (o.extractLsb' 0 4).isLt
    refine ⟨wf_evRxFrame_iff.mpr (by omega), congrArg₂ evWord (BitVec.eq_of_toNat_eq hn.symm) ?_⟩
    rw [hlen, Nat.add_sub_cancel, BitVec.ofNat_toNat]
    exact setWidth_low hhigh
  case h_3 hn =>
    obtain ⟨rfl, rfl⟩ := of_plain_eq_ok h
    exact ⟨rfl, congrArg (evWord · 0) (BitVec.eq_of_toNat_eq hn.symm)⟩
  case h_4 hn =>
    obtain ⟨⟨hmid, hhigh, hslot⟩, hi⟩ := of_guard_eq_ok h
    obtain ⟨rfl, -⟩ := Prod.mk.inj (Except.ok.inj hi)
    exact ⟨decide_eq_true hslot, congrArg₂ evWord (BitVec.eq_of_toNat_eq hn.symm) (statusOperand_eq hmid hhigh)⟩
  case h_5 => exact nomatch h

end Sys2Proof

/-! The rows of R74 and R76 that use operand bits, on the operand the encoder writes (O1). -/

namespace Sys2Proof

section

variable (bs : List Byte)

theorem decodePrefix_setLogAddr (la : BitVec 4) :
    decodePrefix (opWord 0x04 (la.setWidth 24)) bs = .ok (.cecSetLogAddr la, bs) := by
  simp [decodePrefix_opWord, decodeOp, opWord_operand, extractLsb'_setWidth_low, extractLsb'_setWidth_high]

theorem decodePrefix_transmit (len : Byte) :
    decodePrefix (opWord 0x05 (len.setWidth 24)) bs =
      (takeBytes len.toNat bs).map fun p => (.cecTransmit p.1, p.2) := by
  simp [decodePrefix_opWord, decodeOp, opWord_operand, extractLsb'_setWidth_low, extractLsb'_setWidth_high]

theorem decodePrefix_stop (ty : Byte) : decodePrefix (opWord 0x12 (ty.setWidth 24)) bs = .ok (.pktStop ty, bs) := by
  simp [decodePrefix_opWord, decodeOp, opWord_operand, extractLsb'_setWidth_low, extractLsb'_setWidth_high]

theorem decodePrefix_write (ty : Byte) :
    decodePrefix (opWord 0x13 (ty.setWidth 24)) bs = (takeRecord bs).map fun p => (.pktWrite ty p.1, p.2) := by
  simp [decodePrefix_opWord, decodeOp, opWord_operand, extractLsb'_setWidth_low, extractLsb'_setWidth_high]

theorem decodePrefix_packAvi :
    decodePrefix (opWord 0x18 0) bs = (takeAvi bs).map fun p => (.ifPackAvi p.1, p.2) := by
  simp [decodePrefix_opWord, decodeOp, opWord_operand]

theorem decodePrefix_packSpd :
    decodePrefix (opWord 0x19 0) bs = (takeSpd bs).map fun p => (.ifPackSpd p.1, p.2) := by
  simp [decodePrefix_opWord, decodeOp, opWord_operand]

theorem decodePrefix_packAudio :
    decodePrefix (opWord 0x1A 0) bs = (takeAudio bs).map fun p => (.ifPackAudio p.1, p.2) := by
  simp [decodePrefix_opWord, decodeOp, opWord_operand]

theorem decodePrefix_rxFrame (n : BitVec 4) :
    decodePrefix (evWord 0x02 (n.setWidth 24)) bs =
      (takeBytes (n.toNat + 1) bs).map fun p => (.evRxFrame p.1, p.2) := by
  simp [decodePrefix_evWord, decodeEv, evWord_operand, extractLsb'_setWidth_low, extractLsb'_setWidth_high]

theorem decodePrefix_pktStatus {s : BitVec 5} (b : Bool) (hs : s.toNat < Config.numSlots) :
    decodePrefix (evWord 0x04 (0#15 ++ BitVec.ofBool b ++ 0#3 ++ s)) bs = .ok (.evPktStatus s b, bs) := by
  obtain ⟨hmid, hhigh, hslot, hbit⟩ := statusOperand_fields s b
  generalize 0#15 ++ BitVec.ofBool b ++ 0#3 ++ s = o at *
  rw [decodePrefix_evWord]
  unfold decodeEv
  simp (disch := decide) only [evWord_code, evWord_operand, evWord_getLsbD, hmid, hhigh, hslot, hbit]
  exact if_pos ⟨trivial, trivial, hs⟩

end

/-- What the encoder writes, with whatever follows it, the decoder reads back. -/
theorem decodePrefix_encode {i : Instr} (h : i.wf = true) (rest : List Byte) :
    decodePrefix (descriptor i) (besideBytes i ++ rest) = .ok (i, rest) := by
  cases i with
  | rdCecCntrl1 | rdCecCntrl2 | rdCecCntrl3 | rdCecCntrl4 | rdCecCntrl5 | rdCecCpuStatus | rdCecCpuMaskStatus
  | rdRamPacketConfig | rdRamPacketStatus =>
    exact (decodePrefix_mmioFields ..).trans ((decodeMmio_read_iff (Nat.zero_le _)).mpr ⟨rfl, rfl⟩)
  | rdCecTxData w | rdCecRxData w =>
    have hw := Nat.le_of_lt_succ (of_decide_eq_true h)
    exact (decodePrefix_mmioFields ..).trans ((decodeMmio_read_iff hw).mpr ⟨rfl, rfl⟩)
  | wrCecCntrl1 v | wrCecCntrl2 v | wrCecCntrl3 v | wrCecCntrl4 v | wrCecCntrl5 v | wrCecCpuSet v | wrCecCpuClear v
  | wrCecCpuMaskSet v | wrCecCpuMaskClear v | wrRamPacketConfig v =>
    exact (decodePrefix_mmioFields ..).trans
      ((decodeMmio_write_iff (Nat.zero_le _)).mpr ⟨v, takeWord_wordBytes v rest, rfl⟩)
  | wrCecTxData w v | wrPacketRam w v =>
    have hw := Nat.le_of_lt_succ (of_decide_eq_true h)
    exact (decodePrefix_mmioFields ..).trans
      ((decodeMmio_write_iff hw).mpr ⟨v, takeWord_wordBytes v rest, rfl⟩)
  | cecInit | cecEnable | cecDisable | cecIrqHard | cecIrqThread | pktRamEnable | pktRamDisable | evCecSpurious =>
    rfl
  | ifPackAvi r =>
    rw [descriptor, decodePrefix_packAvi, besideBytes, takeAvi_aviBytes]
    rfl
  | ifPackSpd r =>
    rw [descriptor, decodePrefix_packSpd, besideBytes, takeSpd_spdBytes]
    rfl
  | ifPackAudio r =>
    rw [descriptor, decodePrefix_packAudio, besideBytes, takeAudio_audioBytes h]
    rfl
  | cecSetLogAddr la => exact decodePrefix_setLogAddr rest la
  | pktStop ty => exact decodePrefix_stop rest ty
  | pktWrite ty rec =>
    refine (decodePrefix_write _ ty).trans ?_
    rw [besideBytes, takeRecord_recordBytes h]
    rfl
  | cecTransmit msg =>
    have hlen : msg.length < 2 ^ 8 := Nat.lt_succ_of_le (of_decide_eq_true h)
    rw [descriptor, ofNat_eq_setWidth hlen, decodePrefix_transmit, BitVec.toNat_ofNat, Nat.mod_eq_of_lt hlen,
      besideBytes, takeBytes_append]
    rfl
  | evTxAttempt acked => cases acked <;> rfl
  | evRxFrame frame =>
    obtain ⟨hone, hmax⟩ := wf_evRxFrame_iff.mp h
    have hlen : frame.length - 1 < 2 ^ 4 := by omega
    rw [descriptor, ofNat_eq_setWidth hlen, decodePrefix_rxFrame, BitVec.toNat_ofNat, Nat.mod_eq_of_lt hlen,
      Nat.sub_add_cancel hone, besideBytes, takeBytes_append]
    rfl
  | evPktStatus slot b => exact decodePrefix_pktStatus rest b (of_decide_eq_true h)

end Sys2Proof

/-! The descriptors that R84 leaves legal, format by format, and the instruction each one spells. -/

namespace Sys2Proof

open Sys2Proof.Claims

/-- R73: the numbers of the listed registers. -/
theorem exists_num_eq_iff (n : BitVec 6) :
    (∃ r : LReg, n = r.num) ↔ (1 ≤ n.toNat ∧ n.toNat ≤ 0x0D) ∨ (0x10 ≤ n.toNat ∧ n.toNat ≤ 0x12) := by
  constructor
  · rintro ⟨r, rfl⟩
    cases r <;> decide
  · have listed : ∀ n : BitVec 6, (1 ≤ n.toNat ∧ n.toNat ≤ 0x0D) ∨ (0x10 ≤ n.toNat ∧ n.toNat ≤ 0x12) →
        ∃ r ∈ LReg.all, n = r.num := by decide
    intro h
    obtain ⟨r, -, hr⟩ := listed n h
    exact ⟨r, hr⟩

theorem LReg.eq_of_num_eq {r q : LReg} (h : r.num = q.num) : r = q := by
  have hfound := LReg.ofNum_num r
  rw [h, LReg.ofNum_num] at hfound
  exact (Option.some.inj hfound).symm

/-- R73: the last word index of a register, by its number. -/
theorem lastIndex_eq (r : LReg) :
    r.lastIndex = if r.num.toNat = 6 ∨ r.num.toNat = 7 then 3 else if r.num.toNat = 0x12 then 143 else 0 := by
  cases r <;> rfl

/-- R73: the registers the host may not read, by number. -/
theorem isSome_read_iff (r : LReg) (w : BitVec 10) :
    (r.read w).isSome ↔ r.num.toNat ∉ [0x09, 0x0A, 0x0C, 0x0D, 0x12] := by
  cases r <;> simp [LReg.read, LReg.num]

/-- R73: the registers the host may not write, by number. -/
theorem isSome_write_iff (r : LReg) (w : BitVec 10) (v : Word) :
    (r.write w v).isSome ↔ r.num.toNat ∉ [0x07, 0x08, 0x0B, 0x11] := by
  cases r <;> simp [LReg.write, LReg.num]

/-! R84 in each format. -/

theorem illegal_mmioFields_iff {write : Bool} {n : BitVec 6} {mid : BitVec 14} {w : BitVec 10} :
    IllegalDescriptor (mmioFields write n mid w) ↔
      ¬(∃ r : LReg, n = r.num) ∨ mid ≠ 0 ∨
      (if n.toNat = 6 ∨ n.toNat = 7 then 3 else if n.toNat = 0x12 then 143 else 0) < w.toNat ∨
      n.toNat ∈ if write then [0x07, 0x08, 0x0B, 0x11] else [0x09, 0x0A, 0x0C, 0x0D, 0x12] := by
  unfold IllegalDescriptor
  simp only [mmioFields_class, mmioFields_num, mmioFields_mid, mmioFields_index, exists_num_eq_iff]
  cases write <;> simp

theorem illegal_opWord_iff {n : BitVec 6} {o : BitVec 24} :
    IllegalDescriptor (opWord n o) ↔
      n.toNat ∉ [1, 2, 3, 4, 5, 6, 7, 0x10, 0x11, 0x12, 0x13, 0x18, 0x19, 0x1A] ∨
      (n.toNat ∈ [1, 2, 3, 6, 7, 0x10, 0x11, 0x18, 0x19, 0x1A] ∧ o ≠ 0) ∨
      (n.toNat = 4 ∧ o.extractLsb' 4 20 ≠ 0) ∨
      (n.toNat ∈ [5, 0x12, 0x13] ∧ o.extractLsb' 8 16 ≠ 0) := by
  unfold IllegalDescriptor
  simp (disch := decide) only [opWord_class, opWord_code, opWord_operand, BitVec.extractLsb'_eq_self]
  simp

theorem illegal_evWord_iff {n : BitVec 6} {o : BitVec 24} :
    IllegalDescriptor (evWord n o) ↔
      n.toNat ∉ [1, 2, 3, 4] ∨
      (n.toNat = 1 ∧ o.extractLsb' 1 23 ≠ 0) ∨
      (n.toNat = 2 ∧ o.extractLsb' 4 20 ≠ 0) ∨
      (n.toNat = 3 ∧ o ≠ 0) ∨
      (n.toNat = 4 ∧ (o.extractLsb' 5 3 ≠ 0 ∨ o.extractLsb' 9 15 ≠ 0 ∨ 16 ≤ (o.extractLsb' 0 5).toNat)) := by
  unfold IllegalDescriptor
  simp (disch := decide) only [evWord_class, evWord_code, evWord_operand, BitVec.extractLsb'_eq_self]
  simp

/-- R84 (a) to (d): the legal words of the MMIO format are the accesses R73 lists. -/
theorem legal_mmioFields_iff {write : Bool} {n : BitVec 6} {mid : BitVec 14} {w : BitVec 10} :
    ¬IllegalDescriptor (mmioFields write n mid w) ↔
      ∃ r : LReg, n = r.num ∧ mid = 0 ∧ w.toNat ≤ r.lastIndex ∧
        (if write then r.write w 0 else r.read w).isSome := by
  rw [illegal_mmioFields_iff]
  by_cases hlisted : ∃ r : LReg, n = r.num
  · obtain ⟨r, rfl⟩ := hlisted
    have hinj (q : LReg) : r.num = q.num ↔ q = r := ⟨fun h => (LReg.eq_of_num_eq h).symm, fun h => h ▸ rfl⟩
    cases write <;> simp [← lastIndex_eq, isSome_read_iff, isSome_write_iff, hinj]
  · have hnone (r : LReg) : n ≠ r.num := fun hr => hlisted ⟨r, hr⟩
    simp [hnone]

/-- Every legal word of the MMIO format is the descriptor of a well-formed instruction: its register's access. -/
theorem exists_of_legal_mmioFields {write : Bool} {n : BitVec 6} {mid : BitVec 14} {w : BitVec 10}
    (h : ¬IllegalDescriptor (mmioFields write n mid w)) :
    ∃ i : Instr, i.wf = true ∧ descriptor i = mmioFields write n mid w := by
  obtain ⟨r, rfl, rfl, hw, haccess⟩ := legal_mmioFields_iff.mp h
  obtain ⟨i, hi⟩ := Option.isSome_iff_exists.mp haccess
  cases write
  · exact ⟨i, LReg.read_sound hw hi⟩
  · exact ⟨i, LReg.write_sound hw hi⟩

/-- Every legal word of the OP format is the descriptor of a well-formed instruction. -/
theorem exists_of_legal_opWord {n : BitVec 6} {o : BitVec 24} (h : ¬IllegalDescriptor (opWord n o)) :
    ∃ i : Instr, i.wf = true ∧ descriptor i = opWord n o := by
  simp only [illegal_opWord_iff, not_or, not_and, not_not] at h
  obtain ⟨hcode, hzero, hla, hbyte⟩ := h
  have codes : ∀ n : BitVec 6, n.toNat ∈ [1, 2, 3, 4, 5, 6, 7, 0x10, 0x11, 0x12, 0x13, 0x18, 0x19, 0x1A] →
      n = 0x01 ∨ n = 0x02 ∨ n = 0x03 ∨ n = 0x04 ∨ n = 0x05 ∨ n = 0x06 ∨ n = 0x07 ∨ n = 0x10 ∨ n = 0x11 ∨
        n = 0x12 ∨ n = 0x13 ∨ n = 0x18 ∨ n = 0x19 ∨ n = 0x1A := by decide
  have plainRow (i : Instr) (hwf : i.wf = true) (hi : descriptor i = opWord n 0)
      (hn : n.toNat ∈ [1, 2, 3, 6, 7, 0x10, 0x11, 0x18, 0x19, 0x1A]) :
      ∃ i : Instr, i.wf = true ∧ descriptor i = opWord n o :=
    ⟨i, hwf, (hzero hn).symm ▸ hi⟩
  have byteOperand (hn : n.toNat ∈ [5, 0x12, 0x13]) : (o.extractLsb' 0 8).setWidth 24 = o := setWidth_low (hbyte hn)
  rcases codes n hcode with rfl | rfl | rfl | rfl | rfl | rfl | rfl | rfl | rfl | rfl | rfl | rfl | rfl | rfl
  · exact plainRow .cecInit rfl rfl (by decide)
  · exact plainRow .cecEnable rfl rfl (by decide)
  · exact plainRow .cecDisable rfl rfl (by decide)
  · exact ⟨.cecSetLogAddr (o.extractLsb' 0 4), rfl, congrArg (opWord 0x04) (setWidth_low (hla rfl))⟩
  · refine ⟨.cecTransmit (List.replicate (o.extractLsb' 0 8).toNat 0), ?_, ?_⟩
    · have hlen := (o.extractLsb' 0 8).isLt
      exact decide_eq_true (by rw [List.length_replicate]; omega)
    · rw [descriptor, List.length_replicate, BitVec.ofNat_toNat, byteOperand (by decide)]
  · exact plainRow .cecIrqHard rfl rfl (by decide)
  · exact plainRow .cecIrqThread rfl rfl (by decide)
  · exact plainRow .pktRamEnable rfl rfl (by decide)
  · exact plainRow .pktRamDisable rfl rfl (by decide)
  · exact ⟨.pktStop (o.extractLsb' 0 8), rfl, congrArg (opWord 0x12) (byteOperand (by decide))⟩
  · exact ⟨.pktWrite (o.extractLsb' 0 8) (.spd ⟨[], [], 0⟩), rfl, congrArg (opWord 0x13) (byteOperand (by decide))⟩
  · exact plainRow (.ifPackAvi ⟨0, 0, 0, 0, 0, 0, 0, 0, 0, 0, 0, 0, 0, 0, 0, 0, 0⟩) rfl rfl (by decide)
  · exact plainRow (.ifPackSpd ⟨[], [], 0⟩) rfl rfl (by decide)
  · exact plainRow (.ifPackAudio ⟨0, 0, 0, 0, 0, 0, 0, 0, 0⟩) rfl rfl (by decide)

/-- Every legal word of the EV format is the descriptor of a well-formed instruction. -/
theorem exists_of_legal_evWord {n : BitVec 6} {o : BitVec 24} (h : ¬IllegalDescriptor (evWord n o)) :
    ∃ i : Instr, i.wf = true ∧ descriptor i = evWord n o := by
  simp only [illegal_evWord_iff, not_or, not_and, not_not, not_le] at h
  obtain ⟨hcode, hattempt, hframe, hspurious, hstatus⟩ := h
  have codes : ∀ n : BitVec 6, n.toNat ∈ [1, 2, 3, 4] → n = 0x01 ∨ n = 0x02 ∨ n = 0x03 ∨ n = 0x04 := by decide
  rcases codes n hcode with rfl | rfl | rfl | rfl
  · exact ⟨.evTxAttempt (o.getLsbD 0), rfl, congrArg (evWord 0x01) (attemptOperand_eq (hattempt rfl))⟩
  · have hcount := (o.extractLsb' 0 4).isLt
    refine ⟨.evRxFrame (List.replicate ((o.extractLsb' 0 4).toNat + 1) 0), wf_evRxFrame_iff.mpr ?_, ?_⟩
    · rw [List.length_replicate]
      omega
    · rw [descriptor, List.length_replicate, Nat.add_sub_cancel, BitVec.ofNat_toNat, setWidth_low (hframe rfl)]
  · exact ⟨.evCecSpurious, rfl, congrArg (evWord 0x03) (hspurious rfl).symm⟩
  · obtain ⟨hmid, hhigh, hslot⟩ := hstatus rfl
    exact ⟨.evPktStatus (o.extractLsb' 0 5) (o.getLsbD 8), decide_eq_true hslot,
      congrArg (evWord 0x04) (statusOperand_eq hmid hhigh)⟩

/-- Every legal descriptor is that of a well-formed instruction. -/
theorem exists_of_legal {d : Word} (h : ¬IllegalDescriptor d) : ∃ i : Instr, i.wf = true ∧ descriptor i = d := by
  rcases word_formats d with ⟨write, n, mid, w, rfl⟩ | ⟨n, o, rfl⟩ | ⟨n, o, rfl⟩
  · exact exists_of_legal_mmioFields h
  · exact exists_of_legal_opWord h
  · exact exists_of_legal_evWord h

/-- No descriptor of a well-formed instruction is among R84's. -/
theorem legal_descriptor {i : Instr} (h : i.wf = true) : ¬IllegalDescriptor (descriptor i) := by
  cases i with
  | rdCecCntrl1 | rdCecCntrl2 | rdCecCntrl3 | rdCecCntrl4 | rdCecCntrl5 | rdCecCpuStatus | rdCecCpuMaskStatus
  | rdRamPacketConfig | rdRamPacketStatus =>
    exact (legal_mmioFields_iff (write := false)).mpr ⟨_, rfl, rfl, Nat.zero_le _, rfl⟩
  | wrCecCntrl1 | wrCecCntrl2 | wrCecCntrl3 | wrCecCntrl4 | wrCecCntrl5 | wrCecCpuSet | wrCecCpuClear
  | wrCecCpuMaskSet | wrCecCpuMaskClear | wrRamPacketConfig =>
    exact (legal_mmioFields_iff (write := true)).mpr ⟨_, rfl, rfl, Nat.zero_le _, rfl⟩
  | rdCecTxData w | rdCecRxData w =>
    have hw := Nat.le_of_lt_succ (of_decide_eq_true h)
    exact (legal_mmioFields_iff (write := false)).mpr ⟨_, rfl, rfl, hw, rfl⟩
  | wrCecTxData w | wrPacketRam w =>
    have hw := Nat.le_of_lt_succ (of_decide_eq_true h)
    exact (legal_mmioFields_iff (write := true)).mpr ⟨_, rfl, rfl, hw, rfl⟩
  | cecInit | cecEnable | cecDisable | cecIrqHard | cecIrqThread | pktRamEnable | pktRamDisable | ifPackAvi
  | ifPackSpd | ifPackAudio =>
    simp [descriptor, illegal_opWord_iff]
  | cecSetLogAddr | pktStop | pktWrite =>
    simp [descriptor, illegal_opWord_iff, extractLsb'_setWidth_high]
  | cecTransmit msg =>
    have hlen : msg.length < 2 ^ 8 := Nat.lt_succ_of_le (of_decide_eq_true h)
    rw [descriptor, ofNat_eq_setWidth hlen]
    simp [illegal_opWord_iff, extractLsb'_setWidth_high]
  | evTxAttempt acked =>
    cases acked <;> simp [descriptor, illegal_evWord_iff]
  | evRxFrame frame =>
    obtain ⟨hone, hmax⟩ := wf_evRxFrame_iff.mp h
    have hlen : frame.length - 1 < 2 ^ 4 := by omega
    rw [descriptor, ofNat_eq_setWidth hlen]
    simp [illegal_evWord_iff, extractLsb'_setWidth_high]
  | evCecSpurious => simp [descriptor, illegal_evWord_iff]
  | evPktStatus slot b =>
    have hs : slot.toNat < 16 := of_decide_eq_true h
    obtain ⟨hmid, hhigh, hslot, -⟩ := statusOperand_fields slot b
    simp only [descriptor, illegal_evWord_iff, hmid, hhigh, hslot]
    simp [hs]

end Sys2Proof

/-! The encoding (O1 to O5). -/

namespace Sys2Proof

open Sys2Proof.Claims

/-- The decoder accepts what the format's reader takes whole. -/
theorem decode_eq_ok_iff {d : Word} {beside : List Byte} {i : Instr} :
    decode d beside = .ok i ↔ decodePrefix d beside = .ok (i, []) := by
  unfold decode
  rcases decodePrefix d beside with e | ⟨j, _ | ⟨b, rest⟩⟩ <;> simp

/-- Settles O1: every format reads back its own fields, and every reader beside it the bytes written for it. -/
theorem decodeEncodeAgree : Obligations.DecodeEncodeAgree := by
  intro i hwf
  have hread := decodePrefix_encode hwf []
  rw [List.append_nil] at hread
  exact decode_eq_ok_iff.mpr hread

/-- What a format's reader takes is well-formed, and its descriptor is the one read. -/
theorem decodePrefix_sound {d : Word} {bs rest : List Byte} {i : Instr} (h : decodePrefix d bs = .ok (i, rest)) :
    i.wf = true ∧ descriptor i = d := by
  rcases word_formats d with ⟨write, n, mid, w, rfl⟩ | ⟨n, o, rfl⟩ | ⟨n, o, rfl⟩
  · rw [decodePrefix_mmioFields] at h
    obtain ⟨r, rfl, rfl, hw⟩ := fields_of_decodeMmio h
    cases write
    · obtain ⟨hi, -⟩ := (decodeMmio_read_iff hw).mp h
      exact LReg.read_sound hw hi
    · obtain ⟨v, -, hi⟩ := (decodeMmio_write_iff hw).mp h
      exact LReg.write_sound hw hi
  · rw [decodePrefix_opWord] at h
    exact decodeOp_sound h
  · rw [decodePrefix_evWord] at h
    exact decodeEv_sound h

/-- Settles O2: the checks of each format fix every bit of the descriptor that no operand holds. -/
theorem decodedInstructionIsTheOneEncoded : Obligations.DecodedInstructionIsTheOneEncoded :=
  fun _ _ _ h => decodePrefix_sound (decode_eq_ok_iff.mp h)

/-- R84: an illegal descriptor is rejected whatever travels beside it. -/
theorem decode_error_of_illegal {d : Word} (h : IllegalDescriptor d) (beside : List Byte) :
    ∃ e, decode d beside = .error e := by
  cases hdec : decode d beside with
  | error e => exact ⟨e, rfl⟩
  | ok i =>
    obtain ⟨hwf, rfl⟩ := decodedInstructionIsTheOneEncoded d beside i hdec
    exact absurd h (legal_descriptor hwf)

/-- R84: every other descriptor is accepted with the bytes of the instruction it spells. -/
theorem illegal_of_decode_error {d : Word} (h : ∀ beside, ∃ e, decode d beside = .error e) : IllegalDescriptor d := by
  by_contra hlegal
  obtain ⟨i, hwf, rfl⟩ := exists_of_legal hlegal
  obtain ⟨e, he⟩ := h (besideBytes i)
  exact absurd ((decodeEncodeAgree i hwf).symm.trans he) nofun

/-- A written-out descriptor and its bytes decode to the instruction they are the words of. -/
theorem decode_of_encode {i : Instr} {d : Word} {beside : List Byte} (hwf : i.wf = true)
    (h : encode i = (d, beside)) : decode d beside = .ok i := by
  have hdec := decodeEncodeAgree i hwf
  rwa [h] at hdec

/-- Settles O4: each pair is what the encoder writes for its instruction. -/
theorem writtenDescriptorsDecode : Obligations.WrittenDescriptorsDecode :=
  ⟨decode_of_encode rfl rfl, decode_of_encode rfl rfl, decode_of_encode rfl rfl, decode_of_encode rfl rfl,
    decode_of_encode rfl rfl, decode_of_encode rfl rfl, decode_of_encode rfl rfl, decode_of_encode rfl rfl,
    decode_of_encode rfl rfl, decode_of_encode rfl rfl⟩

end Sys2Proof

namespace Sys2Proof.Machine

open Sys2Proof.Claims

/-- Settles O3: the legal descriptors are those of the well-formed instructions, and a rejected one is refused. -/
theorem illegalDescriptorsAreRefused : Obligations.IllegalDescriptorsAreRefused := by
  refine ⟨fun d => ⟨decode_error_of_illegal, illegal_of_decode_error⟩, ?_⟩
  intro s d beside plan rest hfeed hillegal
  obtain ⟨e, he⟩ := decode_error_of_illegal hillegal beside
  simp only [step, hfeed, he, State.refuse]

/-- While the hard handler does not run, or is the agent, an agent's next step is its operation's (R135 b). -/
theorem advance_eq_stepRun {s : State} {a : Agent} {r : Run} (hfree : a = .hard ∨ s.hard.run = none)
    (hr : (s.agent a).run = some r) : advance a s = stepRun r s := by
  have hgo : ¬(a ≠ .hard ∧ s.hard.run.isSome) := by
    rintro ⟨hne, hruns⟩
    rw [hfree.resolve_left hne] at hruns
    exact Bool.false_ne_true hruns
  simp only [advance, if_neg hgo, hr]

/-- Settles O5: the head of the feed is what happens, and an issued descriptor happens as its instruction. -/
theorem stepRunsTheDecodedInstruction : Obligations.StepRunsTheDecodedInstruction := by
  constructor
  · intro s d beside plan rest i hfeed hdec
    simp only [step, hfeed, hdec]
  · intro s a rest r hfeed hfree hr
    have hagent : (State.agent { s with feed := rest } a).run = some r := by
      cases a <;> exact hr
    simp only [step, hfeed]
    exact advance_eq_stepRun hfree hagent

end Sys2Proof.Machine

/-! The fields of a register word are the ones it was made of: the other direction of `FIELD_LAYOUT`. -/

namespace Sys2Proof.Machine

section

open BitVec

theorem getLsbD_append_of_le {n m i : Nat} (x : BitVec n) (y : BitVec m) (h : m ≤ i) :
    (x ++ y).getLsbD i = x.getLsbD (i - m) := getLsbD_append.trans (if_neg (Nat.not_lt.mpr h))

theorem getLsbD_append_ofBool {n : Nat} (x : BitVec n) (b : Bool) : (x ++ ofBool b).getLsbD 0 = b :=
  getLsbD_append.trans (by simp)

/-! Each field is reached by dropping the fields below it, and is then the lowest one. -/

theorem Cntrl1.ofWord_toWord (c : Cntrl1) : Cntrl1.ofWord c.toWord = c := by
  simp (disch := decide) only [Cntrl1.ofWord, Cntrl1.toWord, extractLsb'_append_eq_of_le,
    extractLsb'_append_eq_right, extractLsb'_eq_self, getLsbD_append_of_le, getLsbD_append_ofBool, Nat.reduceSub]

theorem Cntrl2.ofWord_toWord (c : Cntrl2) : Cntrl2.ofWord c.toWord = c := by
  simp (disch := decide) only [Cntrl2.ofWord, Cntrl2.toWord, extractLsb'_append_eq_of_le,
    extractLsb'_append_eq_right, getLsbD_append_of_le, getLsbD_ofBool, decide_true, Bool.true_and, Nat.reduceSub]

theorem Cntrl3.ofWord_toWord (c : Cntrl3) : Cntrl3.ofWord c.toWord = c := by
  simp (disch := decide) only [Cntrl3.ofWord, Cntrl3.toWord, extractLsb'_append_eq_of_le,
    extractLsb'_append_eq_right, extractLsb'_eq_self, Nat.reduceSub]

theorem Cntrl4.ofWord_toWord (c : Cntrl4) : Cntrl4.ofWord c.toWord = c := by
  simp (disch := decide) only [Cntrl4.ofWord, Cntrl4.toWord, extractLsb'_append_eq_of_le,
    extractLsb'_append_eq_right, extractLsb'_eq_self, Nat.reduceSub]

theorem Cntrl5.ofWord_toWord (c : Cntrl5) : Cntrl5.ofWord c.toWord = c := by
  simp (disch := decide) only [Cntrl5.ofWord, Cntrl5.toWord, extractLsb'_append_eq_of_le,
    extractLsb'_append_eq_right, extractLsb'_eq_self, getLsbD_append_of_le, getLsbD_append_ofBool, Nat.reduceSub]

theorem PktConfig.ofWord_toWord (c : PktConfig) : PktConfig.ofWord c.toWord = c := by
  simp (disch := decide) only [PktConfig.ofWord, PktConfig.toWord, extractLsb'_append_eq_of_le,
    extractLsb'_append_eq_right, extractLsb'_eq_self, getLsbD_append_of_le, getLsbD_append_ofBool, Nat.reduceSub]

theorem StatusWord.ofWord_toWord (r : StatusWord) : StatusWord.ofWord r.toWord = r := by
  simp (disch := decide) only [StatusWord.ofWord, StatusWord.toWord, extractLsb'_append_eq_of_le,
    extractLsb'_append_eq_right, extractLsb'_eq_self, Nat.reduceSub]

theorem Lanes.ofWord_toWord (l : Lanes) : Lanes.ofWord l.toWord = l := by
  simp (disch := decide) only [Lanes.ofWord, Lanes.toWord, extractLsb'_append_eq_of_le,
    extractLsb'_append_eq_right, extractLsb'_eq_self, Nat.reduceSub]

/-- Two words that agree on a field agree on each of its bits. -/
theorem getLsbD_eq_of_extractLsb'_eq {n lo len i : Nat} {v u : BitVec n}
    (h : v.extractLsb' lo len = u.extractLsb' lo len) (hlo : lo ≤ i) (hi : i < lo + len) :
    v.getLsbD i = u.getLsbD i := by
  have hbit := congrArg (fun x => x.getLsbD (i - lo)) h
  have hpos : lo + (i - lo) = i := by omega
  have hlen : i - lo < len := by omega
  simpa only [getLsbD_extractLsb', hpos, hlen, decide_true, Bool.true_and] using hbit

end

/-- Bit `c` of an interrupt word is the CEC source's, and every other bit is the other sources' (R104, R107). -/
theorem IrqWord.getLsbD_toWord (c : Fin 32) (r : IrqWord) {i : Nat} (hi : i < 32) :
    (r.toWord c).getLsbD i = if i = c.val then r.cec else r.others.getLsbD i := by
  unfold IrqWord.toWord
  by_cases hc : i = c.val
  · subst hc
    cases r.cec <;> simp
  · cases r.cec <;> simp [hc, hi]

end Sys2Proof.Machine

/-! The bytes of a data word (R57, R82): the word read and the word stored. -/

namespace Sys2Proof.Machine

/-- Byte `k` of a data word is byte `4w + k` of the sixteen. -/
theorem Bytes16.extractLsb'_toWord_lanes (v : Bytes16) (w : Nat) {k : Nat} (hk : k < 4) :
    (Bytes16.lanes v w).toWord.extractLsb' (8 * k) 8 = Bytes16.at v (4 * w + k) := by
  have hword := Lanes.ofWord_toWord (Bytes16.lanes v w)
  match k, hk with
  | 0, _ => exact congrArg Lanes.b0 hword
  | 1, _ => exact congrArg Lanes.b1 hword
  | 2, _ => exact congrArg Lanes.b2 hword
  | 3, _ => exact congrArg Lanes.b3 hword

theorem Bytes16.at_setIfInBounds (v : Bytes16) {i : Nat} (hi : i < 16) (b : Byte) (j : Nat) :
    Bytes16.at (v.setIfInBounds i b) j = if j = i then b else Bytes16.at v j := by
  unfold Bytes16.at
  rw [Vector.getElem?_setIfInBounds, if_pos hi]
  simp only [eq_comm (a := i)]
  split_ifs <;> rfl

/-- The sixteen bytes after a word is stored: those of the word by lane, and the others as before. -/
theorem Bytes16.at_setLanes (v : Bytes16) {w : Nat} (hw : w < 4) (l : Lanes) (j : Nat) :
    Bytes16.at (Bytes16.setLanes v w l) j =
      if j = 4 * w + 3 then l.b3 else if j = 4 * w + 2 then l.b2 else if j = 4 * w + 1 then l.b1
      else if j = 4 * w then l.b0 else Bytes16.at v j := by
  unfold Bytes16.setLanes
  rw [Bytes16.at_setIfInBounds _ (by omega), Bytes16.at_setIfInBounds _ (by omega),
    Bytes16.at_setIfInBounds _ (by omega), Bytes16.at_setIfInBounds _ (by omega)]

theorem Bytes16.at_setLanes_lane (v : Bytes16) {w k : Nat} (hw : w < 4) (hk : k < 4) (u : Word) :
    Bytes16.at (Bytes16.setLanes v w (Lanes.ofWord u)) (4 * w + k) = u.extractLsb' (8 * k) 8 := by
  rw [Bytes16.at_setLanes v hw]
  match k, hk with
  | 0, _ => simp [Lanes.ofWord]
  | 1, _ => simp [Lanes.ofWord]
  | 2, _ => simp [Lanes.ofWord]
  | 3, _ => simp [Lanes.ofWord]

theorem Bytes16.at_setLanes_other (v : Bytes16) {w j : Nat} (hw : w < 4) (hj : j < 4 * w ∨ 4 * w + 4 ≤ j)
    (l : Lanes) : Bytes16.at (Bytes16.setLanes v w l) j = Bytes16.at v j := by
  rw [Bytes16.at_setLanes v hw, if_neg (by omega), if_neg (by omega), if_neg (by omega), if_neg (by omega)]

end Sys2Proof.Machine

/-! The MMIO reads while powered (O8 to O12): a read answers the word of the register's value, whose fields are the
value's. -/

namespace Sys2Proof.Machine

theorem answerRead_of_powered {α : Type} {s : State} (hon : s.powered = true) (toWord : α → Word)
    (ofDraw : Word → α) (value : State → α) :
    answerRead toWord (mmioRead ofDraw value s) =
      .next { s with readData := toWord (value s), draws := s.draws + 1 } := by
  rw [mmioRead_of_powered hon]
  rfl

/-- Settles O8: the word read has the fields of the value, and its draws stand at bits 1, 8, 9 and 11. -/
theorem readOfControl1 : Obligations.ReadOfControl1 := by
  intro s hon
  have hword := Cntrl1.ofWord_toWord (cntrl1Value s)
  refine ⟨(cntrl1Value s).toWord, answerRead_of_powered hon _ _ _, congrArg Cntrl1.addr hword,
    congrArg Cntrl1.recLen hword, congrArg Cntrl1.divClkCnt hword, congrArg Cntrl1.txStatusGood hword,
    congrArg Cntrl1.messageLength hword, congrArg Cntrl1.clearReceiveOff hword, congrArg Cntrl1.receiveOff hword,
    congrArg Cntrl1.startXmitBegin hword, ?draws⟩
  case draws =>
    simp only [List.forall_mem_cons]
    exact ⟨congrArg Cntrl1.reserved1 hword, congrArg Cntrl1.rxStatusGood hword, congrArg Cntrl1.rxEom hword,
      congrArg Cntrl1.txEom hword, nofun⟩

/-- Settles O9: each word read has the fields of its register's value. -/
theorem readOfTimingRegisters : Obligations.ReadOfTimingRegisters := by
  intro s hon
  have hword2 := Cntrl2.ofWord_toWord (cntrl2Value s)
  have hword3 := Cntrl3.ofWord_toWord (cntrl3Value s)
  have hword4 := Cntrl4.ofWord_toWord (cntrl4Value s)
  have hword5 := Cntrl5.ofWord_toWord (cntrl5Value s)
  refine ⟨⟨(cntrl2Value s).toWord, answerRead_of_powered hon _ _ _, ?cntrl2⟩,
    ⟨(cntrl3Value s).toWord, answerRead_of_powered hon _ _ _, ?cntrl3⟩,
    ⟨(cntrl4Value s).toWord, answerRead_of_powered hon _ _ _, ?cntrl4⟩,
    ⟨(cntrl5Value s).toWord, answerRead_of_powered hon _ _ _, ?cntrl5⟩⟩
  case cntrl2 =>
    exact ⟨congrArg Cntrl2.reserved31 hword2, congrArg Cntrl2.cnt1500 hword2, congrArg Cntrl2.cnt1300 hword2,
      congrArg Cntrl2.cnt800 hword2, congrArg Cntrl2.cnt600 hword2, congrArg Cntrl2.cnt400 hword2⟩
  case cntrl3 =>
    exact ⟨congrArg Cntrl3.cnt2750 hword3, congrArg Cntrl3.cnt2400 hword3, congrArg Cntrl3.cnt2050 hword3,
      congrArg Cntrl3.cnt1700 hword3⟩
  case cntrl4 =>
    exact ⟨congrArg Cntrl4.cnt4300 hword4, congrArg Cntrl4.cnt3900 hword4, congrArg Cntrl4.cnt3600 hword4,
      congrArg Cntrl4.cnt3500 hword4⟩
  case cntrl5 =>
    exact ⟨congrArg Cntrl5.reserved hword5, congrArg Cntrl5.txSwReset hword5, congrArg Cntrl5.rxSwReset hword5,
      congrArg Cntrl5.padSwReset hword5, congrArg Cntrl5.muxTpOutCec hword5, congrArg Cntrl5.rxCecInt hword5,
      congrArg Cntrl5.clkPreload hword5, congrArg Cntrl5.cnt4700 hword5, congrArg Cntrl5.cnt4500 hword5⟩

/-- Settles O10: both data registers are read by lanes. -/
theorem readOfDataWords : Obligations.ReadOfDataWords := by
  intro s w hon hw
  exact ⟨⟨_, (if_pos hw).trans (answerRead_of_powered hon _ _ _),
      fun _ hk => Bytes16.extractLsb'_toWord_lanes s.txData w.toNat hk⟩,
    ⟨_, (if_pos hw).trans (answerRead_of_powered hon _ _ _),
      fun _ hk => Bytes16.extractLsb'_toWord_lanes s.rxData w.toNat hk⟩⟩

/-- Settles O11: both interrupt words are the CEC source's bit among drawn ones. -/
theorem readOfInterruptWords : Obligations.ReadOfInterruptWords := by
  intro s hon
  exact ⟨⟨_, answerRead_of_powered hon _ _ _, fun _ hi => IrqWord.getLsbD_toWord _ (cpuStatusValue s) hi⟩,
    ⟨_, answerRead_of_powered hon _ _ _, fun _ hi => IrqWord.getLsbD_toWord _ (cpuMaskValue s) hi⟩⟩

/-- Settles O12: each word read has the fields of its register's value, and so their bits. -/
theorem readOfPacketRegisters : Obligations.ReadOfPacketRegisters := by
  intro s hon
  have hconfig := PktConfig.ofWord_toWord s.pktConfig
  have hstatus := StatusWord.ofWord_toWord (pktStatusValue s)
  have slotBit {r : Word} {slots : BitVec 16} (h : r.extractLsb' 0 16 = slots) (k : Nat) (hk : k < 16) :
      r.getLsbD k = slots.getLsbD k := by
    subst h
    simp [hk]
  exact ⟨⟨s.pktConfig.toWord, answerRead_of_powered hon _ _ _, congrArg PktConfig.cfgOther hconfig,
      congrArg PktConfig.ramPacketEnable hconfig, slotBit (congrArg PktConfig.slotEn hconfig)⟩,
    ⟨(pktStatusValue s).toWord, answerRead_of_powered hon _ _ _, slotBit (congrArg StatusWord.slotSt hstatus),
      fun _ hlo hi => getLsbD_eq_of_extractLsb'_eq (congrArg StatusWord.upper hstatus) hlo hi⟩⟩

end Sys2Proof.Machine

/-! The MMIO writes while powered (O15 to O21): a write has its register's effect. -/

namespace Sys2Proof.Machine

open Sys2Proof.Claims

/-- A word has a 1 in no bit but the CEC source's exactly when it passes the check of R105 to R109. -/
theorem onlyBit_iff (var : Variant) (v : Word) : OnlyBit var.irqBit v ↔ v &&& ~~~(irqMask var) = 0 := by
  unfold OnlyBit irqMask
  rw [BitVec.eq_of_getLsbD_eq_iff]
  refine forall₂_congr fun i hi => ?_
  by_cases hc : i = var.irqBit.val
  · simp [hc]
  · simp [hi, hc]

theorem onCecBit_of_not_onlyBit {v : Word} {s : State} (h : ¬OnlyBit s.variant.irqBit v) (effect : State → State) :
    onCecBit v effect s = s.refuse .otherIrqSource :=
  if_pos (mt (onlyBit_iff s.variant v).mpr h)

theorem onCecBit_of_onlyBit {v : Word} {s : State} (h : OnlyBit s.variant.irqBit v) (effect : State → State) :
    onCecBit v effect s = if v.getLsbD s.variant.irqBit.val then effect s else s :=
  if_neg (not_not_intro ((onlyBit_iff s.variant v).mp h))

section

variable {v : Word} {s : State} (h : OnlyBit s.variant.irqBit v)

include h

theorem writeCpuSet_of_onlyBit :
    writeCpuSet v s = { s with cpuStatus := s.cpuStatus || v.getLsbD s.variant.irqBit.val } := by
  rw [writeCpuSet, onCecBit_of_onlyBit h]
  cases v.getLsbD s.variant.irqBit.val <;> simp

theorem writeCpuClear_of_onlyBit :
    writeCpuClear v s = { s with cpuStatus := s.cpuStatus && !v.getLsbD s.variant.irqBit.val } := by
  rw [writeCpuClear, onCecBit_of_onlyBit h]
  cases v.getLsbD s.variant.irqBit.val <;> simp

theorem writeCpuMaskSet_of_onlyBit :
    writeCpuMaskSet v s = { s with cpuMask := s.cpuMask || v.getLsbD s.variant.irqBit.val } := by
  rw [writeCpuMaskSet, onCecBit_of_onlyBit h]
  cases v.getLsbD s.variant.irqBit.val <;> simp

theorem writeCpuMaskClear_of_onlyBit :
    writeCpuMaskClear v s = { s with cpuMask := s.cpuMask && !v.getLsbD s.variant.irqBit.val } := by
  rw [writeCpuMaskClear, onCecBit_of_onlyBit h]
  cases v.getLsbD s.variant.irqBit.val <;> simp

end

/-- An issued write while powered is its register's effect (R89). -/
theorem next_mmioWrite_of_powered {effect : State → State} {s t : State} (hon : s.powered = true)
    (h : effect s = t) : (.next (mmioWrite effect s) : Result) = .next t :=
  congrArg Host.Outcome.next ((mmioWrite_of_powered hon effect).trans h)

/-- Settles O15: the fields of the word written, in the register's one update. -/
theorem writeOfControl1 : Obligations.WriteOfControl1 :=
  fun v s hon => next_mmioWrite_of_powered hon (writeCntrl1_eq (Cntrl1.ofWord v) s)

/-- Settles O16: each of the three effects is one record update. -/
theorem writeOfTimingRegisters : Obligations.WriteOfTimingRegisters :=
  fun _ _ hon => ⟨next_mmioWrite_of_powered hon rfl, next_mmioWrite_of_powered hon rfl,
    next_mmioWrite_of_powered hon rfl⟩

/-- Settles O17: the fields of the word written, in the register's one update. -/
theorem writeOfControl5 : Obligations.WriteOfControl5 :=
  fun v s hon => next_mmioWrite_of_powered hon (writeCntrl5_eq (Cntrl5.ofWord v) s)

/-- Settles O18: the word is stored by lanes, whatever the transmit engine does. -/
theorem writeOfTransmitData : Obligations.WriteOfTransmitData := by
  intro w v s hon hw
  exact ⟨Bytes16.setLanes s.txData w.toNat (Lanes.ofWord v),
    (if_pos hw).trans (next_mmioWrite_of_powered hon (writeTxData_eq w.toNat (Lanes.ofWord v) s)),
    fun _ hk => Bytes16.at_setLanes_lane s.txData hw hk v,
    fun _ _ hi => Bytes16.at_setLanes_other s.txData hw hi _⟩

/-- Settles O19: the four writes are one check of the word with four effects. -/
theorem writeOfInterruptWords : Obligations.WriteOfInterruptWords := by
  intro v s hon c
  constructor
  case left =>
    intro hother t
    have refuses (effect : State → State) : (.next (mmioWrite (onCecBit v effect) s) : Result) = .next t :=
      next_mmioWrite_of_powered hon (onCecBit_of_not_onlyBit hother effect)
    exact ⟨refuses _, refuses _, refuses _, refuses _⟩
  case right =>
    intro honly
    exact ⟨next_mmioWrite_of_powered hon (writeCpuSet_of_onlyBit honly),
      next_mmioWrite_of_powered hon (writeCpuClear_of_onlyBit honly),
      next_mmioWrite_of_powered hon (writeCpuMaskSet_of_onlyBit honly),
      next_mmioWrite_of_powered hon (writeCpuMaskClear_of_onlyBit honly)⟩

/-- Settles O20: a slot's torn flag stays where the new enable bit or the status bit is 1. -/
theorem writeOfPacketConfig : Obligations.WriteOfPacketConfig := by
  intro v s hon
  refine ⟨v.extractLsb' 0 16, s.slotTorn &&& (v.extractLsb' 0 16 ||| s.slotSt),
    next_mmioWrite_of_powered hon (writePktConfig_eq (PktConfig.ofWord v) s), fun k hk => ⟨?enabled, ?torn⟩⟩
  case enabled => simp [hk]
  case torn => rw [StillTorn, BitVec.getLsbD_and, BitVec.getLsbD_or]

/-- A write of a packet-RAM word while powered is a store (R84 c, R89). -/
theorem writePacketRam_of_powered {w : Nat} {s : State} (hon : s.powered = true) (hw : w < Config.packetRamWords)
    (v : Word) : writePacketRam w v s = storePacketRam w v s :=
  (if_pos hw).trans (mmioWrite_of_powered hon _)

/-- Settles O21: the store is one word write; it tears the word's slot where that slot is live. -/
theorem writeOfPacketRam : Obligations.WriteOfPacketRam := by
  intro w v s hon hw hwf
  refine ⟨Memory.writeWord s.packetRam w.toNat (if s.pktConfig.ramPacketEnable then v else Config.drawWord s.draws),
    if s.pktConfig.slotEn.getLsbD (w.toNat / 9) || s.slotSt.getLsbD (w.toNat / 9) then
      setSlot s.slotTorn (w.toNat / 9) true else s.slotTorn,
    ?store, fun _ hk => Memory.read_writeWord_lane hwf _ hk _, fun _ ha => Memory.read_writeWord_other hwf ha _,
    fun k hk => ?torn⟩
  case store =>
    refine congrArg Host.Outcome.next ?_
    rw [writePacketRam_of_powered hon hw, storePacketRam_eq]
    cases s.pktConfig.ramPacketEnable <;> rfl
  case torn =>
    rw [apply_ite (BitVec.getLsbD · k), getLsbD_setSlot _ hk]
    by_cases hslot : k = w.toNat / 9
    · subst hslot
      cases s.pktConfig.slotEn.getLsbD (w.toNat / 9) || s.slotSt.getLsbD (w.toNat / 9) <;> simp
    · simp [hslot]

end Sys2Proof.Machine

/-! The engine invariants (O50): what each update of the engines does to them, and the induction over the steps. -/

namespace Sys2Proof.Machine

open Sys2Proof.Claims

/-- A code of four bits stands for a length of at least 1 (R78). -/
theorem one_le_lengthOf (f : BitVec 4) : 1 ≤ lengthOf f := Nat.le_add_left 1 _

/-- R92, R118: a write during `TX_BUSY` that is no fault leaves `START_XMIT_BEGIN` as it was. -/
theorem startXmitBegin_eq_of_not_disturbs {v : Cntrl1} {s : State} (hbusy : s.txState = .txBusy)
    (h : disturbsTransmit v s = false) : v.startXmitBegin = s.cntrl1.startXmitBegin := by
  simp only [disturbsTransmit, hbusy, beq_self_eq_true, Bool.true_and, Bool.or_eq_false_iff, bne_eq_false_iff_eq] at h
  exact h.left

section

variable {s : State}

/-- R92: a write of `CEC_CNTRL_1` starts a frame with the bit it sets, or ends `TX_DONE` with the bit it clears; any
other write that drops the bit in `TX_BUSY` is the fault. Its clear-bit clears both receive bits (R24). -/
theorem engineInv_writeCntrl1 (v : Cntrl1) (h : EngineInv s) : EngineInv (writeCntrl1 v s) := by
  obtain ⟨hdone, hbusy, hreceive, hattempt⟩ := h
  rw [writeCntrl1_eq]
  refine ⟨fun hstate hfault => ?done, fun hstate hfault => ?busy, congrArg (· && !v.clearReceiveOff) hreceive,
    fun hstate => ?attempt⟩
  case done =>
    obtain ⟨hfault, -⟩ := Bool.or_eq_false_iff.mp hfault
    dsimp only at hstate
    split_ifs at hstate with hstarts hends
    have hset := hdone hstate hfault
    show v.startXmitBegin = true
    simpa [hset, hstate] using hends
  case busy =>
    obtain ⟨hfault, hquiet⟩ := Bool.or_eq_false_iff.mp hfault
    dsimp only at hstate ⊢
    split_ifs at hstate ⊢ with hstarts hends
    · simp only [Bool.and_eq_true] at hstarts
      obtain ⟨⟨-, hset⟩, -⟩ := hstarts
      exact ⟨hset, one_le_lengthOf _, lengthOf_le _⟩
    · obtain ⟨hset, hlen⟩ := hbusy hstate hfault
      exact ⟨(startXmitBegin_eq_of_not_disturbs hstate hquiet).trans hset, hlen⟩
  case attempt =>
    dsimp only at hstate ⊢
    split_ifs at hstate ⊢ with hstarts hends
    · exact Nat.zero_lt_two
    · exact hattempt hstate

/-- R100: a write of `CEC_CNTRL_5` puts no engine into `TX_BUSY` or `TX_DONE`, and its receive reset clears both
receive bits (R129). -/
theorem engineInv_writeCntrl5 (v : Cntrl5) (h : EngineInv s) : EngineInv (writeCntrl5 v s) := by
  obtain ⟨hdone, hbusy, hreceive, hattempt⟩ := h
  rw [writeCntrl5_eq]
  have hreceive' : (s.cntrl1.receiveOff && !v.rxSwReset) = (s.cntrl5.rxCecInt && !v.rxSwReset) :=
    congrArg (· && !v.rxSwReset) hreceive
  cases v.txSwReset
  case true => exact ⟨nofun, nofun, hreceive', nofun⟩
  case false =>
    by_cases hreset : s.txState = .txReset
    · rw [if_neg Bool.false_ne_true, if_pos hreset]
      exact ⟨nofun, nofun, hreceive', nofun⟩
    · rw [if_neg Bool.false_ne_true, if_neg hreset]
      exact ⟨hdone, hbusy, hreceive', hattempt⟩

/-- R102: a write of a transmit data word can only raise the fault. -/
theorem engineInv_writeTxData (w : Nat) (l : Lanes) (h : EngineInv s) : EngineInv (writeTxData w l s) := by
  obtain ⟨hdone, hbusy, hreceive, hattempt⟩ := h
  rw [writeTxData_eq]
  exact ⟨fun hstate hfault => hdone hstate (Bool.or_eq_false_iff.mp hfault).left,
    fun hstate hfault => hbusy hstate (Bool.or_eq_false_iff.mp hfault).left, hreceive, hattempt⟩

/-- R119, R120: an attempt that does not complete the transmit is not the second one, and one that does leaves the
start bit that `TX_BUSY` had. -/
theorem engineInv_txAttemptEnds (acked : Bool) (hstate : s.txState = .txBusy) (h : EngineInv s) :
    EngineInv (s.txAttemptEnds acked) := by
  obtain ⟨-, hbusy, hreceive, hattempt⟩ := h
  rw [txAttemptEnds_eq]
  cases hlast : acked || s.txAttempt + 1 == Config.cecTxAttempts
  case true => exact ⟨fun _ hfault => (hbusy hstate hfault).left, nofun, hreceive, nofun⟩
  case false =>
    obtain ⟨-, hmore⟩ := Bool.or_eq_false_iff.mp hlast
    have hne : s.txAttempt + 1 ≠ 2 := beq_eq_false_iff_ne.mp hmore
    have hlt := hattempt hstate
    refine ⟨fun hdone => ?_, hbusy, hreceive, fun _ => ?_⟩
    · exact absurd (hstate.symm.trans hdone) nofun
    · exact Nat.lt_of_le_of_ne hlt hne

/-- R126: a frame that completes sets both receive bits. -/
theorem engineInv_rxComplete (frame : List Byte) (h : EngineInv s) : EngineInv (s.rxComplete frame) := by
  obtain ⟨hdone, hbusy, -, hattempt⟩ := h
  exact ⟨hdone, hbusy, rfl, hattempt⟩

/-- R196, R197: power restored leaves the engines of the reset state. -/
theorem engineInv_setPower (on : Bool) (h : EngineInv s) : EngineInv (s.setPower on) := by
  unfold State.setPower
  split_ifs
  · exact h
  · exact reset_engineInv
  · exact h

end

/-- Every update of the machine keeps the engine invariants: those that write what the invariants read are the lemmas
above. -/
theorem kept_engineInv : Kept (fun _ => True) EngineInv where
  setAgent a _ _ h := by cases a <;> exact h
  draw _ _ h := h
  refuse _ _ h := h
  raiseUnpowered _ h := h
  raiseMailbox _ h := h
  raisePktRamOff _ h := h
  clearHostVars _ h := h
  setRxLen _ _ _ h := h
  setRxWord _ _ _ h := h
  setWasRx _ _ h := h
  setTxOk _ _ h := h
  setMailbox _ _ h := h
  emit _ _ h := h
  readData _ _ h := h
  packed _ _ h := h
  plan _ _ h := h
  cntrl1 v _ h := engineInv_writeCntrl1 v h
  cntrl2 _ _ h := h
  cntrl3 _ _ h := h
  cntrl4 _ _ h := h
  cntrl5 v _ h := engineInv_writeCntrl5 v h
  txData w l _ h := engineInv_writeTxData w l h
  cpuStatus _ _ h := h
  cpuMask _ _ h := h
  pktConfig _ _ h := h
  packetRam _ _ _ _ h := by rwa [storePacketRam_eq]
  txAttemptEnds acked _ hbusy h := engineInv_txAttemptEnds acked hbusy h
  rxComplete frame _ h := engineInv_rxComplete frame h
  moveStatus _ _ _ h := by rwa [moveStatus_eq]
  setPower on _ _ h := engineInv_setPower on h

/-- Settles O50: every update keeps the invariants, so every step does, power changes included. -/
theorem engineInvariantIsKept : Obligations.EngineInvariantIsKept :=
  fun _ _ hinv hstep => kept_engineInv.step (fun _ _ h => h) (fun _ _ _ _ _ => trivial) hinv hstep

end Sys2Proof.Machine

/-! When an engine event has a step and when it has none (R114): each condition by itself. -/

namespace Sys2Proof.Machine

/-- R114: no event happens while unpowered; what else the event asks does not matter then. -/
theorem eventUnpowered_of_unpowered {s : State} (hoff : s.powered = false) (next : Result) :
    (if !s.powered then .fault .eventUnpowered else next) = (.fault .eventUnpowered : Result) := by
  rw [hoff]
  rfl

/-- R114: while powered an event is what its own condition says. -/
theorem event_of_powered {s : State} (hon : s.powered = true) (next : Result) :
    (if !s.powered then .fault .eventUnpowered else next) = next := by
  rw [hon]
  rfl

/-- R126, R130: when the receiver listens. -/
theorem rxEnabled_iff (s : State) :
    s.rxEnabled = true ↔
      s.cntrl5.rxSwReset = false ∧ s.cntrl1.receiveOff = false ∧ s.cntrl1.clearReceiveOff = false := by
  simp [State.rxEnabled, and_assoc]

/-- R161: when a status bit may move. -/
theorem statusMayMove_iff (slot : Nat) (b : Bool) (s : State) :
    s.statusMayMove slot b = true ↔
      s.slotSt.getLsbD slot ≠ b ∧ (s.pktConfig.ramPacketEnable = true → s.pktConfig.slotEn.getLsbD slot = b) := by
  unfold State.statusMayMove
  rw [ne_comm, eq_comm (b := b)]
  cases s.pktConfig.ramPacketEnable <;> simp

/-- R127: the frames an event can carry. -/
theorem execEvRxFrame_of_length {frame : List Byte} (hpos : 1 ≤ frame.length) (hlen : frame.length ≤ 16)
    (s : State) :
    execEvRxFrame frame s =
      if !s.powered then .fault .eventUnpowered
      else if s.rxEnabled then .next (s.rxComplete frame) else .fault .receiverNotListening := by
  have hframe : ¬(frame.length = 0 ∨ Config.cecMaxLen < frame.length) := by
    unfold Config.cecMaxLen
    omega
  exact if_neg hframe

/-- R84 (f): the slots that exist. -/
theorem execEvPktStatus_of_lt {slot : BitVec 5} (hslot : slot.toNat < 16) (b : Bool) (s : State) :
    execEvPktStatus slot b s =
      if !s.powered then .fault .eventUnpowered
      else if s.statusMayMove slot.toNat b then .next (s.moveStatus slot.toNat b) else .fault .statusMayNotMove :=
  if_neg (Nat.not_le_of_lt hslot)

end Sys2Proof.Machine

/-! The CEC engine events that have a step (O22, O23, O24). -/

namespace Sys2Proof.Machine

open Sys2Proof.Claims

/-- The sixteen bytes after a frame (R126): the frame's, then free values. -/
theorem Bytes16.at_frameBytes (frame : List Byte) (n : Nat) {i : Nat} (hi : i < 16) :
    Bytes16.at (frameBytes frame n) i = if i < frame.length then frame.getD i 0 else drawn n i := by
  have hat : Bytes16.at (frameBytes frame n) i = frame.getD i (drawn n i) := by
    simp [Bytes16.at, frameBytes, hi, drawByte, drawn]
  rw [hat]
  split_ifs with hin
  · simp [hin]
  · exact List.getD_eq_default _ _ (Nat.le_of_not_lt hin)

/-- Settles O22: an attempt in `TX_BUSY` is `txAttemptEnds`, whose last attempt completes the transmit. -/
theorem transmitAttemptEnds : Obligations.TransmitAttemptEnds := by
  intro acked s hon hbusy
  have hexec : exec (.evTxAttempt acked) s = .next (s.txAttemptEnds acked) :=
    (event_of_powered hon _).trans (if_pos hbusy)
  have hlast : (acked || s.txAttempt + 1 == Config.cecTxAttempts) = true ↔ acked = true ∨ s.txAttempt + 1 = 2 := by
    simp [Config.cecTxAttempts]
  rw [hexec, txAttemptEnds_eq]
  simp only [hlast]
  split_ifs <;> rfl

/-- Settles O23: a listening receiver takes the frame, and its data is the frame's bytes followed by draws. -/
theorem receivedFrameCompletes : Obligations.ReceivedFrameCompletes := by
  intro frame s hon hpos hlen hreset hoff hclear
  have hlistens : s.rxEnabled = true := (rxEnabled_iff s).mpr ⟨hreset, hoff, hclear⟩
  have hexec : exec (.evRxFrame frame) s = .next (s.rxComplete frame) :=
    calc exec (.evRxFrame frame) s
      _ = _ := execEvRxFrame_of_length hpos hlen s
      _ = _ := event_of_powered hon _
      _ = .next (s.rxComplete frame) := if_pos hlistens
  exact ⟨frameBytes frame s.draws, hexec, fun _ hi => Bytes16.at_frameBytes frame s.draws hi⟩

/-- Settles O24: the event that the variant allows is one write of the status bit. -/
theorem spuriousEventSetsStatus : Obligations.SpuriousEventSetsStatus :=
  fun _ hon hallowed => (event_of_powered hon _).trans (if_pos hallowed)

end Sys2Proof.Machine

/-! The steps that are not enabled (O26): operations that may not start, and the stops of the model (log 10). -/

namespace Sys2Proof.Machine

open Sys2Proof.Claims

/-- R135 (a): an operation does not start on an agent that runs one. -/
theorem startOp_of_busy {op : HostOp} {s : State} (hbusy : (s.agent op.agent).run ≠ none) :
    startOp op s = .fault .agentBusy := by
  have hsome := Option.isSome_iff_ne_none.mpr hbusy
  unfold startOp
  cases ha : op.agent <;> rw [ha] at hsome <;> exact if_pos hsome

/-- R135 (b): the hard handler does not start with the line low, unless spurious starts are allowed. -/
theorem startOp_hard_of_line_low {s : State} (hidle : s.hard.run = none) (hlow : s.irqLine = false)
    (hspurious : s.variant.allowSpurious = false) : startOp .cecIrqHard s = .fault .irqLineLow := by
  simp [startOp, enterHandler, HostOp.agent, hidle, hlow, hspurious]

/-- R135 (c): the threaded handler does not start with the mailbox empty. -/
theorem startOp_thread_of_empty {s : State} (hidle : s.thread.run = none) (hempty : s.mailboxFull = false) :
    startOp .cecIrqThread s = .fault .mailboxEmpty := by
  simp [startOp, HostOp.agent, hidle, hempty]

/-- R185: the line is low where the source is not pending or is masked. -/
theorem irqLine_eq_false_iff (s : State) : s.irqLine = false ↔ s.cpuStatus = false ∨ s.cpuMask = true := by
  unfold State.irqLine
  cases s.cpuStatus <;> simp

theorem agent_plan (s : State) (plan : List Move) (a : Agent) : State.agent { s with plan := plan } a = s.agent a := by
  cases a <;> rfl

/-- An operation that may not start stops with the reason. -/
theorem runOp_of_fault {op : HostOp} {s : State} {e : Fault} (h : startOp op { s with plan := [] } = .fault e) :
    runOp op s = .fault e := by
  simp only [runOp, h, andThen_fault]

/-- The instructions that start an operation on an agent (R135). -/
theorem hostOpOf_of_startsOn {a : Agent} {i : Instr} (h : StartsOn a i) :
    ∃ op, hostOpOf i = some op ∧ op.agent = a := by
  cases a
  case proc =>
    cases i
    case cecInit | cecEnable | cecDisable | cecSetLogAddr | cecTransmit | pktRamEnable | pktRamDisable | pktStop
        | pktWrite => exact ⟨_, rfl, rfl⟩
    all_goals exact False.elim h
  case hard =>
    cases i
    case cecIrqHard => exact ⟨_, rfl, rfl⟩
    all_goals exact False.elim h
  case thread =>
    cases i
    case cecIrqThread => exact ⟨_, rfl, rfl⟩
    all_goals exact False.elim h

/-- Settles O26: an event outside its condition and an operation that may not start have no next state. -/
theorem stepsNotEnabledStop : Obligations.StepsNotEnabledStop := by
  intro s
  refine ⟨?attempt, ?notListening, ?noSuchFrame, ?spurious, ?status, ?unpowered, ?hard, ?thread, ?busy⟩
  case attempt =>
    intro acked hon hnotBusy
    exact (event_of_powered hon _).trans (if_neg hnotBusy)
  case notListening =>
    intro frame hon hpos hlen hdeaf
    have hnot : ¬s.rxEnabled = true := by
      rw [rxEnabled_iff]
      rintro ⟨hreset, hoff, hclear⟩
      simp [hreset, hoff, hclear] at hdeaf
    exact (execEvRxFrame_of_length hpos hlen s).trans ((event_of_powered hon _).trans (if_neg hnot))
  case noSuchFrame =>
    intro frame hlen
    exact if_pos hlen
  case spurious =>
    intro hon hnot
    exact (event_of_powered hon _).trans (if_neg (Bool.eq_false_iff.mp hnot))
  case status =>
    intro slot b hon hslot hstays
    have hnot : ¬s.statusMayMove slot.toNat b = true := by
      rw [statusMayMove_iff]
      rintro ⟨hmoves, hfollows⟩
      obtain hsame | ⟨hram, hdiffers⟩ := hstays
      · exact hmoves hsame
      · exact hdiffers (hfollows hram)
    exact (execEvPktStatus_of_lt hslot b s).trans ((event_of_powered hon _).trans (if_neg hnot))
  case unpowered =>
    intro hoff
    exact ⟨fun _ => eventUnpowered_of_unpowered hoff _,
      fun _ hpos hlen => (execEvRxFrame_of_length hpos hlen s).trans (eventUnpowered_of_unpowered hoff _),
      eventUnpowered_of_unpowered hoff _,
      fun _ b hslot => (execEvPktStatus_of_lt hslot b s).trans (eventUnpowered_of_unpowered hoff _)⟩
  case hard =>
    intro hidle hline hspurious
    have hlow : s.irqLine = false := (irqLine_eq_false_iff s).mpr hline
    exact runOp_of_fault (startOp_hard_of_line_low (s := { s with plan := [] }) hidle hlow hspurious)
  case thread =>
    intro hidle hempty
    exact runOp_of_fault (startOp_thread_of_empty (s := { s with plan := [] }) hidle hempty)
  case busy =>
    intro i a hstarts hbusy
    obtain ⟨op, hop, rfl⟩ := hostOpOf_of_startsOn hstarts
    rw [exec_of_hostOpOf hop]
    exact runOp_of_fault (startOp_of_busy (by rwa [agent_plan]))

end Sys2Proof.Machine

/-! The accesses of the CEC host operations while powered (O27 to O34): the registers read, and what each write, or each
pair of writes, leaves. -/

namespace Sys2Proof.Machine

section

variable {s : State} (hon : s.powered = true)

include hon

theorem readCntrl1_of_powered : readCntrl1 s = (cntrl1Value s, s.draw 1) := mmioRead_of_powered hon _ _

theorem readCntrl5_of_powered : readCntrl5 s = (cntrl5Value s, s.draw 1) := mmioRead_of_powered hon _ _

theorem readCpuStatus_of_powered : readCpuStatus s = (cpuStatusValue s, s.draw 1) := mmioRead_of_powered hon _ _

/-- R108: a write of `M` is for the CEC source. -/
theorem mmioWrite_cpuMaskSet {var : Variant} (hvar : var = s.variant) :
    mmioWrite (writeCpuMaskSet (irqMask var)) s = { s with cpuMask := true } := by
  rw [hvar, mmioWrite_of_powered hon, writeCpuMaskSet_irqMask]

end

/-! `CEC_CNTRL_1` (R92). -/

/-- A write that keeps what a transmit has latched leaves the transmit engine as it is. -/
theorem writeCntrl1_of_keepsTransmit {v : Cntrl1} {s : State} (hbegin : v.startXmitBegin = s.cntrl1.startXmitBegin)
    (hlen : v.messageLength = s.cntrl1.messageLength) :
    writeCntrl1 v s = { s with
      cntrl1 := { v.store s.cntrl1 with receiveOff := s.cntrl1.receiveOff && !v.clearReceiveOff }
      cntrl5 := { s.cntrl5 with rxCecInt := s.cntrl5.rxCecInt && !v.clearReceiveOff } } := by
  rw [writeCntrl1_eq]
  simp [disturbsTransmit, hbegin, hlen]

/-- A write that clears the transmit-begin bit ends `TX_DONE` and starts nothing. -/
theorem writeCntrl1_of_clearsBegin {v : Cntrl1} (hclear : v.startXmitBegin = false) (s : State) :
    writeCntrl1 v s = { s with
      cntrl1 := { v.store s.cntrl1 with receiveOff := s.cntrl1.receiveOff && !v.clearReceiveOff }
      cntrl5 := { s.cntrl5 with rxCecInt := s.cntrl5.rxCecInt && !v.clearReceiveOff }
      fTxRegWhileBusy := s.fTxRegWhileBusy || disturbsTransmit v s
      txState := if s.cntrl1.startXmitBegin && s.txState == .txDone then .txIdle else s.txState } := by
  rw [writeCntrl1_eq]
  simp [hclear]

/-- R92, R208, R142 step 9b: the transmit-begin bit cleared alone, with no frame held. It ends `TX_DONE`; where it was 1
during `TX_BUSY` it is the fault (R118). -/
theorem mmioWrite_endBegin {s : State} (hon : s.powered = true) (hrx : s.cntrl5.rxCecInt = false) {c : Cntrl1}
    (hlen : c.messageLength = s.cntrl1.messageLength) :
    mmioWrite (writeCntrl1 { c with startXmitBegin := false }) s = { s with
      cntrl1 := { c.store s.cntrl1 with
        startXmitBegin := false
        receiveOff := s.cntrl1.receiveOff && !c.clearReceiveOff }
      fTxRegWhileBusy := s.fTxRegWhileBusy || (s.txState == .txBusy && s.cntrl1.startXmitBegin)
      txState := if s.cntrl1.startXmitBegin && s.txState == .txDone then .txIdle else s.txState } := by
  have hdisturbs : disturbsTransmit { c with startXmitBegin := false } s =
      (s.txState == .txBusy && s.cntrl1.startXmitBegin) := by simp [disturbsTransmit, hlen]
  have hnone : ({ s.cntrl5 with rxCecInt := s.cntrl5.rxCecInt && !c.clearReceiveOff } : Cntrl5) = s.cntrl5 := by
    rw [hrx, Bool.false_and, ← hrx]
  rw [mmioWrite_of_powered hon, writeCntrl1_of_clearsBegin rfl, hdisturbs, hnone]
  rfl

/-- R24, R142 steps 8d and 8e: the clear-bit pulsed. -/
theorem mmioWrite_pulseClear {s : State} (hon : s.powered = true) {c : Cntrl1}
    (hbegin : c.startXmitBegin = s.cntrl1.startXmitBegin) (hlen : c.messageLength = s.cntrl1.messageLength) :
    mmioWrite (writeCntrl1 { c with clearReceiveOff := false })
        (mmioWrite (writeCntrl1 { c with clearReceiveOff := true }) s) =
      { s with
        cntrl1 := { c.store s.cntrl1 with clearReceiveOff := false, receiveOff := false }
        cntrl5 := { s.cntrl5 with rxCecInt := false } } := by
  rw [mmioWrite_of_powered hon, writeCntrl1_of_keepsTransmit (by exact hbegin) (by exact hlen),
    mmioWrite_of_powered (by exact hon), writeCntrl1_of_keepsTransmit (by rfl) (by rfl)]
  simp [Cntrl1.store]

/-- Whether the transmit-begin bit cleared and set again starts a frame (R141): in `TX_IDLE`, and in `TX_DONE` where the
clearing ends it. -/
def restarts (s : State) : Bool := s.txState == .txIdle || (s.txState == .txDone && s.cntrl1.startXmitBegin)

/-- R141 steps 6 and 8: the transmit-begin bit cleared and set again, where a transmit in progress is a fault
already. -/
theorem mmioWrite_beginAgain {s : State} (hon : s.powered = true)
    (hfault : s.txState = .txBusy → s.fTxRegWhileBusy = true) (c : Cntrl1) (len : BitVec 4) :
    mmioWrite (writeCntrl1 { c with messageLength := len, startXmitBegin := true })
        (mmioWrite (writeCntrl1 { c with startXmitBegin := false }) s) =
      { s with
        cntrl1 := { c.store s.cntrl1 with
          messageLength := len
          startXmitBegin := true
          receiveOff := s.cntrl1.receiveOff && !c.clearReceiveOff }
        cntrl5 := { s.cntrl5 with rxCecInt := s.cntrl5.rxCecInt && !c.clearReceiveOff }
        txState := if restarts s then .txBusy else s.txState
        txLen := if restarts s then lengthOf len else s.txLen
        txBytes := if restarts s then s.txData else s.txBytes
        txAttempt := if restarts s then 0 else s.txAttempt } := by
  rw [mmioWrite_of_powered hon, writeCntrl1_of_clearsBegin rfl, mmioWrite_of_powered (by exact hon), writeCntrl1_eq]
  cases hstate : s.txState with
  | txReset => simp [restarts, Cntrl1.store, disturbsTransmit, beq_false_of_ne, hstate]
  | txIdle => simp [restarts, Cntrl1.store, disturbsTransmit, beq_false_of_ne, hstate]
  | txBusy => simp [restarts, Cntrl1.store, hstate, hfault hstate]
  | txDone =>
    cases hbegin : s.cntrl1.startXmitBegin <;>
      simp [restarts, Cntrl1.store, disturbsTransmit, beq_false_of_ne, hstate, hbegin]

/-! `CEC_CNTRL_5` and the timing registers (R94 to R100). -/

/-- R124, R129: a write that resets both engines. -/
theorem writeCntrl5_of_holds {v : Cntrl5} (htx : v.txSwReset = true) (hrx : v.rxSwReset = true) (s : State) :
    writeCntrl5 v s = { s with
      cntrl5 := { v with reserved := s.cntrl5.reserved, rxCecInt := false }
      cntrl1 := { s.cntrl1 with receiveOff := false }
      txState := .txReset
      txAttempt := 0 } := by
  rw [writeCntrl5_eq]
  simp [htx, hrx]

/-- R100: a write that releases both engines from reset. -/
theorem writeCntrl5_of_releases {v : Cntrl5} {s : State} (htx : v.txSwReset = false) (hrx : v.rxSwReset = false)
    (hreset : s.txState = .txReset) :
    writeCntrl5 v s = { s with
      cntrl5 := { v with reserved := s.cntrl5.reserved, rxCecInt := s.cntrl5.rxCecInt }
      txState := .txIdle } := by
  rw [writeCntrl5_eq]
  simp [htx, hrx, hreset]

/-- R138 steps 6 and 7: both engines reset, and released with the other fields as they are to be. -/
theorem mmioWrite_resetCycle {s : State} (hon : s.powered = true) {v : Cntrl5} (htx : v.txSwReset = false)
    (hrx : v.rxSwReset = false) :
    mmioWrite (writeCntrl5 v) (mmioWrite (writeCntrl5 { v with txSwReset := true, rxSwReset := true }) s) =
      { s with
        cntrl5 := { v with reserved := s.cntrl5.reserved, rxCecInt := false }
        cntrl1 := { s.cntrl1 with receiveOff := false }
        txState := .txIdle
        txAttempt := 0 } := by
  rw [mmioWrite_of_powered hon, writeCntrl5_of_holds rfl rfl, mmioWrite_of_powered (by exact hon),
    writeCntrl5_of_releases htx hrx rfl]

/-- R80, R138 steps 1 to 3: the counts in the words that `CEC_ENABLE` writes. -/
theorem mmioWrite_timingWords {s : State} (hon : s.powered = true) :
    mmioWrite (writeCntrl4 (Cntrl4.ofWord 0xAC9C908C))
        (mmioWrite (writeCntrl3 (Cntrl3.ofWord 0x6E605244)) (mmioWrite (writeCntrl2 (Cntrl2.ofWord 0x3C690310)) s)) =
      { s with
        cntrl2 := { s.cntrl2 with cnt1500 := 60, cnt1300 := 52, cnt800 := 32, cnt600 := 24, cnt400 := 16 }
        cntrl3 := { cnt2750 := 110, cnt2400 := 96, cnt2050 := 82, cnt1700 := 68 }
        cntrl4 := { cnt4300 := 172, cnt3900 := 156, cnt3600 := 144, cnt3500 := 140 } } := by
  have counts2 : Cntrl2.ofWord 0x3C690310 =
      { cnt1500 := 60, cnt1300 := 52, cnt800 := 32, cnt600 := 24, cnt400 := 16 } := by decide
  have counts3 : Cntrl3.ofWord 0x6E605244 =
      { cnt2750 := 110, cnt2400 := 96, cnt2050 := 82, cnt1700 := 68 } := by decide
  have counts4 : Cntrl4.ofWord 0xAC9C908C =
      { cnt4300 := 172, cnt3900 := 156, cnt3600 := 144, cnt3500 := 140 } := by decide
  rw [mmioWrite_of_powered hon, mmioWrite_of_powered (s := writeCntrl2 _ s) (by exact hon),
    mmioWrite_of_powered (s := writeCntrl3 _ _) (by exact hon), counts2, counts3, counts4]
  rfl

end Sys2Proof.Machine

/-! The loops over data words (R141 step 3, R142 step 8b): the sixteen bytes after several words are stored. -/

namespace Sys2Proof.Machine

/-- The first `count` words stored: each byte of them is its lane's, and the others are as before. -/
theorem Bytes16.at_foldl_setLanes (word : Nat → Lanes) (v : Bytes16) {count : Nat} (hcount : count ≤ 4) (i : Nat) :
    Bytes16.at ((List.range count).foldl (fun b w => Bytes16.setLanes b w (word w)) v) i =
      if i < 4 * count then (word (i / 4)).toWord.extractLsb' (8 * (i % 4)) 8 else Bytes16.at v i := by
  induction count with
  | zero => rfl
  | succ n ih =>
    have hn : n < 4 := hcount
    rw [List.range_succ, List.foldl_append, List.foldl_cons, List.foldl_nil]
    by_cases hin : 4 * n ≤ i ∧ i < 4 * n + 4
    · obtain ⟨k, rfl⟩ := Nat.exists_eq_add_of_le hin.left
      have hk : k < 4 := by omega
      have hdiv : (4 * n + k) / 4 = n := by omega
      have hmod : (4 * n + k) % 4 = k := by omega
      rw [← Lanes.ofWord_toWord (word n), Bytes16.at_setLanes_lane _ hn hk, if_pos (by omega), hdiv, hmod]
    · rw [Bytes16.at_setLanes_other _ hn (by omega), ih hn.le]
      exact if_congr (by omega) rfl rfl

/-! Received words. -/

/-- R142 step 8b: the receive buffer after `count` words of the receive data are copied into it. -/
def copiedData (data : Bytes16) (count : Nat) (v : Bytes16) : Bytes16 :=
  (List.range count).foldl (fun b w => Bytes16.setLanes b w (Bytes16.lanes data w)) v

theorem at_copiedData (data v : Bytes16) {count : Nat} (hcount : count ≤ 4) (i : Nat) :
    Bytes16.at (copiedData data count v) i = if i < 4 * count then Bytes16.at data i else Bytes16.at v i := by
  rw [copiedData, Bytes16.at_foldl_setLanes (Bytes16.lanes data) v hcount,
    Bytes16.extractLsb'_toWord_lanes data _ (Nat.mod_lt i (by decide)), Nat.div_add_mod]

theorem copyWords_eq (count : Nat) {u : State} (hon : u.powered = true) :
    copyWords count 0 u = { u with
      draws := u.draws + count
      rxMsg := { u.rxMsg with bytes := copiedData u.rxData count u.rxMsg.bytes } } := by
  rw [copyWords_powered count 0 hon, ← List.range_eq_range', copiedData]

/-! Sent words. -/

/-- R141 step 3: the transmit data after a message is written over it, its pad bytes the free values from the `n`-th
on. -/
def sentData (msg : List Byte) (n : Nat) (v : Bytes16) : Bytes16 :=
  (List.range (wordsFor msg.length)).foldl (fun b w => Bytes16.setLanes b w (messageLanes msg w (n + w))) v

/-- R82, D24: a lane of a message's word is the message's byte, or past its end the pad byte drawn for it. -/
theorem extractLsb'_toWord_messageLanes (msg : List Byte) (w n : Nat) {k : Nat} (hk : k < 4) :
    (messageLanes msg w n).toWord.extractLsb' (8 * k) 8 =
      msg.getD (4 * w + k) ((Config.drawWord n).extractLsb' (8 * k) 8) := by
  have hword := Lanes.ofWord_toWord (messageLanes msg w n)
  match k, hk with
  | 0, _ => exact congrArg Lanes.b0 hword
  | 1, _ => exact congrArg Lanes.b1 hword
  | 2, _ => exact congrArg Lanes.b2 hword
  | 3, _ => exact congrArg Lanes.b3 hword

/-- The words sent hold the message and pad bytes after it; past them the data are as before. -/
theorem at_sentData (msg : List Byte) (n : Nat) (v : Bytes16) (hmax : msg.length ≤ 16) (i : Nat) :
    Bytes16.at (sentData msg n v) i =
      if i < msg.length then msg.getD i 0
      else if i < 4 * wordsFor msg.length then (Config.drawWord (n + i / 4)).extractLsb' (8 * (i % 4)) 8
      else Bytes16.at v i := by
  have hcount : wordsFor msg.length ≤ 4 := by
    unfold wordsFor
    omega
  have hcover : msg.length ≤ 4 * wordsFor msg.length := by
    unfold wordsFor
    omega
  rw [sentData, Bytes16.at_foldl_setLanes (fun w => messageLanes msg w (n + w)) v hcount,
    extractLsb'_toWord_messageLanes _ _ _ (Nat.mod_lt i (by decide)), Nat.div_add_mod]
  by_cases hi : i < msg.length
  · rw [if_pos (by omega), if_pos hi]
    simp [hi]
  · rw [if_neg hi]
    simp [Nat.le_of_not_lt hi]

/-- R102, R141 step 3: a message of at least one byte sent; during `TX_BUSY` with the fault. -/
theorem sendWords_message {msg : List Byte} (hpos : 1 ≤ msg.length) {u : State} (hon : u.powered = true) :
    sendWords msg (wordsFor msg.length) 0 u = { u with
      draws := u.draws + wordsFor msg.length
      fTxRegWhileBusy := u.fTxRegWhileBusy || u.txState == .txBusy
      txData := sentData msg u.draws u.txData } := by
  have hwords : (wordsFor msg.length != 0) = true := by
    unfold wordsFor
    rw [bne_iff_ne]
    omega
  rw [sendWords_powered msg _ 0 hon, hwords]
  simp only [sentData, Nat.zero_add, Bool.true_and]

/-- R78: the length read back from the length field written. -/
theorem lengthOf_lengthField {n : Nat} (hpos : 1 ≤ n) (hmax : n ≤ 16) : lengthOf (lengthField n) = n := by
  unfold lengthOf lengthField
  rw [BitVec.toNat_ofNat]
  omega

/-- R117: what goes out on the wire is the message that stands in the latched bytes. -/
theorem wireFrame_of_latched {t : State} {msg : List Byte} (hbusy : t.txState = .txBusy) (hlen : t.txLen = msg.length)
    (hmax : msg.length ≤ 16) (hbytes : ∀ i, i < msg.length → Bytes16.at t.txBytes i = msg.getD i 0) :
    t.wireFrame = some msg := by
  rw [State.wireFrame, if_pos hbusy, hlen]
  refine congrArg some (List.ext_getElem (by simpa using hmax) fun i _ hi => ?_)
  have hi16 : i < 16 := by omega
  simpa [Bytes16.at, hi, hi16] using hbytes i hi

end Sys2Proof.Machine

/-! The CEC host operations of HOST_PROC run alone (O27 to O32): the composition of their accesses, each as above. -/

namespace Sys2Proof.Machine

open Sys2Proof.Claims

/-- Settles O27: the one write of `CEC_CNTRL_1` keeps the transmit engine; a divider that does not fit is refused before
the first access. -/
theorem initSetsUpTheInstance : Obligations.InitSetsUpTheInstance := by
  rintro s ⟨hplan, hproc, hhard⟩ hon
  constructor
  case left =>
    intro hfits
    refine (alone_cecInit hplan hproc hhard hfits).trans ?_
    rw [mmioWrite_cpuMaskSet (by exact hon) (by rfl)]
    dsimp only
    rw [readCntrl1_of_powered (by exact hon)]
    dsimp only
    rw [mmioWrite_of_powered (by exact hon), writeCntrl1_of_keepsTransmit (by rfl) (by rfl)]
    rfl
  case right => exact alone_cecInit_refused hplan hproc hhard

/-- Settles O28: the timing words, the reset cycle of both engines, and the source unmasked. -/
theorem enableProgramsAndReleases : Obligations.EnableProgramsAndReleases := by
  rintro s ⟨hplan, hproc, hhard⟩ hon
  refine (alone_cecEnable hplan hproc hhard).trans ?_
  rw [mmioWrite_timingWords (by exact hon)]
  dsimp only
  rw [readCntrl5_of_powered (by exact hon)]
  dsimp only
  rw [mmioWrite_resetCycle (by exact hon) (by rfl) (by rfl), mmioWrite_of_powered (by exact hon),
    writeCpuMaskClear_irqMask]
  rfl

/-- Settles O29: the one write of `CEC_CNTRL_5` resets both engines. -/
theorem disableHoldsBothEngines : Obligations.DisableHoldsBothEngines := by
  rintro s ⟨hplan, hproc, hhard⟩ hon
  refine (alone_cecDisable hplan hproc hhard).trans ?_
  rw [mmioWrite_cpuMaskSet (by exact hon) (by rfl)]
  dsimp only
  rw [readCntrl5_of_powered (by exact hon)]
  dsimp only
  rw [mmioWrite_of_powered (by exact hon), writeCntrl5_of_holds (by rfl) (by rfl)]
  rfl

/-- Settles O30: the one write of `CEC_CNTRL_1` keeps the transmit engine. -/
theorem setLogAddrPreservesTheRest : Obligations.SetLogAddrPreservesTheRest := by
  rintro la s ⟨hplan, hproc, hhard⟩ hon
  refine (alone_cecSetLogAddr hplan hproc hhard la).trans ?_
  rw [readCntrl1_of_powered (by exact hon)]
  dsimp only
  rw [mmioWrite_of_powered (by exact hon), writeCntrl1_of_keepsTransmit (by rfl) (by rfl)]
  rfl

/-- Settles O31: the message is sent by words, which is the fault during `TX_BUSY`; then the transmit-begin bit is
cleared and set, and the frame that starts is latched from the data just sent. -/
theorem transmitStartsTheFrame : Obligations.TransmitStartsTheFrame := by
  rintro msg s ⟨hplan, hproc, hhard⟩ hon hpos hmax
  have hbytes := at_sentData msg (s.draws + 2) s.txData hmax
  refine ⟨sentData msg (s.draws + 2) s.txData, _, ?exec, rfl, ?wire, fun i _ => hbytes i⟩
  case exec =>
    have hdraws : s.draws + 3 + (msg.length + 3) / 4 = s.draws + 2 + wordsFor msg.length + 1 := by
      unfold wordsFor
      omega
    have hfault (hbusy : s.txState = .txBusy) : (s.fTxRegWhileBusy || s.txState == .txBusy) = true := by
      simp [hbusy]
    refine (alone_cecTransmit hplan hproc hhard msg hpos hmax).trans ?_
    rw [sendWords_message hpos (by exact hon)]
    dsimp only
    rw [readCntrl1_of_powered (by exact hon)]
    dsimp only
    rw [mmioWrite_beginAgain (by exact hon) (by exact hfault), lengthOf_lengthField hpos hmax,
      hdraws]
    rfl
  case wire =>
    intro hstarts
    refine wireFrame_of_latched (if_pos hstarts) (if_pos hstarts) hmax fun i hi => ?_
    exact (congrArg (Bytes16.at · i) (if_pos hstarts)).trans ((hbytes i).trans (if_pos hi))

/-- Settles O32: both checks come before the first access. -/
theorem transmitOfBadLengthTouchesNothing : Obligations.TransmitOfBadLengthTouchesNothing := by
  rintro msg s ⟨hplan, hproc, hhard⟩
  constructor
  case left => exact alone_cecTransmit_tooLarge hplan hproc hhard msg
  case right =>
    intro hempty
    obtain rfl := List.length_eq_zero_iff.mp hempty
    exact alone_cecTransmit_empty hplan hproc hhard

end Sys2Proof.Machine

/-! The interrupt handlers run alone (O33, O34, O35). -/

namespace Sys2Proof.Machine

open Sys2Proof.Claims

/-- R135 (b), R185: when the hard handler may start, by the line. -/
theorem irqLine_or_spurious {s : State}
    (h : (s.cpuStatus = true ∧ s.cpuMask = false) ∨ s.variant.allowSpurious = true) :
    s.irqLine = true ∨ s.variant.allowSpurious = true := by
  simpa [State.irqLine] using h

/-- R142, R185: what the hard handler tests at its step 2, the line low or high (log 23). -/
theorem hardGoesOn_iff {s : State} (hon : s.powered = true) :
    ((readCpuStatus (s.draw 2)).1.cec && (s.irqLine || s.variant.onLineLow == .goOn)) = true ↔ HardGoesOn s := by
  rw [readCpuStatus_of_powered (by exact hon)]
  cases h : s.cpuStatus <;> simp [HardGoesOn, State.irqLine, cpuStatusValue, h]

/-- What the hard handler's steps 1 to 7 leave while powered: three reads made, and the kind of event kept. -/
def hardLooked (wasRx : Bool) (s : State) : State :=
  { s with
    rxMsg := { s.rxMsg with len := 0 }
    irqWasRx := wasRx
    draws := s.draws + 5 }

/-- The hard handler run alone while powered, from its step 8 on. -/
theorem execCecIrqHard_of_goesOn {s : State} (hready : HardReady s) (hon : s.powered = true) (hgoes : HardGoesOn s)
    {wasRx : Bool} (hrx : s.cntrl5.rxCecInt = wasRx) :
    execCecIrqHard s = .next (State.endWith .hard .irqWakeThread
      (hardFill s.mailboxFull s.irqWasRx
        (if wasRx then
          mmioWrite (writeCntrl1 { cntrl1Value (s.draw 3) with clearReceiveOff := false })
            (mmioWrite (writeCntrl1 { cntrl1Value (s.draw 3) with clearReceiveOff := true })
              ((copyWords (wordsFor (lengthOf s.cntrl1.recLen)) 0 (hardLooked wasRx s)).setRxLen
                (lengthOf s.cntrl1.recLen)))
        else
          mmioWrite (writeCntrl1 { cntrl1Value (s.draw 3) with startXmitBegin := false })
            ((hardLooked wasRx s).setTxOk s.cntrl1.txStatusGood)))) := by
  obtain ⟨hplan, hhard, hstart⟩ := hready
  have hread : (readCpuStatus (s.draw 2)).2 = s.draw 3 := congrArg Prod.snd (readCpuStatus_of_powered (by exact hon))
  have hlook : hardLook (s.draw 3) = hardLooked wasRx s := by
    rw [hardLook_powered (by exact hon), ← hrx]
    rfl
  have hcntrl1 : (readCntrl1 ((s.draw 3).setRxLen 0)).1 = cntrl1Value (s.draw 3) :=
    congrArg Prod.fst (readCntrl1_of_powered (by exact hon))
  have hlen : (cntrl1Value (s.draw 3)).recLen = s.cntrl1.recLen := rfl
  have hgood : (cntrl1Value (s.draw 3)).txStatusGood = s.cntrl1.txStatusGood := rfl
  rw [alone_cecIrqHard hplan hhard (irqLine_or_spurious hstart) ((hardGoesOn_iff hon).mpr hgoes) hread hlook hcntrl1,
    hlen, hgood]
  rfl

/-- R142 steps 10 to 12, R207: a second event of the kind `wasRx` before the first was drained is the overrun. -/
theorem hardFill_of_kind {u : State} (hon : u.powered = true) {wasRx : Bool} (hkind : u.irqWasRx = wasRx)
    (hadFull hadRx : Bool) :
    hardFill hadFull hadRx u = { u with
      cpuStatus := false
      fMailboxOverrun := u.fMailboxOverrun || (hadFull && hadRx == wasRx)
      mailboxFull := true } := by
  rw [hardFill_powered hon, hkind]

/-- Settles O33: the frame's words are copied, and the pulse of the clear-bit keeps the transmit engine (R206). -/
theorem hardHandlerTakesTheFrame : Obligations.HardHandlerTakesTheFrame := by
  intro s hready hon hgoes hrx
  have hcount : wordsFor (lengthOf s.cntrl1.recLen) ≤ 4 := by
    have hlen := lengthOf_le s.cntrl1.recLen
    unfold wordsFor
    omega
  refine ⟨copiedData s.rxData (wordsFor (lengthOf s.cntrl1.recLen)) s.rxMsg.bytes, ?exec,
    fun i _ => at_copiedData s.rxData s.rxMsg.bytes hcount i⟩
  case exec =>
    refine (execCecIrqHard_of_goesOn hready hon hgoes hrx).trans ?_
    rw [if_pos rfl, copyWords_eq _ (by exact hon), mmioWrite_pulseClear (by exact hon) (by rfl) (by rfl),
      hardFill_of_kind (by exact hon) (wasRx := true) (by rfl), beq_true]
    rfl

/-- Settles O34: the transmit-begin bit is cleared with the length kept; a handler that does not go on has only read. -/
theorem hardHandlerTransmitPath : Obligations.HardHandlerTransmitPath := by
  intro s hready hon
  constructor
  case left =>
    intro hgoes hrx
    refine (execCecIrqHard_of_goesOn hready hon hgoes hrx).trans ?_
    rw [if_neg Bool.false_ne_true, mmioWrite_endBegin (by exact hon) (by exact hrx) (by rfl),
      hardFill_of_kind (by exact hon) (wasRx := false) (by rfl), beq_false]
    rfl
  case right =>
    intro hnot
    obtain ⟨hplan, hhard, hstart⟩ := hready
    have hstays : ¬HardGoesOn s := by
      rintro ⟨hstatus, hline⟩
      obtain hclear | ⟨hmask, hreading⟩ := hnot
      · simp [hstatus] at hclear
      · simp [hmask, hreading] at hline
    refine (alone_cecIrqHard_notMine hplan hhard (irqLine_or_spurious hstart)
      (Bool.eq_false_iff.mpr (mt (hardGoesOn_iff hon).mp hstays))).trans ?_
    rw [readCpuStatus_of_powered (by exact hon)]
    rfl

/-- R143 steps 1 to 3, R136: the event reported goes by its kind, the message's length and the result. -/
theorem emitted_report (s : State) :
    (if s.irqWasRx then if 0 < s.rxMsg.len then State.emit (.rxDeliver s.message) (s.draw 2) else s.draw 2
      else if s.txOk then State.emit (.txDone .ok 0 0 0 0) (s.draw 2)
      else State.emit (.txDone .nack 0 2 0 0) (s.draw 2)) =
      { s with emitted := s.emitted ++ report s, draws := s.draws + 2 } := by
  unfold report
  split_ifs with hrx hlen hok
  · rfl
  · rw [List.append_nil]
    rfl
  · rfl
  · rfl

/-- Settles O35: the event is reported and the mailbox emptied. -/
theorem threadReportsAndDrains : Obligations.ThreadReportsAndDrains := by
  rintro s ⟨hplan, hhard, hthread, hfull⟩
  refine (alone_cecIrqThread hplan hthread hhard hfull).trans ?_
  rw [emitted_report]
  rfl

end Sys2Proof.Machine

/-! The fields of a byte made of shifted parts (R149, R153): a part is read back at its own place, and is zero at the
others. -/

namespace Sys2Proof

section

open BitVec

variable {n w k lo len i : Nat}

theorem extractLsb'_field (x : BitVec n) (h : k + n ≤ w) : (x.setWidth w <<< k).extractLsb' k n = x := by
  refine eq_of_getLsbD_eq fun i hi => ?_
  have hw : k + i < w := by omega
  simp [hi, hw]

theorem getLsbD_field_above (x : BitVec n) (h : k + n ≤ i) : (x.setWidth w <<< k).getLsbD i = false := by
  have hge : n ≤ i - k := by omega
  simp [hge]

theorem getLsbD_shiftLeft_below (v : BitVec w) (h : i < k) : (v <<< k).getLsbD i = false := by
  simp [h]

theorem extractLsb'_field_above (x : BitVec n) (h : k + n ≤ lo) : (x.setWidth w <<< k).extractLsb' lo len = 0#len := by
  refine eq_of_getLsbD_eq fun i _ => ?_
  rw [getLsbD_extractLsb', getLsbD_field_above x (by omega)]
  simp

theorem extractLsb'_shiftLeft_below (v : BitVec w) (h : lo + len ≤ k) : (v <<< k).extractLsb' lo len = 0#len := by
  refine eq_of_getLsbD_eq fun i hi => ?_
  rw [getLsbD_extractLsb', getLsbD_shiftLeft_below v (by omega)]
  simp

theorem getLsbD_setWidth_above (x : BitVec n) (h : n ≤ i) : (x.setWidth w).getLsbD i = false := by simp [h]

theorem extractLsb'_setWidth_above (x : BitVec n) (h : n ≤ lo) : (x.setWidth w).extractLsb' lo len = 0#len := by
  simpa only [shiftLeft_zero] using extractLsb'_field_above (k := 0) (w := w) (len := len) x (by omega)

/-- A mask of ones at a field keeps the field. -/
theorem extractLsb'_and_mask (v : BitVec w) {mask : BitVec w} (h : mask.extractLsb' lo len = allOnes len) :
    (v &&& mask).extractLsb' lo len = v.extractLsb' lo len := by
  rw [extractLsb'_and, h, and_allOnes]

theorem getLsbD_and_mask_clear (v : BitVec w) {mask : BitVec w} (h : mask.getLsbD i = false) :
    (v &&& mask).getLsbD i = false := by
  rw [getLsbD_and, h, Bool.and_false]

end

end Sys2Proof

/-! The buffer of an infoframe (R146, R147): its header, its payload, the zeros after it, and its checksum. -/

namespace Sys2Proof.Machine

/-- Bytes summed from `a` on are the sum of their numbers, modulo 256. -/
theorem toNat_foldl_add (bytes : List Byte) (a : Byte) :
    (bytes.foldl (· + ·) a).toNat = (a.toNat + (bytes.map BitVec.toNat).sum) % 256 := by
  induction bytes generalizing a with
  | nil => exact (Nat.mod_eq_of_lt a.isLt).symm
  | cons b bytes ih =>
    rw [List.foldl_cons, ih, BitVec.toNat_add, List.map_cons, List.sum_cons]
    omega

/-- R147: the checksum is 256 less the sum of the bytes, modulo 256. -/
theorem toNat_checksum (bytes : List Byte) :
    (checksum bytes).toNat = (256 - (bytes.map BitVec.toNat).sum % 256) % 256 := by
  have hsum : (bytes.foldl (· + ·) (0 : Byte)).toNat = (bytes.map BitVec.toNat).sum % 256 :=
    (toNat_foldl_add bytes 0).trans (congrArg (· % 256) (Nat.zero_add _))
  rw [checksum, BitVec.toNat_neg, hsum]

section

variable (ty version : Byte) (payload : List Byte)

@[simp] theorem framed_plen : (framed ty version payload).plen = 4 + payload.length := rfl

/-- R146: the header with the checksum, the payload, and zeros to the stride. -/
theorem framed_buf : (framed ty version payload).buf =
    [ty, version, BitVec.ofNat 8 payload.length,
      checksum (ty :: version :: BitVec.ofNat 8 payload.length :: payload)] ++
    (payload ++ List.replicate (36 - (4 + payload.length)) 0) := rfl

/-- R146: a payload that fits leaves a buffer of the stride. -/
theorem length_framed_buf (hfit : payload.length ≤ 32) : (framed ty version payload).buf.length = 36 := by
  simp only [framed_buf, List.length_append, List.length_cons, List.length_nil, List.length_replicate]
  omega

/-- R146: the bytes from 4 on are the payload, and zeros after it. -/
theorem framed_buf_getD (i : Nat) : (framed ty version payload).buf.getD (i + 4) 0 = payload.getD i 0 := by
  have hbody : (framed ty version payload).buf.getD (i + 4) 0 =
      (payload ++ List.replicate (36 - (4 + payload.length)) 0).getD i 0 := rfl
  rw [hbody]
  rcases Nat.lt_or_ge i payload.length with hin | hpast
  · exact List.getD_append _ _ _ _ hin
  · rw [List.getD_append_right _ _ _ _ hpast, List.getD_eq_default _ _ hpast]
    exact List.getElem?_getD_replicate_default_eq _ _ _

/-- R146: every byte from the packed length on is zero. -/
theorem framed_buf_past {i : Nat} (hi : 4 + payload.length ≤ i) : (framed ty version payload).buf.getD i 0 = 0 := by
  obtain ⟨k, rfl⟩ := Nat.exists_eq_add_of_le' (Nat.le_of_add_right_le hi)
  rw [framed_buf_getD, List.getD_eq_default _ _ (by omega)]

/-- R146: the bytes below the packed length, the payload after the header. -/
theorem take_framed_buf : (framed ty version payload).buf.take (4 + payload.length) =
    ty :: version :: BitVec.ofNat 8 payload.length ::
      checksum (ty :: version :: BitVec.ofNat 8 payload.length :: payload) :: payload := by
  rw [framed_buf, ← List.append_assoc]
  exact List.take_left' (Nat.add_comm payload.length 4)

/-- R147: the bytes of an infoframe sum to 0 modulo 256. -/
theorem sum_framed :
    (((framed ty version payload).buf.take (4 + payload.length)).map BitVec.toNat).sum % 256 = 0 := by
  have hck := toNat_checksum (ty :: version :: BitVec.ofNat 8 payload.length :: payload)
  rw [take_framed_buf]
  simp only [List.map_cons, List.sum_cons] at hck ⊢
  omega

/-- The places of an infoframe beside the checksum's: three before it, and the payload's. -/
theorem filter_range_ne_three (n : Nat) :
    (List.range (4 + n)).filter (fun i => i != 3) = [0, 1, 2] ++ (List.range n).map (4 + ·) := by
  rw [List.range_add, List.filter_append]
  refine congrArg₂ (· ++ ·) (by decide) (List.filter_eq_self.mpr fun i hi => ?_)
  obtain ⟨k, -, rfl⟩ := List.mem_map.mp hi
  exact bne_iff_ne.mpr (by omega)

/-- R147: the bytes of an infoframe beside the checksum are those the checksum is made of. -/
theorem map_others_framed :
    ((List.range (4 + payload.length)).filter (fun i => i != 3)).map
        (fun i => ((framed ty version payload).buf.getD i 0).toNat) =
      (ty :: version :: BitVec.ofNat 8 payload.length :: payload).map BitVec.toNat := by
  have hpayload : (List.range payload.length).map (fun i => ((framed ty version payload).buf.getD (4 + i) 0).toNat) =
      payload.map BitVec.toNat := by
    refine List.ext_getElem (by simp) fun i _ hi => ?_
    rw [List.length_map] at hi
    simp only [List.getElem_map, List.getElem_range, Nat.add_comm 4, framed_buf_getD, List.getD_eq_getElem _ _ hi]
  rw [filter_range_ne_three, List.map_append, List.map_map]
  exact congrArg _ hpayload

end

/-- R168 step 3: every record is packed in the format of R146. -/
theorem packRecord_eq_framed (rec : Record) : ∃ ty version payload, packRecord rec = framed ty version payload := by
  cases rec with
  | avi r => exact ⟨_, _, _, rfl⟩
  | spd r => exact ⟨_, _, _, rfl⟩
  | audio r => exact ⟨_, _, _, rfl⟩

/-- Settles O46: a property of the format, so of every record. -/
theorem infoframeChecksum : Obligations.InfoframeChecksum := by
  intro rec
  obtain ⟨ty, version, payload, hrec⟩ := packRecord_eq_framed rec
  rw [hrec]
  refine ⟨?_, sum_framed ty version payload⟩
  simp only [framed_plen, map_others_framed]
  exact toNat_checksum _

end Sys2Proof.Machine

/-! The word image (R156, R157). -/

namespace Sys2Proof.Machine

/-- R156: two words per chunk. -/
theorem length_ramWords (p : Packed) : (ramWords p).length = 2 * ((p.plen + 6) / 7) := by
  simp [ramWords, chunkWords, Nat.mul_comm]

/-- In a list made of pairs, the pair of place `c` stands at `2 * c`. -/
theorem getD_flatMap_range {α : Type} {f : Nat → List α} (hpair : ∀ c, (f c).length = 2) (d : α) {n c j : Nat}
    (hc : c < n) (hj : j < 2) : ((List.range n).flatMap f).getD (2 * c + j) d = (f c).getD j d := by
  have hlen (m : Nat) : ((List.range m).flatMap f).length = 2 * m := by simp [hpair, Nat.mul_comm]
  induction n with
  | zero => exact absurd hc (Nat.not_lt_zero c)
  | succ n ih =>
    rw [List.range_succ, List.flatMap_append, List.flatMap_singleton]
    rcases Nat.lt_succ_iff_lt_or_eq.mp hc with hbefore | rfl
    · rw [List.getD_append _ _ _ _ (by rw [hlen]; omega), ih hbefore]
    · rw [List.getD_append_right _ _ _ _ (by rw [hlen]; omega), hlen, Nat.add_sub_cancel_left]

/-- R156: the two words of the image that hold chunk `c`. -/
theorem ramWords_getD (p : Packed) (d : Word) {c j : Nat} (hc : 7 * c < p.plen) (hj : j < 2) :
    (ramWords p).getD (2 * c + j) d = (chunkWords p (7 * c)).getD j d :=
  getD_flatMap_range (fun _ => rfl) d (by omega) hj

/-- R57: the byte lanes of the word four bytes make. -/
theorem extractLsb'_append_bytes (b : Nat → Byte) {k : Nat} (hk : k < 4) :
    (b 3 ++ b 2 ++ b 1 ++ b 0 : Word).extractLsb' (8 * k) 8 = b k := by
  have hword := Lanes.ofWord_toWord { b0 := b 0, b1 := b 1, b2 := b 2, b3 := b 3 }
  match k, hk with
  | 0, _ => exact congrArg Lanes.b0 hword
  | 1, _ => exact congrArg Lanes.b1 hword
  | 2, _ => exact congrArg Lanes.b2 hword
  | 3, _ => exact congrArg Lanes.b3 hword

/-- Settles O47: the words of a chunk, each the lanes of its bytes. -/
theorem ramWordsPackSevenBytes : Obligations.RamWordsPackSevenBytes := by
  intro p
  refine ⟨length_ramWords p, fun c hc => ?_⟩
  have hlow : (ramWords p).getD (2 * c) 0 =
      (0 : Byte) ++ p.at (7 * c + 2) ++ p.at (7 * c + 1) ++ p.at (7 * c) := ramWords_getD p 0 hc Nat.zero_lt_two
  have hhigh : (ramWords p).getD (2 * c + 1) 0 =
      p.at (7 * c + 6) ++ p.at (7 * c + 5) ++ p.at (7 * c + 4) ++ p.at (7 * c + 3) :=
    ramWords_getD p 0 hc Nat.one_lt_two
  have hlanes {k : Nat} (hk : k < 4) :=
    extractLsb'_append_bytes (fun k => if k < 3 then p.at (7 * c + k) else 0) hk
  rw [hlow, hhigh]
  refine ⟨fun k hk => (hlanes (Nat.lt_succ_of_lt hk)).trans (if_pos hk), hlanes (k := 3) (by decide), fun k hk => ?_⟩
  exact extractLsb'_append_bytes (fun k => p.at (7 * c + 3 + k)) hk

end Sys2Proof.Machine

/-! The packed lengths (R157), and the strings of an SPD infoframe (R150, R151). -/

namespace Sys2Proof.Machine

theorem length_fitBytes (n : Nat) (bytes : List Byte) : (fitBytes n bytes).length = n := by
  simp only [fitBytes, List.length_append, List.length_take, List.length_replicate]
  omega

/-- R150: a string fitted to its width reads as the string with zeros after it. -/
theorem fitBytes_getD {n i : Nat} (hi : i < n) (bytes : List Byte) : (fitBytes n bytes).getD i 0 = bytes.getD i 0 := by
  unfold fitBytes
  rcases Nat.lt_or_ge i bytes.length with hin | hpast
  · rw [List.getD_append _ _ _ _ (by rw [List.length_take]; omega)]
    simp [hi]
  · rw [List.getD_append_right _ _ _ _ (by rw [List.length_take]; omega), List.getD_eq_default _ _ hpast]
    exact List.getElem?_getD_replicate_default_eq _ _ _

theorem length_spdPayload (r : SpdRecord) : (spdPayload r).length = 25 := by
  simp only [spdPayload, List.length_append, length_fitBytes, List.length_singleton]

theorem packAvi_plen (r : AviRecord) : (packAvi r).plen = 17 := rfl

theorem packSpd_plen (r : SpdRecord) : (packSpd r).plen = 29 := congrArg (4 + ·) (length_spdPayload r)

theorem packAudio_plen (r : AudioRecord) : (packAudio r).plen = 14 := rfl

/-- Settles O48: the tenth SPD word holds bytes 31 to 34, past the 29 packed. -/
theorem wordCountsOfTheImages : Obligations.WordCountsOfTheImages := by
  refine ⟨fun r => ?avi, fun r => ⟨?spd, ?overrun⟩, fun r => ?audio, fun rec => length_ramWords _, rfl, rfl, rfl⟩
  case avi => rw [length_ramWords, packAvi_plen]
  case spd => rw [length_ramWords, packSpd_plen]
  case audio => rw [length_ramWords, packAudio_plen]
  case overrun =>
    have hzero {i : Nat} (hi : 29 ≤ i) : (packSpd r).at i = 0 :=
      framed_buf_past _ _ _ (by rw [length_spdPayload]; exact hi)
    have hchunk : 7 * 4 < (packSpd r).plen := by rw [packSpd_plen]; decide
    calc (ramWords (packSpd r)).getD (2 * 4 + 1) 1
      _ = (packSpd r).at 34 ++ (packSpd r).at 33 ++ (packSpd r).at 32 ++ (packSpd r).at 31 :=
        ramWords_getD _ _ hchunk Nat.one_lt_two
      _ = 0 := by rw [hzero, hzero, hzero, hzero] <;> decide

/-! R151: the vendor's 8 bytes, the product's 16, the source code. -/

theorem spdPayload_getD_vendor (r : SpdRecord) {i : Nat} (hi : i < 8) :
    (spdPayload r).getD i 0 = r.vendor.getD i 0 := by
  rw [spdPayload, List.append_assoc, List.getD_append _ _ _ _ (hi.trans_eq (length_fitBytes 8 _).symm),
    fitBytes_getD hi]

theorem spdPayload_getD_product (r : SpdRecord) {i : Nat} (hi : i < 16) :
    (spdPayload r).getD (8 + i) 0 = r.product.getD i 0 := by
  rw [spdPayload, List.append_assoc, List.getD_append_right _ _ _ _ (by rw [length_fitBytes]; omega), length_fitBytes,
    Nat.add_sub_cancel_left, List.getD_append _ _ _ _ (hi.trans_eq (length_fitBytes 16 _).symm), fitBytes_getD hi]

theorem spdPayload_getD_sdi (r : SpdRecord) : (spdPayload r).getD 24 0 = r.sdi := by
  have hlen : (fitBytes 8 r.vendor ++ fitBytes 16 r.product).length = 24 := by
    simp only [List.length_append, length_fitBytes]
  rw [spdPayload, List.getD_append_right _ _ _ _ hlen.le, hlen]
  rfl

/-- Settles O44: a byte of the buffer is the payload's, and there a byte of the string fitted. -/
theorem spdBufferIsPacked : Obligations.SpdBufferIsPacked := by
  intro r s
  have hexec : exec (.ifPackSpd r) s = .next { s with packed := some { buf := (packSpd r).buf, plen := 29 } } := by
    rw [← packSpd_plen r]
    rfl
  have hlen := length_spdPayload r
  have hpayload (i : Nat) : (packSpd r).buf.getD (i + 4) 0 = (spdPayload r).getD i 0 := framed_buf_getD _ _ _ i
  have hsum := sum_framed 0x83 0x01 (spdPayload r)
  rw [hlen] at hsum
  refine ⟨(packSpd r).buf, hexec, length_framed_buf _ _ _ (by omega), hsum, rfl, rfl,
    congrArg (BitVec.ofNat 8) hlen, fun i hi => ?vendor, fun i hi => ?product,
    (hpayload 24).trans (spdPayload_getD_sdi r), fun i hi _ => framed_buf_past _ _ _ (by omega)⟩
  case vendor =>
    rw [Nat.add_comm]
    exact (hpayload i).trans (spdPayload_getD_vendor r hi)
  case product =>
    rw [show 12 + i = 8 + i + 4 by omega]
    exact (hpayload (8 + i)).trans (spdPayload_getD_product r hi)

end Sys2Proof.Machine

/-! The bytes of an AVI and an Audio infoframe (R149, R153). -/

namespace Sys2Proof.Machine

section

variable {lo len i : Nat} (c : Bool) {mask : Byte}

theorem getLsbD_bitIf_set (h : mask.getLsbD i = true) : (bitIf c mask).getLsbD i = c := by
  cases c
  · exact BitVec.getLsbD_zero
  · exact h

theorem getLsbD_bitIf_clear (h : mask.getLsbD i = false) : (bitIf c mask).getLsbD i = false := by
  cases c
  · exact BitVec.getLsbD_zero
  · exact h

theorem extractLsb'_bitIf (h : mask.extractLsb' lo len = 0#len) : (bitIf c mask).extractLsb' lo len = 0#len := by
  cases c
  · exact BitVec.extractLsb'_zero
  · exact h

end

/-- Settles O43: a part of a byte is read at its place, where every other part of the byte is zero. -/
theorem aviBufferIsPacked : Obligations.AviBufferIsPacked := by
  intro r s
  have hpayload (i : Nat) : (packAvi r).buf.getD (i + 4) 0 = (aviPayload r).getD i 0 := framed_buf_getD _ _ _ i
  have hmargin (v : BitVec 16) : highByte v ++ lowByte v = v := append_halfBytes v
  have hpast : ∀ i, 17 ≤ i → i < 36 → (packAvi r).buf.getD i 0 = 0 := fun i hi _ => framed_buf_past _ _ _ hi
  refine ⟨(packAvi r).buf, rfl, length_framed_buf _ _ (aviPayload r) (by decide : 13 ≤ 32),
    sum_framed 0x82 0x02 (aviPayload r), rfl, rfl, rfl, ?fields⟩
  case fields =>
    simpa (disch := decide) only [hpayload, aviPayload, List.getD_cons_succ, List.getD_cons_zero, hmargin,
      BitVec.extractLsb'_or, BitVec.getLsbD_or, extractLsb'_field, extractLsb'_field_above,
      extractLsb'_shiftLeft_below, extractLsb'_setWidth_low, extractLsb'_setWidth_above, extractLsb'_bitIf,
      getLsbD_field_above, getLsbD_shiftLeft_below, getLsbD_setWidth_above, getLsbD_bitIf_set, getLsbD_bitIf_clear,
      extractLsb'_and_mask, getLsbD_and_mask_clear, BitVec.or_zero, BitVec.zero_or, Bool.or_false, Bool.false_or,
      Bool.or_eq_true, bne_iff_ne, true_and] using hpast

/-- R153: the channel code is one less than the count, and 0 channels have the code of 1. -/
theorem toNat_channelCode {ch : Nat} (h : ch ≤ 8) : (channelCode ch).toNat = ch - 1 := by
  unfold channelCode
  split_ifs with hmany
  · rw [BitVec.toNat_ofNat]
    omega
  · exact (Nat.sub_eq_zero_of_le (by omega)).symm

/-- Settles O45: as for AVI; the last five bytes of the payload are zero as the bytes after it are. -/
theorem audioBufferIsPacked : Obligations.AudioBufferIsPacked := by
  intro r s hch
  have hpayload (i : Nat) : (packAudio r).buf.getD (i + 4) 0#8 = (audioPayload r).getD i 0#8 := framed_buf_getD _ _ _ i
  have hpast : ∀ i, 9 ≤ i → i < 36 → (packAudio r).buf.getD i 0 = 0 := by
    intro i hi _
    obtain ⟨k, rfl⟩ := Nat.exists_eq_add_of_le' hi
    exact (hpayload (k + 5)).trans (List.getElem?_getD_replicate_default_eq 0 5 k)
  refine ⟨(packAudio r).buf, rfl, length_framed_buf _ _ (audioPayload r) (by decide : 10 ≤ 32),
    sum_framed 0x84 0x01 (audioPayload r), rfl, rfl, rfl, ?fields⟩
  case fields =>
    simpa (disch := decide) only [hpayload, audioPayload, List.getD_cons_succ, List.getD_cons_zero,
      toNat_channelCode hch, BitVec.extractLsb'_or, BitVec.getLsbD_or, extractLsb'_field, extractLsb'_field_above,
      extractLsb'_shiftLeft_below, extractLsb'_setWidth_low, extractLsb'_setWidth_above, getLsbD_shiftLeft_below,
      getLsbD_setWidth_above, BitVec.or_zero, BitVec.zero_or, Bool.or_false, BitVec.ofNat_eq_ofNat,
      true_and] using hpast

end Sys2Proof.Machine

/-! A slot's status bit (O25), what is emitted (O56), and the packet operations that wait for nothing (O36, O42). -/

namespace Sys2Proof.Machine

open Sys2Proof.Claims

/-- Settles O25: R161's condition is the event's, and the move is one update of the two sets of slots. -/
theorem slotStatusMoves : Obligations.SlotStatusMoves := by
  intro slot b s hon hslot hmoves hfollows
  have hmay : s.statusMayMove slot.toNat b = true :=
    (statusMayMove_iff slot.toNat b s).mpr ⟨by rw [hmoves]; exact Bool.not_ne_self b, hfollows⟩
  have hexec : exec (.evPktStatus slot b) s = .next (s.moveStatus slot.toNat b) :=
    calc exec (.evPktStatus slot b) s
      _ = _ := execEvPktStatus_of_lt hslot b s
      _ = _ := event_of_powered hon _
      _ = .next (s.moveStatus slot.toNat b) := if_pos hmay
  refine ⟨_, _, hexec.trans (congrArg Host.Outcome.next (moveStatus_eq slot.toNat b s)), fun k hk =>
    ⟨getLsbD_setSlot _ hk b, ?torn⟩⟩
  case torn =>
    rw [apply_ite (BitVec.getLsbD · k), getLsbD_setSlot _ hk]
    by_cases hk' : k = slot.toNat
    · subst hk'
      cases b <;> cases s.pktConfig.slotEn.getLsbD slot.toNat <;> simp
    · simp [hk']

theorem mem_emittedSlots {s : State} {slot : Nat} (hslot : slot < 16) :
    slot ∈ s.emittedSlots ↔ s.emits slot = true := by
  simp [State.emittedSlots, Config.numSlots, hslot]

theorem length_slotContent (s : State) (slot : Nat) : (s.slotContent slot).length = 9 := by
  simp [State.slotContent, Config.slotWords]

theorem slotContent_getD (s : State) (slot : Nat) {k : Nat} (hk : k < 9) :
    (s.slotContent slot).getD k 0 = Memory.readWord s.packetRam (9 * slot + k) := by
  simp [State.slotContent, Config.slotWords, hk]

theorem emission_eq_none_iff (s : State) (slot : Nat) : s.emission slot = none ↔ ¬s.emits slot = true := by
  unfold State.emission
  split_ifs with hemits <;> simp [hemits]

/-- R163: a slot emitted untorn shows its words. -/
theorem emission_of_untorn {s : State} {slot : Nat} (hemits : s.emits slot = true)
    (huntorn : s.slotTorn.getLsbD slot = false) : s.emission slot = some (s.slotContent slot) := by
  rw [State.emission, if_pos hemits, if_neg (Bool.eq_false_iff.mp huntorn)]

/-- Settles O56: the emitted slots are those filtered by R163's condition. -/
theorem emissionFollowsTheStatusBits : Obligations.EmissionFollowsTheStatusBits := by
  intro s slot hslot
  rw [mem_emittedSlots hslot]
  refine ⟨Bool.and_eq_true_iff, emission_eq_none_iff s slot, fun hemits huntorn => ?_⟩
  exact ⟨_, emission_of_untorn hemits huntorn, length_slotContent s slot, fun _ hk => slotContent_getD s slot hk⟩

theorem readPktConfig_of_powered {s : State} (hon : s.powered = true) :
    readPktConfig s = (s.pktConfig, s.draw 1) := mmioRead_of_powered hon _ _

/-- R111: a write of the enable bits `en` clears the torn flags of the slots then stopped. -/
theorem getLsbD_mended (s : State) (en : BitVec 16) (k : Nat) :
    (s.slotTorn &&& (en ||| s.slotSt)).getLsbD k = StillTorn s en k := by
  rw [StillTorn, BitVec.getLsbD_and, BitVec.getLsbD_or]

/-- R165, R166: `RAM_PACKET_CONFIG` read, and written back with the enable as `b`. -/
theorem mmioWrite_ramPacketEnable {s : State} (hon : s.powered = true) (b : Bool) :
    mmioWrite (writePktConfig { (readPktConfig s).1 with ramPacketEnable := b }) (readPktConfig s).2 =
      writePktConfig { s.pktConfig with ramPacketEnable := b } (s.draw 1) := by
  rw [readPktConfig_of_powered hon]
  exact mmioWrite_of_powered (by exact hon) _

/-- Settles O36: both operations write back the configuration read with one bit changed, so the torn flags they leave
are the same. -/
theorem packetRamOnAndOff : Obligations.PacketRamOnAndOff := by
  rintro s ⟨hplan, hproc, hhard⟩ hon
  refine ⟨s.slotTorn &&& (s.pktConfig.slotEn ||| s.slotSt), ?enable, ?disable, fun k _ => getLsbD_mended s _ k⟩
  case enable =>
    refine (alone_pktRamEnable hplan hproc hhard).trans ?_
    rw [mmioWrite_ramPacketEnable (by exact hon), writePktConfig_eq]
    rfl
  case disable =>
    refine (alone_pktRamDisable hplan hproc hhard).trans ?_
    rw [mmioWrite_ramPacketEnable (by exact hon), writePktConfig_eq]
    rfl

/-- R159: the types accepted are those of the three infoframes. -/
theorem acceptedType_eq_false {ty : Byte} (havi : ty ≠ 0x82#8) (hspd : ty ≠ 0x83#8) (haudio : ty ≠ 0x84#8) :
    acceptedType ty = false := by
  simp [acceptedType, havi, hspd, haudio]

/-- R168 step 1: a record is of the kind its type names, and then the type is one of the three. -/
theorem accepts_iff (ty : Byte) (rec : Record) :
    (acceptedType ty && kindMatches ty rec) = true ↔ KindMatches ty rec := by
  cases rec <;> simp only [acceptedType, kindMatches, KindMatches, Bool.and_eq_true, Bool.or_eq_true, beq_iff_eq] <;>
    exact ⟨And.right, fun h => ⟨by simp [h], h⟩⟩

/-- Settles O42: both operations test the type at their step 1, before any access. -/
theorem badTypeIsRefused : Obligations.BadTypeIsRefused := by
  rintro ty rec s ⟨hplan, hproc, hhard⟩
  constructor
  case left =>
    intro havi hspd haudio
    exact alone_pktStop_refused hplan hproc hhard ty (acceptedType_eq_false havi hspd haudio)
  case right =>
    intro hkind
    exact alone_pktWrite_refused hplan hproc hhard ty rec (Bool.eq_false_iff.mpr (mt (accepts_iff ty rec).mp hkind))

end Sys2Proof.Machine

/-! The callers of the packet operations (O57): the items a caller puts on the feed, the audio startup check, and the
feed that no instruction changes. -/

namespace Sys2Proof.Machine

open Sys2Proof.Claims

/-- Log 17: each operation of a caller takes its own plan, the one of its place; past the plans given it runs alone. -/
theorem issueItems_cons (i : Instr) (is : List Instr) (plans : List (List Move)) :
    issueItems (i :: is) plans = .issue (encode i).1 (encode i).2 (plans.getD 0 []) :: issueItems is plans.tail := by
  cases plans <;> rfl

/-- A caller other than the audio startup puts its operations at the head of the feed (log 17). -/
theorem runCaller_of_ne {c : Caller} (hc : c ≠ .audioStartup) (plans : List (List Move)) (s : State) :
    runCaller c plans s = .next { s with feed := issueItems (callerInstrs s.variant c) plans ++ s.feed } := if_neg hc

/-- The audio startup check run alone (R174): one read, and the outcome by the enable it read (log 17). -/
theorem alone_audioStartup {s : State} (hplan : s.plan = []) (hproc : s.proc.run = none) (hhard : s.hard.run = none) :
    runOp .audioStartup s = .next (if (readPktConfig (s.draw 2)).1.ramPacketEnable
      then State.endSilent .proc (readPktConfig (s.draw 2)).2
      else State.endWith .proc .eNodev (readPktConfig (s.draw 2)).2) := by
  rw [runOp_alone hplan (startOp_proc rfl hproc)]
  generalize pollBound s.variant s.draws + pollBound s.variant (s.draws + 1) = n
  have hread : (readPktConfig (s.draw 2)).2.hard.run = none := by rwa [readPktConfig_hard]
  have silent (r : Run) (u : State) : State.endSilent .proc (State.goOn .proc r u) = State.endSilent .proc u := rfl
  simp only [HostOp.agent, finish_goOn_proc, State.draw_hard, hhard, stepRun, stepAudioStartup, readConfigStep,
    readPktConfig_goOn, goOn_goOn, Run.goto, andThen_next, hread, silent, endWith_goOn]
  split_ifs
  · exact finish_done hread rfl
  · exact finish_endWith_proc hread _ _

/-- R89, R110: the enable read, a free value's bit while unpowered. -/
theorem readPktConfig_ramPacketEnable (s : State) :
    (readPktConfig s).1.ramPacketEnable =
      if s.powered then s.pktConfig.ramPacketEnable else (Config.drawWord s.draws).getLsbD 16 := by
  unfold readPktConfig mmioRead
  split_ifs <;> rfl

/-- R174: what the audio startup check leaves, powered or not: `E_NODEV` unless the enable it read is set. -/
theorem audioStartup_outcome {s : State} (hplan : s.plan = []) (hproc : s.proc.run = none)
    (hhard : s.hard.run = none) :
    runOp .audioStartup s = .next { s with
      fUnpowered := s.fUnpowered || !s.powered
      proc := { run := none, ret :=
        if (if s.powered then s.pktConfig.ramPacketEnable else (Config.drawWord (s.draws + 2)).getLsbD 16) = true
        then s.proc.ret else some (.code .eNodev) }
      draws := s.draws + 3 } := by
  have hread : (readPktConfig (s.draw 2)).1.ramPacketEnable =
      if s.powered then s.pktConfig.ramPacketEnable else (Config.drawWord (s.draws + 2)).getLsbD 16 :=
    readPktConfig_ramPacketEnable (s.draw 2)
  rw [alone_audioStartup hplan hproc hhard, hread, readPktConfig_state]
  cases (if s.powered then s.pktConfig.ramPacketEnable else (Config.drawWord (s.draws + 2)).getLsbD 16) <;> rfl

/-- No update of the machine writes the feed: only a step takes its head, and only a caller adds to it. -/
theorem kept_feed (feed : List Item) : Kept (fun _ => True) (fun s => s.feed = feed) where
  setAgent _ _ _ h := by rwa [State.setAgent_feed]
  draw _ _ h := h
  refuse _ _ h := h
  raiseUnpowered _ h := h
  raiseMailbox _ h := h
  raisePktRamOff _ h := h
  clearHostVars _ h := h
  setRxLen _ _ _ h := h
  setRxWord _ _ _ h := h
  setWasRx _ _ h := h
  setTxOk _ _ h := h
  setMailbox _ _ h := h
  emit _ _ h := h
  readData _ _ h := h
  packed _ _ h := h
  plan _ _ h := h
  cntrl1 _ _ h := by rwa [writeCntrl1_eq]
  cntrl2 _ _ h := h
  cntrl3 _ _ h := h
  cntrl4 _ _ h := h
  cntrl5 _ _ h := by rwa [writeCntrl5_eq]
  txData _ _ _ h := by rwa [writeTxData_eq]
  cpuStatus _ _ h := h
  cpuMask _ _ h := h
  pktConfig _ _ h := h
  packetRam _ _ _ _ h := by rwa [storePacketRam_eq]
  txAttemptEnds _ _ _ h := by rwa [txAttemptEnds_eq]
  rxComplete _ _ h := h
  moveStatus _ _ _ h := by rwa [moveStatus_eq]
  setPower _ _ _ h := by
    unfold State.setPower
    split_ifs <;> exact h

/-- R172: an instruction, whatever its plan and its outcome, leaves what comes after it. -/
theorem exec_feed {i : Instr} {s t : State} (h : exec i s = .next t) : t.feed = s.feed :=
  (kept_feed s.feed).exec (fun _ _ => trivial) rfl h

/-- A step on a caller runs it with the feed after it. -/
theorem step_of_call {s : State} {c : Caller} {plans : List (List Move)} {rest : List Item}
    (hfeed : s.feed = .call c plans :: rest) : step s = runCaller c plans { s with feed := rest } := by
  unfold step
  rw [hfeed]

/-- Settles O57: a caller's items are its operations with their plans, in order; the audio startup check reads the
configuration; and no update writes the feed. -/
theorem callersIssueTheirOperations : Obligations.CallersIssueTheirOperations := by
  refine ⟨fun s c plans rest hfeed => ?_, fun i s t => exec_feed⟩
  have issues (hc : c ≠ .audioStartup) :
      step s = .next { s with feed := issueItems (callerInstrs s.variant c) plans ++ rest } :=
    (step_of_call hfeed).trans (runCaller_of_ne hc plans _)
  have startup (hc : c = .audioStartup) :
      step s = runOp .audioStartup { s with feed := rest, plan := plans.headD [] } := by
    rw [step_of_call hfeed, runCaller, if_pos hc]
  refine ⟨?hdmi, ?hdmiAudio, ?oneDisable, ?triggerStart, ?nothing, ?shutdown, ?startup, ?busy⟩
  case hdmi =>
    rintro avi rfl
    rw [issues nofun]
    simp [callerInstrs, issueItems_cons, issueItems]
  case hdmiAudio =>
    rintro avi st rfl
    rw [issues nofun]
    simp [callerInstrs, issueItems_cons, issueItems, streamRecord]
  case oneDisable =>
    rintro (rfl | rfl)
    all_goals
      rw [issues nofun]
      simp [callerInstrs, issueItems_cons, issueItems]
  case triggerStart =>
    rintro st rfl
    rw [issues nofun]
    simp [callerInstrs, issueItems_cons, issueItems, streamRecord]
  case nothing =>
    rintro (rfl | rfl) <;> exact issues nofun
  case shutdown =>
    rintro rfl
    rw [issues nofun]
    simp [callerInstrs, issueItems_cons, issueItems]
  case startup =>
    intro hc hproc hhard hnoPlan
    have hhead : plans.headD [] = [] := by
      cases plans with
      | nil => rfl
      | cons plan _ => exact hnoPlan
    rw [startup hc, hhead]
    exact audioStartup_outcome (s := { s with feed := rest, plan := [] }) rfl hproc hhard
  case busy =>
    intro hc hbusy
    rw [startup hc]
    exact runOp_of_fault (startOp_of_busy hbusy)

end Sys2Proof.Machine

/-! Several numbered steps of an operation of HOST_PROC, taken one after another (R10): by the moves of a plan, or by an
operation that runs to its end. -/

namespace Sys2Proof.Machine

/-- HOST_PROC takes `n` numbered steps of the operation it runs. -/
def procSteps : Nat → State → Result
  | 0, s => .next s
  | n + 1, s => (advance .proc s).andThen (procSteps n)

section

variable {m n : Nat} {s t u : State}

theorem procSteps_add (hm : procSteps m s = .next t) (hn : procSteps n t = .next u) :
    procSteps (m + n) s = .next u := by
  induction m generalizing s with
  | zero =>
    cases hm
    rwa [Nat.zero_add]
  | succ m ih =>
    obtain ⟨v, hv, hrest⟩ := andThen_eq_next.mp hm
    rw [Nat.succ_add, procSteps, hv, andThen_next]
    exact ih hrest

theorem procSteps_goOn (hhard : u.hard.run = none) (n : Nat) (r : Run) :
    procSteps (n + 1) (State.goOn .proc r u) =
      (stepRun r (State.goOn .proc r u)).andThen (procSteps n) := by
  have hidle : ¬(Agent.proc ≠ .hard ∧ (State.goOn .proc r u).hard.run.isSome = true) := by
    rw [show (State.goOn .proc r u).hard.run = none from hhard]
    simp
  have hr : ((State.goOn .proc r u).agent .proc).run = some r := rfl
  rw [procSteps, advance, if_neg hidle, hr]

/-- R135: a step of HOST_PROC finds the hard handler idle and an operation running. -/
theorem idle_and_running_of_advance (h : advance .proc s = .next t) :
    s.hard.run = none ∧ s.proc.run.isSome = true := by
  unfold advance at h
  split_ifs at h with hbusy
  rw [not_and, Option.not_isSome_iff_eq_none] at hbusy
  refine ⟨hbusy nofun, ?_⟩
  cases hrun : s.proc.run with
  | none => simp [State.agent, hrun] at h
  | some r => rfl

/-- Log 12: the moves of a plan that are HOST_PROC's. -/
theorem drive_advances (h : procSteps n s = .next t) (ms : List Move) :
    drive .proc (List.replicate n (Move.advance .proc) ++ ms) s = drive .proc ms t := by
  induction n generalizing s with
  | zero =>
    cases h
    rfl
  | succ n ih =>
    obtain ⟨v, hv, hrest⟩ := andThen_eq_next.mp h
    rw [List.replicate_succ, List.cons_append, drive, doMove, hv, andThen_next]
    exact ih hrest

/-- An operation that runs to its end takes its steps. -/
theorem finish_procSteps (h : procSteps n s = .next t) (k : Nat) : finish (n + k) .proc s = finish k .proc t := by
  induction n generalizing s with
  | zero =>
    cases h
    rw [Nat.zero_add]
  | succ n ih =>
    obtain ⟨v, hv, hrest⟩ := andThen_eq_next.mp h
    obtain ⟨hhard, hrun⟩ := idle_and_running_of_advance hv
    rw [Nat.succ_add, finish, hhard, State.agent, hrun, hv]
    exact ih hrest

/-- The last step of an operation. -/
theorem finish_last {r : Run} {c : Code} (hhard : u.hard.run = none)
    (hlast : stepRun r (State.goOn .proc r u) = .next (State.endWith .proc c u)) :
    finish 1 .proc (State.goOn .proc r u) = .next (State.endWith .proc c u) := by
  rw [finish_goOn_proc hhard, hlast, andThen_next, finish_endWith_proc hhard]

/-- An operation that ends within the steps it has left ends so. -/
theorem finish_within {c : Code} (h : finish m .proc s = .next (State.endWith .proc c u)) (hhard : u.hard.run = none)
    (hm : m ≤ n) : finish n .proc s = .next (State.endWith .proc c u) := by
  obtain ⟨k, rfl⟩ := Nat.exists_eq_add_of_le hm
  exact finish_more h hhard rfl k

/-- After the last move of a plan the operation runs to its end. -/
theorem drive_last {r : Run} {c : Code} (h : finish n .proc (State.goOn .proc r s) = .next (State.endWith .proc c u))
    (hhard : u.hard.run = none) (hn : n ≤ 128) :
    drive .proc [] (State.goOn .proc r s) = .next (State.endWith .proc c u) :=
  finish_within h hhard (Nat.le_add_left_of_le hn)

end

/-- The operation an agent begins, at its step 1 with the bounds of its waits (log 13). -/
def firstRun (op : HostOp) (s : State) : Run :=
  { op := op, polls := pollBound s.variant s.draws, polls2 := pollBound s.variant (s.draws + 1) }

/-- An operation of HOST_PROC under a plan (log 12). -/
theorem runOp_planned {op : HostOp} {s : State} (ha : op.agent = .proc) (hproc : s.proc.run = none) :
    runOp op s = drive .proc s.plan (State.goOn .proc (firstRun op s) (State.draw 2 { s with plan := [] })) := by
  rw [runOp, startOp_proc ha (by exact hproc), andThen_next, begin_eq, ha]
  rfl

/-- An operation of HOST_PROC that ends within the steps it has (log 12). -/
theorem runOp_alone_ends {op : HostOp} {s v : State} {c : Code} {n : Nat} (ha : op.agent = .proc) (hplan : s.plan = [])
    (hproc : s.proc.run = none) (hhard : v.hard.run = none)
    (h : finish n .proc (State.goOn .proc (firstRun op s) (s.draw 2)) = .next (State.endWith .proc c v))
    (hn : n ≤ pollBound s.variant s.draws + pollBound s.variant (s.draws + 1) + 128) :
    runOp op s = .next (State.endWith .proc c v) := by
  rw [runOp_alone hplan (startOp_proc ha hproc), ha]
  exact finish_within h hhard hn

end Sys2Proof.Machine

/-! Sets of slots (R37, R38, R43). -/

namespace Sys2Proof.Machine

/-- One bit of a set of slots with one taken out of it. -/
theorem getLsbD_setSlot_false (v : BitVec 16) (i : Nat) {k : Nat} (hk : k < 16) :
    (setSlot v i false).getLsbD k = (k != i && v.getLsbD k) := by
  rw [getLsbD_setSlot v hk]
  by_cases hki : k = i <;> simp [hki]

/-- One bit of a set of slots with one put into it. -/
theorem getLsbD_setSlot_true (v : BitVec 16) (i : Nat) {k : Nat} (hk : k < 16) :
    (setSlot v i true).getLsbD k = (k == i || v.getLsbD k) := by
  rw [getLsbD_setSlot v hk]
  by_cases hki : k = i <;> simp [hki]

/-- A slot switched off and on again is on, and every other slot as it was. -/
theorem getLsbD_setSlot_off_on (v : BitVec 16) (slot : Nat) {k : Nat} (hk : k < 16) :
    (setSlot (setSlot v slot false) slot true).getLsbD k = (k == slot || v.getLsbD k) := by
  rw [getLsbD_setSlot_true _ _ hk, getLsbD_setSlot_false _ _ hk]
  cases h : k == slot <;> simp [bne, h]

theorem setSlot_self {v : BitVec 16} {i : Nat} {b : Bool} (h : v.getLsbD i = b) : setSlot v i b = v := by
  refine BitVec.eq_of_getLsbD_eq fun k hk => ?_
  rw [getLsbD_setSlot v hk]
  split_ifs with hki
  · rw [hki, h]
  · rfl

end Sys2Proof.Machine

/-! The parts of `PKT_STOP` and `PKT_WRITE` (R167, R168): a slot switched on or off, a poll, a move of the scheduler. -/

namespace Sys2Proof.Machine

open Sys2Proof.Claims

/-- R167 steps 3 and 4, R168 steps 9 and 10: the configuration read, and written with a slot's enable as `b`. -/
def State.switchSlot (slot : Nat) (b : Bool) (u : State) : State :=
  writePktConfig (u.pktConfig.withSlot slot b) (u.draw 1)

/-- The two steps of an operation, at `line` and `line'` of it, that switch a slot. -/
theorem procSteps_switchSlot {slot line' line'' : Nat} {b : Bool} {r q : Run} {u : State}
    (hread : ∀ v, stepRun r v = readConfigStep line' q v)
    (hwrite : ∀ cfg v, stepRun { q with line := line', cfg := cfg } v =
      writeConfigStep line'' (cfg.withSlot slot b) { q with line := line', cfg := cfg } v)
    (hon : u.powered = true) (hhard : u.hard.run = none) :
    procSteps 2 (State.goOn .proc r u) =
      .next (State.goOn .proc { q with line := line'', cfg := u.pktConfig } (u.switchSlot slot b)) := by
  have hcfg : readPktConfig u = (u.pktConfig, u.draw 1) := readPktConfig_of_powered hon
  rw [procSteps_goOn hhard, hread, readConfigStep, readPktConfig_goOn, hcfg, goOn_goOn, andThen_next,
    procSteps_goOn (by exact hhard), Run.goto, hwrite, writeConfigStep, writePktConfig_goOn, goOn_goOn,
    mmioWrite_of_powered (by exact hon)]
  rfl

theorem switchSlot_eq (slot : Nat) (b : Bool) (u : State) :
    u.switchSlot slot b = { u with
      pktConfig := { u.pktConfig with slotEn := setSlot u.pktConfig.slotEn slot b }
      slotTorn := u.slotTorn &&& (setSlot u.pktConfig.slotEn slot b ||| u.slotSt)
      draws := u.draws + 1 } := rfl

section

variable (slot : Nat) (b : Bool) (u : State)

@[simp] theorem State.switchSlot_powered : (u.switchSlot slot b).powered = u.powered := rfl
@[simp] theorem State.switchSlot_hard : (u.switchSlot slot b).hard = u.hard := rfl
@[simp] theorem State.switchSlot_slotSt : (u.switchSlot slot b).slotSt = u.slotSt := rfl
@[simp] theorem PktConfig.withSlot_ramPacketEnable (c : PktConfig) :
    (c.withSlot slot b).ramPacketEnable = c.ramPacketEnable := rfl

end

/-- R164: the first poll finds the status bit as wanted. -/
theorem procSteps_pollFound {slot doneLine : Nat} {want : Bool} {r : Run} {u : State}
    (hs : stepRun r (State.goOn .proc r u) = pollStatus slot want doneLine r (State.goOn .proc r u))
    (hon : u.powered = true) (hhard : u.hard.run = none) (hbit : u.slotSt.getLsbD slot = want) :
    procSteps 1 (State.goOn .proc r u) =
      .next (State.goOn .proc { r with line := doneLine, timedOut := false } (u.draw 1)) := by
  rw [procSteps_goOn hhard, hs, pollStatus_found hon hbit]
  rfl

/-- R164: the polls that a wait allows, as the operation that begins draws them. -/
theorem polls_eq (s : State) (nth : Nat) : polls s nth = max 1 (pollBound s.variant (s.draws + nth)) := rfl

theorem blind_moveStatus (slot : Nat) (b : Bool) : Blind (State.moveStatus slot b) := by
  intro a h s
  simp only [moveStatus_eq]
  cases a <;> rfl

/-- The scheduler moves a status bit between two steps of HOST_PROC (R161; log 12). -/
theorem doMove_status {slot : Nat} {b : Bool} {d : Word}
    (hd : decode d [] = .ok (.evPktStatus (BitVec.ofNat 5 slot) b)) (hslot : slot < 16) {u : State}
    (hon : u.powered = true) (hmay : u.statusMayMove slot b = true) (r : Run) :
    doMove (.issue d []) (State.goOn .proc r u) = .next (State.goOn .proc r (u.moveStatus slot b)) := by
  have hnat : (BitVec.ofNat 5 slot).toNat = slot := by
    rw [BitVec.toNat_ofNat]
    omega
  have hmay' : (State.goOn .proc r u).statusMayMove slot b = true := hmay
  calc doMove (.issue d []) (State.goOn .proc r u)
    _ = execEvPktStatus (BitVec.ofNat 5 slot) b (State.goOn .proc r u) := by
      rw [doMove, hd]
      rfl
    _ = .next ((State.goOn .proc r u).moveStatus slot b) := by
      rw [execEvPktStatus_of_lt (by rwa [hnat]), event_of_powered (by exact hon), hnat, if_pos hmay']
    _ = .next (State.goOn .proc r (u.moveStatus slot b)) := by rw [(blind_moveStatus slot b).goOn]

/-- R43, R161: a slot's status bit cleared while the slot is disabled: the slot is no longer torn. -/
def State.stopSlot (slot : Nat) (u : State) : State :=
  { u with slotSt := setSlot u.slotSt slot false, slotTorn := setSlot u.slotTorn slot false }

/-- R161: a slot's status bit set. -/
def State.startSlot (slot : Nat) (u : State) : State := { u with slotSt := setSlot u.slotSt slot true }

section

variable (slot : Nat) (u : State)

@[simp] theorem State.stopSlot_powered : (u.stopSlot slot).powered = u.powered := rfl
@[simp] theorem State.stopSlot_hard : (u.stopSlot slot).hard = u.hard := rfl
@[simp] theorem State.stopSlot_slotSt : (u.stopSlot slot).slotSt = setSlot u.slotSt slot false := rfl
@[simp] theorem State.startSlot_powered : (u.startSlot slot).powered = u.powered := rfl
@[simp] theorem State.startSlot_hard : (u.startSlot slot).hard = u.hard := rfl

end

/-- Nothing changes where the slot is stopped and mended already. -/
theorem stopSlot_self {slot : Nat} {u : State} (hst : u.slotSt.getLsbD slot = false)
    (htorn : u.slotTorn.getLsbD slot = false) : u.stopSlot slot = u := by
  rw [State.stopSlot, setSlot_self hst, setSlot_self htorn]

section

variable {slot : Nat} {d : Word} {u : State} (hslot : slot < 16) (hon : u.powered = true)

include hslot hon

/-- R161: the scheduler stops a slot that was switched off. -/
theorem doMove_stopSlot (hd : decode d [] = .ok (.evPktStatus (BitVec.ofNat 5 slot) false))
    (hen : u.pktConfig.slotEn.getLsbD slot = false) (hst : u.slotSt.getLsbD slot = true) (r : Run) :
    doMove (.issue d []) (State.goOn .proc r u) = .next (State.goOn .proc r (u.stopSlot slot)) := by
  have hmay : u.statusMayMove slot false = true :=
    (statusMayMove_iff slot false u).mpr ⟨fun h => Bool.noConfusion (hst.symm.trans h), fun _ => hen⟩
  rw [doMove_status hd hslot hon hmay, moveStatus_eq, hen]
  rfl

/-- R161: the scheduler takes a slot that was switched on. -/
theorem doMove_startSlot (hd : decode d [] = .ok (.evPktStatus (BitVec.ofNat 5 slot) true))
    (hen : u.pktConfig.slotEn.getLsbD slot = true) (hst : u.slotSt.getLsbD slot = false) (r : Run) :
    doMove (.issue d []) (State.goOn .proc r u) = .next (State.goOn .proc r (u.startSlot slot)) := by
  have hmay : u.statusMayMove slot true = true :=
    (statusMayMove_iff slot true u).mpr ⟨fun h => Bool.noConfusion (hst.symm.trans h), fun _ => hen⟩
  rw [doMove_status hd hslot hon hmay, moveStatus_eq, Bool.not_true, Bool.and_false]
  rfl

end

/-- R76: the descriptors of the status events for the slots of the three types. -/
theorem decode_statusEvents {ty : Byte} {slot : Nat} (h : TypeSlot ty slot) :
    decode (0xC4000000 ||| BitVec.ofNat 32 slot) [] = .ok (.evPktStatus (BitVec.ofNat 5 slot) false) ∧
    decode (0xC4000100 ||| BitVec.ofNat 32 slot) [] = .ok (.evPktStatus (BitVec.ofNat 5 slot) true) := by
  obtain ⟨-, rfl⟩ | ⟨-, rfl⟩ | ⟨-, rfl⟩ := h
  · exact ⟨decode_of_encode rfl rfl, decode_of_encode rfl rfl⟩
  · exact ⟨decode_of_encode rfl rfl, decode_of_encode rfl rfl⟩
  · exact ⟨decode_of_encode rfl rfl, decode_of_encode rfl rfl⟩

/-- R83, R159: the slot of an accepted type is its own. -/
theorem typeSlot_accepted {ty : Byte} {slot : Nat} (h : TypeSlot ty slot) :
    acceptedType ty = true ∧ slotOf ty = slot ∧ slot < 5 := by
  obtain ⟨rfl, rfl⟩ | ⟨rfl, rfl⟩ | ⟨rfl, rfl⟩ := h <;> decide

end Sys2Proof.Machine

/-! `PKT_STOP` (O37, O38). -/

namespace Sys2Proof.Machine

open Sys2Proof.Claims

/-- R167 steps 1 to 4. -/
theorem procSteps_pktStop {ty : Byte} {slot : Nat} (hty : TypeSlot ty slot) {u : State} (hon : u.powered = true)
    (hhard : u.hard.run = none) (p p' : Nat) :
    procSteps 4 (State.goOn .proc { op := .pktStop ty, polls := p, polls2 := p' } u) =
      .next (State.goOn .proc { op := .pktStop ty, line := 5, cfg := u.pktConfig, polls := p, polls2 := p' }
        (u.switchSlot slot false)) := by
  obtain ⟨haccepted, rfl, -⟩ := typeSlot_accepted hty
  have checked : procSteps 2 (State.goOn .proc { op := .pktStop ty, polls := p, polls2 := p' } u) =
      .next (State.goOn .proc { op := .pktStop ty, line := 3, polls := p, polls2 := p' } u) := by
    simp only [procSteps_goOn hhard, stepRun, stepPktStop, haccepted, if_true, Run.goto, andThen_next, goOn_goOn]
    rfl
  exact procSteps_add (m := 2) checked (procSteps_switchSlot (fun _ => rfl) (fun _ _ => rfl) hon hhard)

/-- `PKT_STOP` run alone: its slot is switched off, and the wait finds the status bit clear at once or never. -/
theorem alone_pktStop {ty : Byte} {slot : Nat} (hty : TypeSlot ty slot) {s : State} (hs : ProcReady s)
    (hon : s.powered = true) :
    execPktStop ty s = .next (State.endWith .proc (if s.slotSt.getLsbD slot then .eStopTimeout else .ok)
      (((s.draw 2).switchSlot slot false).draw (if s.slotSt.getLsbD slot then polls s 0 else 1))) := by
  obtain ⟨hplan, hproc, hhard⟩ := hs
  obtain ⟨-, hslot, -⟩ := typeSlot_accepted hty
  have steps := procSteps_pktStop hty (u := s.draw 2) hon hhard
  rw [execPktStop, polls_eq, Nat.add_zero]
  subst hslot
  cases hst : s.slotSt.getLsbD (slotOf ty)
  case false =>
    refine runOp_alone_ends (n := 4 + (1 + 1)) rfl hplan hproc hhard ?_ (by omega)
    rw [firstRun, finish_procSteps (steps _ _), finish_procSteps (procSteps_pollFound rfl (by simpa using hon)
      (by simpa using hhard) (by simpa using hst))]
    exact finish_last hhard rfl
  case true =>
    refine runOp_alone_ends (n := 4 + (1 + max 1 (pollBound s.variant s.draws))) rfl hplan hproc hhard ?_ (by omega)
    refine (finish_procSteps (steps _ _) _).trans ((finish_pollTimeout (slot := slotOf ty) (want := false)
      (doneLine := 6) 1 _ (fun _ _ => rfl) (by rfl) (by simpa using hon) (by simpa using hhard)
      (by simpa using hst)).trans ?_)
    exact finish_last hhard rfl

/-- Settles O37: the slot is switched off by one write, and the polls change nothing. -/
theorem stopPollsTheStatusBit : Obligations.StopPollsTheStatusBit := by
  intro ty slot s hty hs hon
  refine ⟨setSlot s.pktConfig.slotEn slot false, s.slotTorn &&& (setSlot s.pktConfig.slotEn slot false ||| s.slotSt),
    (alone_pktStop hty hs hon).trans ?exec, fun k hk =>
    ⟨getLsbD_setSlot_false s.pktConfig.slotEn slot hk, getLsbD_mended s _ k⟩⟩
  case exec =>
    generalize (if s.slotSt.getLsbD slot then polls s 0 else 1) = n
    generalize (if s.slotSt.getLsbD slot then Code.eStopTimeout else .ok) = c
    rw [State.draw, switchSlot_eq]
    rfl

/-- `PKT_STOP` under a plan in which the scheduler stops the slot after the fourth step: the first poll finds it
stopped. -/
theorem execPktStop_planned {ty : Byte} {slot : Nat} (hty : TypeSlot ty slot) {s : State}
    (hplan : s.plan = List.replicate 4 (Move.advance .proc) ++ [Move.issue (0xC4000000 ||| BitVec.ofNat 32 slot) []])
    (hproc : s.proc.run = none) (hhard : s.hard.run = none) (hon : s.powered = true)
    (hst : s.slotSt.getLsbD slot = true) :
    execPktStop ty s = .next (State.endWith .proc .ok
      ((((State.draw 2 { s with plan := [] }).switchSlot slot false).stopSlot slot).draw 1)) := by
  obtain ⟨-, hslotOf, hslot⟩ := typeSlot_accepted hty
  obtain ⟨hevent, -⟩ := decode_statusEvents hty
  have hslot16 : slot < 16 := by omega
  have steps := procSteps_pktStop hty (u := State.draw 2 { s with plan := [] }) hon hhard
  have hoff : ((State.draw 2 { s with plan := [] }).switchSlot slot false).pktConfig.slotEn.getLsbD slot = false :=
    (getLsbD_setSlot _ hslot16 _).trans (if_pos rfl)
  have hstopped : (setSlot s.slotSt slot false).getLsbD slot = false := (getLsbD_setSlot _ hslot16 _).trans (if_pos rfl)
  rw [execPktStop, runOp_planned rfl hproc, hplan, firstRun, drive_advances (steps _ _), drive,
    doMove_stopSlot hslot16 (by simpa using hon) hevent hoff (by simpa using hst), andThen_next]
  subst hslotOf
  refine drive_last (n := 1 + 1) ?_ hhard (by omega)
  rw [finish_procSteps (procSteps_pollFound rfl (by simpa using hon) (by simpa using hhard) (by simpa using hstopped))]
  exact finish_last hhard rfl

/-- Settles O38: the slot is switched off and stopped by the scheduler, and the poll changes nothing. -/
theorem stopWaitsForTheScheduler : Obligations.StopWaitsForTheScheduler := by
  intro ty slot s hty hplan hproc hhard hon hst
  let en := setSlot s.pktConfig.slotEn slot false
  refine ⟨en, setSlot s.slotSt slot false, setSlot (s.slotTorn &&& (en ||| s.slotSt)) slot false,
    (execPktStop_planned hty hplan hproc hhard hon hst).trans ?exec, fun k hk =>
    ⟨getLsbD_setSlot_false s.pktConfig.slotEn slot hk, getLsbD_setSlot_false s.slotSt slot hk, ?torn⟩⟩
  case exec =>
    rw [State.draw, State.stopSlot, switchSlot_eq]
    rfl
  case torn => rw [getLsbD_setSlot_false _ _ hk, getLsbD_mended]

end Sys2Proof.Machine

/-! The words that `PKT_WRITE` stores (R168 step 8): the packet RAM and the torn flags after them. -/

namespace Sys2Proof.Machine

open Sys2Proof.Claims

/-- The packet RAM after the first `count` words from a slot's start are stored, word `j` as `word j`. -/
def storedRam (slot : Nat) (word : Nat → Word) (count : Nat) (m : Memory) : Memory :=
  (List.range count).foldl (fun m j => Memory.writeWord m (9 * slot + j) (word j)) m

/-- The torn flags after the first `count` words from a slot's start are stored, each tearing the live slot it is of. -/
def tornByWords (live : BitVec 16) (slot count : Nat) (torn : BitVec 16) : BitVec 16 :=
  (List.range count).foldl
    (fun t j => if live.getLsbD ((9 * slot + j) / 9) then setSlot t ((9 * slot + j) / 9) true else t) torn

section

variable {slot : Nat} {word : Nat → Word} {m : Memory}

theorem storedRam_succ (slot : Nat) (word : Nat → Word) (n : Nat) (m : Memory) :
    storedRam slot word (n + 1) m = Memory.writeWord (storedRam slot word n m) (9 * slot + n) (word n) := by
  rw [storedRam, List.range_succ, List.foldl_append]
  rfl

theorem wf_storedRam (hwf : Memory.wf m = true) (count : Nat) : Memory.wf (storedRam slot word count m) = true := by
  induction count with
  | zero => exact hwf
  | succ n ih =>
    rw [storedRam_succ]
    exact Memory.wf_writeWord ih _ _

theorem readWord_storedRam (hwf : Memory.wf m = true) {count k : Nat} (hk : k < count) :
    Memory.readWord (storedRam slot word count m) (9 * slot + k) = word k := by
  induction count with
  | zero => exact absurd hk (Nat.not_lt_zero k)
  | succ n ih =>
    rw [storedRam_succ]
    rcases Nat.lt_succ_iff_lt_or_eq.mp hk with hbefore | rfl
    · rw [Memory.readWord_writeWord_other (wf_storedRam hwf n) (by omega), ih hbefore]
    · exact Memory.readWord_writeWord_same (wf_storedRam hwf k) _ _

theorem read_storedRam_other (hwf : Memory.wf m = true) {count a : Nat}
    (ha : a < 36 * slot ∨ 36 * slot + 4 * count ≤ a) :
    Memory.read (storedRam slot word count m) a = Memory.read m a := by
  induction count with
  | zero => rfl
  | succ n ih => rw [storedRam_succ, Memory.read_writeWord_other (wf_storedRam hwf n) (by omega), ih (by omega)]

end

theorem tornByWords_succ (live : BitVec 16) (slot n : Nat) (torn : BitVec 16) :
    tornByWords live slot (n + 1) torn =
      if live.getLsbD ((9 * slot + n) / 9) then setSlot (tornByWords live slot n torn) ((9 * slot + n) / 9) true
      else tornByWords live slot n torn := by
  rw [tornByWords, List.range_succ, List.foldl_append]
  rfl

/-- R113: the slots torn are the live ones that the words stored reach. -/
theorem getLsbD_tornByWords (live : BitVec 16) (slot count : Nat) (torn : BitVec 16) {k : Nat} (hk : k < 16) :
    (tornByWords live slot count torn).getLsbD k =
      (torn.getLsbD k || (live.getLsbD k && decide (slot ≤ k ∧ 9 * k < 9 * slot + count))) := by
  induction count with
  | zero => simp [tornByWords]
  | succ n ih =>
    rw [tornByWords_succ, apply_ite (BitVec.getLsbD · k), getLsbD_setSlot_true _ _ hk, ih]
    by_cases hat : k = (9 * slot + n) / 9
    · have hreach : slot ≤ k ∧ 9 * k < 9 * slot + (n + 1) := by omega
      rw [← hat]
      cases live.getLsbD k <;> simp [hreach]
    · have hsame : (slot ≤ k ∧ 9 * k < 9 * slot + (n + 1)) ↔ (slot ≤ k ∧ 9 * k < 9 * slot + n) := by omega
      simp [hat, hsame]

/-- The loop of step 8 by its last word. -/
theorem storeWords_succ (slot : Nat) (words : List Word) (count i : Nat) (u : State) :
    storeWords slot words (count + 1) i u =
      writePacketRam (Config.slotWords * slot + (i + count)) (words.getD (i + count) 0)
        (storeWords slot words count i u) := by
  induction count generalizing i u with
  | zero => rfl
  | succ n ih =>
    rw [storeWords, ih, show i + 1 + n = i + (n + 1) by omega]
    rfl

/-- What a store puts in packet RAM for word `j` of an image (R113): the word, or while packet RAM is off the free value
drawn for it, the first of them the one numbered `first`. -/
def storedWord (words : List Word) (on : Bool) (first j : Nat) : Word :=
  if on then words.getD j 0 else Config.drawWord (first + j)

/-- R113, R168 step 8: the words stored, where the fault of packet RAM off stands already. -/
theorem storeWords_eq (slot : Nat) (words : List Word) {count : Nat} {u : State} (hon : u.powered = true)
    (hfault : u.pktConfig.ramPacketEnable = false → u.fPktRamOff = true) (hcount : 9 * slot + count ≤ 144) :
    storeWords slot words count 0 u = { u with
      packetRam := storedRam slot (storedWord words u.pktConfig.ramPacketEnable u.draws) count u.packetRam
      slotTorn := tornByWords (u.pktConfig.slotEn ||| u.slotSt) slot count u.slotTorn
      draws := u.draws + if u.pktConfig.ramPacketEnable then 0 else count } := by
  induction count with
  | zero => simp [storeWords, storedRam, tornByWords]
  | succ n ih =>
    have hw : Config.slotWords * slot + n < Config.packetRamWords := by
      unfold Config.slotWords Config.packetRamWords
      omega
    rw [storeWords_succ, ih (by omega), Nat.zero_add, writePacketRam_of_powered (by exact hon) hw, storePacketRam_eq,
      storedRam_succ, tornByWords_succ]
    simp only [BitVec.getLsbD_or]
    cases hram : u.pktConfig.ramPacketEnable with
    | true => simp [storedWord, Config.slotWords]
    | false => simp [storedWord, hfault hram, Config.slotWords, Nat.add_assoc]

end Sys2Proof.Machine

/-! The steps of `PKT_WRITE` while powered (R168): to its first poll, from there to its second, and its ends. -/

namespace Sys2Proof.Machine

open Sys2Proof.Claims

/-- R168 steps 4 to 6 but for the poll: the enable read, its absence the fault, and the slot switched off. -/
def State.beginWrite (slot : Nat) (u : State) : State :=
  State.switchSlot slot false { u with
    fPktRamOff := u.fPktRamOff || !u.pktConfig.ramPacketEnable
    draws := u.draws + 1 }

theorem accepted_of_kindMatches {ty : Byte} {rec : Record} (hkind : KindMatches ty rec) :
    (acceptedType ty && kindMatches ty rec) = true := (accepts_iff ty rec).mpr hkind

theorem raisePktRamOff_unless (c : Bool) (u : State) :
    (if c then u else u.raisePktRamOff) = { u with fPktRamOff := u.fPktRamOff || !c } := by
  cases c <;> simp [State.raisePktRamOff]

/-- A `PKT_WRITE` at one of its steps after step 3, with its image made. -/
structure Run.IsWrite (ty : Byte) (rec : Record) (line : Nat) (r : Run) : Prop where
  op : r.op = .pktWrite ty rec
  line : r.line = line
  words : r.words = ramWords (packRecord rec)

/-- R168 steps 1 to 6, before the first poll. -/
theorem procSteps_pktWrite_begin {ty : Byte} {rec : Record} {slot : Nat} (hty : TypeSlot ty slot)
    (hkind : KindMatches ty rec) {u : State} (hon : u.powered = true) (hhard : u.hard.run = none) (p p' : Nat) :
    ∃ r, procSteps 7 (State.goOn .proc { op := .pktWrite ty rec, polls := p, polls2 := p' } u) =
      .next (State.goOn .proc r (u.beginWrite slot)) ∧ r.IsWrite ty rec 65 ∧ r.polls = p ∧ r.polls2 = p' := by
  obtain ⟨-, rfl, -⟩ := typeSlot_accepted hty
  have hcfg : readPktConfig u = (u.pktConfig, u.draw 1) := readPktConfig_of_powered hon
  have looked : procSteps 5 (State.goOn .proc { op := .pktWrite ty rec, polls := p, polls2 := p' } u) =
      .next (State.goOn .proc
        { op := .pktWrite ty rec, line := 63, cfg := u.pktConfig, words := ramWords (packRecord rec), polls := p,
          polls2 := p' }
        { u with fPktRamOff := u.fPktRamOff || !u.pktConfig.ramPacketEnable, draws := u.draws + 1 }) := by
    simp only [procSteps_goOn, hhard, State.draw_hard, stepRun, stepPktWrite, accepted_of_kindMatches hkind, if_true,
      Run.goto, andThen_next, goOn_goOn, readConfigStep, hcfg, readPktConfig_goOn, raisePktRamOff_unless]
    rfl
  have switched := procSteps_switchSlot (slot := slotOf ty) (b := false) (line' := 64) (line'' := 65)
    (r := { op := .pktWrite ty rec, line := 63, cfg := u.pktConfig, words := ramWords (packRecord rec), polls := p,
            polls2 := p' })
    (u := { u with fPktRamOff := u.fPktRamOff || !u.pktConfig.ramPacketEnable, draws := u.draws + 1 })
    (fun _ => rfl) (fun _ _ => rfl) hon hhard
  exact ⟨_, procSteps_add looked switched, ⟨rfl, rfl, rfl⟩, rfl, rfl⟩

/-- R168 step 8: one word of the image is stored, and the next one is up, or step 9. -/
theorem stepRun_pktWrite_store {ty : Byte} {rec : Record} {r : Run} (hop : r.op = .pktWrite ty rec)
    (hline : r.line = 8) (u : State) :
    stepRun r (State.goOn .proc r u) =
      .next (State.goOn .proc (if r.idx + 1 < r.words.length then { r with idx := r.idx + 1 } else r.goto 9)
        (writePacketRam (Config.slotWords * slotOf ty + r.idx) (r.words.getD r.idx 0) u)) := by
  simp only [stepRun, hop, stepPktWrite, hline, writePacketRam_goOn, goOn_goOn]

/-- The loop of step 8. -/
theorem procSteps_storeWords {ty : Byte} {rec : Record} (count : Nat) {r : Run} {u : State}
    (hop : r.op = .pktWrite ty rec) (hline : r.line = 8) (hcount : r.idx + (count + 1) = r.words.length)
    (hhard : u.hard.run = none) :
    procSteps (count + 1) (State.goOn .proc r u) =
      .next (State.goOn .proc { r with line := 9, idx := r.idx + count }
        (storeWords (slotOf ty) r.words (count + 1) r.idx u)) := by
  rw [procSteps_goOn hhard, stepRun_pktWrite_store hop hline, andThen_next]
  induction count generalizing r u with
  | zero =>
    rw [if_neg (by omega)]
    rfl
  | succ n ih =>
    have hhard' : (writePacketRam (Config.slotWords * slotOf ty + r.idx) (r.words.getD r.idx 0) u).hard.run = none := by
      rwa [writePacketRam_hard]
    rw [if_pos (by omega), procSteps_goOn hhard', stepRun_pktWrite_store (by exact hop) (by exact hline), andThen_next,
      ih (by exact hop) (by exact hline) (by dsimp only; omega) hhard', storeWords]
    simp only [show r.idx + 1 + n = r.idx + (n + 1) by omega]
    rfl

/-- R168 steps 8 to 10: the image of a record stored, and its slot switched on. -/
def State.written (slot : Nat) (words : List Word) (u : State) : State :=
  State.switchSlot slot true { u with
    packetRam := storedRam slot (storedWord words u.pktConfig.ramPacketEnable u.draws) words.length u.packetRam
    slotTorn := tornByWords (u.pktConfig.slotEn ||| u.slotSt) slot words.length u.slotTorn
    draws := u.draws + if u.pktConfig.ramPacketEnable then 0 else words.length }

/-- R168 step 7 where the Stop timed out and the variant aborts. -/
theorem finish_pktWrite_abort {ty : Byte} {rec : Record} {r : Run} {u : State} (hr : r.IsWrite ty rec 66)
    (htimedOut : r.timedOut = true) (habort : u.variant.onStopTimeout = .abort) (hhard : u.hard.run = none) :
    finish 2 .proc (State.goOn .proc r u) = .next (State.endWith .proc .eStopTimeout u) := by
  obtain ⟨hop, hline, -⟩ := hr
  rw [finish_goOn_proc hhard]
  simp only [stepRun, hop, stepPktWrite, hline, Run.goto, andThen_next, goOn_goOn]
  exact finish_last hhard (by simp [stepRun, stepPktWrite, htimedOut, habort])

section

variable {ty : Byte} {rec : Record} {slot : Nat} {r : Run} {u : State} (hty : TypeSlot ty slot)

include hty

/-- R168 step 6: the first poll finds the slot stopped. -/
theorem procSteps_pktWrite_stopFound (hr : r.IsWrite ty rec 65) (hon : u.powered = true) (hhard : u.hard.run = none)
    (hst : u.slotSt.getLsbD slot = false) :
    ∃ q, procSteps 1 (State.goOn .proc r u) = .next (State.goOn .proc q (u.draw 1)) ∧
      q.IsWrite ty rec 66 ∧ q.timedOut = false ∧ q.polls2 = r.polls2 := by
  obtain ⟨hop, hline, hwords⟩ := hr
  obtain ⟨-, rfl, -⟩ := typeSlot_accepted hty
  exact ⟨_, procSteps_pollFound (by simp only [stepRun, hop, stepPktWrite, hline]) hon hhard hst,
    ⟨hop, rfl, hwords⟩, rfl, rfl⟩

/-- R168 step 6 with no scheduler step: the wait for the stop times out. -/
theorem finish_pktWrite_stopTimeout {p : Nat} (hr : r.IsWrite ty rec 65) (hpolls : r.polls = p) (hon : u.powered = true)
    (hhard : u.hard.run = none) (hst : u.slotSt.getLsbD slot = true) :
    ∃ q, (∀ n, finish (n + max 1 p) .proc (State.goOn .proc r u) =
        finish n .proc (State.goOn .proc q (u.draw (max 1 p)))) ∧
      q.IsWrite ty rec 66 ∧ q.timedOut = true ∧ q.polls2 = r.polls2 := by
  obtain ⟨hop, hline, hwords⟩ := hr
  obtain ⟨-, rfl, -⟩ := typeSlot_accepted hty
  exact ⟨_, fun n => finish_pollTimeout (slot := slotOf ty) (want := false) (doneLine := 66) n p
    (fun _ _ => by simp only [stepRun, hop, stepPktWrite, hline]) hpolls hon hhard hst, ⟨hop, rfl, hwords⟩, rfl, rfl⟩

/-- R168 steps 6 (after its poll) to 10, where the Stop did not time out or the variant goes on after it, and the fault
of packet RAM off stands already: the image is written and the slot switched on. -/
theorem procSteps_pktWrite_written (hr : r.IsWrite ty rec 66)
    (hgoes : (r.timedOut && u.variant.onStopTimeout == .abort) = false) (hhard : u.hard.run = none)
    (hon : u.powered = true) (hfault : u.pktConfig.ramPacketEnable = false → u.fPktRamOff = true) :
    ∃ q, procSteps (4 + (ramWords (packRecord rec)).length) (State.goOn .proc r u) =
      .next (State.goOn .proc q (u.written slot (ramWords (packRecord rec)))) ∧
      q.IsWrite ty rec 11 ∧ q.polls = r.polls2 := by
  obtain ⟨hop, hline, hwords⟩ := hr
  obtain ⟨-, rfl, hlt⟩ := typeSlot_accepted hty
  obtain ⟨c, hlen, hc⟩ := ramWords_packRecord_length rec
  have stored := storeWords_eq (slotOf ty) r.words (count := c + 1) hon hfault (by omega)
  have checked : procSteps 2 (State.goOn .proc r u) = .next (State.goOn .proc { r with line := 8, idx := 0 } u) := by
    simp only [procSteps_goOn hhard, stepRun, hop, stepPktWrite, hline, Run.goto, andThen_next, goOn_goOn,
      State.goOn_variant, hgoes]
    rfl
  have looped := procSteps_storeWords c (r := { r with line := 8, idx := 0 }) hop rfl
    (by rw [hwords, hlen, Nat.zero_add]) hhard
  have switched := procSteps_switchSlot (slot := slotOf ty) (b := true) (line' := 10) (line'' := 11)
    (r := { r with line := 9, idx := 0 + c }) (q := { r with line := 9, idx := 0 + c, polls := r.polls2 })
    (u := storeWords (slotOf ty) r.words (c + 1) 0 u)
    (fun v => by simp only [stepRun, hop, stepPktWrite]) (fun cfg v => by simp only [stepRun, hop, stepPktWrite])
    (by rw [stored]; exact hon) (by rwa [storeWords_hard])
  have steps := procSteps_add checked (procSteps_add looped switched)
  rw [stored, hwords, ← hlen,
    show 2 + ((ramWords (packRecord rec)).length + 2) = 4 + (ramWords (packRecord rec)).length by omega] at steps
  exact ⟨_, steps, ⟨hop, rfl, rfl⟩, rfl⟩

/-- R168 steps 11 and 12 where the first poll finds the slot started. -/
theorem finish_pktWrite_started (hr : r.IsWrite ty rec 11) (hon : u.powered = true) (hhard : u.hard.run = none)
    (hst : u.slotSt.getLsbD slot = true) :
    finish 2 .proc (State.goOn .proc r u) = .next (State.endWith .proc .ok (u.draw 1)) := by
  obtain ⟨hop, hline, -⟩ := hr
  obtain ⟨-, rfl, -⟩ := typeSlot_accepted hty
  have found := procSteps_pollFound (slot := slotOf ty) (want := true) (doneLine := 12) (r := r)
    (by simp only [stepRun, hop, stepPktWrite, hline]) hon hhard hst
  rw [finish_procSteps (n := 1) found 1]
  exact finish_last hhard (by simp [stepRun, hop, stepPktWrite])

/-- R168 steps 11 and 12 with no scheduler step: the wait for the start times out. -/
theorem finish_pktWrite_startTimeout {p : Nat} (hr : r.IsWrite ty rec 11) (hpolls : r.polls = p)
    (hon : u.powered = true) (hhard : u.hard.run = none) (hst : u.slotSt.getLsbD slot = false) :
    finish (1 + max 1 p) .proc (State.goOn .proc r u) =
      .next (State.endWith .proc .eStartTimeout (u.draw (max 1 p))) := by
  obtain ⟨hop, hline, -⟩ := hr
  obtain ⟨-, rfl, -⟩ := typeSlot_accepted hty
  rw [finish_pollTimeout (slot := slotOf ty) (want := true) (doneLine := 12) 1 p
    (fun _ _ => by simp only [stepRun, hop, stepPktWrite, hline]) hpolls hon hhard hst]
  exact finish_last hhard (by simp [stepRun, hop, stepPktWrite])

end

end Sys2Proof.Machine

/-! What `PKT_WRITE` leaves: the torn flags (R43, R113, R170), and its updates by fields. -/

namespace Sys2Proof.Machine

open Sys2Proof.Claims

/-- R157, R170: the slots that the words of an image reach: its own, and the SPD image's tenth word slot 4. -/
theorem image_reaches_iff {ty : Byte} {rec : Record} {slot : Nat} (hty : TypeSlot ty slot)
    (hkind : KindMatches ty rec) (k : Nat) :
    (slot ≤ k ∧ 9 * k < 9 * slot + (ramWords (packRecord rec)).length) ↔ (k = slot ∨ (ty = 0x83#8 ∧ k = 4)) := by
  obtain ⟨havi, hspd, haudio, -⟩ := wordCountsOfTheImages
  cases rec with
  | avi r =>
    obtain rfl : ty = 0x82#8 := hkind
    obtain rfl : slot = 2 := by simpa [TypeSlot] using hty
    simp only [packRecord, havi r, show ¬(0x82#8 = 0x83#8) by decide, false_and, or_false]
    omega
  | spd r =>
    obtain rfl : ty = 0x83#8 := hkind
    obtain rfl : slot = 3 := by simpa [TypeSlot] using hty
    simp only [packRecord, (hspd r).left, true_and]
    omega
  | audio r =>
    obtain rfl : ty = 0x84#8 := hkind
    obtain rfl : slot = 4 := by simpa [TypeSlot] using hty
    simp only [packRecord, haudio r, show ¬(0x84#8 = 0x83#8) by decide, false_and, or_false]
    omega

/-- The torn flags after an image is written to a slot and the slot switched on, by the enable and status bits at the
write. -/
def tornByImage (en st torn : BitVec 16) (slot count : Nat) : BitVec 16 :=
  tornByWords (en ||| st) slot count torn &&& (setSlot en slot true ||| st)

/-- R43, R111, R113: an image tears its slot where it is live, and the SPD image slot 4. -/
theorem getLsbD_tornByImage {ty : Byte} {rec : Record} {slot : Nat} (hty : TypeSlot ty slot)
    (hkind : KindMatches ty rec) (en st torn : BitVec 16) {k : Nat} (hk : k < 16) :
    (tornByImage en st torn slot (ramWords (packRecord rec)).length).getLsbD k =
      ((torn.getLsbD k || ((en.getLsbD k || st.getLsbD k) && (k == slot || (ty == 0x83#8 && k == 4)))) &&
        (k == slot || (en.getLsbD k || st.getLsbD k))) := by
  have hreach : decide (slot ≤ k ∧ 9 * k < 9 * slot + (ramWords (packRecord rec)).length) =
      (k == slot || (ty == 0x83#8 && k == 4)) := by
    rw [Bool.eq_iff_iff, decide_eq_true_iff, image_reaches_iff hty hkind]
    simp
  rw [tornByImage, BitVec.getLsbD_and, getLsbD_tornByWords _ _ _ _ hk, hreach, BitVec.getLsbD_or, BitVec.getLsbD_or,
    getLsbD_setSlot_true _ _ hk, Bool.or_assoc]

section

variable {ty : Byte} {rec : Record} {slot : Nat} (hty : TypeSlot ty slot) (hkind : KindMatches ty rec)
  (en st torn : BitVec 16)

include hty hkind

/-- The slot of the image is torn where it was, and where it is live. -/
theorem getLsbD_tornByImage_self :
    (tornByImage en st torn slot (ramWords (packRecord rec)).length).getLsbD slot =
      (torn.getLsbD slot || (en.getLsbD slot || st.getLsbD slot)) := by
  obtain ⟨-, -, hslot⟩ := typeSlot_accepted hty
  rw [getLsbD_tornByImage hty hkind _ _ _ (by omega)]
  simp

/-- Another slot whose torn flag was cleared where it is stopped: only a live slot 4 can be torn, by the SPD image. -/
theorem getLsbD_tornByImage_other {k : Nat} (hk : k < 16) (hne : k ≠ slot) {b : Bool}
    (hmended : torn.getLsbD k = (b && (en.getLsbD k || st.getLsbD k))) :
    (tornByImage en st torn slot (ramWords (packRecord rec)).length).getLsbD k =
      ((en.getLsbD k || st.getLsbD k) && (b || (ty == 0x83#8 && k == 4))) := by
  rw [getLsbD_tornByImage hty hkind _ _ _ hk, hmended, beq_false_of_ne hne]
  cases en.getLsbD k || st.getLsbD k <;> simp

end

/-- The steps to the first poll, as one update. -/
theorem beginWrite_eq (slot : Nat) (u : State) :
    u.beginWrite slot = { u with
      pktConfig := { u.pktConfig with slotEn := setSlot u.pktConfig.slotEn slot false }
      slotTorn := u.slotTorn &&& (setSlot u.pktConfig.slotEn slot false ||| u.slotSt)
      fPktRamOff := u.fPktRamOff || !u.pktConfig.ramPacketEnable
      draws := u.draws + 1 + 1 } := rfl

/-- The image written and its slot switched on, as one update. -/
theorem written_eq (slot : Nat) (words : List Word) (u : State) :
    u.written slot words = { u with
      packetRam := storedRam slot (storedWord words u.pktConfig.ramPacketEnable u.draws) words.length u.packetRam
      pktConfig := { u.pktConfig with slotEn := setSlot u.pktConfig.slotEn slot true }
      slotTorn := tornByImage u.pktConfig.slotEn u.slotSt u.slotTorn slot words.length
      draws := u.draws + (if u.pktConfig.ramPacketEnable then 0 else words.length) + 1 } := rfl

section

variable (slot : Nat) (words : List Word) (u : State)

@[simp] theorem State.beginWrite_powered : (u.beginWrite slot).powered = u.powered := rfl
@[simp] theorem State.beginWrite_variant : (u.beginWrite slot).variant = u.variant := rfl
@[simp] theorem State.beginWrite_hard : (u.beginWrite slot).hard = u.hard := rfl
@[simp] theorem State.beginWrite_slotSt : (u.beginWrite slot).slotSt = u.slotSt := rfl
@[simp] theorem State.beginWrite_pktConfig : (u.beginWrite slot).pktConfig = u.pktConfig.withSlot slot false := rfl
@[simp] theorem State.beginWrite_fPktRamOff :
    (u.beginWrite slot).fPktRamOff = (u.fPktRamOff || !u.pktConfig.ramPacketEnable) := rfl
@[simp] theorem State.beginWrite_slotTorn :
    (u.beginWrite slot).slotTorn = u.slotTorn &&& (setSlot u.pktConfig.slotEn slot false ||| u.slotSt) := rfl
@[simp] theorem State.written_powered : (u.written slot words).powered = u.powered := rfl
@[simp] theorem State.written_hard : (u.written slot words).hard = u.hard := rfl
@[simp] theorem State.written_slotSt : (u.written slot words).slotSt = u.slotSt := rfl

end

/-- R168 step 5 raises the fault where packet RAM is off. -/
theorem beginWrite_fault (slot : Nat) (u : State) (h : (u.beginWrite slot).pktConfig.ramPacketEnable = false) :
    (u.beginWrite slot).fPktRamOff = true := by
  rw [State.beginWrite_pktConfig, PktConfig.withSlot_ramPacketEnable] at h
  simp [h]

end Sys2Proof.Machine

/-! `PKT_WRITE` run alone, and under the scheduler's plan: the composition of its parts. -/

namespace Sys2Proof.Machine

open Sys2Proof.Claims

/-- The slot is stopped before the first poll: by the scheduler where it was emitting (log 12). -/
theorem drive_stopSlot {ty : Byte} {slot : Nat} (hty : TypeSlot ty slot) {v : State} (hon : v.powered = true)
    (hen : v.pktConfig.slotEn.getLsbD slot = false)
    (htorn : v.slotSt.getLsbD slot = false → v.slotTorn.getLsbD slot = false)
    (ms : List Move) (r : Run) :
    drive .proc ((if v.slotSt.getLsbD slot then [Move.issue (0xC4000000 ||| BitVec.ofNat 32 slot) []] else []) ++ ms)
      (State.goOn .proc r v) = drive .proc ms (State.goOn .proc r (v.stopSlot slot)) := by
  obtain ⟨-, -, hslot⟩ := typeSlot_accepted hty
  cases hst : v.slotSt.getLsbD slot with
  | false => simp [stopSlot_self hst (htorn hst)]
  | true =>
    rw [if_pos rfl, List.singleton_append, drive,
      doMove_stopSlot (by omega) hon (decode_statusEvents hty).left hen hst, andThen_next]

section

variable {ty : Byte} {rec : Record} {slot : Nat} {s : State} (hty : TypeSlot ty slot) (hkind : KindMatches ty rec)

include hty hkind

/-- `PKT_WRITE` of a stopped slot run alone. -/
theorem alone_pktWrite_stopped (hs : ProcReady s) (hon : s.powered = true) (hst : s.slotSt.getLsbD slot = false) :
    execPktWrite ty rec s = .next (State.endWith .proc .eStartTimeout
      (((((s.draw 2).beginWrite slot).draw 1).written slot (ramWords (packRecord rec))).draw (polls s 1))) := by
  obtain ⟨hplan, hproc, hhard⟩ := hs
  obtain ⟨c, hlen, hc⟩ := ramWords_packRecord_length rec
  obtain ⟨r, began, hr, -, hpolls2⟩ := procSteps_pktWrite_begin hty hkind (u := s.draw 2) hon hhard
    (pollBound s.variant s.draws) (pollBound s.variant (s.draws + 1))
  obtain ⟨r', stopped, hr', hfound, hpolls2'⟩ := procSteps_pktWrite_stopFound hty (u := (s.draw 2).beginWrite slot) hr
    (by simpa using hon) (by simpa using hhard) (by simpa using hst)
  obtain ⟨q, wrote, hq, hpolls⟩ := procSteps_pktWrite_written hty (u := ((s.draw 2).beginWrite slot).draw 1) hr'
    (by rw [hfound, Bool.false_and]) (by simpa using hhard) (by simpa using hon) (beginWrite_fault slot (s.draw 2))
  rw [execPktWrite, polls_eq]
  refine runOp_alone_ends (n := 7 + (1 + (4 + (ramWords (packRecord rec)).length +
    (1 + max 1 (pollBound s.variant (s.draws + 1)))))) rfl hplan hproc (by simpa using hhard) ?_ (by omega)
  rw [firstRun, finish_procSteps began, finish_procSteps stopped, finish_procSteps wrote]
  exact finish_pktWrite_startTimeout hty hq (by rw [hpolls, hpolls2', hpolls2]) (by simpa using hon)
    (by simpa using hhard) (by simpa using hst)

section

variable (hs : ProcReady s) (hon : s.powered = true) (hst : s.slotSt.getLsbD slot = true)

include hs hon hst

/-- `PKT_WRITE` of an emitting slot run alone, under `ABORT`. -/
theorem alone_pktWrite_abort (habort : s.variant.onStopTimeout = .abort) :
    execPktWrite ty rec s =
      .next (State.endWith .proc .eStopTimeout (((s.draw 2).beginWrite slot).draw (polls s 0))) := by
  obtain ⟨hplan, hproc, hhard⟩ := hs
  obtain ⟨r, began, hr, hpolls, -⟩ := procSteps_pktWrite_begin hty hkind (u := s.draw 2) hon hhard
    (pollBound s.variant s.draws) (pollBound s.variant (s.draws + 1))
  obtain ⟨q, expired, hq, htimedOut, -⟩ := finish_pktWrite_stopTimeout hty (u := (s.draw 2).beginWrite slot) hr hpolls
    (by simpa using hon) (by simpa using hhard) (by simpa using hst)
  rw [execPktWrite, polls_eq, Nat.add_zero]
  refine runOp_alone_ends (n := 7 + (2 + max 1 (pollBound s.variant s.draws))) rfl hplan hproc (by simpa using hhard)
    ?_ (by omega)
  rw [firstRun, finish_procSteps began, expired]
  exact finish_pktWrite_abort hq htimedOut (by simpa using habort) (by simpa using hhard)

/-- `PKT_WRITE` of an emitting slot run alone, under `PROCEED`. -/
theorem alone_pktWrite_proceed (hproceed : s.variant.onStopTimeout = .proceed) :
    execPktWrite ty rec s = .next (State.endWith .proc .ok
      (((((s.draw 2).beginWrite slot).draw (polls s 0)).written slot (ramWords (packRecord rec))).draw 1)) := by
  obtain ⟨hplan, hproc, hhard⟩ := hs
  obtain ⟨c, hlen, hc⟩ := ramWords_packRecord_length rec
  obtain ⟨r, began, hr, hpolls, -⟩ := procSteps_pktWrite_begin hty hkind (u := s.draw 2) hon hhard
    (pollBound s.variant s.draws) (pollBound s.variant (s.draws + 1))
  obtain ⟨r', expired, hr', -, -⟩ := finish_pktWrite_stopTimeout hty (u := (s.draw 2).beginWrite slot) hr hpolls
    (by simpa using hon) (by simpa using hhard) (by simpa using hst)
  rw [execPktWrite, polls_eq, Nat.add_zero]
  obtain ⟨q, wrote, hq, -⟩ := procSteps_pktWrite_written hty
    (u := ((s.draw 2).beginWrite slot).draw (max 1 (pollBound s.variant s.draws))) hr'
    (by simp [hproceed]) (by simpa using hhard) (by simpa using hon) (beginWrite_fault slot (s.draw 2))
  refine runOp_alone_ends (n := 7 + (4 + (ramWords (packRecord rec)).length + 2 + max 1 (pollBound s.variant s.draws)))
    rfl hplan hproc (by simpa using hhard) ?_ (by omega)
  rw [firstRun, finish_procSteps began, expired, finish_procSteps wrote]
  exact finish_pktWrite_started hty hq (by simpa using hon) (by simpa using hhard) (by simpa using hst)

end

/-- `PKT_WRITE` under a plan in which the scheduler stops the slot, where it was emitting, before the first poll, and
takes it right after its enable. -/
theorem execPktWrite_planned
    (hplan : s.plan = List.replicate 7 (Move.advance .proc) ++
      (if s.slotSt.getLsbD slot then [Move.issue (0xC4000000 ||| BitVec.ofNat 32 slot) []] else []) ++
      List.replicate (5 + (ramWords (packRecord rec)).length) (Move.advance .proc) ++
      [Move.issue (0xC4000100 ||| BitVec.ofNat 32 slot) []])
    (hproc : s.proc.run = none) (hhard : s.hard.run = none) (hon : s.powered = true) :
    execPktWrite ty rec s = .next (State.endWith .proc .ok
      (((((((State.draw 2 { s with plan := [] }).beginWrite slot).stopSlot slot).draw 1).written slot
        (ramWords (packRecord rec))).startSlot slot).draw 1)) := by
  obtain ⟨-, -, hslot⟩ := typeSlot_accepted hty
  have hslot16 : slot < 16 := by omega
  generalize hu : State.draw 2 { s with plan := [] } = u
  have huon : u.powered = true := by rw [← hu]; exact hon
  have huhard : u.hard.run = none := by rw [← hu]; exact hhard
  have husts : s.slotSt = (u.beginWrite slot).slotSt := by rw [← hu, State.beginWrite_slotSt, State.draw_slotSt]
  have hoff : (u.beginWrite slot).pktConfig.slotEn.getLsbD slot = false :=
    (getLsbD_setSlot u.pktConfig.slotEn hslot16 false).trans (if_pos rfl)
  have hmended (hst : (u.beginWrite slot).slotSt.getLsbD slot = false) :
      (u.beginWrite slot).slotTorn.getLsbD slot = false := by
    rw [State.beginWrite_slotTorn, getLsbD_mended, StillTorn, getLsbD_setSlot_false _ _ hslot16]
    simpa using fun _ => hst
  have hstopped : ((u.beginWrite slot).stopSlot slot).slotSt.getLsbD slot = false :=
    (getLsbD_setSlot (u.beginWrite slot).slotSt hslot16 false).trans (if_pos rfl)
  obtain ⟨r, began, hr, -, -⟩ := procSteps_pktWrite_begin hty hkind huon huhard (pollBound s.variant s.draws)
    (pollBound s.variant (s.draws + 1))
  obtain ⟨r', found, hr', hfound, -⟩ := procSteps_pktWrite_stopFound hty hr
    (u := (u.beginWrite slot).stopSlot slot) (by simpa using huon) (by simpa using huhard) hstopped
  obtain ⟨q, wrote, hq, -⟩ := procSteps_pktWrite_written hty (u := ((u.beginWrite slot).stopSlot slot).draw 1) hr'
    (by rw [hfound, Bool.false_and]) (by simpa using huhard) (by simpa using huon) (beginWrite_fault slot u)
  rw [execPktWrite, runOp_planned rfl hproc, hplan, hu, firstRun, List.append_assoc, List.append_assoc,
    drive_advances began, husts, drive_stopSlot hty (by simpa using huon) hoff hmended,
    show 5 + (ramWords (packRecord rec)).length = 1 + (4 + (ramWords (packRecord rec)).length) by omega,
    drive_advances (procSteps_add found wrote), drive,
    doMove_startSlot hslot16 (by simpa using huon) (decode_statusEvents hty).right ?enabled ?stopped, andThen_next]
  case enabled => exact (getLsbD_setSlot _ hslot16 true).trans (if_pos rfl)
  case stopped => simpa using hstopped
  refine drive_last (n := 2) (finish_pktWrite_started hty hq (by simpa using huon) (by simpa using huhard) ?started)
    (by simpa using huhard) (by omega)
  case started => exact (getLsbD_setSlot _ hslot16 true).trans (if_pos rfl)

end

/-- The packet RAM after an image is stored over it, with packet RAM on or off. -/
theorem holdsImageOrDraws_storedRam {s : State} (hwf : Memory.wf s.packetRam = true) (rec : Record) (slot first : Nat) :
    HoldsImageOrDraws s (storedRam slot (storedWord (ramWords (packRecord rec)) s.pktConfig.ramPacketEnable first)
      (ramWords (packRecord rec)).length s.packetRam) rec slot first :=
  ⟨fun _ hk => readWord_storedRam hwf hk, fun _ ha => read_storedRam_other hwf ha⟩

/-- The packet RAM after an image is stored over it, with packet RAM on. -/
theorem holdsImage_storedRam {m : Memory} (hwf : Memory.wf m = true) (rec : Record) (slot first : Nat) :
    HoldsImage m (storedRam slot (storedWord (ramWords (packRecord rec)) true first)
      (ramWords (packRecord rec)).length m) rec slot :=
  ⟨fun _ hk => readWord_storedRam hwf hk, fun _ ha => read_storedRam_other hwf ha⟩

end Sys2Proof.Machine

/-! The three outcomes of `PKT_WRITE` (O39, O40, O41). -/

namespace Sys2Proof.Machine

open Sys2Proof.Claims

/-- The torn flags after an image is written to a slot that was stopped before, its torn flag clear: only a live slot 4
can be torn (R170). -/
theorem tornAfterWrite_of_stopped {ty : Byte} {rec : Record} {slot : Nat} {s : State} (hty : TypeSlot ty slot)
    (hkind : KindMatches ty rec) {st torn : BitVec 16}
    (hst : ∀ k, k < 16 → st.getLsbD k = (k != slot && s.slotSt.getLsbD k))
    (htorn : ∀ k, k < 16 → torn.getLsbD k = (k != slot && StillTorn s s.pktConfig.slotEn k)) :
    TornAfterWrite s ty slot
      (tornByImage (setSlot s.pktConfig.slotEn slot false) st torn slot (ramWords (packRecord rec)).length) := by
  intro k hk
  have hen := getLsbD_setSlot_false s.pktConfig.slotEn slot hk
  by_cases hself : k = slot
  · subst hself
    rw [getLsbD_tornByImage_self hty hkind, htorn k hk, hen, hst k hk]
    simp
  · have hother : (k != slot) = true := bne_iff_ne.mpr hself
    simp only [hother, Bool.true_and] at hen ⊢
    have hmended : torn.getLsbD k =
        (s.slotTorn.getLsbD k && ((setSlot s.pktConfig.slotEn slot false).getLsbD k || st.getLsbD k)) := by
      rw [htorn k hk, hen, hst k hk, hother, Bool.true_and, Bool.true_and, StillTorn]
    rw [getLsbD_tornByImage_other hty hkind _ _ _ hk hself hmended, hen, hst k hk, hother, Bool.true_and]

/-- A `PKT_WRITE` run alone that writes its image, as one update: `n` polls before the image and `n'` after it. -/
theorem written_beginWrite_eq (slot : Nat) (words : List Word) (n n' : Nat) (s : State) :
    ((((s.draw 2).beginWrite slot).draw n).written slot words).draw n' = { s with
      packetRam := storedRam slot (storedWord words s.pktConfig.ramPacketEnable (s.draws + 4 + n)) words.length
        s.packetRam
      pktConfig := { s.pktConfig with slotEn := setSlot (setSlot s.pktConfig.slotEn slot false) slot true }
      slotTorn := tornByImage (setSlot s.pktConfig.slotEn slot false) s.slotSt
        (s.slotTorn &&& (setSlot s.pktConfig.slotEn slot false ||| s.slotSt)) slot words.length
      fPktRamOff := s.fPktRamOff || !s.pktConfig.ramPacketEnable
      draws := s.draws + 4 + n + (if s.pktConfig.ramPacketEnable then 0 else words.length) + 1 + n' } := by
  simp only [State.draw, written_eq, beginWrite_eq]

/-- Settles O40: the slot is found stopped at once, the image written, and the slot never started. -/
theorem writeMayTimeOutAtTheStart : Obligations.WriteMayTimeOutAtTheStart := by
  intro ty rec slot s hty hkind hs hon hwf hst
  let en := setSlot s.pktConfig.slotEn slot false
  have alreadyStopped : ∀ k, k < 16 → s.slotSt.getLsbD k = (k != slot && s.slotSt.getLsbD k) := by
    intro k _
    by_cases hself : k = slot <;> simp [hself, hst]
  refine ⟨_, setSlot en slot true, tornByImage en s.slotSt (s.slotTorn &&& (en ||| s.slotSt)) slot
      (ramWords (packRecord rec)).length, (alone_pktWrite_stopped hty hkind hs hon hst).trans ?exec,
    holdsImageOrDraws_storedRam hwf rec slot (s.draws + 5), tornAfterWrite_of_stopped hty hkind alreadyStopped ?torn,
    fun k hk => getLsbD_setSlot_off_on s.pktConfig.slotEn slot hk⟩
  case exec =>
    have hdraws : s.draws + 6 + polls s 1 + wordDraws s rec = s.draws + 4 + 1 + wordDraws s rec + 1 + polls s 1 := by
      omega
    rw [hdraws, written_beginWrite_eq]
    rfl
  case torn =>
    intro k hk
    rw [getLsbD_mended, StillTorn, StillTorn, getLsbD_setSlot_false _ _ hk]
    by_cases hself : k = slot
    · simp [hself, hst]
    · rw [bne_iff_ne.mpr hself, Bool.true_and, Bool.true_and]

/-- Settles O41: under `ABORT` the slot is only switched off; under `PROCEED` the image is written to the live slot,
which the first poll of the start finds still emitting. -/
theorem writeWhoseStopTimesOut : Obligations.WriteWhoseStopTimesOut := by
  intro ty rec slot s hty hkind hs hon hst
  let en := setSlot s.pktConfig.slotEn slot false
  constructor
  case left =>
    intro habort
    refine ⟨en, s.slotTorn &&& (en ||| s.slotSt), (alone_pktWrite_abort hty hkind hs hon hst habort).trans ?exec,
      fun k hk => ⟨getLsbD_setSlot_false s.pktConfig.slotEn slot hk, getLsbD_mended s en k⟩⟩
    case exec =>
      generalize polls s 0 = n
      rw [State.draw, beginWrite_eq]
      rfl
  case right =>
    intro hproceed hwf
    refine ⟨_, setSlot en slot true, tornByImage en s.slotSt (s.slotTorn &&& (en ||| s.slotSt)) slot
        (ramWords (packRecord rec)).length, (alone_pktWrite_proceed hty hkind hs hon hst hproceed).trans ?exec,
      holdsImageOrDraws_storedRam hwf rec slot (s.draws + 4 + polls s 0),
      fun k hk => ⟨getLsbD_setSlot_off_on s.pktConfig.slotEn slot hk, ?torn⟩⟩
    case exec =>
      have hdraws : s.draws + 6 + polls s 0 + wordDraws s rec =
          s.draws + 4 + polls s 0 + wordDraws s rec + 1 + 1 := by omega
      rw [hdraws, written_beginWrite_eq]
      rfl
    case torn =>
      by_cases hself : k = slot
      · subst hself
        rw [getLsbD_tornByImage_self hty hkind, hst]
        simp
      · rw [getLsbD_tornByImage_other hty hkind _ _ _ hk hself (b := s.slotTorn.getLsbD k) (getLsbD_mended s en k),
          getLsbD_setSlot_false _ _ hk, beq_false_of_ne hself, bne_iff_ne.mpr hself, Bool.true_and, Bool.false_or]

/-- Settles O39: the slot is stopped before its words are stored, whoever stopped it, and started right after. -/
theorem writeEnablesTheNewContent : Obligations.WriteEnablesTheNewContent := by
  intro ty rec slot s hty hkind hplan hproc hhard hon hwf hram
  let en := setSlot s.pktConfig.slotEn slot false
  let st := setSlot s.slotSt slot false
  let torn := setSlot (s.slotTorn &&& (en ||| s.slotSt)) slot false
  refine ⟨_, setSlot en slot true, setSlot st slot true, tornByImage en st torn slot (ramWords (packRecord rec)).length,
    (execPktWrite_planned hty hkind hplan hproc hhard hon).trans ?exec,
    holdsImage_storedRam hwf rec slot (s.draws + 5),
    tornAfterWrite_of_stopped hty hkind (fun k hk => getLsbD_setSlot_false s.slotSt slot hk) ?torn,
    fun k hk => ⟨getLsbD_setSlot_off_on s.pktConfig.slotEn slot hk, getLsbD_setSlot_off_on s.slotSt slot hk⟩⟩
  case exec =>
    simp only [State.draw, State.startSlot, State.stopSlot, written_eq, beginWrite_eq, hram, Bool.not_true,
      Bool.or_false, if_true, Nat.add_zero]
    rfl
  case torn =>
    intro k hk
    rw [getLsbD_setSlot_false _ _ hk, getLsbD_mended, StillTorn, StillTorn, getLsbD_setSlot_false _ _ hk]
    by_cases hself : k = slot
    · simp [hself]
    · rw [bne_iff_ne.mpr hself, Bool.true_and, Bool.true_and, Bool.true_and]

end Sys2Proof.Machine

/-! Power lost and restored (O55). -/

namespace Sys2Proof.Machine

/-- A step on a power change sets the input with the feed after it. -/
theorem step_of_power {s : State} {on : Bool} {rest : List Item} (hfeed : s.feed = .power on :: rest) :
    step s = .next (State.setPower on { s with feed := rest }) := by
  unfold step
  rw [hfeed]

/-- R196: power lost, or kept on, writes the input alone. -/
theorem setPower_of_off_or_powered {on : Bool} {s : State} (h : on = false ∨ s.powered = true) :
    s.setPower on = { s with powered := on } := by
  cases on with
  | false => rfl
  | true =>
    have hon : s.powered = true := h.resolve_left nofun
    calc s.setPower true
      _ = s := if_pos hon
      _ = { s with powered := true } := by rw [← hon]

/-- R196, R197: power that comes back resets the block. -/
theorem setPower_true_of_unpowered {s : State} (hoff : s.powered = false) : s.setPower true = s.restorePower :=
  if_neg (Bool.eq_false_iff.mp hoff)

/-- R40 at reset: `tx_state` is TX_RESET exactly while `TX_SW_RESET` is set. -/
theorem reset_txReset_iff : State.reset.txState = .txReset ↔ State.reset.cntrl5.txSwReset = true :=
  iff_of_false nofun nofun

/-- R197: power restored clears the fault bits (log 5). -/
theorem restorePower_faulted (s : State) : s.restorePower.faulted = false := rfl

/-- Settles O55: a power change is `State.setPower`, which writes the input alone or gives each row of R197's table
the value `State.reset` names. -/
theorem powerChanges : Obligations.PowerChanges := by
  intro s on rest hfeed
  have hstep := step_of_power hfeed
  constructor
  case left =>
    intro h
    exact hstep.trans (congrArg Host.Outcome.next (setPower_of_off_or_powered h))
  case right =>
    rintro rfl hoff
    have hreset : step s = .next ({ s with feed := rest } : State).restorePower :=
      hstep.trans (congrArg Host.Outcome.next (setPower_true_of_unpowered hoff))
    exact ⟨_, hreset, rfl, fun _ hk => reset_slotTorn hk, reset_txReset_iff, Nat.zero_lt_two, le_rfl,
      Nat.one_le_ofNat, fun _ => rfl, restorePower_faulted _⟩

end Sys2Proof.Machine

/-! The hard handler between two steps of another operation (R135 b): it runs whole, and the operation goes on after
it. -/

namespace Sys2Proof.Machine

open Sys2Proof.Claims

/-- R142, RX path, by fields: what the hard handler leaves of a state in which a frame is held. -/
def State.takeFrame (u : State) : State :=
  { u with
    rxMsg :=
      { len := lengthOf u.cntrl1.recLen
        bytes := copiedData u.rxData (wordsFor (lengthOf u.cntrl1.recLen)) u.rxMsg.bytes }
    irqWasRx := true
    cntrl1 := { u.cntrl1 with clearReceiveOff := false, receiveOff := false }
    cntrl5 := { u.cntrl5 with rxCecInt := false }
    cpuStatus := false
    fMailboxOverrun := u.fMailboxOverrun || (u.mailboxFull && u.irqWasRx == true)
    mailboxFull := true
    draws := u.draws + 3 + wordsFor (lengthOf u.cntrl1.recLen) }

/-- R142, TX path, by fields: what the hard handler leaves of a state in which no frame is held. -/
def State.takeResult (u : State) : State :=
  { u with
    rxMsg := { u.rxMsg with len := 0 }
    irqWasRx := false
    txOk := u.cntrl1.txStatusGood
    cntrl1 := { u.cntrl1 with
      startXmitBegin := false
      receiveOff := u.cntrl1.receiveOff && !u.cntrl1.clearReceiveOff }
    fTxRegWhileBusy := u.fTxRegWhileBusy || (u.txState == .txBusy && u.cntrl1.startXmitBegin)
    txState := if u.cntrl1.startXmitBegin && u.txState == .txDone then .txIdle else u.txState
    cpuStatus := false
    fMailboxOverrun := u.fMailboxOverrun || (u.mailboxFull && u.irqWasRx == false)
    mailboxFull := true
    draws := u.draws + 3 }

section

variable (u : State)

@[simp] theorem State.takeResult_powered : u.takeResult.powered = u.powered := rfl
@[simp] theorem State.takeResult_txData : u.takeResult.txData = u.txData := rfl
@[simp] theorem State.takeResult_startXmitBegin : u.takeResult.cntrl1.startXmitBegin = false := rfl
@[simp] theorem State.takeResult_txState :
    u.takeResult.txState = if u.cntrl1.startXmitBegin && u.txState == .txDone then .txIdle else u.txState := rfl
@[simp] theorem State.takeResult_mailboxFull : u.takeResult.mailboxFull = true := rfl
@[simp] theorem State.takeResult_irqWasRx : u.takeResult.irqWasRx = false := rfl
@[simp] theorem State.takeResult_txOk : u.takeResult.txOk = u.cntrl1.txStatusGood := rfl

end

/-- What the hard handler leaves, by the kind of event it finds (R142 steps 7 and 8). -/
def State.takeEvent (u : State) : State := if u.cntrl5.rxCecInt then u.takeFrame else u.takeResult

theorem takeEvent_of_held {u : State} (h : u.cntrl5.rxCecInt = true) : u.takeEvent = u.takeFrame := if_pos h

theorem takeEvent_of_none {u : State} (h : u.cntrl5.rxCecInt = false) : u.takeEvent = u.takeResult :=
  if_neg (Bool.eq_false_iff.mp h)

theorem blind_takeEvent : Blind State.takeEvent := by
  intro a h s
  have hkind : (s.setAgent a h).cntrl5.rxCecInt = s.cntrl5.rxCecInt := by rw [State.setAgent_cntrl5]
  unfold State.takeEvent
  rw [hkind]
  cases s.cntrl5.rxCecInt <;> cases a <;> rfl

/-- R142 steps 8b to 8e by fields. -/
theorem mmioWrite_takeFrame {u : State} (hon : u.powered = true) {c : Cntrl1}
    (hbegin : c.startXmitBegin = u.cntrl1.startXmitBegin) (hlen : c.messageLength = u.cntrl1.messageLength)
    (count len : Nat) :
    mmioWrite (writeCntrl1 { c with clearReceiveOff := false })
        (mmioWrite (writeCntrl1 { c with clearReceiveOff := true }) ((copyWords count 0 u).setRxLen len)) =
      { u with
        rxMsg := { len := len, bytes := copiedData u.rxData count u.rxMsg.bytes }
        cntrl1 := { c.store u.cntrl1 with clearReceiveOff := false, receiveOff := false }
        cntrl5 := { u.cntrl5 with rxCecInt := false }
        draws := u.draws + count } := by
  rw [copyWords_eq _ hon, mmioWrite_pulseClear (by exact hon) (by exact hbegin) (by exact hlen)]
  rfl

section

variable {r : Run} {u : State} (hop : r.op = .cecIrqHard) (hon : u.powered = true)

include hop hon

/-- R142 steps 1 and 2 where the line is high: the handler goes on. -/
theorem finish_hard_goesOn {a : Agent} (hline : r.line = 1) (hstatus : u.cpuStatus = true) (hmask : u.cpuMask = false)
    (n : Nat) :
    finish (n + 2) a (State.goOn .hard r u) =
      finish n a (State.goOn .hard
        { r with line := 3, status := cpuStatusValue u, lineLow := !u.irqLine } (u.draw 1)) := by
  have hhigh : u.irqLine = true := by simp [State.irqLine, hstatus, hmask]
  have htakes :
      takesEvent { r with line := 2, status := cpuStatusValue u, lineLow := !u.irqLine } (u.draw 1) = true := by
    simp [takesEvent, cpuStatusValue, hstatus, hhigh]
  rw [finish_hard_1 (n := n + 1) hop hline, readCpuStatus_of_powered hon]
  exact finish_hard_2 (by exact hop) (by rfl) htakes

/-- R142 steps 3 to 7 while powered: two reads, and the kind of event kept. -/
theorem finish_hard_looks {a : Agent} (hline : r.line = 3) {wasRx : Bool} (hrx : u.cntrl5.rxCecInt = wasRx) (n : Nat) :
    finish (n + 5) a (State.goOn .hard r u) =
      finish n a (State.goOn .hard
        { r with
          line := 8
          c1 := cntrl1Value u
          c5 := cntrl5Value (u.draw 1)
          wasFull := u.mailboxFull
          wasRx := u.irqWasRx }
        { u with
          rxMsg := { u.rxMsg with len := 0 }
          irqWasRx := wasRx
          draws := u.draws + 2 }) := by
  rw [finish_hard_look hop hline, hardLook_powered hon, readCntrl1_of_powered (by exact hon),
    readCntrl5_of_powered (by exact hon), hrx]
  rfl

/-- R142 from its step 1: with the line high the hard handler takes the event it finds. -/
theorem finish_hardHandler (hline : r.line = 1) (hstatus : u.cpuStatus = true) (hmask : u.cpuMask = false) :
    finish 23 .hard (State.goOn .hard r u) = .next (State.endWith .hard .irqWakeThread u.takeEvent) := by
  rw [finish_hard_goesOn (n := 21) hop hon hline hstatus hmask]
  cases hrx : u.cntrl5.rxCecInt with
  | true =>
    rw [takeEvent_of_held hrx, finish_hard_looks (n := 16) (by exact hop) (by exact hon) (by rfl) (by exact hrx),
      finish_hard_rx (n := 0) (by exact hop) (by rfl) (by rfl), mmioWrite_takeFrame (by exact hon) (by rfl) (by rfl),
      hardFill_of_kind (by exact hon) (wasRx := true) (by rfl)]
    rfl
  | false =>
    rw [takeEvent_of_none hrx, finish_hard_looks (n := 16) (by exact hop) (by exact hon) (by rfl) (by exact hrx),
      finish_hard_tx (n := 0) (by exact hop) (by rfl) (by rfl),
      mmioWrite_endBegin (by exact hon) (by exact hrx) (by rfl),
      hardFill_of_kind (by exact hon) (wasRx := false) (by rfl)]
    rfl

end

/-- A step of the hard handler comes before every other agent's: once it has ended, the agent's operation goes on. -/
theorem finish_hard_first {n : Nat} {s t : State} (h : finish n .hard s = .next t) (hidle : t.hard.run = none)
    (a : Agent) (k : Nat) : ∃ j, k ≤ j ∧ finish (n + k) a s = finish j a t := by
  induction n generalizing s with
  | zero =>
    cases h
    exact ⟨k, le_rfl, by rw [Nat.zero_add]⟩
  | succ n ih =>
    cases hrun : s.hard.run with
    | none =>
      obtain rfl : s = t := by simpa [finish_done hrun (a := .hard) hrun] using h
      exact ⟨n + 1 + k, Nat.le_add_left _ _, rfl⟩
    | some r =>
      simp only [finish, hrun, Option.isSome_some, if_true] at h
      obtain ⟨u, hu, hrest⟩ := andThen_eq_next.mp h
      obtain ⟨j, hj, e⟩ := ih hrest
      refine ⟨j, hj, ?_⟩
      rw [Nat.succ_add, finish, hrun, Option.isSome_some, if_pos rfl, hu, andThen_next, e]

/-- R135 (b): the hard handler starts between two moves of a plan. -/
theorem doMove_hardHandler {s : State} (hidle : s.hard.run = none) (hstatus : s.cpuStatus = true)
    (hmask : s.cpuMask = false) :
    doMove (.issue 0x86000000 []) s = .next (State.goOn .hard (firstRun .cecIrqHard s) (s.draw 2)) := by
  have hdecode : decode 0x86000000 [] = .ok .cecIrqHard := decode_of_encode rfl rfl
  have hhigh : s.irqLine = true := by simp [State.irqLine, hstatus, hmask]
  have hbetween : issueBetween .cecIrqHard s = startOp .cecIrqHard s := by
    rw [issueBetween, hidle, Option.isSome_none, Bool.and_false, if_neg Bool.false_ne_true, beginInstr]
  rw [doMove, hdecode]
  exact hbetween.trans ((startOp_hard hidle (.inl hhigh)).trans (congrArg Host.Outcome.next (begin_eq _ s)))

section

variable {a : Agent} (ha : a ≠ .hard)

include ha

theorem goOn_hard_of_ne (q : Run) (v : State) : (State.goOn a q v).hard = v.hard := by
  cases a with
  | hard => exact absurd rfl ha
  | proc => rfl
  | thread => rfl

theorem agent_goOn_hard_of_ne (r : Run) (v : State) : (State.goOn .hard r v).agent a = v.agent a := by
  cases a with
  | hard => exact absurd rfl ha
  | proc => rfl
  | thread => rfl

theorem endWith_hard_goOn_of_ne (c : Code) (q : Run) (v : State) :
    State.endWith .hard c (State.goOn a q v) = State.goOn a q (State.endWith .hard c v) := by
  cases a with
  | hard => exact absurd rfl ha
  | proc => rfl
  | thread => rfl

/-- The hard handler under the last move of another agent's plan: it takes its event whole, and the operation goes on
with steps to spare. -/
theorem drive_hardHandler {v : State} (hidle : v.hard.run = none) (hon : v.powered = true)
    (hstatus : v.cpuStatus = true) (hmask : v.cpuMask = false) (q : Run) :
    ∃ j, 105 ≤ j ∧ drive a [.issue 0x86000000 []] (State.goOn a q v) =
      finish j a (State.goOn a q (State.endWith .hard .irqWakeThread (v.draw 2).takeEvent)) := by
  have hidle' : (State.goOn a q v).hard.run = none := by rw [goOn_hard_of_ne ha, hidle]
  obtain ⟨j, hj, hfirst⟩ := finish_hard_first (finish_hardHandler (r := firstRun .cecIrqHard (State.goOn a q v))
    (u := (State.goOn a q v).draw 2) rfl (by simpa using hon) rfl (by simpa using hstatus) (by simpa using hmask))
    rfl a (q.polls + q.polls2 + 105)
  have hsteps : stepsLeft a (State.goOn .hard (firstRun .cecIrqHard (State.goOn a q v)) ((State.goOn a q v).draw 2)) =
      23 + (q.polls + q.polls2 + 105) := by
    rw [stepsLeft, agent_goOn_hard_of_ne ha, draw_goOn, agent_goOn]
    dsimp only
    omega
  refine ⟨j, by omega, ?_⟩
  rw [drive, doMove_hardHandler hidle' (by simpa using hstatus) (by simpa using hmask), andThen_next, drive, hsteps,
    hfirst, draw_goOn, blind_takeEvent.goOn, endWith_hard_goOn_of_ne ha]

end

end Sys2Proof.Machine

/-! The logical address set across a transmit completion (O58). -/

namespace Sys2Proof.Machine

open Sys2Proof.Claims

/-- R92, R117: a write that sets the transmit-begin bit in `TX_IDLE` starts a transmit of the data words. -/
theorem writeCntrl1_of_starts {v : Cntrl1} {s : State} (hset : v.startXmitBegin = true)
    (hclear : s.cntrl1.startXmitBegin = false) (hidle : s.txState = .txIdle) :
    writeCntrl1 v s = { s with
      cntrl1 := { v.store s.cntrl1 with receiveOff := s.cntrl1.receiveOff && !v.clearReceiveOff }
      cntrl5 := { s.cntrl5 with rxCecInt := s.cntrl5.rxCecInt && !v.clearReceiveOff }
      txState := .txBusy
      txLen := lengthOf v.messageLength
      txBytes := s.txData
      txAttempt := 0 } := by
  rw [writeCntrl1_eq]
  simp [disturbsTransmit, beq_false_of_ne, hset, hclear, hidle]

section

variable {la : BitVec 4} {r : Run} {u : State} (hop : r.op = .cecSetLogAddr la) (hon : u.powered = true)
  (hidle : u.hard.run = none)

include hop hon hidle

/-- R140 step 1. -/
theorem procSteps_setLogAddr_read (hline : r.line = 1) :
    procSteps 1 (State.goOn .proc r u) =
      .next (State.goOn .proc { r with line := 2, c1 := cntrl1Value u } (u.draw 1)) := by
  have hread : stepRun r (State.goOn .proc r u) =
      .next (State.goOn .proc { r with line := 2, c1 := cntrl1Value u } (u.draw 1)) := by
    simp [stepRun, stepCecSetLogAddr, hop, hline, Run.goto, readCntrl1_of_powered hon]
  rw [procSteps_goOn hidle, hread]
  rfl

/-- R140 steps 2 and 3. -/
theorem finish_setLogAddr_write (hline : r.line = 2) :
    finish 2 .proc (State.goOn .proc r u) =
      .next (State.endWith .proc .ok (writeCntrl1 { r.c1 with addr := la } u)) := by
  have hwrite : stepRun r (State.goOn .proc r u) =
      .next (State.goOn .proc { r with line := 3 } (writeCntrl1 { r.c1 with addr := la } u)) := by
    simp [stepRun, stepCecSetLogAddr, hop, hline, Run.goto, mmioWrite_of_powered hon]
  rw [finish_goOn_proc hidle, hwrite, andThen_next]
  exact finish_last ((congrArg HostAgent.run ((blind_writeCntrl1 _).hard u)).trans hidle)
    (by simp [stepRun, stepCecSetLogAddr, hop])

/-- R209: the hard handler takes a result between the read and the write, which writes the transmit-begin bit read. -/
theorem drive_setLogAddr_raced (hline : r.line = 1) (hstatus : u.cpuStatus = true) (hmask : u.cpuMask = false)
    (hrx : u.cntrl5.rxCecInt = false) :
    drive .proc [.advance .proc, .issue 0x86000000 []] (State.goOn .proc r u) =
      .next (State.endWith .proc .ok (writeCntrl1 { cntrl1Value u with addr := la }
        (State.endWith .hard .irqWakeThread ((u.draw 1).draw 2).takeResult))) := by
  obtain ⟨j, hj, htaken⟩ := drive_hardHandler (a := .proc) nofun (v := u.draw 1) hidle hon hstatus hmask
    { r with line := 2, c1 := cntrl1Value u }
  rw [takeEvent_of_none (by exact hrx)] at htaken
  calc drive .proc [.advance .proc, .issue 0x86000000 []] (State.goOn .proc r u)
    _ = _ := drive_advances (procSteps_setLogAddr_read hop hon hidle hline) _
    _ = _ := htaken
    _ = _ := finish_within (finish_setLogAddr_write hop (by simpa using hon) (by rfl) rfl)
      (congrArg HostAgent.run ((blind_writeCntrl1 _).hard _)) (by omega)

end

/-- Settles O58: the handler ends the transmit and clears its begin bit, and the write sets the bit again. -/
theorem logicalAddressRace : Obligations.LogicalAddressRace := by
  intro la s hplan hproc hidle hon hdone hbegin hstatus hmask hrx
  have hraced := drive_setLogAddr_raced (r := firstRun (.cecSetLogAddr la) s) (u := State.draw 2 { s with plan := [] })
    rfl hon hidle rfl hstatus hmask hrx
  refine ⟨_, (runOp_planned rfl hproc).trans ((congrArg (drive .proc · _) hplan).trans hraced), ?_⟩
  rw [writeCntrl1_of_starts (by exact hbegin) (by simp) (by simp [hbegin, hdone])]
  simp [cntrl1Value, Cntrl1.store, hbegin, lengthOf, done]

end Sys2Proof.Machine

/-! A second event taken while the threaded handler reports the first (O60). -/

namespace Sys2Proof.Machine

open Sys2Proof.Claims

/-- An operation that may start, under its plan (log 12). -/
theorem runOp_started {op : HostOp} {s : State}
    (h : startOp op { s with plan := [] } = .next (State.begin op { s with plan := [] })) :
    runOp op s = drive op.agent s.plan (State.goOn op.agent (firstRun op s) (State.draw 2 { s with plan := [] })) := by
  rw [runOp, h, andThen_next, begin_eq]
  rfl

/-- Several upward events emitted, in their order (R136). -/
def State.emitAll (es : List UpEvent) (s : State) : State := { s with emitted := s.emitted ++ es }

theorem emitAll_singleton (e : UpEvent) (s : State) : State.emitAll [e] s = State.emit e s := rfl

theorem emitAll_nil (s : State) : State.emitAll [] s = s := by
  rw [State.emitAll, List.append_nil]

/-- R143 steps 2 and 3: what the threaded handler has still to report at the step it is at. -/
def Run.unreported (q : Run) : List UpEvent :=
  match q.line with
  | 2 => if q.txOk then [.txDone .ok 0 0 0 0] else [.txDone .nack 0 2 0 0]
  | 3 => [.txDone .nack 0 2 0 0]
  | _ => []

section

variable {q : Run}

theorem unreported_of_line_2 (hline : q.line = 2) :
    q.unreported = if q.txOk then [.txDone .ok 0 0 0 0] else [.txDone .nack 0 2 0 0] := by
  simp [Run.unreported, hline]

theorem unreported_of_line_3 (hline : q.line = 3) : q.unreported = [.txDone .nack 0 2 0 0] := by
  simp [Run.unreported, hline]

theorem unreported_of_line_4 (hline : q.line = 4) : q.unreported = [] := by
  simp [Run.unreported, hline]

end

section

variable {q : Run} {v : State} (hop : q.op = .cecIrqThread)

include hop

/-- R143 step 1: a message is reported, a result is kept for the steps 2 and 3. -/
theorem stepRun_thread_1 (hline : q.line = 1) :
    stepRun q (State.goOn .thread q v) =
      .next (if v.irqWasRx then State.goOn .thread { q with line := 4 } (v.emitAll (report v))
        else State.goOn .thread { q with line := 2, txOk := v.txOk } v) := by
  have hmessage : (State.goOn .thread q v).message = v.message := rfl
  cases hrx : v.irqWasRx with
  | false => simp [stepRun, stepCecIrqThread, hop, hline, hrx, Run.goto]
  | true =>
    by_cases hlen : 0 < v.rxMsg.len
    · have hreport : report v = [.rxDeliver v.message] := by rw [report, hrx, if_pos rfl, if_pos hlen, State.message]
      simp [stepRun, stepCecIrqThread, hop, hline, hrx, hlen, hmessage, Run.goto, hreport, emitAll_singleton]
    · have hreport : report v = [] := by rw [report, hrx, if_pos rfl, if_neg hlen]
      simp [stepRun, stepCecIrqThread, hop, hline, hrx, hlen, Run.goto, hreport, emitAll_nil]

/-- R143 step 2: a transmit that succeeded is reported. -/
theorem stepRun_thread_2 (hline : q.line = 2) :
    stepRun q (State.goOn .thread q v) =
      .next (if q.txOk then State.goOn .thread { q with line := 4 } (v.emitAll [.txDone .ok 0 0 0 0])
        else State.goOn .thread { q with line := 3 } v) := by
  cases hok : q.txOk <;> simp [stepRun, stepCecIrqThread, hop, hline, hok, Run.goto, emitAll_singleton]

/-- R143 step 3: a transmit that failed is reported. -/
theorem stepRun_thread_3 (hline : q.line = 3) :
    stepRun q (State.goOn .thread q v) =
      .next (State.goOn .thread { q with line := 4 } (v.emitAll [.txDone .nack 0 2 0 0])) := by
  simp [stepRun, stepCecIrqThread, hop, hline, Run.goto, emitAll_singleton]

variable (hidle : v.hard.run = none)

include hidle

/-- R143 steps 4 and 5: the mailbox is drained, whatever it holds by then (R207). -/
theorem finish_thread_drains (hline : q.line = 4) (n : Nat) :
    finish (n + 2) .thread (State.goOn .thread q v) =
      .next (State.endWith .thread .irqHandled (v.setMailbox false)) := by
  simp [finish_goOn_thread, finish_endWith_thread, stepRun, stepCecIrqThread, hop, hline, hidle, Run.goto]

/-- R143 from its step 2, 3 or 4 on: what is left to report is reported, and the mailbox is drained. -/
theorem finish_thread_rest (hline : q.line = 2 ∨ q.line = 3 ∨ q.line = 4) :
    finish 4 .thread (State.goOn .thread q v) = .next (State.endWith .thread .irqHandled
      ((v.emitAll q.unreported).setMailbox false)) := by
  obtain hline | hline | hline := hline
  · rw [finish_goOn_thread hidle, stepRun_thread_2 hop hline, andThen_next, unreported_of_line_2 hline]
    cases hok : q.txOk with
    | true => exact finish_thread_drains (by exact hop) (by exact hidle) (by rfl) 1
    | false =>
      rw [if_neg Bool.false_ne_true, finish_goOn_thread hidle, stepRun_thread_3 (by exact hop) (by rfl), andThen_next]
      exact finish_thread_drains (by exact hop) (by exact hidle) (by rfl) 0
  · rw [finish_goOn_thread hidle, stepRun_thread_3 hop hline, andThen_next, unreported_of_line_3 hline]
    exact finish_thread_drains (by exact hop) (by exact hidle) (by rfl) 1
  · rw [finish_thread_drains hop hidle hline, unreported_of_line_4 hline, emitAll_nil]

omit hop in
/-- A move of a plan that is the threaded handler's. -/
theorem drive_threadStep {t : State} (hstep : stepRun q (State.goOn .thread q v) = .next t) (ms : List Move) :
    drive .thread (.advance .thread :: ms) (State.goOn .thread q v) = drive .thread ms t := by
  have hadvance : advance .thread (State.goOn .thread q v) = .next t :=
    (advance_eq_stepRun (s := State.goOn .thread q v) (.inr hidle) rfl).trans hstep
  rw [drive, doMove, hadvance, andThen_next]

/-- R207: the places between step 1 and step 4 of the threaded handler; what is reported there and what is left to
report make up the event that step 1 found. -/
theorem drive_thread_place (hline : q.line = 1) {k : Nat} (hpos : 1 ≤ k)
    (hk : k ≤ if v.irqWasRx then 1 else if v.txOk then 2 else 3) (ms : List Move) :
    ∃ (q' : Run) (es : List UpEvent), q'.op = .cecIrqThread ∧ (q'.line = 2 ∨ q'.line = 3 ∨ q'.line = 4) ∧
      es ++ q'.unreported = report v ∧
      drive .thread (List.replicate k (.advance .thread) ++ ms) (State.goOn .thread q v) =
        drive .thread ms (State.goOn .thread q' (v.emitAll es)) := by
  obtain ⟨k, rfl⟩ := Nat.exists_eq_add_of_le' hpos
  rw [List.replicate_succ, List.cons_append, drive_threadStep hidle (stepRun_thread_1 hop hline)]
  cases hrx : v.irqWasRx with
  | true =>
    obtain rfl : k = 0 := by simpa [hrx] using hk
    exact ⟨{ q with line := 4 }, _, hop, .inr (.inr rfl), List.append_nil _, rfl⟩
  | false =>
    have hreport : report v = if v.txOk then [.txDone .ok 0 0 0 0] else [.txDone .nack 0 2 0 0] := by simp [report, hrx]
    rw [if_neg Bool.false_ne_true, hreport]
    obtain _ | k := k
    · exact ⟨{ q with line := 2, txOk := v.txOk }, [], hop, .inl rfl, rfl, by rw [emitAll_nil]; rfl⟩
    rw [List.replicate_succ, List.cons_append, drive_threadStep hidle (stepRun_thread_2 (by exact hop) (by rfl))]
    cases hok : v.txOk with
    | true =>
      obtain rfl : k = 0 := by simpa [hrx, hok] using hk
      exact ⟨{ q with line := 4, txOk := true }, _, hop, .inr (.inr rfl), List.append_nil _, rfl⟩
    | false =>
      rw [if_neg Bool.false_ne_true, if_neg Bool.false_ne_true]
      obtain _ | k := k
      · exact ⟨{ q with line := 3, txOk := false }, [], hop, .inr (.inl rfl), rfl, by rw [emitAll_nil]; rfl⟩
      rw [List.replicate_succ, List.cons_append, drive_threadStep hidle (stepRun_thread_3 (by exact hop) (by rfl))]
      obtain rfl : k = 0 := by
        rw [hrx, hok] at hk
        simp at hk
        omega
      exact ⟨{ q with line := 4, txOk := false }, _, hop, .inr (.inr rfl), List.append_nil _, rfl⟩

end

/-- Settles O60: the steps after the hard handler's report what step 1 found, and step 4 drains the mailbox that the
hard handler has filled again. -/
theorem secondEventIsDropped : Obligations.SecondEventIsDropped := by
  intro k s hpos hk hplan hthread hidle hon hfull hstatus hmask
  obtain ⟨q, es, hop, hline, hall, hplace⟩ := drive_thread_place (q := firstRun .cecIrqThread s)
    (v := State.draw 2 { s with plan := [] }) rfl hidle rfl hpos hk [.issue 0x86000000 []]
  obtain ⟨j, hj, htaken⟩ := drive_hardHandler (a := .thread) nofun
    (v := (State.draw 2 { s with plan := [] }).emitAll es) hidle hon hstatus hmask q
  have hrest := finish_more (finish_thread_rest (v := State.endWith .hard .irqWakeThread
    (State.draw 2 ((State.draw 2 { s with plan := [] }).emitAll es)).takeEvent) hop rfl hline) rfl rfl (j - 4)
  rw [Nat.add_sub_of_le (by omega)] at hrest
  refine ⟨_, (runOp_started (startOp_thread hthread hfull)).trans ((congrArg (drive .thread · _) hplan).trans
    (hplace.trans (htaken.trans hrest))), ?_⟩
  have hreport : es ++ q.unreported = report s := hall
  cases hrx : s.cntrl5.rxCecInt with
  | true =>
    rw [takeEvent_of_held (by exact hrx)]
    simp [State.takeFrame, State.emitAll, hreport, hfull, lengthOf, done]
  | false =>
    rw [takeEvent_of_none (by exact hrx)]
    simp [State.takeResult, State.emitAll, hreport, hfull, done]

end Sys2Proof.Machine

/-! An event between two steps of the hard handler, at any of several places (R205): where it passes every step between
them, each place ends as the last one does. -/

namespace Sys2Proof.Machine

open Sys2Proof.Claims

/-- The move `m` is the event `e` in the state `u`, whatever step the hard handler is at. -/
def Comes (m : Move) (e : State → State) (u : State) : Prop :=
  ∀ r : Run, doMove m (State.goOn .hard r u) = .next (State.goOn .hard r (e u))

/-- The event `e` of the move `m` passes the next `n` steps of the hard handler, which lead from the record `r` and the
state `u` to `q` and `v`: it may come at each place, and each step is the same with the event before it or after it. -/
inductive Passes (m : Move) (e : State → State) : Nat → Run → State → Run → State → Prop
  | here {r : Run} {u : State} (hcomes : Comes m e u) : Passes m e 0 r u r u
  | step {n : Nat} {r r' q : Run} {u u' v : State} (hcomes : Comes m e u)
      (hstep : finish 1 .hard (State.goOn .hard r u) = .next (State.goOn .hard r' u'))
      (hpast : finish 1 .hard (State.goOn .hard r (e u)) = .next (State.goOn .hard r' (e u')))
      (hrest : Passes m e n r' u' q v) : Passes m e (n + 1) r u q v

theorem advance_of_finish_one {r : Run} {u t : State} (h : finish 1 .hard (State.goOn .hard r u) = .next t) :
    advance .hard (State.goOn .hard r u) = .next t := by
  rw [finish_goOn_hard] at h
  obtain ⟨w, hw, hnil⟩ := andThen_eq_next.mp h
  cases hnil
  exact hw

/-- Log 12: the moves of a plan that are the hard handler's, while it runs. -/
theorem drive_hardSteps {n : Nat} {s u : State} {r : Run} (h : finish n .hard s = .next (State.goOn .hard r u))
    (ms : List Move) :
    drive .hard (List.replicate n (.advance .hard) ++ ms) s = drive .hard ms (State.goOn .hard r u) := by
  induction n generalizing s with
  | zero =>
    cases h
    rfl
  | succ n ih =>
    cases hrun : s.hard.run with
    | none =>
      rw [finish_done (a := .hard) hrun hrun] at h
      cases h
      cases hrun
    | some r' =>
      simp only [finish, hrun, Option.isSome_some, if_true] at h
      obtain ⟨w, hw, hrest⟩ := andThen_eq_next.mp h
      rw [List.replicate_succ, List.cons_append, drive, doMove, hw, andThen_next, ih hrest]

namespace Passes

variable {m : Move} {e : State → State} {n n' : Nat} {r q q' : Run} {u v v' : State}

theorem trans (h : Passes m e n r u q v) (h' : Passes m e n' q v q' v') : Passes m e (n' + n) r u q' v' := by
  induction h with
  | here _ => exact h'
  | step hcomes hstep hpast _ ih => exact .step hcomes hstep hpast (ih h')

/-- The event before all the steps: they lead to where it comes after them. -/
theorem finish_past (h : Passes m e n r u q v) (k : Nat) :
    finish (k + n) .hard (State.goOn .hard r (e u)) = finish k .hard (State.goOn .hard q (e v)) := by
  induction h with
  | here _ => rfl
  | step _ _ hpast _ ih =>
    rw [← Nat.add_assoc, finish_goOn_hard, ← ih]
    exact congrArg (Result.andThen · _) (advance_of_finish_one hpast)

theorem comes (h : Passes m e n r u q v) : Comes m e u := by
  cases h with
  | here hcomes => exact hcomes
  | step hcomes _ _ _ => exact hcomes

/-- One step. -/
theorem one (hu : Comes m e u) (hv : Comes m e v)
    (hstep : finish 1 .hard (State.goOn .hard r u) = .next (State.goOn .hard q v))
    (hpast : finish 1 .hard (State.goOn .hard r (e u)) = .next (State.goOn .hard q (e v))) : Passes m e 1 r u q v :=
  .step hu hstep hpast (.here hv)

/-- The event at any of the places ends as at the last one. -/
theorem drive_anywhere (h : Passes m e n r u q v) {N : Nat} {t : State}
    (hend : finish N .hard (State.goOn .hard q (e v)) = .next t) (hidle : t.hard.run = none) (hN : N + n ≤ 128)
    {k : Nat} (hk : k ≤ n) :
    drive .hard (List.replicate k (.advance .hard) ++ [m]) (State.goOn .hard r u) = .next t := by
  induction k generalizing n r u with
  | zero =>
    have hpast : finish (N + n) .hard (State.goOn .hard r (e u)) = .next t := (h.finish_past N).trans hend
    obtain ⟨extra, hextra⟩ := Nat.exists_eq_add_of_le (show N + n ≤ r.polls + r.polls2 + 128 by omega)
    rw [List.replicate_zero, List.nil_append, drive, h.comes, andThen_next, drive, stepsLeft, agent_goOn]
    dsimp only
    rw [hextra]
    exact finish_more hpast hidle hidle extra
  | succ k ih =>
    cases h with
    | here _ => omega
    | step _ hstep _ hrest =>
      rw [List.replicate_succ, List.cons_append, drive, doMove, advance_of_finish_one hstep, andThen_next]
      exact ih hrest (by omega) (by omega)

end Passes

/-- R142 steps 6 to 8: an event that writes neither the mailbox nor the kind of event passes the classification. -/
theorem passes_classify {m : Move} {e : State → State} {r : Run} {u : State} (hop : r.op = .cecIrqHard)
    (hline : r.line = 6) {wasRx : Bool} (hkind : r.c5.rxCecInt = wasRx) (hcomes : Comes m e u)
    (hcomes' : Comes m e (u.setWasRx wasRx)) (hfull : (e u).mailboxFull = u.mailboxFull)
    (hwas : (e u).irqWasRx = u.irqWasRx) (hset : (e u).setWasRx wasRx = e (u.setWasRx wasRx)) :
    Passes m e 3 r u { r with line := if wasRx then 81 else 91, wasFull := u.mailboxFull, wasRx := u.irqWasRx }
      (u.setWasRx wasRx) := by
  subst hkind
  have classified : (e (u.setWasRx r.c5.rxCecInt)).irqWasRx = r.c5.rxCecInt := by rw [← hset, State.setWasRx_irqWasRx]
  refine .step (r' := { r with line := 7, wasFull := u.mailboxFull, wasRx := u.irqWasRx }) (u' := u) hcomes
    (finish_hard_6 (n := 0) hop hline) ?mailbox ?_
  case mailbox => rw [finish_hard_6 (n := 0) hop hline, hfull, hwas]; rfl
  refine .step (r' := { r with line := 8, wasFull := u.mailboxFull, wasRx := u.irqWasRx })
    (u' := u.setWasRx r.c5.rxCecInt) hcomes (finish_hard_7 (n := 0) (by exact hop) (by rfl)) ?kept ?_
  case kept => rw [finish_hard_7 (n := 0) (by exact hop) (by rfl), hset]; rfl
  refine .one hcomes' hcomes' (finish_hard_8 (n := 0) (by exact hop) (by rfl)) ?_
  rw [finish_hard_8 (n := 0) (by exact hop) (by rfl), classified]
  rfl

end Sys2Proof.Machine

/-! A frame between two steps of the hard handler's TX path (O59). -/

namespace Sys2Proof.Machine

open Sys2Proof.Claims

/-- R72: an engine event is no step of a host agent, so the hard handler does not hold it back. -/
theorem doMove_event {i : Instr} {d : Word} {beside : List Byte} (hdecode : decode d beside = .ok i)
    (hevent : isHostStep i = false) (s : State) : doMove (.issue d beside) s = beginInstr i s := by
  rw [doMove, hdecode]
  dsimp only
  rw [issueBetween, hevent, Bool.false_and, if_neg Bool.false_ne_true]

/-- R76, R78: a frame that completes, as a move of a plan. -/
def frameMove (frame : List Byte) : Move := .issue (0xC2000000 ||| BitVec.ofNat 32 (frame.length - 1)) frame

/-- R76, R78: the descriptor of a frame. -/
theorem decode_rxFrame {frame : List Byte} (hpos : 1 ≤ frame.length) (hmax : frame.length ≤ 16) :
    decode (0xC2000000 ||| BitVec.ofNat 32 (frame.length - 1)) frame = .ok (.evRxFrame frame) := by
  have hword : ∀ n < 16, evWord 0x02 (BitVec.ofNat 24 n) = 0xC2000000 ||| BitVec.ofNat 32 n := by decide
  refine decode_of_encode (by simp [Instr.wf, Config.cecMaxLen, hpos, hmax]) ?_
  rw [encode, descriptor, hword _ (by omega)]
  rfl

theorem blind_rxComplete (frame : List Byte) : Blind (State.rxComplete frame) := by
  intro a h s
  cases a <;> rfl

/-- The transmit-begin bit cleared before or after a frame: the clear-bit is not written, so the frame stays held. -/
theorem writeCntrl1_rxComplete {c : Cntrl1} (hbegin : c.startXmitBegin = false) (hclear : c.clearReceiveOff = false)
    (frame : List Byte) (u : State) :
    writeCntrl1 c (u.rxComplete frame) = State.rxComplete frame (writeCntrl1 c u) := by
  rw [writeCntrl1_of_clearsBegin hbegin, writeCntrl1_of_clearsBegin hbegin, hclear]
  simp [State.rxComplete, Cntrl1.store, disturbsTransmit, hclear]

section

variable {frame : List Byte} (hpos : 1 ≤ frame.length) (hmax : frame.length ≤ 16)

include hpos hmax

/-- R126: a frame completes between two moves of a plan. -/
theorem comes_rxFrame {u : State} (hon : u.powered = true) (hlistens : u.rxEnabled = true) :
    Comes (frameMove frame) (State.rxComplete frame) u := by
  intro r
  have hlistens' : (State.goOn .hard r u).rxEnabled = true := by simpa [State.rxEnabled] using hlistens
  rw [frameMove, doMove_event (decode_rxFrame hpos hmax) rfl, beginInstr, execEvRxFrame_of_length hpos hmax,
    event_of_powered (by simpa using hon), if_pos hlistens', (blind_rxComplete frame).goOn]

/-- R205: on the TX path nothing after the read of `CEC_CNTRL_5` looks at what a frame writes. -/
theorem passes_rxFrame {r : Run} {u v : State} (hop : r.op = .cecIrqHard) (hline : r.line = 6)
    (hkind : r.c5.rxCecInt = false) (hclear : r.c1.clearReceiveOff = false) (hon : u.powered = true)
    (hlistens : u.rxEnabled = true)
    (hv : v = mmioWrite (writeCntrl1 { r.c1 with startXmitBegin := false })
      ((u.setWasRx false).setTxOk r.c1.txStatusGood)) :
    Passes (frameMove frame) (State.rxComplete frame) 5 r u
      { r with line := 10, wasFull := u.mailboxFull, wasRx := u.irqWasRx } v := by
  have hcomes {w : State} (hon : w.powered = true) (hlistens : w.rxEnabled = true) :
      Comes (frameMove frame) (State.rxComplete frame) w := comes_rxFrame hpos hmax hon hlistens
  rw [mmioWrite_of_powered (by exact hon)] at hv
  have hlast : v.powered = true ∧ v.rxEnabled = true := by
    rw [hv, writeCntrl1_of_clearsBegin rfl]
    refine ⟨hon, ?_⟩
    simp only [rxEnabled_iff] at hlistens ⊢
    simp [Cntrl1.store, hclear, hlistens]
  refine (passes_classify hop hline hkind (hcomes hon hlistens) (hcomes hon hlistens) rfl rfl rfl).trans (n' := 2)
    (.step (u' := (u.setWasRx false).setTxOk r.c1.txStatusGood) (hcomes hon hlistens)
      (finish_hard_91 (n := 0) (by exact hop) (by rfl)) (finish_hard_91 (n := 0) (by exact hop) (by rfl))
      (.one (hcomes hon hlistens) (hcomes hlast.left hlast.right) ?before ?past))
  case before =>
    rw [finish_hard_92 (n := 0) (by exact hop) (by rfl), mmioWrite_of_powered (by exact hon), hv]
    rfl
  case past =>
    rw [finish_hard_92 (n := 0) (by exact hop) (by rfl), mmioWrite_of_powered (by exact hon),
      writeCntrl1_rxComplete (by rfl) (by exact hclear), hv]
    rfl

end

section

variable {r : Run} {u : State} (hop : r.op = .cecIrqHard) (hline : r.line = 1) (hon : u.powered = true)
  (hstatus : u.cpuStatus = true) (hmask : u.cpuMask = false)

include hop hline hon hstatus hmask

/-- R142 steps 1 to 4 with the line high. -/
theorem finish_hard_toSecondRead {a : Agent} (n : Nat) :
    finish (n + 4) a (State.goOn .hard r u) =
      finish n a (State.goOn .hard
        { r with line := 5, status := cpuStatusValue u, lineLow := !u.irqLine, c1 := cntrl1Value (u.draw 1) }
        { u with rxMsg := { u.rxMsg with len := 0 }, draws := u.draws + 2 }) := by
  rw [finish_hard_goesOn (n := n + 2) hop hon hline hstatus hmask, finish_hard_3 (n := n + 1) (by exact hop) (by rfl),
    finish_hard_4 (by exact hop) (by rfl), readCntrl1_of_powered (by exact hon)]
  rfl

/-- R205: a frame that completes between the classifying read and step 10 ends as one that completes after the handler,
but for the status bit, which step 10 clears. -/
theorem drive_rxFrame_anywhere {frame : List Byte} (hpos : 1 ≤ frame.length) (hmax : frame.length ≤ 16)
    (hrx : u.cntrl5.rxCecInt = false) (hclear : u.cntrl1.clearReceiveOff = false) (hlistens : u.rxEnabled = true)
    {k : Nat} (hfrom : 5 ≤ k) (hto : k ≤ 10) :
    drive .hard (List.replicate k (.advance .hard) ++ [frameMove frame]) (State.goOn .hard r u) =
      .next (State.endWith .hard .irqWakeThread { u.takeResult.rxComplete frame with cpuStatus := false }) := by
  obtain ⟨j, rfl⟩ := Nat.exists_eq_add_of_le hfrom
  have hreads := finish_hard_toSecondRead (a := .hard) hop hline hon hstatus hmask 1
  rw [finish_hard_5 (n := 0) (by exact hop) (by rfl), readCntrl5_of_powered (by exact hon)] at hreads
  have hpasses := passes_rxFrame hpos hmax (r := { r with
      line := 6
      status := cpuStatusValue u
      lineLow := !u.irqLine
      c1 := cntrl1Value (u.draw 1)
      c5 := cntrl5Value { u with rxMsg := { u.rxMsg with len := 0 }, draws := u.draws + 2 } })
    (u := { u with rxMsg := { u.rxMsg with len := 0 }, draws := u.draws + 3 }) (by exact hop) rfl (by exact hrx)
    (by exact hclear) hon hlistens rfl
  rw [List.replicate_add, List.append_assoc, drive_hardSteps hreads]
  refine hpasses.drive_anywhere (N := 4) ((finish_hard_fill (n := 0) (by exact hop) (by rfl)).trans ?_) (by rfl)
    (by omega) (by omega)
  rw [mmioWrite_endBegin (by exact hon) (by exact hrx) (by rfl),
    hardFill_of_kind (by exact hon) (wasRx := false) (by rfl)]
  rfl

end

end Sys2Proof.Machine

/-! A transmit that completes between two steps of the hard handler's RX path (O59). -/

namespace Sys2Proof.Machine

open Sys2Proof.Claims

/-- R76: the end of a transmit's attempt, as a move of a plan. -/
def attemptMove (acked : Bool) : Move := .issue (0xC1000000 ||| (BitVec.ofBool acked).setWidth 32) []

theorem decode_attempt (acked : Bool) :
    decode (0xC1000000 ||| (BitVec.ofBool acked).setWidth 32) [] = .ok (.evTxAttempt acked) := by
  cases acked <;> exact decode_of_encode rfl rfl

/-- R119, R120: the attempt that ends a transmit. -/
def State.endTransmit (acked : Bool) (s : State) : State :=
  State.txComplete acked { s with txAttempt := s.txAttempt + 1 }

/-- R119: an attempt whose end completes the transmit in progress. -/
def LastAttempt (acked : Bool) (s : State) : Prop :=
  s.powered = true ∧ s.txState = .txBusy ∧ (acked = true ∨ s.txAttempt + 1 = 2)

theorem txAttemptEnds_of_last {acked : Bool} {s : State} (h : LastAttempt acked s) :
    s.txAttemptEnds acked = s.endTransmit acked := by
  obtain ⟨-, -, hlast⟩ := h
  cases acked with
  | true => rfl
  | false => exact if_pos (hlast.resolve_left nofun)

theorem blind_endTransmit (acked : Bool) : Blind (State.endTransmit acked) := by
  intro a h s
  cases a <;> rfl

section

variable {acked : Bool} {r : Run} {u : State}

theorem comes_endTransmit (h : LastAttempt acked u) : Comes (attemptMove acked) (State.endTransmit acked) u := by
  obtain ⟨hon, hbusy, hlast⟩ := h
  intro r
  have hends : LastAttempt acked (State.goOn .hard r u) := 
    ⟨by simpa using hon, by simpa using hbusy, by simpa using hlast⟩
  rw [attemptMove, doMove_event (decode_attempt acked) rfl, beginInstr, execEvTxAttempt,
    event_of_powered hends.left, if_pos hends.right.left, txAttemptEnds_of_last hends, (blind_endTransmit acked).goOn]

/-- R118: a write that keeps what the transmit has latched, before its end or after it. -/
theorem writeCntrl1_endTransmit {c : Cntrl1} (hbegin : c.startXmitBegin = u.cntrl1.startXmitBegin)
    (hlen : c.messageLength = u.cntrl1.messageLength) :
    writeCntrl1 c (u.endTransmit acked) = State.endTransmit acked (writeCntrl1 c u) := by
  rw [writeCntrl1_of_keepsTransmit (by exact hbegin) (by exact hlen), writeCntrl1_of_keepsTransmit hbegin hlen]
  rfl

theorem lastAttempt_writeCntrl1 {c : Cntrl1} (h : LastAttempt acked u)
    (hbegin : c.startXmitBegin = u.cntrl1.startXmitBegin) (hlen : c.messageLength = u.cntrl1.messageLength) :
    LastAttempt acked (writeCntrl1 c u) := by
  rw [writeCntrl1_of_keepsTransmit hbegin hlen]
  exact h

/-- R92: the two fields that a transmit latches from are stored. -/
theorem writeCntrl1_stores (c : Cntrl1) (u : State) :
    (writeCntrl1 c u).cntrl1.startXmitBegin = c.startXmitBegin ∧
    (writeCntrl1 c u).cntrl1.messageLength = c.messageLength := by
  rw [writeCntrl1_eq]
  exact ⟨rfl, rfl⟩

variable (hop : r.op = .cecIrqHard) (hlast : LastAttempt acked u)

include hop hlast

/-- R206: with the status bit set before it, the end of a transmit passes the steps 1 to 3. -/
theorem passes_endTransmit_begin (hline : r.line = 1) (hstatus : u.cpuStatus = true) (hmask : u.cpuMask = false) :
    Passes (attemptMove acked) (State.endTransmit acked) 3 r u
      { r with line := 4, status := cpuStatusValue u, lineLow := !u.irqLine } ((u.draw 1).setRxLen 0) := by
  have hon : u.powered = true := hlast.left
  have hvalue : cpuStatusValue (u.endTransmit acked) = cpuStatusValue u := by
    rw [cpuStatusValue, cpuStatusValue, hstatus]
    rfl
  have hlow : (u.endTransmit acked).irqLine = u.irqLine := by
    simp [State.irqLine, State.endTransmit, State.txComplete, hstatus]
  let r2 : Run := { r with line := 2, status := cpuStatusValue u, lineLow := !u.irqLine }
  have htakes (w : State) : takesEvent r2 w = true := by
    simp [r2, takesEvent, cpuStatusValue, State.irqLine, hstatus, hmask]
  refine .step (r' := r2) (u' := u.draw 1)
    (comes_endTransmit hlast) ?before ?past
    (.step (comes_endTransmit hlast) (finish_hard_2 (n := 0) (by exact hop) (by rfl) (htakes _))
      (finish_hard_2 (n := 0) (by exact hop) (by rfl) (htakes _))
    (.one (comes_endTransmit hlast) (comes_endTransmit hlast) (finish_hard_3 (n := 0) (by exact hop) (by rfl))
      (finish_hard_3 (n := 0) (by exact hop) (by rfl))))
  case before =>
    rw [finish_hard_1 (n := 0) hop hline, readCpuStatus_of_powered hon]
    rfl
  case past =>
    rw [finish_hard_1 (n := 0) hop hline, readCpuStatus_of_powered (by exact hon), hvalue, hlow]
    rfl

omit hlast in
/-- R142 step 8b, one word. -/
theorem finish_hard_82 {a : Agent} (hline : r.line = 82) (n : Nat) :
    finish (n + 1) a (State.goOn .hard r u) =
      finish n a (State.goOn .hard
        (if r.idx + 1 < wordsFor (lengthOf r.c1.recLen) then { r with idx := r.idx + 1 } else { r with line := 83 })
        (copyWords 1 r.idx u)) := by
  simp [finish_goOn_hard, stepRun, stepCecIrqHard, hop, hline, Run.goto, copyWords]

omit hop in
theorem lastAttempt_copyWords (count i : Nat) : LastAttempt acked (copyWords count i u) := by
  rw [copyWords_powered _ _ hlast.left]
  exact hlast

omit hop in
theorem copyWords_endTransmit (count i : Nat) :
    copyWords count i (u.endTransmit acked) = State.endTransmit acked (copyWords count i u) := by
  rw [copyWords_powered _ _ hlast.left, copyWords_powered _ _ (by exact hlast.left)]
  rfl

/-- R206: the end of a transmit passes the loop of step 8b. -/
theorem passes_endTransmit_copyWords (hline : r.line = 82) {count : Nat}
    (hcount : r.idx + (count + 1) = wordsFor (lengthOf r.c1.recLen)) :
    Passes (attemptMove acked) (State.endTransmit acked) (count + 1) r u
      { r with line := 83, idx := r.idx + count } (copyWords (count + 1) r.idx u) := by
  have hword := comes_endTransmit (lastAttempt_copyWords hlast 1 r.idx)
  induction count generalizing r u with
  | zero =>
    have hend : ¬r.idx + 1 < wordsFor (lengthOf r.c1.recLen) := by omega
    refine .one (comes_endTransmit hlast) hword ?_ ?_
    · rw [finish_hard_82 (n := 0) hop hline, if_neg hend]
      rfl
    · rw [finish_hard_82 (n := 0) hop hline, if_neg hend, copyWords_endTransmit hlast]
      rfl
  | succ count ih =>
    have hmore : r.idx + 1 < wordsFor (lengthOf r.c1.recLen) := by omega
    have hlast' := lastAttempt_copyWords hlast 1 r.idx
    have hrest := ih (r := { r with idx := r.idx + 1 }) (by exact hop) hlast' (by exact hline) (by dsimp only; omega)
      (comes_endTransmit (lastAttempt_copyWords hlast' 1 (r.idx + 1)))
    rw [show r.idx + 1 + count = r.idx + (count + 1) by omega] at hrest
    refine .step (comes_endTransmit hlast) ?_ ?_ hrest
    · rw [finish_hard_82 (n := 0) hop hline, if_pos hmore]
      rfl
    · rw [finish_hard_82 (n := 0) hop hline, if_pos hmore, copyWords_endTransmit hlast]
      rfl

/-- R206: the end of a transmit passes the steps 5 to 8a of the RX path. -/
theorem passes_endTransmit_look (hline : r.line = 5) (hrx : u.cntrl5.rxCecInt = true) :
    Passes (attemptMove acked) (State.endTransmit acked) 5 r u
      { r with line := 82, idx := 0, c5 := cntrl5Value u, wasFull := u.mailboxFull, wasRx := u.irqWasRx }
      ((u.draw 1).setWasRx true) := by
  have hon : u.powered = true := hlast.left
  let r6 : Run := { r with line := 6, c5 := cntrl5Value u }
  have classify := passes_classify (r := r6) (u := u.draw 1) hop rfl (wasRx := true) hrx (comes_endTransmit hlast)
    (comes_endTransmit hlast) rfl rfl rfl
  refine .step (r' := r6) (u' := u.draw 1) (comes_endTransmit hlast) ?before ?past
    (classify.trans (n' := 1) (.one (comes_endTransmit hlast) (comes_endTransmit hlast)
      (finish_hard_81 (n := 0) (by exact hop) (by rfl)) (finish_hard_81 (n := 0) (by exact hop) (by rfl))))
  case before =>
    rw [finish_hard_5 (n := 0) hop hline, readCntrl5_of_powered hon]
    rfl
  case past =>
    rw [finish_hard_5 (n := 0) hop hline, readCntrl5_of_powered (by exact hon)]
    rfl

/-- R206: the end of a transmit passes the steps 8c to 8e, which keep the transmit-begin bit and the length. -/
theorem passes_endTransmit_clear (hline : r.line = 83) (hbegin : r.c1.startXmitBegin = u.cntrl1.startXmitBegin)
    (hlen : r.c1.messageLength = u.cntrl1.messageLength) :
    Passes (attemptMove acked) (State.endTransmit acked) 3 r u { r with line := 10 }
      (mmioWrite (writeCntrl1 { r.c1 with clearReceiveOff := false })
        (mmioWrite (writeCntrl1 { r.c1 with clearReceiveOff := true }) (u.setRxLen (lengthOf r.c1.recLen)))) := by
  let taken : State := u.setRxLen (lengthOf r.c1.recLen)
  let written : State := writeCntrl1 { r.c1 with clearReceiveOff := true } taken
  obtain ⟨hbegin', hlen'⟩ := writeCntrl1_stores { r.c1 with clearReceiveOff := true } taken
  have hlast' : LastAttempt acked written :=
    lastAttempt_writeCntrl1 (by exact hlast) (by exact hbegin) (by exact hlen)
  have hlast'' : LastAttempt acked (writeCntrl1 { r.c1 with clearReceiveOff := false } written) :=
    lastAttempt_writeCntrl1 hlast' hbegin'.symm hlen'.symm
  rw [mmioWrite_of_powered (s := State.setRxLen _ u) (by exact hlast.left),
    mmioWrite_of_powered (by exact hlast'.left)]
  refine .step (comes_endTransmit hlast) (finish_hard_83 (n := 0) hop hline) (finish_hard_83 (n := 0) hop hline)
    (.step (r' := { r with line := 85 }) (u' := written) (comes_endTransmit hlast) ?set ?setPast
    (.one (comes_endTransmit hlast') (comes_endTransmit hlast'') ?clear ?clearPast))
  case set =>
    rw [finish_hard_84 (n := 0) (by exact hop) (by rfl), mmioWrite_of_powered (by exact hlast.left)]
    rfl
  case setPast =>
    rw [finish_hard_84 (n := 0) (by exact hop) (by rfl), mmioWrite_of_powered (by exact hlast.left),
      writeCntrl1_endTransmit (by exact hbegin) (by exact hlen)]
    rfl
  case clear =>
    rw [finish_hard_85 (n := 0) (by exact hop) (by rfl), mmioWrite_of_powered (by exact hlast'.left)]
    rfl
  case clearPast =>
    rw [finish_hard_85 (n := 0) (by exact hop) (by rfl), mmioWrite_of_powered (by exact hlast'.left),
      writeCntrl1_endTransmit (by exact hbegin'.symm) (by exact hlen'.symm)]
    rfl

/-- R206: the end of a transmit passes the RX path from the step after the read of `CEC_CNTRL_1` to step 10. -/
theorem passes_endTransmit_rx (hline : r.line = 5) (hrx : u.cntrl5.rxCecInt = true)
    (hbegin : r.c1.startXmitBegin = u.cntrl1.startXmitBegin) (hlen : r.c1.messageLength = u.cntrl1.messageLength) :
    ∃ q : Run, q.op = .cecIrqHard ∧ q.line = 10 ∧ q.wasFull = u.mailboxFull ∧ q.wasRx = u.irqWasRx ∧
      Passes (attemptMove acked) (State.endTransmit acked) (8 + wordsFor (lengthOf r.c1.recLen)) r u q
        (mmioWrite (writeCntrl1 { r.c1 with clearReceiveOff := false })
          (mmioWrite (writeCntrl1 { r.c1 with clearReceiveOff := true })
            ((copyWords (wordsFor (lengthOf r.c1.recLen)) 0 ((u.draw 1).setWasRx true)).setRxLen
              (lengthOf r.c1.recLen)))) := by
  obtain ⟨count, hcount⟩ : ∃ count, wordsFor (lengthOf r.c1.recLen) = count + 1 :=
    ⟨wordsFor (lengthOf r.c1.recLen) - 1, by unfold wordsFor lengthOf; omega⟩
  let r82 : Run :=
    { r with line := 82, idx := 0, c5 := cntrl5Value u, wasFull := u.mailboxFull, wasRx := u.irqWasRx }
  let looked : State := (u.draw 1).setWasRx true
  have hcopied : (copyWords (count + 1) 0 looked).cntrl1 = u.cntrl1 := by
    rw [copyWords_powered _ _ (by exact hlast.left)]
    rfl
  have look := passes_endTransmit_look hop hlast hline hrx
  have copy := passes_endTransmit_copyWords (r := r82) (u := looked) hop hlast rfl (count := count)
    (by rw [Nat.zero_add]; exact hcount.symm)
  have clear := passes_endTransmit_clear (r := { r82 with line := 83, idx := 0 + count })
    (u := copyWords (count + 1) 0 looked) hop (lastAttempt_copyWords (by exact hlast) _ _) rfl
    (by rw [hcopied]; exact hbegin) (by rw [hcopied]; exact hlen)
  rw [hcount, show 8 + (count + 1) = 3 + (count + 1) + 5 by omega]
  exact ⟨{ r82 with line := 10, idx := 0 + count }, hop, rfl, rfl, rfl, look.trans (copy.trans clear)⟩

end

end Sys2Proof.Machine

/-! A cause that sets the status bit while the hard handler runs (O59). -/

namespace Sys2Proof.Machine

open Sys2Proof.Claims

/-- An operation of the hard handler under its plan, with the line high (log 12). -/
theorem execCecIrqHard_planned {s : State} (hidle : s.hard.run = none) (hstatus : s.cpuStatus = true)
    (hmask : s.cpuMask = false) :
    exec .cecIrqHard s =
      drive .hard s.plan (State.goOn .hard (firstRun .cecIrqHard s) (State.draw 2 { s with plan := [] })) :=
  runOp_started (startOp_hard hidle (.inl (by simp [State.irqLine, hstatus, hmask])))

section

variable {acked : Bool} {r : Run} {u : State} (hop : r.op = .cecIrqHard) (hline : r.line = 1)
  (hlast : LastAttempt acked u) (hrx : u.cntrl5.rxCecInt = true) (hstatus : u.cpuStatus = true)
  (hmask : u.cpuMask = false)

include hop hline hlast hrx hstatus hmask

/-- R206: a transmit that ends before the read of `CEC_CNTRL_1` ends as if before the handler. -/
theorem drive_endTransmit_early {k : Nat} (hk : k ≤ 3) :
    drive .hard (List.replicate k (.advance .hard) ++ [attemptMove acked]) (State.goOn .hard r u) =
      .next (State.endWith .hard .irqWakeThread (u.endTransmit acked).takeFrame) := by
  have hpasses := passes_endTransmit_begin hop hlast hline hstatus hmask
  have hafter := finish_hardHandler (u := u.endTransmit acked) hop hlast.left hline rfl hmask
  rw [takeEvent_of_held (by exact hrx)] at hafter
  exact hpasses.drive_anywhere ((hpasses.finish_past 20).symm.trans hafter) rfl (by omega) hk

/-- R206: a transmit that ends after the read of `CEC_CNTRL_1` and before step 10 ends as if before the handler. -/
theorem drive_endTransmit_late {k : Nat} (hfrom : 4 ≤ k) (hto : k ≤ 12 + wordsFor (lengthOf u.cntrl1.recLen)) :
    drive .hard (List.replicate k (.advance .hard) ++ [attemptMove acked]) (State.goOn .hard r u) =
      .next (State.endWith .hard .irqWakeThread (u.endTransmit acked).takeFrame) := by
  have hon : u.powered = true := hlast.left
  have hmax : wordsFor (lengthOf u.cntrl1.recLen) ≤ 4 := by
    have hlen := lengthOf_le u.cntrl1.recLen
    unfold wordsFor
    omega
  let u5 : State := { u with rxMsg := { u.rxMsg with len := 0 }, draws := u.draws + 2 }
  let r5 : Run := { r with line := 5, status := cpuStatusValue u, lineLow := !u.irqLine, c1 := cntrl1Value (u.draw 1) }
  obtain ⟨q, hqop, hqline, hfull, hwas, hpasses⟩ := passes_endTransmit_rx (r := r5) (u := u5) hop hlast rfl hrx rfl rfl
  obtain ⟨j, rfl⟩ := Nat.exists_eq_add_of_le hfrom
  rw [List.replicate_add, List.append_assoc,
    drive_hardSteps (finish_hard_toSecondRead (n := 0) hop hline hon hstatus hmask)]
  refine hpasses.drive_anywhere (N := 4) ((finish_hard_fill (n := 0) hqop hqline).trans ?_) rfl ?steps ?place
  case steps =>
    show 4 + (8 + wordsFor (lengthOf u.cntrl1.recLen)) ≤ 128
    omega
  case place =>
    show j ≤ 8 + wordsFor (lengthOf u.cntrl1.recLen)
    omega
  have hlooked : (u5.draw 1).setWasRx true =
      { u with rxMsg := { u.rxMsg with len := 0 }, irqWasRx := true, draws := u.draws + 3 } := rfl
  rw [hlooked, mmioWrite_takeFrame (by exact hon) (by rfl) (by rfl), hfull, hwas,
    hardFill_of_kind (by exact hon) (wasRx := true) (by rfl)]
  rfl

/-- R205, R206: a transmit that ends at any place of the RX path before step 10 ends as if before the handler, whose run
is not for it. -/
theorem drive_endTransmit_anywhere {k : Nat} (hto : k ≤ 12 + wordsFor (lengthOf u.cntrl1.recLen)) :
    drive .hard (List.replicate k (.advance .hard) ++ [attemptMove acked]) (State.goOn .hard r u) =
      .next (State.endWith .hard .irqWakeThread (u.endTransmit acked).takeFrame) := by
  by_cases hk : k ≤ 3
  · exact drive_endTransmit_early hop hline hlast hrx hstatus hmask hk
  · exact drive_endTransmit_late hop hline hlast hrx hstatus hmask (Nat.lt_of_not_le hk) hto

end

/-- Settles O59: a frame is held with the status bit cleared after it; a transmit that ends is as one that ended before
the handler, which took the frame alone. -/
theorem causeDuringTheHandlerGetsNoRun : Obligations.CauseDuringTheHandlerGetsNoRun := by
  constructor
  case left =>
    intro frame k s hpos hmax hfrom hto hplan hidle hon hstatus hmask hrx hreset hoff hclear
    have hlistens : s.rxEnabled = true := (rxEnabled_iff s).mpr ⟨hreset, hoff, hclear⟩
    have hdrive := drive_rxFrame_anywhere (r := firstRun .cecIrqHard s) (u := State.draw 2 { s with plan := [] }) rfl
      rfl hon hstatus hmask hpos hmax hrx hclear hlistens hfrom hto
    refine ⟨_, (execCecIrqHard_planned hidle hstatus hmask).trans ((congrArg (drive .hard · _) hplan).trans hdrive),
      rfl, rfl, rfl, rfl, rfl, rfl, fun i hi => ?data, fun later hlater hlater' => ?held⟩
    case data => exact (Bytes16.at_frameBytes frame _ (by omega)).trans (if_pos hi)
    case held =>
      exact (execEvRxFrame_of_length hlater hlater' _).trans
        ((event_of_powered (by exact hon) _).trans (if_neg (by simp [State.rxEnabled, State.rxComplete])))
  case right =>
    intro acked k s hto hplan hidle hon hstatus hmask hrx hbusy hbegin hlast
    have hdrive := drive_endTransmit_anywhere (r := firstRun .cecIrqHard s) (u := State.draw 2 { s with plan := [] })
      rfl rfl ⟨hon, hbusy, hlast⟩ hrx hstatus hmask hto
    exact ⟨_, (execCecIrqHard_planned hidle hstatus hmask).trans ((congrArg (drive .hard · _) hplan).trans hdrive),
      rfl, hbegin, rfl, rfl, rfl, rfl, rfl, rfl, rfl, rfl⟩

end Sys2Proof.Machine
